-- ==== Sys2Proof/Word.lean ====
section
/-! DEFINITION. The two word types of GLZ: a byte of a memory (20_memory.md R60) and a 32-bit register word
(10_state.md R21). Everything else the spec counts or addresses with is an unbounded natural (00_scope.md R10). -/

namespace Sys2Proof

/-- One byte of a memory: 8 bits (20_memory.md R60). -/
abbrev Byte := BitVec 8

/-- One register as the host reads and writes it: a 32-bit word (10_state.md R21). -/
abbrev Word := BitVec 32

end Sys2Proof
end

