-- ==== Sys2Proof/Config.lean ====
section
/-! DEFINITION. What one GLZ fixes: the constants of 00_scope.md R7, the four address spaces (10_state.md R40), the parameters
of a machine (00_scope.md R8, 20_memory.md R69), and the free values the spec leaves open. -/

namespace Sys2Proof

/-- `MAX_CODES = 4096`: codes lie in 0 .. 4095 (00_scope.md R7). -/
def maxCodes : Nat := 4096

/-- `MAX_WIDTH = 12`: the largest code width (00_scope.md R7). -/
def maxWidth : Nat := 12

/-- The four memories, each an address space of its own (10_state.md R40). -/
inductive Space where
  | src   -- code streams and palettes, read-only to GLZ (R41)
  | dst   -- the compressor's output, write-only to GLZ (R42)
  | idx   -- symbols, one per byte (R43)
  | pix   -- the canvas, four bytes a pixel (R44)
  deriving DecidableEq, Repr

/-- The parameters of one machine (00_scope.md R8, 20_memory.md R61 and R69): the sizes in bytes of the four memories, with
the bounds R8 gives them (SRC_SIZE and IDX_SIZE at most 2^32, DST_SIZE at most 2^32 - 1, PIX_SIZE at most 2^34), and the
address GLZ_BASE of the register block. GLZ changes none of them; the host can provide a larger DST (44_host_container.md
R254). -/
structure Config where
  srcSize : Fin 4294967297
  dstSize : Fin 4294967296
  idxSize : Fin 4294967297
  pixSize : Fin 17179869185
  glzBase : Nat
  deriving DecidableEq, Repr

/-- The size in bytes of one memory (10_state.md R40). -/
def Config.size (c : Config) : Space → Nat
  | .src => c.srcSize.val
  | .dst => c.dstSize.val
  | .idx => c.idxSize.val
  | .pix => c.pixSize.val

/-- DESIGN CHOICE (log entries 2 and 3): the parameters of the machine `State.reset` stands for. 4096 bytes is the size
95_test_vectors.md section 6 gives its programs; statements range over every `Config`. -/
def Config.standard : Config where
  srcSize := ⟨4096, by decide⟩
  dstSize := ⟨4096, by decide⟩
  idxSize := ⟨4096, by decide⟩
  pixSize := ⟨4096, by decide⟩
  glzBase := 0

/-- FREE VALUE (93_implementation_defined.md U2, U3; log entry 5): what the host sees in a byte that nothing has written. It
has no body, so nothing can be proved of it beyond that reading the byte again gives the same value (20_memory.md R68). -/
opaque Config.unwrittenByte : Space → Nat → Byte

/-- FREE VALUE (log entry 16): a count register when the count does not fit its 32 bits, in states no run reaches. -/
opaque Config.countBeyondRegister : Nat → Word

end Sys2Proof
end

