-- ==== Sys2Proof/Syntax.lean ====
section
/-! DEFINITION. The instructions of GLZ (00_scope.md R2): the seven commands the host writes to CMD and the six kinds of LZW
code the decompressor interprets; the rows of spec/opcode_table.json. -/

namespace Sys2Proof

/-- One instruction. The rows LIT, CLEAR and EOI stand in the table once for each minimum code size m of 2 to 8 (formats
CODE_M2 to CODE_M8); here m is their operand. The classes REF, KWK and INVALID carry the code's 12-bit value. -/
inductive Instr where
  | compress                               -- COMPRESS      43_commands.md R223
  | decompress                             -- DECOMPRESS    43_commands.md R224
  | blitBgra                               -- BLIT_BGRA     43_commands.md R226
  | blitRgba                               -- BLIT_RGBA     43_commands.md R226
  | decblitBgra                            -- DECBLIT_BGRA  43_commands.md R229
  | decblitRgba                            -- DECBLIT_RGBA  43_commands.md R229
  | reset                                  -- RESET         43_commands.md R231
  | lit (m : Nat) (symbol : Byte)          -- LIT           41_lzw_decompress.md R161
  | clear (m : Nat)                        -- CLEAR         41_lzw_decompress.md R157
  | eoi (m : Nat)                          -- EOI           41_lzw_decompress.md R158
  | ref (code : BitVec 12)                 -- REF           41_lzw_decompress.md R162
  | kwk (code : BitVec 12)                 -- KWK           41_lzw_decompress.md R163
  | invalid (code : BitVec 12)             -- INVALID       41_lzw_decompress.md R164
  deriving DecidableEq, Repr

/-- An instruction as GLZ receives it: a word written to CMD (30_encoding.md R90), or the value of a code taken from the code
stream, zero-extended to 12 bits (30_encoding.md R96, R97). -/
inductive Encoded where
  | command (word : Word)
  | code (value : BitVec 12)
  deriving DecidableEq, Repr

/-- What decides the class of a code besides its value (30_encoding.md R97): the minimum code size, the decompressor's next
code, and whether a previous data code exists. -/
structure CodeContext where
  m : Nat
  next : Nat
  hasPrev : Bool
  deriving DecidableEq, Repr

end Sys2Proof
end

