-- ==== Sys2Proof/WellFormed.lean ====
section
/-! DEFINITION. Which terms of `Instr` the encoding admits (30_encoding.md R97, R98), and in which context a code can be read. -/

namespace Sys2Proof

/-- The minimum code size lies in 2 .. 8 (30_encoding.md R94). -/
def minCodeOk (m : Nat) : Bool := 2 ≤ m && m ≤ 8

/-- Well-formed instructions: an m in 2 .. 8; a literal's symbol below 2^m; a table code not below 6 = 2^2 + 2, the smallest
first table code of any m (30_encoding.md R98), since every smaller value is a LIT, CLEAR or EOI for every m. -/
def Instr.wf : Instr → Bool
  | .compress | .decompress | .blitBgra | .blitRgba | .decblitBgra | .decblitRgba | .reset => true
  | .lit m symbol => minCodeOk m && symbol.toNat < 2 ^ m
  | .clear m => minCodeOk m
  | .eoi m => minCodeOk m
  | .ref code => 6 ≤ code.toNat
  | .kwk code => 6 ≤ code.toNat
  | .invalid code => 6 ≤ code.toNat

/-- A context LZWD can be in: m in 2 .. 8 and the next code in 2^m + 2 .. 4096 (10_state.md R48). -/
def CodeContext.wf (ctx : CodeContext) : Bool :=
  minCodeOk ctx.m && 2 ^ ctx.m + 2 ≤ ctx.next && ctx.next ≤ maxCodes

/-- The conditions of the table's rows (30_encoding.md R97): `ctx.admits i` when `i` is the class of a code read in `ctx`. A
command is never read from the code stream. -/
def CodeContext.admits (ctx : CodeContext) : Instr → Bool
  | .compress | .decompress | .blitBgra | .blitRgba | .decblitBgra | .decblitRgba | .reset => false
  | .lit m symbol => m == ctx.m && symbol.toNat < 2 ^ m
  | .clear m => m == ctx.m
  | .eoi m => m == ctx.m
  | .ref code => 2 ^ ctx.m + 2 ≤ code.toNat && code.toNat < ctx.next
  | .kwk code => 2 ^ ctx.m + 2 ≤ code.toNat && code.toNat == ctx.next && ctx.hasPrev
  | .invalid code =>
    2 ^ ctx.m + 2 ≤ code.toNat && (ctx.next < code.toNat || (code.toNat == ctx.next && !ctx.hasPrev))

/-- The seven commands (30_encoding.md R91). -/
def Instr.isCommand : Instr → Bool
  | .compress | .decompress | .blitBgra | .blitRgba | .decblitBgra | .decblitRgba | .reset => true
  | .lit _ _ | .clear _ | .eoi _ | .ref _ | .kwk _ | .invalid _ => false

end Sys2Proof
end

