-- ==== Sys2Proof/Decode.lean ====
section
/-! DEFINITION. Decoding a CMD word (30_encoding.md R90 to R92) and a code of the stream (R97), total on any bits, and the
encoder (R91, R97); the table's own numbering of an instruction's bits. -/

namespace Sys2Proof

/-- Why a CMD word selects no command (30_encoding.md R92). -/
inductive DecodeError where
  | reservedBits (word : Word)     -- a bit of [31:4] is set
  | reservedOpcode (word : Word)   -- OPC is 0 or in 8 .. 15
  deriving DecidableEq, Repr

/-- Field OPC = bits [3:0] of a CMD word (30_encoding.md R90). -/
def opcField (word : Word) : BitVec 4 := word.extractLsb' 0 4

/-- Bits [31:4] of a CMD word, which must be 0 (30_encoding.md R90). -/
def reservedField (word : Word) : BitVec 28 := word.extractLsb' 4 28

/-- The command of an opcode (30_encoding.md R91). -/
def commandOfOpc (opc : Nat) : Option Instr :=
  match opc with
  | 1 => some .compress
  | 2 => some .decompress
  | 3 => some .blitBgra
  | 4 => some .blitRgba
  | 5 => some .decblitBgra
  | 6 => some .decblitRgba
  | 7 => some .reset
  | _ => none

/-- Decode a word written to CMD: every word is one of the seven commands or rejected by name (30_encoding.md R91, R92). -/
def decodeCommand (word : Word) : Except DecodeError Instr :=
  if reservedField word ≠ 0 then .error (.reservedBits word)
  else match commandOfOpc (opcField word).toNat with
    | some i => .ok i
    | none => .error (.reservedOpcode word)

/-- Classify a code (30_encoding.md R97) with the tests in the order of 41_lzw_decompress.md R156 and R159: CLEAR, EOI, then
LIT or REF below the next code, KWK at it when a previous data code exists, INVALID otherwise. -/
def decodeCode (ctx : CodeContext) (code : BitVec 12) : Instr :=
  if code.toNat = 2 ^ ctx.m then .clear ctx.m
  else if code.toNat = 2 ^ ctx.m + 1 then .eoi ctx.m
  else if code.toNat < ctx.next then
    if code.toNat < 2 ^ ctx.m then .lit ctx.m (code.setWidth 8) else .ref code
  else if code.toNat = ctx.next ∧ ctx.hasPrev = true then .kwk code
  else .invalid code

/-- Decode either encoding; the context matters to a code only. -/
def decode (ctx : CodeContext) : Encoded → Except DecodeError Instr
  | .command word => decodeCommand word
  | .code value => .ok (decodeCode ctx value)

/-- The encoder: a command's word (30_encoding.md R91), a code's 12-bit value (30_encoding.md R97). -/
def encode : Instr → Encoded
  | .compress => .command 1
  | .decompress => .command 2
  | .blitBgra => .command 3
  | .blitRgba => .command 4
  | .decblitBgra => .command 5
  | .decblitRgba => .command 6
  | .reset => .command 7
  | .lit _ symbol => .code (symbol.setWidth 12)
  | .clear m => .code (BitVec.ofNat 12 (2 ^ m))
  | .eoi m => .code (BitVec.ofNat 12 (2 ^ m + 1))
  | .ref code => .code code
  | .kwk code => .code code
  | .invalid code => .code code

/-- The smallest minimum code size in 2 .. 8 for which `c` is a LIT, CLEAR or EOI, if there is one. -/
def minCodeOfTableWord (c : Nat) : Option Nat :=
  [2, 3, 4, 5, 6, 7, 8].find? fun m => c < 2 ^ m + 2

/-- DESIGN CHOICE (log entry 9): the context in which a code of the opcode table is read where none is given. A value that is
a LIT, CLEAR or EOI for some m is read at the start of a stream (41_lzw_decompress.md R152) of the smallest such m; any other
value at m = 8 with a full table, where every 12-bit value has a meaning (41_lzw_decompress.md R182 h). -/
def tableContext (c : Nat) : CodeContext :=
  match minCodeOfTableWord c with
  | some m => { m := m, next := 2 ^ m + 2, hasPrev := false }
  | none => { m := 8, next := maxCodes, hasPrev := true }

/-- The instruction of a row of the opcode table, numbered as the table numbers its bits: a CMD word of 32 bits, or a code
value zero-extended to 12 bits (held in two whole bytes, the upper four bits 0). -/
def decodeTableWord (nbits w : Nat) : Option Instr :=
  if nbits = 32 then
    if w < 4294967296 then
      match decodeCommand (BitVec.ofNat 32 w) with
      | .ok i => some i
      | .error _ => none
    else none
  else if nbits = 12 ∨ nbits = 16 then
    if w < maxCodes then some (decodeCode (tableContext w) (BitVec.ofNat 12 w)) else none
  else none

end Sys2Proof
end

