-- ==== Sys2Proof/Machine/State.lean ====
section
/-! DEFINITION. The state of GLZ as plain data: the register file (10_state.md section 2), the four memories (section 5), the
working state of the units while one runs (section 6), the machine's parameters, and the host's actions still to come. -/

namespace Sys2Proof.Machine

/-! ### The register file -/

/-- STATUS (10_state.md R21, R29); bits [31:5] read 0. -/
structure Status where
  done      : Bool   -- DONE [0]: the last command ran to completion without fault
  fault     : Bool   -- FAULT [1]: a fault or refusal has been latched since the last reset
  warnLong  : Bool   -- WARN_LONG [2]
  warnShort : Bool   -- WARN_SHORT [3]
  eoiSeen   : Bool   -- EOI_SEEN [4]
  deriving DecidableEq, Repr

/-- A width and a height, W [15:0] and H [31:16] (CANVAS, FRAME_SIZE; 10_state.md R23). -/
structure Extent where
  w : BitVec 16
  h : BitVec 16
  deriving DecidableEq, Repr

/-- A position, X [15:0] and Y [31:16] (FRAME_POS; 10_state.md R23). -/
structure Position where
  x : BitVec 16
  y : BitVec 16
  deriving DecidableEq, Repr

/-- BLIT_CTRL (10_state.md R25); bits [31:10] read 0. -/
structure BlitCtrl where
  transIndex : BitVec 8   -- TRANS_INDEX [7:0]
  transEn    : Bool       -- TRANS_EN [8]
  interlaced : Bool       -- INTERLACED [9]
  deriving DecidableEq, Repr

/-- The sixteen registers (10_state.md R21). A register holds its defined fields only, so that its reserved bits read 0 and
discard writes (R26); `regRead` and `regWrite` of Machine/Ops.lean give the 32-bit words. -/
structure Regs where
  cmd       : BitVec 4    -- 0x00 CMD: OPC [3:0]
  status    : Status      -- 0x04 STATUS
  fault     : BitVec 8    -- 0x08 FAULT: CODE [7:0]
  faultInfo : Word        -- 0x0C FAULT_INFO
  srcPtr    : Word        -- 0x10 SRC_PTR
  dstPtr    : Word        -- 0x14 DST_PTR
  idxLen    : Word        -- 0x18 IDX_LEN
  minCode   : BitVec 4    -- 0x1C MIN_CODE: M [3:0]
  canvas    : Extent      -- 0x20 CANVAS
  framePos  : Position    -- 0x24 FRAME_POS
  frameSize : Extent      -- 0x28 FRAME_SIZE
  palPtr    : Word        -- 0x2C PAL_PTR
  palSize   : BitVec 9    -- 0x30 PAL_SIZE: N [8:0]
  blitCtrl  : BlitCtrl    -- 0x34 BLIT_CTRL
  outCount  : Word        -- 0x38 OUT_COUNT
  pixCount  : Word        -- 0x3C PIX_COUNT
  deriving DecidableEq, Repr

/-- The names of the sixteen registers (10_state.md R21). -/
inductive Reg where
  | cmd | status | fault | faultInfo | srcPtr | dstPtr | idxLen | minCode
  | canvas | framePos | frameSize | palPtr | palSize | blitCtrl | outCount | pixCount
  deriving DecidableEq, Repr

/-! ### Memories -/

/-- One memory: its written bytes, addresses strictly rising (`Memory.wf`); a byte not listed has never been written and holds
no value (10_state.md R45). -/
abbrev Memory := List Host.Cell

/-! ### Working state (10_state.md section 6): naturals, as R10 has them; the widths R46 to R50 give are bounds that
`Safety.lean` states as an invariant -/

/-- The pixel formats (`b_fmt`, 10_state.md R50). -/
inductive PixelFormat where
  | bgra
  | rgba
  deriving DecidableEq, Repr

/-- One entry of the compressor's code table: key (prefix code, symbol), value code (10_state.md R47). -/
structure CEntry where
  pfx    : Nat
  symbol : Nat
  code   : Nat
  deriving DecidableEq, Repr

/-- The working registers of LZWC (10_state.md R46, R47). `c_clear`, `c_eoi` and `c_mask` are functions of `m`. -/
structure Lzwc where
  m     : Nat          -- c_m
  width : Nat          -- c_width
  next  : Nat          -- c_next
  pfx   : Nat          -- c_prefix
  i     : Nat          -- c_i
  acc   : Nat          -- c_acc
  nb    : Nat          -- c_nb
  p     : Nat          -- c_p
  sb    : Nat          -- c_sb
  tab   : List CEntry  -- c_tab, the newest entry first
  deriving DecidableEq, Repr

/-- One entry of the decompressor's code table: code, (prefix code, last byte) (10_state.md R49). -/
structure DEntry where
  code : Nat
  pfx  : Nat
  byte : Byte
  deriving DecidableEq, Repr

/-- The working registers of LZWD (10_state.md R48, R49). `d_clear` and `d_eoi` are functions of `m`. -/
structure Lzwd where
  m     : Nat          -- d_m
  width : Nat          -- d_width
  next  : Nat          -- d_next
  prev  : Option Nat   -- d_prev, none or a code
  acc   : Nat          -- d_acc
  nb    : Nat          -- d_nb
  p     : Nat          -- d_p
  sbrem : Nat          -- d_sbrem
  ended : Bool         -- d_ended
  op    : Nat          -- d_op
  n     : Nat          -- d_n
  tab   : List DEntry  -- d_tab, its defined entries, the newest first
  deriving DecidableEq, Repr

/-- The working registers of BLIT (10_state.md R50). -/
structure Blit where
  i   : Nat           -- b_i
  fmt : PixelFormat   -- b_fmt
  cnt : Nat           -- b_cnt
  deriving DecidableEq, Repr

/-- What the sequencer is doing (10_state.md R20): idle, or one unit with its working registers. After LZWD, `andBlit` says
whether BLIT follows, and in which format (43_commands.md R229). None of it survives a command (10_state.md R51). -/
inductive Running where
  | idle
  | lzwc (w : Lzwc)
  | lzwd (w : Lzwd) (andBlit : Option PixelFormat)
  | blit (w : Blit)
  deriving DecidableEq, Repr

/-! ### Fault codes -/

/-- The eleven architectural faults (60_exceptions.md R281); `FaultCode.code` of Machine/Ops.lean gives their numbers. -/
inductive FaultCode where
  | illegalCommand | badMinCode | emptyInput | badDimensions | frameOutsideCanvas | badPaletteSize | bufferTooSmall
  | srcBounds | dstBounds | invalidCode | paletteIndex
  deriving DecidableEq, Repr

/-- What a GLZ access to one byte of a memory meets: its value, an address not below the memory's size (20_memory.md R65), or
a byte never written (10_state.md R45). -/
inductive ReadResult where
  | value (b : Byte)
  | outside
  | unwritten
  deriving DecidableEq, Repr

/-! ### The host -/

/-- The width of a host access to the register block; only `word` is part of the interface (10_state.md R21, U9). -/
inductive AccessSize where
  | byte
  | half
  | word
  deriving DecidableEq, Repr

/-- One action of the host: an access to a register at a bus address, or to one byte of a memory (30_encoding.md R107), or a
larger DST put in the place of the old one (44_host_container.md R254; log entry 24). -/
inductive HostAction where
  | writeReg (addr : Nat) (size : AccessSize) (value : Word)
  | readReg (addr : Nat) (size : AccessSize)
  | writeMem (space : Space) (addr : Nat) (value : Byte)
  | readMem (space : Space) (addr : Nat)
  | provideDst (size : Fin 4294967296)
  deriving DecidableEq, Repr

/-! ### The state -/

/-- The whole machine. `script` and `readData` are the model's own (log entries 6 and 7): the host's accesses still to come,
oldest first, and what the host's last read returned. -/
structure State where
  cfg      : Config
  regs     : Regs
  src      : Memory
  dst      : Memory
  idx      : Memory
  pix      : Memory
  running  : Running
  script   : List HostAction
  readData : Word
  deriving DecidableEq, Repr

/-- STATUS with every flag clear (10_state.md R52). -/
def Status.clear : Status :=
  { done := false, fault := false, warnLong := false, warnShort := false, eoiSeen := false }

/-- The register file after hardware reset: every register reads 0 (10_state.md R52). -/
def Regs.reset : Regs :=
  { cmd := 0, status := Status.clear, fault := 0, faultInfo := 0, srcPtr := 0, dstPtr := 0, idxLen := 0, minCode := 0,
    canvas := { w := 0, h := 0 }, framePos := { x := 0, y := 0 }, frameSize := { w := 0, h := 0 }, palPtr := 0, palSize := 0,
    blitCtrl := { transIndex := 0, transEn := false, interlaced := false }, outCount := 0, pixCount := 0 }

/-- A machine with parameters `cfg` right after hardware reset (10_state.md R52, 70_reset_and_hazards.md R320, R321): registers
0, idle, no byte of any memory written. -/
def State.hardwareReset (cfg : Config) : State :=
  { cfg := cfg, regs := Regs.reset, src := [], dst := [], idx := [], pix := [], running := .idle, script := [], readData := 0 }

/-- The machine right after hardware reset, with the standard parameters (log entries 2 and 3). -/
def State.reset : State := State.hardwareReset Config.standard

/-! ### How a step can stop -/

/-- The model's own faults (60_exceptions.md R314): not the FAULT register, which is architectural and never stops the
machine. -/
inductive Fault where
  /-- GLZ reads a byte of SRC or IDX that neither the host nor GLZ has written since hardware reset (93 U1, 10_state.md R45).
  Raised by LZWC, LZWD and BLIT. Safe: the model stops where the hardware reads some value. -/
  | unwrittenRead (space : Space) (addr : Nat)
  /-- A unit reaches outside IDX or PIX, or BLIT's palette outside SRC, which the checks of an accepted command exclude
  (20_memory.md R67). Raised by LZWC, LZWD and BLIT in states no accepted command leads to. Safe. -/
  | outsideMemory (space : Space) (addr : Nat)
  /-- LZWD would read an entry of d_tab that is not defined, which 41_lzw_decompress.md R166 excludes. Raised by REF and KWK in
  states no accepted command leads to. Safe. -/
  | undefinedEntry (code : Nat)
  deriving DecidableEq, Repr

/-- What the model gives no meaning to. -/
inductive Refusal where
  /-- An instruction that is not modelled (none is left). -/
  | notModelled (mnemonic : String)
  /-- A host access to the register block that is not one aligned 32-bit word at one of the sixteen offsets (93 U9, 10_state.md
  R26). Raised by the host port. Safe: the spec gives such an access no effect. -/
  | outsideInterface (addr : Nat)
  /-- A host access to a byte at or beyond the size of a memory (log entry 12). Raised by the host port. Safe. -/
  | hostOutsideMemory (space : Space) (addr : Nat)
  /-- The host puts a DST that is not larger in the place of the old one: 44_host_container.md R254 gives it a larger one only
  (log entry 24). Raised by the host port. Safe. -/
  | dstNotLarger (size : Nat)
  /-- A command while a unit runs (93 U6, 20_memory.md R72). Raised by the seven commands; `step` never gives one there. Safe. -/
  | commandRunning
  /-- A code while LZWD does not run: only LZWD interprets codes (00_scope.md R2). Raised by the six codes; `step` never gives
  one there. Safe. -/
  | noCodeStream
  /-- A code that is not the class of any code value in the decompressor's present state (30_encoding.md R97). Raised by the
  six codes; `step` never gives one. Safe. -/
  | codeOutOfContext
  deriving DecidableEq, Repr

/-- The outcome of an instruction or a step. -/
abbrev Res := Host.Outcome State Fault Refusal

end Sys2Proof.Machine
end

