-- ==== Sys2Proof/Machine/Flags.lean ====
section
/-! DEFINITION. STATUS: its word, and every flag computation the spec gives (10_state.md R29, 41_lzw_decompress.md R176). -/

namespace Sys2Proof.Machine

/-- A flag at bit `k` of a word. -/
def flagBit (b : Bool) (k : Nat) : Word := if b then BitVec.ofNat 32 (2 ^ k) else 0

/-- STATUS as the host reads it: DONE [0], FAULT [1], WARN_LONG [2], WARN_SHORT [3], EOI_SEEN [4] (10_state.md R21). -/
def Status.toWord (f : Status) : Word :=
  flagBit f.done 0 ||| flagBit f.fault 1 ||| flagBit f.warnLong 2 ||| flagBit f.warnShort 3 ||| flagBit f.eoiSeen 4

/-- The take clears DONE and the three decompression flags and leaves FAULT (43_commands.md R221 c, 10_state.md R29). -/
def Status.taken (f : Status) : Status :=
  { done := false, fault := f.fault, warnLong := false, warnShort := false, eoiSeen := false }

/-- Completion sets DONE (43_commands.md R222). -/
def Status.complete (f : Status) : Status :=
  { done := true, fault := f.fault, warnLong := f.warnLong, warnShort := f.warnShort, eoiSeen := f.eoiSeen }

/-- Latching a fault sets FAULT and nothing else (60_exceptions.md R290). -/
def Status.latch (f : Status) : Status :=
  { done := f.done, fault := true, warnLong := f.warnLong, warnShort := f.warnShort, eoiSeen := f.eoiSeen }

/-- The LONG exit sets WARN_LONG; the short test is not made (41_lzw_decompress.md R165, R176 c). -/
def Status.endLong (f : Status) : Status :=
  { done := f.done, fault := f.fault, warnLong := true, warnShort := f.warnShort, eoiSeen := f.eoiSeen }

/-- The short test of the other two exits: `if d_op != d_n then WARN_SHORT <- 1` (41_lzw_decompress.md R176). -/
def Status.shortTest (f : Status) (op n : Nat) : Status :=
  { done := f.done, fault := f.fault, warnLong := f.warnLong, warnShort := if op ≠ n then true else f.warnShort,
    eoiSeen := f.eoiSeen }

/-- EOI sets EOI_SEEN (41_lzw_decompress.md R158). -/
def Status.sawEoi (f : Status) : Status :=
  { done := f.done, fault := f.fault, warnLong := f.warnLong, warnShort := f.warnShort, eoiSeen := true }

end Sys2Proof.Machine
end

