-- ==== Sys2Proof/Machine/Ops.lean ====
section
/-! DEFINITION. The named operations over memories and registers: reading and writing bytes, the host's view of the registers,
raising a fault (60_exceptions.md R290) and the return from one (R295), the take (43_commands.md R221 c). -/

namespace Sys2Proof.Machine

/-! ### Memories -/

/-- The byte at an address, none if it was never written. -/
def Memory.read : Memory → Nat → Option Byte
  | [], _ => none
  | (a, b) :: m, x => if a = x then some b else Memory.read m x

/-- Write one byte, keeping the addresses strictly rising. -/
def Memory.write : Memory → Nat → Byte → Memory
  | [], x, v => [(x, v)]
  | (a, b) :: m, x, v =>
    if x < a then (x, v) :: (a, b) :: m
    else if x = a then (x, v) :: m
    else (a, b) :: Memory.write m x v

/-- Write bytes at consecutive addresses, lowest first (20_memory.md R60). -/
def Memory.writeList : Memory → Nat → List Byte → Memory
  | m, _, [] => m
  | m, x, v :: vs => Memory.writeList (Memory.write m x v) (x + 1) vs

/-- The bytes below an address. -/
def Memory.below (m : Memory) (a : Nat) : Memory := m.filter fun c => c.1 < a

/-- The canonical form: addresses strictly rising, so that equal memories are equal lists. An unlisted byte holds no value, so
no listed byte equals what an unlisted one holds. -/
abbrev Memory.wf (m : Memory) : Prop := m.Pairwise fun x y => x.1 < y.1

/-- Every written byte lies below `size`. -/
abbrev Memory.within (m : Memory) (size : Nat) : Prop := ∀ x ∈ m, x.1 < size

/-! ### The parts of a state -/

/-- The memory of a space (10_state.md R40). -/
def State.memory (s : State) : Space → Memory
  | .src => s.src
  | .dst => s.dst
  | .idx => s.idx
  | .pix => s.pix

/-- Replace the memory of a space. -/
def State.setMemory (s : State) (space : Space) (m : Memory) : State :=
  match space with
  | .src => { s with src := m }
  | .dst => { s with dst := m }
  | .idx => { s with idx := m }
  | .pix => { s with pix := m }

/-- Replace the registers. -/
def State.setRegs (s : State) (r : Regs) : State := { s with regs := r }

/-- Replace the working state. -/
def State.setRunning (s : State) (r : Running) : State := { s with running := r }

/-- Replace STATUS. -/
def State.setStatus (s : State) (f : Status) : State := { s with regs := { s.regs with status := f } }

/-- Write OUT_COUNT. -/
def State.setOutCount (s : State) (w : Word) : State := { s with regs := { s.regs with outCount := w } }

/-- Write PIX_COUNT. -/
def State.setPixCount (s : State) (w : Word) : State := { s with regs := { s.regs with pixCount := w } }

/-- Replace DST by one of another size and contents. -/
def State.replaceDst (s : State) (size : Fin 4294967296) (m : Memory) : State :=
  { s with cfg := { s.cfg with dstSize := size }, dst := m }

/-- Write DST_PTR. -/
def State.setDstPtr (s : State) (w : Word) : State := { s with regs := { s.regs with dstPtr := w } }

/-- A count as a 32-bit register holds it (10_state.md R32); a count that does not fit is a free value (log entry 16). -/
def countWord (n : Nat) : Word :=
  if n < 4294967296 then BitVec.ofNat 32 n else Config.countBeyondRegister n

/-! ### GLZ's accesses to the memories -/

/-- `MemRead(S, a, 1)`: the bound is compared first (20_memory.md R61, R65). -/
def State.fetchByte (s : State) (space : Space) (a : Nat) : ReadResult :=
  if a < s.cfg.size space then
    match Memory.read (s.memory space) a with
    | some b => .value b
    | none => .unwritten
  else .outside

/-- A read that an accepted command's checks have put in bounds (20_memory.md R67): a symbol of IDX, a palette byte of SRC. -/
def State.readChecked (s : State) (space : Space) (a : Nat) (k : Byte → Res) : Res :=
  match s.fetchByte space a with
  | .value b => k b
  | .outside => .fault (.outsideMemory space a)
  | .unwritten => .fault (.unwrittenRead space a)

/-- `MemWrite(S, a, n, v)` that an accepted command's checks have put in bounds (20_memory.md R67): symbols into IDX, a pixel
into PIX. -/
def State.writeChecked (s : State) (space : Space) (a : Nat) (bytes : List Byte) (k : State → Res) : Res :=
  if a + bytes.length ≤ s.cfg.size space then k (s.setMemory space (Memory.writeList (s.memory space) a bytes))
  else .fault (.outsideMemory space a)

/-! ### The registers as the host sees them -/

/-- The byte offset of a register (10_state.md R21). -/
def Reg.offset : Reg → Nat
  | .cmd => 0x00
  | .status => 0x04
  | .fault => 0x08
  | .faultInfo => 0x0C
  | .srcPtr => 0x10
  | .dstPtr => 0x14
  | .idxLen => 0x18
  | .minCode => 0x1C
  | .canvas => 0x20
  | .framePos => 0x24
  | .frameSize => 0x28
  | .palPtr => 0x2C
  | .palSize => 0x30
  | .blitCtrl => 0x34
  | .outCount => 0x38
  | .pixCount => 0x3C

/-- The register at an offset; other offsets are not part of GLZ (10_state.md R26). -/
def Reg.ofOffset (o : Nat) : Option Reg :=
  match o with
  | 0x00 => some .cmd
  | 0x04 => some .status
  | 0x08 => some .fault
  | 0x0C => some .faultInfo
  | 0x10 => some .srcPtr
  | 0x14 => some .dstPtr
  | 0x18 => some .idxLen
  | 0x1C => some .minCode
  | 0x20 => some .canvas
  | 0x24 => some .framePos
  | 0x28 => some .frameSize
  | 0x2C => some .palPtr
  | 0x30 => some .palSize
  | 0x34 => some .blitCtrl
  | 0x38 => some .outCount
  | 0x3C => some .pixCount
  | _ => none

/-- The register at a bus address: GLZ_BASE + offset (20_memory.md R69). -/
def Reg.atAddress (cfg : Config) (addr : Nat) : Option Reg :=
  if cfg.glzBase ≤ addr then Reg.ofOffset (addr - cfg.glzBase) else none

/-- Two 16-bit halves, the low half first (30_encoding.md R106). -/
def halves (lo hi : BitVec 16) : Word := hi ++ lo

/-- BLIT_CTRL as a word (10_state.md R21). -/
def BlitCtrl.toWord (c : BlitCtrl) : Word :=
  c.transIndex.setWidth 32 ||| flagBit c.transEn 8 ||| flagBit c.interlaced 9

/-- A register as the host reads it: reserved bits read 0 (10_state.md R26). -/
def regRead (r : Regs) : Reg → Word
  | .cmd => r.cmd.setWidth 32
  | .status => r.status.toWord
  | .fault => r.fault.setWidth 32
  | .faultInfo => r.faultInfo
  | .srcPtr => r.srcPtr
  | .dstPtr => r.dstPtr
  | .idxLen => r.idxLen
  | .minCode => r.minCode.setWidth 32
  | .canvas => halves r.canvas.w r.canvas.h
  | .framePos => halves r.framePos.x r.framePos.y
  | .frameSize => halves r.frameSize.w r.frameSize.h
  | .palPtr => r.palPtr
  | .palSize => r.palSize.setWidth 32
  | .blitCtrl => r.blitCtrl.toWord
  | .outCount => r.outCount
  | .pixCount => r.pixCount

/-- A host write to a register other than CMD: the defined fields are stored, reserved bits are discarded, a read-only
register keeps its value (10_state.md R26). A write to CMD starts a command and stores nothing here (R30). -/
def regWrite (r : Regs) (v : Word) : Reg → Regs
  | .cmd => r
  | .status => r
  | .fault => r
  | .faultInfo => r
  | .srcPtr => { r with srcPtr := v }
  | .dstPtr => { r with dstPtr := v }
  | .idxLen => { r with idxLen := v }
  | .minCode => { r with minCode := v.extractLsb' 0 4 }
  | .canvas => { r with canvas := { w := v.extractLsb' 0 16, h := v.extractLsb' 16 16 } }
  | .framePos => { r with framePos := { x := v.extractLsb' 0 16, y := v.extractLsb' 16 16 } }
  | .frameSize => { r with frameSize := { w := v.extractLsb' 0 16, h := v.extractLsb' 16 16 } }
  | .palPtr => { r with palPtr := v }
  | .palSize => { r with palSize := v.extractLsb' 0 9 }
  | .blitCtrl =>
    { r with blitCtrl := { transIndex := v.extractLsb' 0 8, transEn := v.getLsbD 8, interlaced := v.getLsbD 9 } }
  | .outCount => r
  | .pixCount => r

/-! ### Faults -/

/-- The value FAULT.CODE takes (60_exceptions.md R281). -/
def FaultCode.code : FaultCode → BitVec 8
  | .illegalCommand => 0x01
  | .badMinCode => 0x02
  | .emptyInput => 0x03
  | .badDimensions => 0x04
  | .frameOutsideCanvas => 0x05
  | .badPaletteSize => 0x06
  | .bufferTooSmall => 0x07
  | .srcBounds => 0x10
  | .dstBounds => 0x11
  | .invalidCode => 0x12
  | .paletteIndex => 0x13

/-- Step (3) of `raise F(info)`: if no fault is latched, latch this one, with info truncated to 32 bits (60_exceptions.md R290). -/
def Regs.latch (r : Regs) (f : FaultCode) (info : Nat) : Regs :=
  if r.status.fault then r
  else { r with fault := f.code, faultInfo := BitVec.ofNat 32 info, status := r.status.latch }

/-- `raise F(info)`, `refuse F(info)`: TAKING AN EXCEPTION. The unit stops, the fault is latched, and the CMD write returns to
the host with GLZ idle (60_exceptions.md R290 steps 1, 3, 5). Step (2), the count register, is the unit's own and comes before;
DONE is not set (step 4). -/
def raise (f : FaultCode) (info : Nat) (s : State) : State :=
  { s with regs := s.regs.latch f info, running := .idle }

/-- THE RETURN from a fault, the effect of RESET (43_commands.md R231, 60_exceptions.md R295): CMD, STATUS, FAULT, FAULT_INFO,
OUT_COUNT and PIX_COUNT to 0; the ten operand registers and the memories stay. -/
def clearFault (s : State) : State :=
  { s with regs := { s.regs with cmd := 0, status := Status.clear, fault := 0, faultInfo := 0, outCount := 0, pixCount := 0 } }

/-- The take of command `opc` (43_commands.md R221 c). -/
def take (opc : BitVec 4) (s : State) : State :=
  { s with regs := { s.regs with cmd := opc, status := s.regs.status.taken, outCount := 0, pixCount := 0 } }

/-- The end of a run without fault: DONE, and idle again (43_commands.md R222). -/
def complete (s : State) : State :=
  { s with regs := { s.regs with status := s.regs.status.complete }, running := .idle }

/-! ### Checks (43_commands.md R221, R223 to R225) -/

/-- The first failing check of a list, in its order: its fault and its info (60_exceptions.md R293). -/
def firstFailing : List (Bool × FaultCode × Nat) → Option (FaultCode × Nat)
  | [] => none
  | (bad, f, info) :: rest => if bad then some (f, info) else firstFailing rest

/-- Make the checks of a taken command: refuse with the first that fails, else run it. -/
def accept (checks : List (Bool × FaultCode × Nat)) (s : State) (run : State → Res) : Res :=
  match firstFailing checks with
  | some (f, info) => .next (raise f info s)
  | none => run s

/-- Go on from a next state; a fault or a refusal stops. -/
def andThen (r : Res) (k : State → Res) : Res :=
  match r with
  | .next s => k s
  | .fault f => .fault f
  | .refused r => .refused r

end Sys2Proof.Machine
end

