-- ==== Sys2Proof/Machine/Operands.lean ====
section
/-! DEFINITION. Operand forms: the codes of a minimum code size (00_scope.md R12), symbol masking (30_encoding.md R105), the
operand registers as naturals (30_encoding.md R106), the checks of each command (43_commands.md R223 to R225), the interlace
row map and the pixel address (42_blit.md R192 to R197), and a decompressor's context and code sequences (41 R159, R160). -/

namespace Sys2Proof.Machine

/-! ### Codes -/

/-- `CLEAR(m) = 2^m` (00_scope.md R12). -/
def clearCode (m : Nat) : Nat := 2 ^ m

/-- `EOI(m) = 2^m + 1` (00_scope.md R12). -/
def eoiCode (m : Nat) : Nat := 2 ^ m + 1

/-- `FIRST(m) = 2^m + 2` (00_scope.md R12). -/
def firstCode (m : Nat) : Nat := 2 ^ m + 2

/-- A symbol reduced to its low m bits, `b & (2^m - 1)` (30_encoding.md R105, c_mask of 10_state.md R46). -/
def maskSymbol (m : Nat) (b : Byte) : Nat := b.toNat &&& (2 ^ m - 1)

/-- The context in which LZWD classifies the next code (30_encoding.md R97, 41_lzw_decompress.md R159). -/
def Lzwd.context (w : Lzwd) : CodeContext := { m := w.m, next := w.next, hasPrev := w.prev.isSome }

/-- `Seq(c)` (41_lzw_decompress.md R160) over the table's entries, the newest first: a literal's symbol, or the prefix's sequence
followed by the entry's byte. The prefix of an entry is an older code (R166), found in the rest of the list. None if the entry
is not defined. -/
def seqOf (m : Nat) : List DEntry → Nat → Option (List Byte)
  | [], c => if c < 2 ^ m then some [BitVec.ofNat 8 c] else none
  | e :: t, c =>
    if c < 2 ^ m then some [BitVec.ofNat 8 c]
    else if e.code = c then (seqOf m t e.pfx).map (fun bytes => bytes ++ [e.byte])
    else seqOf m t c

/-- The compressor's table lookup (40_lzw_compress.md R124): the code of key (prefix, symbol). -/
def lookup : List CEntry → Nat → Nat → Option Nat
  | [], _, _ => none
  | e :: t, pfx, symbol => if e.pfx = pfx ∧ e.symbol = symbol then some e.code else lookup t pfx symbol

/-! ### Checks of the commands -/

/-- `COMPRESS` (43_commands.md R223). -/
def compressChecks (s : State) : List (Bool × FaultCode × Nat) :=
  let m := s.regs.minCode.toNat
  let len := s.regs.idxLen.toNat
  [ (m < 2 || 8 < m, .badMinCode, m),
    (len == 0, .emptyInput, 0),
    (s.cfg.size .idx < len, .bufferTooSmall, 1) ]

/-- `DECOMPRESS` (43_commands.md R224). -/
def decompressChecks (s : State) : List (Bool × FaultCode × Nat) :=
  [ (s.cfg.size .idx < s.regs.idxLen.toNat, .bufferTooSmall, 1) ]

/-- PAL_SIZE.N is a power of two in 2 .. 256 (43_commands.md R225 check 5). -/
def paletteSizeOk (n : Nat) : Bool := [2, 4, 8, 16, 32, 64, 128, 256].contains n

/-- The blit checks, in order (43_commands.md R225). -/
def blitChecks (s : State) : List (Bool × FaultCode × Nat) :=
  let cw := s.regs.canvas.w.toNat
  let ch := s.regs.canvas.h.toNat
  let x := s.regs.framePos.x.toNat
  let y := s.regs.framePos.y.toNat
  let w := s.regs.frameSize.w.toNat
  let h := s.regs.frameSize.h.toNat
  let n := s.regs.palSize.toNat
  [ (cw == 0 || ch == 0, .badDimensions, 0),
    (w == 0 || h == 0, .badDimensions, 1),
    (cw < x + w, .frameOutsideCanvas, 0),
    (ch < y + h, .frameOutsideCanvas, 1),
    (!paletteSizeOk n, .badPaletteSize, n),
    (s.cfg.size .idx < w * h, .bufferTooSmall, 1),
    (s.cfg.size .pix < 4 * cw * ch, .bufferTooSmall, 2),
    (s.cfg.size .src < s.regs.palPtr.toNat + 3 * n, .bufferTooSmall, 3) ]

/-! ### Geometry of the compositor -/

/-- The number of symbols of the frame, N = w * h (42_blit.md R190). -/
def frameSymbols (r : Regs) : Nat := r.frameSize.w.toNat * r.frameSize.h.toNat

/-- `Ilace(s, h)`: the row that stored row `s` of `h` interlaced rows occupies (42_blit.md R194). -/
def ilace (s h : Nat) : Nat :=
  let n1 := (h + 7) / 8
  let n2 := (h + 3) / 8
  let n3 := (h + 1) / 4
  if s < n1 then 8 * s
  else if s < n1 + n2 then 8 * (s - n1) + 4
  else if s < n1 + n2 + n3 then 4 * (s - n1 - n2) + 2
  else 2 * (s - n1 - n2 - n3) + 1

/-- The canvas row inside the frame of a stored row (42_blit.md R193, R194). -/
def frameRow (interlaced : Bool) (srow h : Nat) : Nat := if interlaced then ilace srow h else srow

/-- The PIX address of symbol `i` of the frame (42_blit.md R192 to R197). -/
def pixelAddress (r : Regs) (i : Nat) : Nat :=
  let w := r.frameSize.w.toNat
  let col := i % w
  let drow := frameRow r.blitCtrl.interlaced (i / w) r.frameSize.h.toNat
  4 * ((r.framePos.y.toNat + drow) * r.canvas.w.toNat + (r.framePos.x.toNat + col))

/-- `ten = 1 and v = t` (42_blit.md R199). -/
def isTransparent (c : BlitCtrl) (v : Byte) : Bool := c.transEn && v == c.transIndex

/-- The four bytes of a pixel in the order of a format (42_blit.md R202, 20_memory.md R63). -/
def pixelBytes (fmt : PixelFormat) (r g b : Byte) : List Byte :=
  match fmt with
  | .bgra => [b, g, r, 255]
  | .rgba => [r, g, b, 255]

end Sys2Proof.Machine
end

