-- ==== Sys2Proof/Machine/Compress.lean ====
section
/-! DEFINITION. The compressor LZWC (40_lzw_compress.md): bit packing and sub-blocks (R129 to R133), the start (R122, R123), one
step per input symbol (R124 to R127), the finish (R128, R131 to R134) and its fault (R135). -/

namespace Sys2Proof.Machine

/-- The result of emitting: the working registers and DST as they stand, or the first write not below DST_SIZE, with everything
written before it (20_memory.md R66, 40_lzw_compress.md R135). -/
inductive Emit where
  | ok (w : Lzwc) (dst : Memory)
  | bounds (w : Lzwc) (dst : Memory) (a : Nat)
  deriving DecidableEq, Repr

/-- Go on emitting unless a write was out of bounds. -/
def Emit.bind (e : Emit) (k : Lzwc → Memory → Emit) : Emit :=
  match e with
  | .ok w dst => k w dst
  | .bounds w dst a => .bounds w dst a

/-- `MemWrite(DST, a, 1, [b])` (20_memory.md R66). -/
def putAt (size a : Nat) (b : Byte) (w : Lzwc) (dst : Memory) : Emit :=
  if a < size then .ok w (Memory.write dst a b) else .bounds w dst a

/-- The second half of `PutByte`: when the open sub-block has 255 data bytes, write its length byte and reserve the next one
(40_lzw_compress.md R130). -/
def closeFull (size : Nat) (w : Lzwc) (dst : Memory) : Emit :=
  if w.p = w.sb + 256 then
    (putAt size w.sb 255 w dst).bind fun w dst => .ok { w with sb := w.p, p := w.p + 1 } dst
  else .ok w dst

/-- `PutByte(b)` (40_lzw_compress.md R130). -/
def putByte (size : Nat) (b : Byte) (w : Lzwc) (dst : Memory) : Emit :=
  (putAt size w.p b w dst).bind fun w dst => closeFull size { w with p := w.p + 1 } dst

/-- The loop of `EmitCode`: `while c_nb >= 8` (40_lzw_compress.md R129). Each turn takes 8 from c_nb, so c_nb turns are
enough. -/
def drain (size : Nat) : Nat → Lzwc → Memory → Emit
  | 0, w, dst => .ok w dst
  | fuel + 1, w, dst =>
    if 8 ≤ w.nb then
      (putByte size (BitVec.ofNat 8 w.acc) w dst).bind fun w dst =>
        drain size fuel { w with acc := w.acc >>> 8, nb := w.nb - 8 } dst
    else .ok w dst

/-- `EmitCode(c)` (40_lzw_compress.md R129). -/
def emitCode (size : Nat) (c : Nat) (w : Lzwc) (dst : Memory) : Emit :=
  drain size (w.nb + w.width) { w with acc := w.acc ||| (c <<< w.nb), nb := w.nb + w.width } dst

/-- The final flush: the leftover bits as one byte (40_lzw_compress.md R131). -/
def flush (size : Nat) (w : Lzwc) (dst : Memory) : Emit :=
  if 0 < w.nb then
    (putByte size (BitVec.ofNat 8 w.acc) w dst).bind fun w dst => .ok { w with acc := 0, nb := 0 } dst
  else .ok w dst

/-- Closing the stream: an empty open sub-block becomes the terminator, else its length byte and a terminator are written
(40_lzw_compress.md R133). -/
def closeStream (size : Nat) (w : Lzwc) (dst : Memory) : Emit :=
  if w.sb + 1 = w.p then putAt size w.sb 0 w dst
  else
    (putAt size w.sb (BitVec.ofNat 8 (w.p - w.sb - 1)) w dst).bind fun w dst =>
      (putAt size w.p 0 w dst).bind fun w dst => .ok { w with p := w.p + 1 } dst

/-- Everything after the last symbol: the last prefix code, EOI, the flush, the closing (40_lzw_compress.md R128). -/
def emitFinish (size : Nat) (w : Lzwc) (dst : Memory) : Emit :=
  (emitCode size w.pfx w dst).bind fun w dst =>
    (emitCode size (eoiCode w.m) w dst).bind fun w dst =>
      (flush size w dst).bind fun w dst => closeStream size w dst

/-- The table and the width after a CLEAR (40_lzw_compress.md R127). -/
def Lzwc.resetTable (w : Lzwc) : Lzwc := { w with next := firstCode w.m, width := w.m + 1, tab := [] }

/-- The insertion of a missed key, with the width test before it (40_lzw_compress.md R126, 30_encoding.md R99). -/
def Lzwc.insert (w : Lzwc) (pfx symbol : Nat) : Lzwc :=
  { w with
    width := if 2 ^ w.width ≤ w.next then w.width + 1 else w.width
    tab := { pfx := pfx, symbol := symbol, code := w.next } :: w.tab
    next := w.next + 1 }

/-- Take symbol `k` as the new prefix, and go to the next input symbol (40_lzw_compress.md R126 (3), R124). -/
def Lzwc.advance (w : Lzwc) (pfx : Nat) : Lzwc := { w with pfx := pfx, i := w.i + 1 }

/-- One step for symbol `k`: a hit (40_lzw_compress.md R125), or a miss (R126), which finds the table full (R127) or inserts. -/
def symbolStep (size : Nat) (k : Nat) (w : Lzwc) (dst : Memory) : Emit :=
  match lookup w.tab w.pfx k with
  | some code => .ok (w.advance code) dst
  | none =>
    (emitCode size w.pfx w dst).bind fun w dst =>
      if w.next = maxCodes then
        (emitCode size (clearCode w.m) w dst).bind fun w dst => .ok (w.resetTable.advance k) dst
      else .ok ((w.insert w.pfx k).advance k) dst

/-- The working registers after R122 and the first symbol of R123, before the first CLEAR is emitted; `p` is the old cursor. -/
def Lzwc.start (m p pfx : Nat) : Lzwc :=
  { m := m, width := m + 1, next := firstCode m, pfx := pfx, i := 1, acc := 0, nb := 0, p := p + 2, sb := p + 1, tab := [] }

/-- DST_BOUNDS: OUT_COUNT receives `c_p - DST_PTR` as it stood, DST keeps what was written, DST_PTR stays (40_lzw_compress.md
R135). -/
def lzwcFault (p a : Nat) (dst : Memory) (s : State) : State :=
  raise .dstBounds a ((s.setMemory .dst dst).setOutCount (countWord (p - s.regs.dstPtr.toNat)))

/-- Go on with the result of emitting. -/
def commit (e : Emit) (s : State) (k : Lzwc → State → Res) : Res :=
  match e with
  | .ok w dst => k w (s.setMemory .dst dst)
  | .bounds w dst a => .next (lzwcFault w.p a dst s)

/-- The start of an accepted COMPRESS: the minimum-code-size byte, the first symbol, the first CLEAR (40_lzw_compress.md R122,
R123). -/
def lzwcStart (s : State) : Res :=
  let size := s.cfg.size .dst
  let m := s.regs.minCode.toNat
  let p := s.regs.dstPtr.toNat
  if p < size then
    let s := s.setMemory .dst (Memory.write s.dst p (BitVec.ofNat 8 m))
    s.readChecked .idx 0 fun b =>
      commit (emitCode size (clearCode m) (Lzwc.start m p (maskSymbol m b)) s.dst) s fun w s =>
        .next (s.setRunning (.lzwc w))
  else .next (lzwcFault p p s.dst s)

/-- The write-back (40_lzw_compress.md R134). -/
def lzwcDone (w : Lzwc) (s : State) : State :=
  complete (((s.setOutCount (countWord (w.p - s.regs.dstPtr.toNat))).setDstPtr (BitVec.ofNat 32 w.p)).setPixCount 0)

/-- One working step of LZWC: the next input symbol, or, after the last one, the finish. -/
def lzwcStep (w : Lzwc) (s : State) : Res :=
  let size := s.cfg.size .dst
  if w.i < s.regs.idxLen.toNat then
    s.readChecked .idx w.i fun b =>
      commit (symbolStep size (maskSymbol w.m b) w s.dst) s fun w s => .next (s.setRunning (.lzwc w))
  else commit (emitFinish size w s.dst) s fun w s => .next (lzwcDone w s)

end Sys2Proof.Machine
end

