-- ==== Sys2Proof/Machine/Blit.lean ====
section
/-! DEFINITION. The compositor BLIT (42_blit.md): its start, one step per symbol (R198 to R202), its completion (R204) and its
fault (R205). -/

namespace Sys2Proof.Machine

/-- Start BLIT in a format: `b_i = 0`, `b_cnt = 0` (42_blit.md R206). -/
def blitStart (fmt : PixelFormat) (s : State) : State := s.setRunning (.blit { i := 0, fmt := fmt, cnt := 0 })

/-- PALETTE_INDEX(b_i): PIX_COUNT receives the pixels written so far (42_blit.md R200, R205). -/
def blitFault (w : Blit) (s : State) : State := raise .paletteIndex w.i (s.setPixCount (countWord w.cnt))

/-- Read the palette's three bytes of colour `v`, red first (42_blit.md R201, 20_memory.md R63). -/
def readColour (s : State) (v : Byte) (k : Byte → Byte → Byte → Res) : Res :=
  let a := s.regs.palPtr.toNat + 3 * v.toNat
  s.readChecked .src a fun r => s.readChecked .src (a + 1) fun g => s.readChecked .src (a + 2) fun b => k r g b

/-- The step for symbol `v` at position b_i: transparency (42_blit.md R199), palette range (R200), lookup (R201), pixel write
(R202). -/
def blitSymbol (w : Blit) (v : Byte) (s : State) : Res :=
  if isTransparent s.regs.blitCtrl v then .next (s.setRunning (.blit { w with i := w.i + 1 }))
  else if s.regs.palSize.toNat ≤ v.toNat then .next (blitFault w s)
  else
    readColour s v fun r g b =>
      s.writeChecked .pix (pixelAddress s.regs w.i) (pixelBytes w.fmt r g b) fun s =>
        .next (s.setRunning (.blit { w with i := w.i + 1, cnt := w.cnt + 1 }))

/-- One working step of BLIT: the next symbol (42_blit.md R198), or the completion after the last (R204). -/
def blitStep (w : Blit) (s : State) : Res :=
  if w.i < frameSymbols s.regs then s.readChecked .idx w.i fun v => blitSymbol w v s
  else .next (complete (s.setPixCount (countWord w.cnt)))

end Sys2Proof.Machine
end

