-- ==== Sys2Proof/Machine/Decompress.lean ====
section
/-! DEFINITION. The decompressor LZWD (41_lzw_decompress.md): fetching a code (R153), the meaning of each kind of code (R157 to
R168), the ways a decompression ends (R176, R177, R181), its start (R152) and its working step (R156). -/

namespace Sys2Proof.Machine

/-! ### Fetching a code (41_lzw_decompress.md R153) -/

/-- The result of the refill: enough bits or end of data, a byte needed outside SRC, or a byte never written. -/
inductive Refill where
  | ready (w : Lzwd)
  | bounds (w : Lzwd) (a : Nat)
  | unwritten (a : Nat)
  deriving DecidableEq, Repr

/-- A data byte enters the accumulator. -/
def Lzwd.takeByte (w : Lzwd) (b : Byte) : Lzwd :=
  { w with p := w.p + 1, sbrem := w.sbrem - 1, acc := w.acc ||| (b.toNat <<< w.nb), nb := w.nb + 8 }

/-- A length byte is read: 0 ends the data, any other value opens a sub-block. -/
def Lzwd.takeLength (w : Lzwd) (l : Byte) : Lzwd :=
  if l = 0 then { w with p := w.p + 1, ended := true } else { w with p := w.p + 1, sbrem := l.toNat }

/-- Read one data byte. -/
def refillData (s : State) (w : Lzwd) : Refill :=
  match s.fetchByte .src w.p with
  | .value b => .ready (w.takeByte b)
  | .outside => .bounds w w.p
  | .unwritten => .unwritten w.p

/-- One turn of the refill loop: a length byte if the sub-block is used up, then a data byte unless the data has ended. -/
def refillTurn (s : State) (w : Lzwd) : Refill :=
  if w.sbrem = 0 then
    match s.fetchByte .src w.p with
    | .value l => if l = 0 then .ready (w.takeLength l) else refillData s (w.takeLength l)
    | .outside => .bounds w w.p
    | .unwritten => .unwritten w.p
  else refillData s w

/-- The refill loop: `while d_nb < d_width and d_ended = 0`. Each turn ends the data or adds eight bits, so d_width turns are
enough. -/
def refill (s : State) : Nat → Lzwd → Refill
  | 0, w => .ready w
  | fuel + 1, w =>
    if w.nb < w.width ∧ w.ended = false then
      match refillTurn s w with
      | .ready w => refill s fuel w
      | .bounds w a => .bounds w a
      | .unwritten a => .unwritten a
    else .ready w

/-- What fetching a code meets. -/
inductive CodeFetch where
  | code (w : Lzwd) (c : BitVec 12)
  | endOfData (w : Lzwd)
  | bounds (w : Lzwd) (a : Nat)
  | unwritten (a : Nat)
  deriving DecidableEq, Repr

/-- Take the low d_width bits out of the accumulator. -/
def Lzwd.dropCode (w : Lzwd) : Lzwd := { w with acc := w.acc >>> w.width, nb := w.nb - w.width }

/-- `GetCode` (41_lzw_decompress.md R153): refill, then extract the low d_width bits, or the data has ended (R154). -/
def getCode (s : State) (w : Lzwd) : CodeFetch :=
  match refill s w.width w with
  | .ready w => if w.nb < w.width then .endOfData w else .code w.dropCode (BitVec.ofNat 12 (w.acc &&& (2 ^ w.width - 1)))
  | .bounds w a => .bounds w a
  | .unwritten a => .unwritten a

/-! ### Ending (41_lzw_decompress.md R176, R177, R181) -/

/-- The zero fill and the count, then the end of the command, or BLIT in a DECBLIT command (41_lzw_decompress.md R177,
43_commands.md R229). -/
def lzwdFill (w : Lzwd) (andBlit : Option PixelFormat) (s : State) : Res :=
  s.writeChecked .idx w.op (List.replicate (w.n - w.op) 0) fun s =>
    let s := s.setOutCount (countWord w.op)
    match andBlit with
    | none => .next (complete s)
    | some fmt => .next (blitStart fmt s)

/-- The end by EOI or by end of data: the short test, then the fill (41_lzw_decompress.md R176 a, b). -/
def lzwdEnd (w : Lzwd) (andBlit : Option PixelFormat) (s : State) : Res :=
  lzwdFill w andBlit (s.setStatus (s.regs.status.shortTest w.op w.n))

/-- The LONG exit: WARN_LONG, no short test, then the fill (41_lzw_decompress.md R165, R176 c). -/
def lzwdLong (w : Lzwd) (andBlit : Option PixelFormat) (s : State) : Res :=
  lzwdFill w andBlit (s.setStatus s.regs.status.endLong)

/-- A fault of a running LZWD: OUT_COUNT receives d_op, nothing is filled, BLIT does not run (41_lzw_decompress.md R181). -/
def lzwdFault (f : FaultCode) (info : Nat) (w : Lzwd) (s : State) : State :=
  raise f info (s.setOutCount (countWord w.op))

/-! ### Data codes (41_lzw_decompress.md R165 to R168) -/

/-- The table insertion, with the width test after it (41_lzw_decompress.md R166, R167), and `d_prev <- code` (R168). -/
def Lzwd.learn (w : Lzwd) (code : Nat) (first : Byte) : Lzwd :=
  match w.prev with
  | some prev =>
    if w.next < maxCodes then
      { w with
        tab := { code := w.next, pfx := prev, byte := first } :: w.tab
        next := w.next + 1
        width := if 2 ^ w.width ≤ w.next + 1 ∧ w.width < maxWidth then w.width + 1 else w.width
        prev := some code }
    else { w with prev := some code }
  | none => { w with prev := some code }

/-- What a data code does with its symbols: the length check and the output (41_lzw_decompress.md R165), then the insertion
(R166, R167) and `d_prev` (R168). -/
def dataCode (w : Lzwd) (andBlit : Option PixelFormat) (code : Nat) (symbols : List Byte) (s : State) : Res :=
  if w.n < w.op + symbols.length then lzwdLong w andBlit s
  else
    s.writeChecked .idx w.op symbols fun s =>
      .next (s.setRunning (.lzwd (Lzwd.learn { w with op := w.op + symbols.length } code (symbols.headD 0)) andBlit))

/-! ### The six kinds of code -/

/-- The working state a code acts on: LZWD must be running, in a state in which this code has this class (30_encoding.md R97). -/
def onCode (i : Instr) (s : State) (k : Lzwd → Option PixelFormat → Res) : Res :=
  match s.running with
  | .lzwd w andBlit => if w.context.admits i then k w andBlit else .refused .codeOutOfContext
  | .idle => .refused .noCodeStream
  | .lzwc _ => .refused .noCodeStream
  | .blit _ => .refused .noCodeStream

/-- LIT: the one symbol (41_lzw_decompress.md R161). -/
def execLit (m : Nat) (symbol : Byte) (s : State) : Res :=
  onCode (.lit m symbol) s fun w andBlit => dataCode w andBlit symbol.toNat [symbol] s

/-- CLEAR: table, width and previous code return to the start (41_lzw_decompress.md R157). The stored entries are erased, which
cannot be observed (10_state.md R49; log entry 13). -/
def execClear (m : Nat) (s : State) : Res :=
  onCode (.clear m) s fun w andBlit =>
    .next (s.setRunning (.lzwd { w with next := firstCode w.m, width := w.m + 1, prev := none, tab := [] } andBlit))

/-- EOI: EOI_SEEN, and the end (41_lzw_decompress.md R158). -/
def execEoi (m : Nat) (s : State) : Res :=
  onCode (.eoi m) s fun w andBlit => lzwdEnd w andBlit (s.setStatus s.regs.status.sawEoi)

/-- REF: the sequence of a table entry (41_lzw_decompress.md R162). -/
def execRef (code : BitVec 12) (s : State) : Res :=
  onCode (.ref code) s fun w andBlit =>
    match seqOf w.m w.tab code.toNat with
    | some symbols => dataCode w andBlit code.toNat symbols s
    | none => .fault (.undefinedEntry code.toNat)

/-- KWK: the previous code's sequence and its first symbol again (41_lzw_decompress.md R163, 90_conflicts.md C2). -/
def execKwk (code : BitVec 12) (s : State) : Res :=
  onCode (.kwk code) s fun w andBlit =>
    match w.prev with
    | some prev =>
      match seqOf w.m w.tab prev with
      | some symbols => dataCode w andBlit code.toNat (symbols ++ [symbols.headD 0]) s
      | none => .fault (.undefinedEntry prev)
    | none => .refused .codeOutOfContext

/-- INVALID: INVALID_CODE(code), nothing written (41_lzw_decompress.md R164, R181, 60_exceptions.md R309). -/
def execInvalid (code : BitVec 12) (s : State) : Res :=
  onCode (.invalid code) s fun w _ => .next (lzwdFault .invalidCode code.toNat w s)

/-- The interpreter of codes that LZWD repeats. A command is never read from a code stream. -/
def execCode (i : Instr) (s : State) : Res :=
  match i with
  | .lit m symbol => execLit m symbol s
  | .clear m => execClear m s
  | .eoi m => execEoi m s
  | .ref code => execRef code s
  | .kwk code => execKwk code s
  | .invalid code => execInvalid code s
  | .compress => .refused .codeOutOfContext
  | .decompress => .refused .codeOutOfContext
  | .blitBgra => .refused .codeOutOfContext
  | .blitRgba => .refused .codeOutOfContext
  | .decblitBgra => .refused .codeOutOfContext
  | .decblitRgba => .refused .codeOutOfContext
  | .reset => .refused .codeOutOfContext

/-! ### The working step and the start -/

/-- One working step of LZWD, with `ex` the meaning of codes: fetch the next code, then run it, or end at the end of data
(41_lzw_decompress.md R156). -/
def lzwdStep (ex : Instr → State → Res) (w : Lzwd) (andBlit : Option PixelFormat) (s : State) : Res :=
  match getCode s w with
  | .code w c => ex (decodeCode w.context c) (s.setRunning (.lzwd w andBlit))
  | .endOfData w => lzwdEnd w andBlit s
  | .bounds w a => .next (lzwdFault .srcBounds a w s)
  | .unwritten a => .fault (.unwrittenRead .src a)

/-- The working registers at the start of a stream of minimum code size `m` whose code bits begin after address `p - 1`
(41_lzw_decompress.md R152). -/
def Lzwd.start (m p n : Nat) : Lzwd :=
  { m := m, width := m + 1, next := firstCode m, prev := none, acc := 0, nb := 0, p := p, sbrem := 0, ended := false, op := 0,
    n := n, tab := [] }

/-- The start of LZWD for `n` expected symbols: the minimum-code-size byte, which can be outside SRC or not in 2 .. 8
(41_lzw_decompress.md R152, R181). -/
def lzwdStart (n : Nat) (andBlit : Option PixelFormat) (s : State) : Res :=
  let p := s.regs.srcPtr.toNat
  match s.fetchByte .src p with
  | .value b =>
    if minCodeOk b.toNat then .next (s.setRunning (.lzwd (Lzwd.start b.toNat (p + 1) n) andBlit))
    else .next (raise .badMinCode b.toNat s)
  | .outside => .next (raise .srcBounds p s)
  | .unwritten => .fault (.unwrittenRead .src p)

end Sys2Proof.Machine
end

