-- ==== Sys2Proof/Machine/Commands.lean ====
section
/-! DEFINITION. The seven commands (43_commands.md): the common stages (R220, R221), the run of a unit to its end, and a meaning
for each command (R223 to R231). -/

namespace Sys2Proof.Machine

/-! ### Running a unit -/

/-- One working step of whichever unit runs (10_state.md R20). -/
def unitStep (s : State) : Res :=
  match s.running with
  | .idle => .next s
  | .lzwc w => lzwcStep w s
  | .lzwd w andBlit => lzwdStep execCode w andBlit s
  | .blit w => blitStep w s

/-- Repeat working steps until GLZ is idle, at most `fuel` of them. -/
def runToIdle : Nat → State → Res
  | 0, s => .next s
  | fuel + 1, s =>
    match s.running with
    | .idle => .next s
    | .lzwc _ => andThen (unitStep s) (runToIdle fuel)
    | .lzwd _ _ => andThen (unitStep s) (runToIdle fuel)
    | .blit _ => andThen (unitStep s) (runToIdle fuel)

/-- How many working steps can be left (70_reset_and_hazards.md R329): one for each symbol and one to finish; for LZWD fewer
than the bits of SRC, since each code takes at least one of them (41_lzw_decompress.md R180). -/
def stepsLeft (s : State) : Nat :=
  match s.running with
  | .idle => 0
  | .lzwc w => s.regs.idxLen.toNat - w.i + 1
  | .lzwd _ none => 8 * s.cfg.size .src + 1
  | .lzwd _ (some _) => 8 * s.cfg.size .src + 1 + (frameSymbols s.regs + 1)
  | .blit w => frameSymbols s.regs - w.i + 1

/-- The run of a started unit (43_commands.md R220). Were the bound ever reached, the unit would be left running, and the next
step would go on with it (log entry 19). -/
def run (s : State) : Res := runToIdle (stepsLeft s) s

/-! ### The common stages -/

/-- A command reaches GLZ only while no unit runs (20_memory.md R72). -/
def whenIdle (s : State) (k : Res) : Res :=
  match s.running with
  | .idle => k
  | .lzwc _ => .refused .commandRunning
  | .lzwd _ _ => .refused .commandRunning
  | .blit _ => .refused .commandRunning

/-- The common stages of a working command: the gate (with a fault latched, nothing happens), the take, the checks, then the
unit's start and its run (43_commands.md R220, R221, 60_exceptions.md R292). -/
def command (opc : BitVec 4) (checks : State → List (Bool × FaultCode × Nat)) (start : State → Res) (s : State) : Res :=
  whenIdle s <|
    if s.regs.status.fault then .next s
    else accept (checks (take opc s)) (take opc s) fun s => andThen (start s) run

/-- A word written to CMD that is no command: refused with ILLEGAL_COMMAND, or ignored while a fault is latched
(43_commands.md R221 a, b, 30_encoding.md R92). -/
def illegalCommand (word : Word) (s : State) : Res :=
  whenIdle s <|
    if s.regs.status.fault then .next s else .next (raise .illegalCommand word.toNat s)

/-! ### The seven commands -/

/-- COMPRESS (43_commands.md R223). -/
def execCompress (s : State) : Res := command 1 compressChecks lzwcStart s

/-- DECOMPRESS: LZWD with n = IDX_LEN.LEN (43_commands.md R224). -/
def execDecompress (s : State) : Res :=
  command 2 decompressChecks (fun s => lzwdStart s.regs.idxLen.toNat none s) s

/-- BLIT_BGRA (43_commands.md R226). -/
def execBlitBgra (s : State) : Res := command 3 blitChecks (fun s => .next (blitStart .bgra s)) s

/-- BLIT_RGBA (43_commands.md R226). -/
def execBlitRgba (s : State) : Res := command 4 blitChecks (fun s => .next (blitStart .rgba s)) s

/-- DECBLIT_BGRA: LZWD with n = w * h, then BLIT (43_commands.md R229). -/
def execDecblitBgra (s : State) : Res :=
  command 5 blitChecks (fun s => lzwdStart (frameSymbols s.regs) (some .bgra) s) s

/-- DECBLIT_RGBA: LZWD with n = w * h, then BLIT (43_commands.md R229). -/
def execDecblitRgba (s : State) : Res :=
  command 6 blitChecks (fun s => lzwdStart (frameSymbols s.regs) (some .rgba) s) s

/-- RESET: taken with a fault latched too (43_commands.md R231). -/
def execReset (s : State) : Res := whenIdle s (.next (clearFault s))

end Sys2Proof.Machine
end

