-- ==== Sys2Proof/Machine/Dispatch.lean ====
section
/-! DEFINITION. exec: the meaning of every instruction, one arm per constructor of `Instr`. -/

namespace Sys2Proof.Machine

def exec (i : Instr) (s : State) : Host.Outcome State Fault Refusal :=
  match i with
  -- the commands (43_commands.md)
  | .compress => Sys2Proof.Machine.execCompress s
  | .decompress => Sys2Proof.Machine.execDecompress s
  | .blitBgra => Sys2Proof.Machine.execBlitBgra s
  | .blitRgba => Sys2Proof.Machine.execBlitRgba s
  | .decblitBgra => Sys2Proof.Machine.execDecblitBgra s
  | .decblitRgba => Sys2Proof.Machine.execDecblitRgba s
  | .reset => Sys2Proof.Machine.execReset s
  -- the codes of the stream (41_lzw_decompress.md)
  | .lit m symbol => Sys2Proof.Machine.execLit m symbol s
  | .clear m => Sys2Proof.Machine.execClear m s
  | .eoi m => Sys2Proof.Machine.execEoi m s
  | .ref code => Sys2Proof.Machine.execRef code s
  | .kwk code => Sys2Proof.Machine.execKwk code s
  | .invalid code => Sys2Proof.Machine.execInvalid code s

end Sys2Proof.Machine
end

