-- ==== Sys2Proof/Machine/HostPort.lean ====
section
/-! DEFINITION. The host's accesses (10_state.md R21, R26, 20_memory.md R72, 43_commands.md R220, R233): registers by bus address,
memories by byte, a command by a write to CMD; a larger DST (44_host_container.md R254); and the script notation of
30_encoding.md R107, R108. -/

namespace Sys2Proof.Machine

/-- A write of a word to CMD: decode it and run the command, or refuse it (43_commands.md R220, R221). -/
def commandWrite (word : Word) (s : State) : Res :=
  match decodeCommand word with
  | .ok i => exec i s
  | .error _ => illegalCommand word s

/-- A register write at a bus address (10_state.md R21, R26, R30). -/
def hostWriteReg (addr : Nat) (size : AccessSize) (value : Word) (s : State) : Res :=
  match size, Reg.atAddress s.cfg addr with
  | .word, some .cmd => commandWrite value s
  | .word, some r => .next (s.setRegs (regWrite s.regs value r))
  | .word, none => .refused (.outsideInterface addr)
  | .half, _ => .refused (.outsideInterface addr)
  | .byte, _ => .refused (.outsideInterface addr)

/-- A register read at a bus address: no side effect on GLZ (43_commands.md R233). -/
def hostReadReg (addr : Nat) (size : AccessSize) (s : State) : Res :=
  match size, Reg.atAddress s.cfg addr with
  | .word, some r => .next { s with readData := regRead s.regs r }
  | .word, none => .refused (.outsideInterface addr)
  | .half, _ => .refused (.outsideInterface addr)
  | .byte, _ => .refused (.outsideInterface addr)

/-- The host writes one byte of a memory (10_state.md R40, 20_memory.md R72). -/
def hostWriteMem (space : Space) (addr : Nat) (value : Byte) (s : State) : Res :=
  if addr < s.cfg.size space then .next (s.setMemory space (Memory.write (s.memory space) addr value))
  else .refused (.hostOutsideMemory space addr)

/-- What the host sees in a byte: its value, or a free value if nothing has written it (93 U2; log entry 5). -/
def hostByte (s : State) (space : Space) (addr : Nat) : Byte :=
  match Memory.read (s.memory space) addr with
  | some b => b
  | none => Config.unwrittenByte space addr

/-- The host reads one byte of a memory: no side effect on GLZ (20_memory.md R68). -/
def hostReadMem (space : Space) (addr : Nat) (s : State) : Res :=
  if addr < s.cfg.size space then .next { s with readData := (hostByte s space addr).setWidth 32 }
  else .refused (.hostOutsideMemory space addr)

/-- The host provides a larger DST holding the same bytes up to the cursor DST_PTR (44_host_container.md R254). From the cursor
on no byte of the new DST has been written (log entry 24). -/
def hostProvideDst (size : Fin 4294967296) (s : State) : Res :=
  if s.cfg.dstSize.val < size.val then .next (s.replaceDst size (Memory.below s.dst s.regs.dstPtr.toNat))
  else .refused (.dstNotLarger size.val)

/-- One action of the host, made while GLZ is idle. -/
def hostAct (a : HostAction) (s : State) : Res :=
  match a with
  | .writeReg addr size value => hostWriteReg addr size value s
  | .readReg addr size => hostReadReg addr size s
  | .writeMem space addr value => hostWriteMem space addr value s
  | .readMem space addr => hostReadMem space addr s
  | .provideDst size => hostProvideDst size s

/-! ### Scripts (30_encoding.md R107, R108) -/

/-- `WR <register>, <value>`. -/
def scriptWr (cfg : Config) (r : Reg) (v : Word) : HostAction := .writeReg (cfg.glzBase + r.offset) .word v

/-- `RD <register>`. -/
def scriptRd (cfg : Config) (r : Reg) : HostAction := .readReg (cfg.glzBase + r.offset) .word

/-- The command word of an instruction (30_encoding.md R91); a code of the stream has none. -/
def commandWord (i : Instr) : Option Word :=
  match encode i with
  | .command w => some w
  | .code _ => none

/-- `CMD <mnemonic>`: write the command word to CMD. -/
def scriptCmd (cfg : Config) (i : Instr) : List HostAction :=
  match commandWord i with
  | some w => [scriptWr cfg .cmd w]
  | none => []

/-- `S[a] := b0 b1 ...`: load bytes into a memory, lowest address first. -/
def scriptLoad (space : Space) : Nat → List Byte → List HostAction
  | _, [] => []
  | a, b :: bs => .writeMem space a b :: scriptLoad space (a + 1) bs

/-- `SETCANVAS W, H` (30_encoding.md R108). -/
def setCanvas (cfg : Config) (w h : BitVec 16) : List HostAction := [scriptWr cfg .canvas (halves w h)]

/-- `SETFRAME x, y, w, h` (30_encoding.md R108). -/
def setFrame (cfg : Config) (x y w h : BitVec 16) : List HostAction :=
  [scriptWr cfg .framePos (halves x y), scriptWr cfg .frameSize (halves w h)]

/-- `SETPAL ptr, n` (30_encoding.md R108). -/
def setPal (cfg : Config) (ptr n : Word) : List HostAction := [scriptWr cfg .palPtr ptr, scriptWr cfg .palSize n]

/-- `SETBLIT trans, interlaced` (30_encoding.md R108). -/
def setBlit (cfg : Config) (trans : Option Byte) (interlaced : Bool) : List HostAction :=
  match trans with
  | none => [scriptWr cfg .blitCtrl (flagBit interlaced 9)]
  | some t => [scriptWr cfg .blitCtrl (t.setWidth 32 ||| flagBit true 8 ||| flagBit interlaced 9)]

/-- The minimum code size the host passes for a number of colours, `max(2, log2(colorCount))` (44_host_container.md R250). -/
def hostMinCode (colours : Nat) : Nat := max 2 (Nat.log2 colours)

/-- The three bytes the host writes for a packed 0xRRGGBB colour (44_host_container.md R244). -/
def hostColourBytes (c : BitVec 24) : List Byte := [c.extractLsb' 16 8, c.extractLsb' 8 8, c.extractLsb' 0 8]

/-- The host's sequence for the image data of one frame (44_host_container.md R251), `c` being its cursor in DST. -/
def hostCompressFrame (cfg : Config) (pixels : List Byte) (colours : Nat) (c : Word) : List HostAction :=
  scriptLoad .idx 0 pixels ++
    [ scriptWr cfg .minCode (BitVec.ofNat 32 (hostMinCode colours)),
      scriptWr cfg .idxLen (BitVec.ofNat 32 pixels.length),
      scriptWr cfg .dstPtr c ] ++
    scriptCmd cfg .compress ++ [scriptRd cfg .status, scriptRd cfg .dstPtr]

/-- The host's sequence after a COMPRESS that ran out of DST: a larger DST, RESET, the command again from the unchanged DST_PTR
(44_host_container.md R254). -/
def hostRepeatCompress (cfg : Config) (size : Fin 4294967296) : List HostAction :=
  .provideDst size :: (scriptCmd cfg .reset ++ scriptCmd cfg .compress)

/-- The host's sequence for `decodeAndBlitFrame` (44_host_container.md R266); `i` is DECBLIT_BGRA or DECBLIT_RGBA. -/
def hostDecodeFrame (cfg : Config) (canvasW canvasH x y w h : BitVec 16) (palette paletteSize : Word) (trans : Option Byte)
    (interlaced : Bool) (stream : Word) (i : Instr) : List HostAction :=
  setCanvas cfg canvasW canvasH ++ setFrame cfg x y w h ++ setPal cfg palette paletteSize ++ setBlit cfg trans interlaced ++
    [scriptWr cfg .srcPtr stream] ++ scriptCmd cfg i ++ [scriptRd cfg .status]

/-! ### Placing an instruction where the next step fetches it (log entries 8 and 9) -/

/-- A table whose every entry `258 .. 258 + k - 1` is the two symbols 0, 0: what LZWD holds at m = 8 after k + 1 codes LIT 0. -/
def zeroTable : Nat → List DEntry
  | 0 => []
  | k + 1 => { code := 258 + k, pfx := 0, byte := 0 } :: zeroTable k

/-- LZWD about to read a code in the context `tableContext c`, its code bits beginning with a length byte at SRC address 1, two
symbols expected. -/
def tableLzwd (c : Nat) : Lzwd :=
  match minCodeOfTableWord c with
  | some m => Lzwd.start m 1 2
  | none => { Lzwd.start 8 1 2 with width := maxWidth, next := maxCodes, prev := some 0, tab := zeroTable 3838 }

/-- A code stream of one sub-block of two bytes holding the code at bit 0, least significant bit first (20_memory.md R64). -/
def tableStream (c : Nat) : List Byte :=
  [BitVec.ofNat 8 (tableContext c).m, 2, BitVec.ofNat 8 c, BitVec.ofNat 8 (c / 256), 0]

/-- Place the word of a table row: a CMD word becomes the host's next action; a code stands in SRC at address 0 with LZWD about
to read it. -/
def placeWord (s : State) (nbits w : Nat) : State :=
  if nbits = 32 then
    { s with running := .idle, script := scriptWr s.cfg .cmd (BitVec.ofNat 32 w) :: s.script }
  else
    { s with running := .lzwd (tableLzwd w) none, src := Memory.writeList s.src 0 (tableStream w) }

end Sys2Proof.Machine
end

