-- ==== Sys2Proof/Machine/Step.lean ====
section
/-! DEFINITION. One step: a working step of the unit that runs, or, while GLZ is idle, the host's next action (log entries 1
and 6). -/

namespace Sys2Proof.Machine

/-- One step. With LZWD running, the next code is fetched and `exec` gives its meaning. With GLZ idle, the host's next action is
made, a CMD write running its whole command; with no action left GLZ stays idle (60_exceptions.md R313). -/
def step (s : State) : Host.Outcome State Fault Refusal :=
  match s.running with
  | .idle =>
    match s.script with
    | [] => .next s
    | a :: rest => hostAct a { s with script := rest }
  | .lzwc w => lzwcStep w s
  | .lzwd w andBlit => lzwdStep exec w andBlit s
  | .blit w => blitStep w s

/-- `s` with the instruction of a table row where `step` fetches its next instruction (log entry 8). -/
def State.withFetchWord (s : State) (nbits w : Nat) : State := placeWord s nbits w

end Sys2Proof.Machine
end

