-- ==== Sys2Proof/Safety.lean ====
section
/-! DEFINITION. What counts as a good state of GLZ, in the terms the statements use: the bounds the spec gives the working
registers (10_state.md R46 to R50), the code tables (R47, R49, 41_lzw_decompress.md R166), the flags (R29, R31, 43_commands.md
R222), the memories; and when a command will be taken. -/

namespace Sys2Proof.Machine

/-! ### Code tables -/

/-- A code that stands for a sequence while the next code is `next`: a literal or a defined table entry. -/
def DataCode (m next c : Nat) : Prop := c < 2 ^ m ∨ (firstCode m ≤ c ∧ c < next)

/-- The decompressor's table, the newest entry first: codes next-1 down to FIRST(m), every prefix an older data code, every
byte a symbol (41_lzw_decompress.md R166, 10_state.md R49). -/
def DTable (m : Nat) : List DEntry → Nat → Prop
  | [], next => next = firstCode m
  | e :: t, next => e.code + 1 = next ∧ DataCode m e.code e.pfx ∧ e.byte.toNat < 2 ^ m ∧ DTable m t e.code

/-- The compressor's table, the newest entry first: codes next-1 down to FIRST(m), every prefix an older data code, every
symbol masked, no key twice (10_state.md R47). -/
def CTable (m : Nat) : List CEntry → Nat → Prop
  | [], next => next = firstCode m
  | e :: t, next =>
    e.code + 1 = next ∧ DataCode m e.code e.pfx ∧ e.symbol < 2 ^ m ∧
      (∀ x ∈ t, ¬ (x.pfx = e.pfx ∧ x.symbol = e.symbol)) ∧ CTable m t e.code

/-! ### The units between two working steps -/

/-- LZWC between two symbols (10_state.md R46, R47, 40_lzw_compress.md R129, R130); `len` is IDX_LEN, `cursor` DST_PTR. -/
structure Lzwc.Ok (cfg : Config) (len cursor : Nat) (w : Lzwc) : Prop where
  m_range : 2 ≤ w.m ∧ w.m ≤ 8
  next_range : firstCode w.m ≤ w.next ∧ w.next ≤ maxCodes
  width_range : w.m + 1 ≤ w.width ∧ w.width ≤ maxWidth
  next_width : w.next ≤ 2 ^ w.width
  pfx_code : DataCode w.m w.next w.pfx
  i_range : 1 ≤ w.i ∧ w.i ≤ len
  len_fits : len ≤ cfg.size .idx
  nb_bound : w.nb ≤ 7
  acc_bound : w.acc < 2 ^ w.nb
  sb_after : cursor < w.sb
  block_open : w.sb + 1 ≤ w.p ∧ w.p ≤ w.sb + 255
  p_bound : w.p ≤ cfg.size .dst + 1
  table : CTable w.m w.tab w.next

/-- LZWD between two codes (10_state.md R48, R49, 41_lzw_decompress.md R166, R167). -/
structure Lzwd.Ok (cfg : Config) (w : Lzwd) : Prop where
  m_range : 2 ≤ w.m ∧ w.m ≤ 8
  next_range : firstCode w.m ≤ w.next ∧ w.next ≤ maxCodes
  width_range : w.m + 1 ≤ w.width ∧ w.width ≤ maxWidth
  next_width : w.next < 2 ^ w.width ∨ w.width = maxWidth
  prev_code : ∀ c, w.prev = some c → DataCode w.m w.next c
  prev_none : w.prev = none → w.next = firstCode w.m
  nb_bound : w.nb ≤ 7
  acc_bound : w.acc < 2 ^ w.nb
  sbrem_bound : w.sbrem ≤ 255
  p_bound : w.p ≤ cfg.size .src
  op_bound : w.op ≤ w.n
  n_fits : w.n ≤ cfg.size .idx
  table : DTable w.m w.tab w.next

/-- What the blit checks establish (42_blit.md R190). -/
structure FrameOk (cfg : Config) (r : Regs) : Prop where
  canvas_pos : 1 ≤ r.canvas.w.toNat ∧ 1 ≤ r.canvas.h.toNat
  frame_pos : 1 ≤ r.frameSize.w.toNat ∧ 1 ≤ r.frameSize.h.toNat
  inside_x : r.framePos.x.toNat + r.frameSize.w.toNat ≤ r.canvas.w.toNat
  inside_y : r.framePos.y.toNat + r.frameSize.h.toNat ≤ r.canvas.h.toNat
  palette_size : r.palSize.toNat ∈ [2, 4, 8, 16, 32, 64, 128, 256]
  idx_fits : r.frameSize.w.toNat * r.frameSize.h.toNat ≤ cfg.size .idx
  pix_fits : 4 * r.canvas.w.toNat * r.canvas.h.toNat ≤ cfg.size .pix
  palette_fits : r.palPtr.toNat + 3 * r.palSize.toNat ≤ cfg.size .src

/-- The unit that runs is within its bounds; before BLIT runs, and while it does, the blit checks hold, and LZWD expects the
frame's number of symbols (43_commands.md R229). -/
def State.unitOk (s : State) : Prop :=
  match s.running with
  | .idle => True
  | .lzwc w => w.Ok s.cfg s.regs.idxLen.toNat s.regs.dstPtr.toNat
  | .lzwd w none => w.Ok s.cfg
  | .lzwd w (some _) => w.Ok s.cfg ∧ FrameOk s.cfg s.regs ∧ w.n = frameSymbols s.regs
  | .blit w => FrameOk s.cfg s.regs ∧ w.i ≤ frameSymbols s.regs ∧ w.cnt ≤ w.i

/-! ### Registers and flags -/

/-- FAULT.CODE holds a code the spec lists (60_exceptions.md R281). -/
def listedFault (c : BitVec 8) : Prop := ∃ f : FaultCode, c = f.code

/-- The control registers agree with each other, in every state (10_state.md R29 to R31, 43_commands.md R222, R231). -/
structure State.FlagsOk (s : State) : Prop where
  /-- No fault latched: FAULT and FAULT_INFO read 0 (10_state.md R31). -/
  no_fault : s.regs.status.fault = false → s.regs.fault = 0 ∧ s.regs.faultInfo = 0
  /-- A fault latched: FAULT holds one of the eleven codes (60_exceptions.md R281). -/
  fault_listed : s.regs.status.fault = true → listedFault s.regs.fault
  /-- DONE and FAULT together: only after an ILLEGAL_COMMAND (43_commands.md R222). -/
  done_fault : s.regs.status.done = true → s.regs.status.fault = true → s.regs.fault = FaultCode.illegalCommand.code
  /-- WARN_LONG and WARN_SHORT are never both 1 (10_state.md R29). -/
  one_warning : ¬ (s.regs.status.warnLong = true ∧ s.regs.status.warnShort = true)
  /-- After the LONG exit EOI_SEEN is 0 (41_lzw_decompress.md R176 c). -/
  long_no_eoi : ¬ (s.regs.status.warnLong = true ∧ s.regs.status.eoiSeen = true)
  /-- CMD holds a taken command's word, or 0: never RESET's (10_state.md R30, 43_commands.md R231). -/
  cmd_range : s.regs.cmd.toNat ≤ 6
  /-- While a unit runs no fault is latched and DONE is 0 (43_commands.md R221). -/
  running_clear : s.running ≠ .idle → s.regs.status.fault = false ∧ s.regs.status.done = false
  /-- While LZWD runs no decompression flag is set yet (41_lzw_decompress.md R176). -/
  lzwd_flags : ∀ w k, s.running = .lzwd w k →
    s.regs.status.warnLong = false ∧ s.regs.status.warnShort = false ∧ s.regs.status.eoiSeen = false

/-- The four memories are canonical and hold bytes below their sizes only (10_state.md R40, 20_memory.md R65 to R67). -/
structure State.MemoriesOk (s : State) : Prop where
  wf : ∀ space, Memory.wf (s.memory space)
  within : ∀ space, Memory.within (s.memory space) (s.cfg.size space)

/-- The invariant of GLZ. -/
structure State.Inv (s : State) : Prop where
  memories : s.MemoriesOk
  flags : s.FlagsOk
  unit : s.unitOk

/-! ### When a command is taken, and what it needs -/

/-- No unit runs and no fault is latched: the next command is taken (43_commands.md R221). -/
abbrev State.ready (s : State) : Prop := s.running = .idle ∧ s.regs.status.fault = false

/-- The `n` bytes from `a` of a memory exist and have been written (70_reset_and_hazards.md R322). -/
def State.written (s : State) (space : Space) (a n : Nat) : Prop :=
  a + n ≤ s.cfg.size space ∧ ∀ j < n, ∃ b, Memory.read (s.memory space) (a + j) = some b

/-- The bytes of a memory from `a` read as the list. -/
def State.holds (s : State) (space : Space) (a : Nat) (bytes : List Byte) : Prop :=
  ∀ j (h : j < bytes.length), Memory.read (s.memory space) (a + j) = some bytes[j]

/-- Every byte of a memory outside `[a, a + n)` reads in `t` as in `s`. -/
def keepsOutside (space : Space) (a n : Nat) (s t : State) : Prop :=
  ∀ x, x < a ∨ a + n ≤ x → Memory.read (t.memory space) x = Memory.read (s.memory space) x

/-- The ten operand registers are the same, but for DST_PTR (43_commands.md R234). -/
structure keepsOperandsButDst (s t : State) : Prop where
  srcPtr : t.regs.srcPtr = s.regs.srcPtr
  idxLen : t.regs.idxLen = s.regs.idxLen
  minCode : t.regs.minCode = s.regs.minCode
  canvas : t.regs.canvas = s.regs.canvas
  framePos : t.regs.framePos = s.regs.framePos
  frameSize : t.regs.frameSize = s.regs.frameSize
  palPtr : t.regs.palPtr = s.regs.palPtr
  palSize : t.regs.palSize = s.regs.palSize
  blitCtrl : t.regs.blitCtrl = s.regs.blitCtrl

/-- The ten operand registers are the same. -/
structure keepsOperands (s t : State) : Prop extends keepsOperandsButDst s t where
  dstPtr : t.regs.dstPtr = s.regs.dstPtr

/-- The fault registers and STATUS.FAULT are the same. -/
structure keepsFault (s t : State) : Prop where
  latched : t.regs.status.fault = s.regs.status.fault
  code : t.regs.fault = s.regs.fault
  info : t.regs.faultInfo = s.regs.faultInfo

/-- The parameters and the model's own fields are the same. -/
structure keepsHost (s t : State) : Prop where
  cfg : t.cfg = s.cfg
  script : t.script = s.script
  readData : t.readData = s.readData

end Sys2Proof.Machine
end

