-- ==== Sys2Proof/Certificates/Slice0/Obligations.lean ====
section
/-! DEFINITION. The statements about GLZ. First the terms they use that the model does not: the reference compressor and
decompressor on codes and bits (40_lzw_compress.md R122 to R134, 41_lzw_decompress.md R152 to R177, 20_memory.md R64,
30_encoding.md R93), written without accumulators, cursors, sub-block registers or memories. -/

open Sys2Proof Sys2Proof.Machine

namespace Sys2Proof.Claims

/-! ### The reference compressor -/

/-- The codes, each with its width, for the symbols after the first (40_lzw_compress.md R124 to R128): `pfx` the prefix code,
`next` and `width` the counters, `tab` the table, from (prefix code, symbol) to code (10_state.md R47). -/
def codesAfter (m : Nat) : Nat → Nat → Nat → List ((Nat × Nat) × Nat) → List Nat → List (Nat × Nat)
  | _, width, pfx, _, [] => [(pfx, width), (2 ^ m + 1, width)]
  | next, width, pfx, tab, k :: ks =>
    match tab.lookup (pfx, k) with
    | some c => codesAfter m next width c tab ks
    | none =>
      (pfx, width) ::
        (if next = 4096 then (2 ^ m, width) :: codesAfter m (2 ^ m + 2) (m + 1) k [] ks
         else
          codesAfter m (next + 1) (if 2 ^ width ≤ next then width + 1 else width) k
            (((pfx, k), next) :: tab) ks)

/-- The codes of a stream (40_lzw_compress.md R123 to R128). -/
def codesOf (m : Nat) : List Nat → List (Nat × Nat)
  | [] => []
  | k :: ks => (2 ^ m, m + 1) :: codesAfter m (2 ^ m + 2) (m + 1) k [] ks

/-- The bits of codes, least significant bit first (20_memory.md R64). -/
def bitsOf (codes : List (Nat × Nat)) : List Bool :=
  codes.flatMap fun c => (List.range c.2).map fun i => c.1.testBit i

/-- Data byte `k`: bit j is bit number 8k + j (20_memory.md R64), 0 beyond the last bit (30_encoding.md R104). -/
def dataByte (bits : List Bool) (k : Nat) : Byte :=
  BitVec.ofNat 8 (((List.range 8).map fun j => if bits.getD (8 * k + j) false then 2 ^ j else 0).sum)

/-- The data bytes that hold a list of bits. -/
def packBits (bits : List Bool) : List Byte := (List.range ((bits.length + 7) / 8)).map (dataByte bits)

/-- The sub-blocks of data bytes, every one but the last of 255 bytes, and the terminator (30_encoding.md R93, R95). -/
def subBlocks (data : List Byte) : List Byte :=
  ((List.range ((data.length + 254) / 255)).flatMap fun j =>
    let block := (data.drop (255 * j)).take 255
    BitVec.ofNat 8 block.length :: block) ++ [0]

/-- The whole code stream for masked symbols (30_encoding.md R93). -/
def streamOf (m : Nat) (symbols : List Nat) : List Byte :=
  BitVec.ofNat 8 m :: subBlocks (packBits (bitsOf (codesOf m symbols)))

/-! ### The reference decompressor -/

/-- The bits of data bytes in stream order (20_memory.md R64). -/
def dataBits (data : List Byte) : List Bool := data.flatMap fun b => (List.range 8).map fun j => b.getLsbD j

/-- The value of bits, the first being bit 0. -/
def bitsValue : List Bool → Nat
  | [] => 0
  | b :: bs => (if b then 1 else 0) + 2 * bitsValue bs

/-- How a decompression ends (41_lzw_decompress.md R176). -/
inductive Ending where
  | eoi
  | endOfData
  | long
  | invalid (code : Nat)
  deriving DecidableEq, Repr

/-- The sequence of a code by a table of whole sequences (41_lzw_decompress.md R160). -/
def sequenceOf (m : Nat) (tab : List (Nat × List Byte)) (c : Nat) : List Byte :=
  if c < 2 ^ m then [BitVec.ofNat 8 c] else ((tab.find? fun e => e.1 == c).map fun e => e.2).getD []

/-- The reference decompressor over the bits of the stream (41_lzw_decompress.md R156 to R168): `prev` is the previous data
code's sequence, `tab` maps a code to its sequence, `out` is what has been decoded. The first argument bounds the codes read;
the number of bits is enough. -/
def decodeBits (m n : Nat) : Nat → Nat → Nat → Option (List Byte) → List (Nat × List Byte) → List Byte → List Bool →
    List Byte × Ending
  | 0, _, _, _, _, out, _ => (out, .endOfData)
  | fuel + 1, next, width, prev, tab, out, bits =>
    if bits.length < width then (out, .endOfData)
    else
      let code := bitsValue (bits.take width)
      let bits := bits.drop width
      if code = 2 ^ m then decodeBits m n fuel (2 ^ m + 2) (m + 1) none [] out bits
      else if code = 2 ^ m + 1 then (out, .eoi)
      else
        let symbols :=
          if code < next then some (sequenceOf m tab code)
          else if code = next then prev.map fun s => s ++ [s.headD 0]
          else none
        match symbols with
        | none => (out, .invalid code)
        | some s =>
          if n < out.length + s.length then (out, .long)
          else
            match prev with
            | some p =>
              if next < 4096 then
                decodeBits m n fuel (next + 1) (if 2 ^ width ≤ next + 1 ∧ width < 12 then width + 1 else width) (some s)
                  ((next, p ++ [s.headD 0]) :: tab) (out ++ s) bits
              else decodeBits m n fuel next width (some s) tab (out ++ s) bits
            | none => decodeBits m n fuel next width (some s) tab (out ++ s) bits

/-- What a stream of minimum code size `m` with these data bytes decodes to, `n` symbols expected. -/
def decoded (m n : Nat) (data : List Byte) : List Byte × Ending :=
  decodeBits m n (dataBits data).length (2 ^ m + 2) (m + 1) none [] [] (dataBits data)

/-- The bytes of a code stream whose sub-blocks hold the given data (30_encoding.md R93). -/
def streamBytes (m : Nat) (blocks : List (List Byte)) : List Byte :=
  BitVec.ofNat 8 m :: (blocks.flatMap fun b => BitVec.ofNat 8 b.length :: b) ++ [0]

/-- The data bytes among the first `k` bytes of the sub-blocks, each with its length byte before it (30_encoding.md R93). -/
def dataWithin : List (List Byte) → Nat → List Byte
  | [], _ => []
  | b :: bs, k => b.take (k - 1) ++ dataWithin bs (k - (b.length + 1))

/-! ### Fetching a code (41_lzw_decompress.md R153), without the loop -/

/-- The code in the low d_width bits of the accumulator, which are taken out of it. -/
def codeTaken (w : Lzwd) : CodeFetch :=
  .code { w with acc := w.acc / 2 ^ w.width, nb := w.nb - w.width } (BitVec.ofNat 12 (w.acc % 2 ^ w.width))

/-- A data byte enters the accumulator above the bits held: the next of the open sub-block, or the first of the next one after
its length byte. -/
def feeds (s : State) (w w' : Lzwd) : Prop :=
  ∃ b : Byte,
    (1 ≤ w.sbrem ∧ s.fetchByte .src w.p = .value b ∧
      w' = { w with acc := w.acc + b.toNat * 2 ^ w.nb, nb := w.nb + 8, p := w.p + 1, sbrem := w.sbrem - 1 }) ∨
    (w.sbrem = 0 ∧ ∃ l : Byte, l ≠ 0 ∧ s.fetchByte .src w.p = .value l ∧ s.fetchByte .src (w.p + 1) = .value b ∧
      w' = { w with acc := w.acc + b.toNat * 2 ^ w.nb, nb := w.nb + 8, p := w.p + 2, sbrem := l.toNat - 1 })

/-- The terminator stands where the next length byte is due. -/
def endsData (s : State) (w w' : Lzwd) : Prop :=
  w.sbrem = 0 ∧ s.fetchByte .src w.p = .value 0 ∧ w' = { w with p := w.p + 1, ended := true }

/-- The byte at `a`, due next or after a length byte, cannot be had: it is outside SRC or was never written. -/
def lacks (s : State) (w : Lzwd) (a : Nat) (r : ReadResult) : Prop :=
  s.fetchByte .src a = r ∧ (a = w.p ∨ (a = w.p + 1 ∧ w.sbrem = 0 ∧ ∃ l : Byte, l ≠ 0 ∧ s.fetchByte .src w.p = .value l))

/-- What GetCode answers at `w` if a byte is needed that ends the data or cannot be had, `w₁` being the registers by then. -/
def stopsFetch (s : State) (w w₁ : Lzwd) : Prop :=
  (∀ w', endsData s w₁ w' → getCode s w = .endOfData w') ∧
  (∀ a, lacks s w₁ a .outside → ∃ w', getCode s w = .bounds w' a ∧ w'.op = w.op) ∧
  (∀ a, lacks s w₁ a .unwritten → getCode s w = .unwritten a)

/-! ### The state a command leaves -/

/-- A taken command refused by a check: CMD, the cleared flags and counts, the fault and its info, and nothing else
(43_commands.md R221 c). -/
def refusedState (s : State) (opc : BitVec 4) (code : BitVec 8) (info : Word) : State :=
  { s with
    regs := { s.regs with
      cmd := opc
      status := { done := false, fault := true, warnLong := false, warnShort := false, eoiSeen := false }
      fault := code
      faultInfo := info
      outCount := 0
      pixCount := 0 } }

/-- The four commands that blit, with their opcodes (30_encoding.md R91). -/
def blitCommands : List (Instr × BitVec 4) :=
  [(.blitBgra, 3), (.blitRgba, 4), (.decblitBgra, 5), (.decblitRgba, 6)]

/-- The sequence of a code by the entries of d_tab (41_lzw_decompress.md R160). -/
inductive IsSeq (m : Nat) (tab : List DEntry) : Nat → List Byte → Prop where
  | lit (c : Nat) : c < 2 ^ m → IsSeq m tab c [BitVec.ofNat 8 c]
  | entry (e : DEntry) (bytes : List Byte) : e ∈ tab → 2 ^ m ≤ e.code → IsSeq m tab e.pfx bytes →
      IsSeq m tab e.code (bytes ++ [e.byte])

/-- What a data code that fits leaves (41_lzw_decompress.md R165 to R168): its symbols in IDX, the insertion, `d_prev`, and
everything else as before. -/
structure DataCodeDone (s t : State) (w : Lzwd) (k : Option PixelFormat) (code : Nat) (symbols : List Byte) : Prop where
  symbols_written : t.holds .idx w.op symbols
  idx_outside : keepsOutside .idx w.op symbols.length s t
  rest : ∃ w', t = { s with idx := t.idx, running := .lzwd w' k } ∧
    w'.op = w.op + symbols.length ∧ w'.prev = some code ∧
    (w.prev = none ∨ w.next = 4096 → w'.next = w.next ∧ w'.width = w.width ∧ w'.tab = w.tab) ∧
    (∀ prev, w.prev = some prev → w.next < 4096 →
      w'.next = w.next + 1 ∧
      w'.tab = { code := w.next, pfx := prev, byte := symbols.headD 0 } :: w.tab ∧
      w'.width = if 2 ^ w.width ≤ w.next + 1 ∧ w.width < 12 then w.width + 1 else w.width) ∧
    w'.m = w.m ∧ w'.acc = w.acc ∧ w'.nb = w.nb ∧ w'.p = w.p ∧ w'.sbrem = w.sbrem ∧ w'.ended = w.ended ∧ w'.n = w.n

/-- How a decompression ends without fault (41_lzw_decompress.md R176, R177): zeros in IDX[op .. n-1], OUT_COUNT, the given
warning flags, and everything else as before. A DECOMPRESS sets DONE and leaves GLZ idle; in a DECBLIT BLIT starts in the
command's format, and DONE stays (43_commands.md R229). -/
structure DecompressEnded (s t : State) (andBlit : Option PixelFormat) (op n : Nat) (long short eoi : Bool) : Prop where
  zeros : t.holds .idx op (List.replicate (n - op) 0)
  idx_outside : keepsOutside .idx op (n - op) s t
  rest : t = { s with
    idx := t.idx
    running := match andBlit with
      | none => .idle
      | some fmt => .blit { i := 0, fmt := fmt, cnt := 0 }
    regs := { s.regs with
      status :=
        { done := match andBlit with
            | none => true
            | some _ => s.regs.status.done
          fault := s.regs.status.fault
          warnLong := long
          warnShort := short
          eoiSeen := eoi }
      outCount := BitVec.ofNat 32 op } }

/-- A DECOMPRESS that has returned changed IDX, CMD, STATUS, the fault registers and the counts at most, PIX_COUNT to 0. -/
structure DecompressReturned (s t : State) : Prop where
  idle : t.running = .idle
  src : t.src = s.src
  dst : t.dst = s.dst
  pix : t.pix = s.pix
  host : keepsHost s t
  operands : keepsOperands s t
  cmd : t.regs.cmd = 2
  pixCount : t.regs.pixCount = 0

/-- DECOMPRESS of `n` symbols latched a fault after decoding `out`: IDX holds it, no zero fill is made (41_lzw_decompress.md
R181). -/
structure DecompressFaulted (s t : State) (out : List Byte) (code : BitVec 8) (info : Nat) : Prop where
  symbols : t.holds .idx 0 out
  idx_outside : keepsOutside .idx 0 out.length s t
  count : t.regs.outCount.toNat = out.length
  status : t.regs.status = { done := false, fault := true, warnLong := false, warnShort := false, eoiSeen := false }
  fault : t.regs.fault = code
  info : t.regs.faultInfo = BitVec.ofNat 32 info

/-- DECOMPRESS of `n` symbols completed after decoding `out`: IDX holds it and then zeros (41_lzw_decompress.md R176, R177). -/
structure DecompressCompleted (s t : State) (n : Nat) (out : List Byte) (ending : Ending) : Prop where
  symbols : t.holds .idx 0 (out ++ List.replicate (n - out.length) 0)
  idx_outside : keepsOutside .idx 0 n s t
  count : t.regs.outCount.toNat = out.length
  no_fault : keepsFault s t
  status : t.regs.status = { done := true, fault := false, warnLong := decide (ending = .long),
                             warnShort := decide (ending ≠ .long ∧ out.length ≠ n), eoiSeen := decide (ending = .eoi) }

/-- A pixel of the canvas after BLIT: untouched if its symbol is transparent, else its colour (42_blit.md R199 to R202). -/
def pixelDrawn (s t : State) (fmt : PixelFormat) (i : Nat) (v : Byte) : Prop :=
  if s.regs.blitCtrl.transEn = true ∧ v = s.regs.blitCtrl.transIndex then
    ∀ j < 4, Memory.read t.pix (pixelAddress s.regs i + j) = Memory.read s.pix (pixelAddress s.regs i + j)
  else
    ∃ r g b,
      Memory.read s.src (s.regs.palPtr.toNat + 3 * v.toNat) = some r ∧
      Memory.read s.src (s.regs.palPtr.toNat + 3 * v.toNat + 1) = some g ∧
      Memory.read s.src (s.regs.palPtr.toNat + 3 * v.toNat + 2) = some b ∧
      t.holds .pix (pixelAddress s.regs i) (match fmt with | .bgra => [b, g, r, 255] | .rgba => [r, g, b, 255])

/-- The number of symbols among `v` that are not transparent. -/
def opaqueCount (c : BlitCtrl) (v : List Byte) : Nat :=
  v.countP fun b => !(c.transEn && b == c.transIndex)

/-- The rows of an interlaced frame of height `h` in the order they are stored, the four passes (42_blit.md R194): rows 0, 8,
16, ...; 4, 12, 20, ...; 2, 6, 10, ...; 1, 3, 5, ... -/
def passRows (h : Nat) : List Nat :=
  (List.range h).filter (fun r => r % 8 = 0) ++ (List.range h).filter (fun r => r % 8 = 4) ++
    (List.range h).filter (fun r => r % 4 = 2) ++ (List.range h).filter (fun r => r % 2 = 1)

/-- `x` is one of the four bytes of a pixel of the frame. -/
def inFrame (r : Regs) (x : Nat) : Prop :=
  ∃ i < frameSymbols r, pixelAddress r i ≤ x ∧ x < pixelAddress r i + 4

end Sys2Proof.Claims

open Sys2Proof.Claims

/-! ## Encoding -/

/-- A few words written out from 30_encoding.md R91, R97 and R98 decode to their instructions. -/
def Obligations.SampleWordsDecode : Prop :=
  decodeCommand 0x00000001 = .ok .compress ∧ decodeCommand 0x00000006 = .ok .decblitRgba ∧
  decodeCommand 0x00000007 = .ok .reset ∧ decodeCommand 0x00000017 = .error (.reservedBits 0x17) ∧
  decodeCode { m := 2, next := 6, hasPrev := false } 0x004 = .clear 2 ∧
  decodeCode { m := 8, next := 258, hasPrev := false } 0x101 = .eoi 8 ∧
  decodeCode { m := 3, next := 10, hasPrev := false } 0x004 = .lit 3 4 ∧
  decodeCode { m := 2, next := 8, hasPrev := true } 0x007 = .ref 7 ∧
  decodeCode { m := 2, next := 8, hasPrev := true } 0x008 = .kwk 8 ∧
  decodeCode { m := 2, next := 6, hasPrev := false } 0x006 = .invalid 6

/-- The words of 30_encoding.md R91, all 32 bits taking part in the match, and no others, are commands. -/
def Obligations.SevenCommandWords : Prop :=
  ∀ (word : Word) (i : Instr), decodeCommand word = .ok i ↔
    (word = 0x00000001 ∧ i = .compress) ∨ (word = 0x00000002 ∧ i = .decompress) ∨
    (word = 0x00000003 ∧ i = .blitBgra) ∨ (word = 0x00000004 ∧ i = .blitRgba) ∨
    (word = 0x00000005 ∧ i = .decblitBgra) ∨ (word = 0x00000006 ∧ i = .decblitRgba) ∨
    (word = 0x00000007 ∧ i = .reset)

/-- The six classes of 30_encoding.md R97, by value and by the decompressor's counter, for every code. -/
def Obligations.CodeClassesByValueAndCounter : Prop :=
  ∀ (ctx : CodeContext) (c : BitVec 12), ctx.wf = true →
    (decodeCode ctx c = .clear ctx.m ↔ c.toNat = 2 ^ ctx.m) ∧
    (decodeCode ctx c = .eoi ctx.m ↔ c.toNat = 2 ^ ctx.m + 1) ∧
    ((∃ symbol : Byte, symbol.toNat = c.toNat ∧ decodeCode ctx c = .lit ctx.m symbol) ↔ c.toNat < 2 ^ ctx.m) ∧
    (decodeCode ctx c = .ref c ↔ 2 ^ ctx.m + 2 ≤ c.toNat ∧ c.toNat < ctx.next) ∧
    (decodeCode ctx c = .kwk c ↔ c.toNat = ctx.next ∧ ctx.hasPrev = true) ∧
    (decodeCode ctx c = .invalid c ↔ ctx.next < c.toNat ∨ (c.toNat = ctx.next ∧ ctx.hasPrev = false))

/-- Decoding what the encoder writes gives the instruction back, in every context that admits it. -/
def Obligations.DecodeAfterEncode : Prop :=
  ∀ (ctx : CodeContext) (i : Instr), ctx.wf = true → i.wf = true → i.isCommand = true ∨ ctx.admits i = true →
    decode ctx (encode i) = .ok i

/-- Whatever decodes is well-formed, admitted by the context if it is a code, and encoded by what it was read from. -/
def Obligations.EncodeAfterDecode : Prop :=
  ∀ (ctx : CodeContext) (e : Encoded) (i : Instr), ctx.wf = true → decode ctx e = .ok i →
    encode i = e ∧ i.wf = true ∧ (i.isCommand = true ∨ ctx.admits i = true)

/-! ## The command stage -/

/-- ILLEGAL_COMMAND (60_exceptions.md R300): only FAULT, FAULT_INFO and STATUS.FAULT change. -/
def Obligations.IllegalCommandLatchesOnlyTheFault : Prop :=
  ∀ (s : State) (word : Word), s.ready →
    (word >>> 4 ≠ 0 ∨ word &&& 0xF = 0 ∨ 8 ≤ (word &&& 0xF).toNat) →
    commandWrite word s = .next { s with
      regs := { s.regs with
        status := { s.regs.status with fault := true }
        fault := 0x01
        faultInfo := word } }

/-- The gate (60_exceptions.md R292): with STATUS.FAULT = 1 every CMD word but RESET's is ignored completely, while writes to
registers and the host's accesses to the memories still work. -/
def Obligations.GateIgnoresAllButReset : Prop :=
  ∀ s : State, s.running = .idle → s.regs.status.fault = true →
    (∀ word : Word, word ≠ 0x00000007 → commandWrite word s = .next s) ∧
    (∀ (r : Reg) (v : Word), r ≠ .cmd →
      hostWriteReg (s.cfg.glzBase + r.offset) .word v s = .next { s with regs := regWrite s.regs v r }) ∧
    (∀ (space : Space) (a : Nat) (b : Byte), a < s.cfg.size space →
      hostWriteMem space a b s = .next (s.setMemory space (Memory.write (s.memory space) a b))) ∧
    (∀ (space : Space) (a : Nat) (b : Byte), a < s.cfg.size space → Memory.read (s.memory space) a = some b →
      hostReadMem space a s = .next { s with readData := b.setWidth 32 })

/-- RESET (43_commands.md R231), taken in every state in which no unit runs, also with a fault latched. -/
def Obligations.ResetClearsStatusAndCounts : Prop :=
  ∀ s : State, s.running = .idle →
    exec .reset s = .next { s with
      regs := { s.regs with
        cmd := 0
        status := { done := false, fault := false, warnLong := false, warnShort := false, eoiSeen := false }
        fault := 0
        faultInfo := 0
        outCount := 0
        pixCount := 0 } }

/-- The checks of COMPRESS in their order (43_commands.md R223). -/
def Obligations.CompressChecksInOrder : Prop :=
  ∀ s : State, s.ready →
    let m := s.regs.minCode.toNat
    let len := s.regs.idxLen.toNat
    (m < 2 ∨ 8 < m → exec .compress s = .next (refusedState s 1 0x02 (BitVec.ofNat 32 m))) ∧
    (2 ≤ m ∧ m ≤ 8 → len = 0 → exec .compress s = .next (refusedState s 1 0x03 0)) ∧
    (2 ≤ m ∧ m ≤ 8 → 1 ≤ len → s.cfg.size .idx < len → exec .compress s = .next (refusedState s 1 0x07 1))

/-- The check of DECOMPRESS, made before any byte of SRC is read (43_commands.md R224, 60_exceptions.md R293). -/
def Obligations.DecompressLengthCheck : Prop :=
  ∀ s : State, s.ready → s.cfg.size .idx < s.regs.idxLen.toNat →
    exec .decompress s = .next (refusedState s 2 0x07 1)

/-- The eight blit checks, made alike by the four blit commands and in this order, before any memory is read
(43_commands.md R225). -/
def Obligations.BlitChecksInOrder : Prop :=
  ∀ (s : State) (c : Instr × BitVec 4), s.ready → c ∈ blitCommands →
    let cw := s.regs.canvas.w.toNat
    let ch := s.regs.canvas.h.toNat
    let x := s.regs.framePos.x.toNat
    let y := s.regs.framePos.y.toNat
    let w := s.regs.frameSize.w.toNat
    let h := s.regs.frameSize.h.toNat
    let n := s.regs.palSize.toNat
    let refuses := fun (code : BitVec 8) (info : Nat) =>
      exec c.1 s = .next (refusedState s c.2 code (BitVec.ofNat 32 info))
    if cw = 0 ∨ ch = 0 then refuses 0x04 0
    else if w = 0 ∨ h = 0 then refuses 0x04 1
    else if cw < x + w then refuses 0x05 0
    else if ch < y + h then refuses 0x05 1
    else if n ∉ [2, 4, 8, 16, 32, 64, 128, 256] then refuses 0x06 n
    else if s.cfg.size .idx < w * h then refuses 0x07 1
    else if s.cfg.size .pix < 4 * cw * ch then refuses 0x07 2
    else s.cfg.size .src < s.regs.palPtr.toNat + 3 * n → refuses 0x07 3

/-! ## COMPRESS -/

/-- COMPRESS completes whenever its operands pass the checks, its symbols are written and the stream fits in DST, and appends
exactly the reference stream (40_lzw_compress.md R120, R136): the new cursor, the count, DONE, and nothing else changes. -/
def Obligations.CompressAppendsReferenceStream : Prop :=
  ∀ (s : State) (symbols : List Byte),
    let m := s.regs.minCode.toNat
    let cursor := s.regs.dstPtr.toNat
    let stream := streamOf m (symbols.map fun b => b.toNat % 2 ^ m)
    s.ready → 2 ≤ m ∧ m ≤ 8 → symbols ≠ [] → s.regs.idxLen.toNat = symbols.length → symbols.length ≤ s.cfg.size .idx →
    s.holds .idx 0 symbols → cursor + stream.length ≤ s.cfg.size .dst →
    ∃ t, exec .compress s = .next t ∧ t.holds .dst cursor stream ∧ keepsOutside .dst cursor stream.length s t ∧
      t = { s with
        dst := t.dst
        regs := { s.regs with
          cmd := 1
          status := { done := true, fault := false, warnLong := false, warnShort := false, eoiSeen := false }
          dstPtr := BitVec.ofNat 32 (cursor + stream.length)
          outCount := BitVec.ofNat 32 stream.length
          pixCount := 0 } }

/-- An accepted COMPRESS whose symbols are written answers a next state: completed, or DST_BOUNDS at the first write not below
DST_SIZE, with DST_PTR as it was (40_lzw_compress.md R134, R135, 20_memory.md R66). Either way only DST from the old cursor up
has changed. At DST_BOUNDS, with `room` bytes from the cursor to the end of DST: OUT_COUNT is the cursor's advance, one more
than `room` where the byte at DST_SIZE is reserved for a length byte (at offset 1 + 256 k of the stream, 30_encoding.md R93);
every byte is written but the length byte of the open sub-block (60_exceptions.md R291), which is written only if the
terminator alone does not fit. -/
def Obligations.CompressEndsDoneOrDstBounds : Prop :=
  ∀ s : State, s.ready → 2 ≤ s.regs.minCode.toNat ∧ s.regs.minCode.toNat ≤ 8 → 1 ≤ s.regs.idxLen.toNat →
    s.written .idx 0 s.regs.idxLen.toNat →
    ∃ t, exec .compress s = .next t ∧ t.running = .idle ∧ t.src = s.src ∧ t.idx = s.idx ∧ t.pix = s.pix ∧
      keepsHost s t ∧ keepsOperandsButDst s t ∧ t.regs.cmd = 1 ∧ t.regs.pixCount = 0 ∧
      ((t.regs.status = { done := true, fault := false, warnLong := false, warnShort := false, eoiSeen := false } ∧
          keepsFault s t ∧
          s.regs.dstPtr.toNat + 5 ≤ t.regs.dstPtr.toNat ∧ t.regs.dstPtr.toNat ≤ s.cfg.size .dst ∧
          t.regs.outCount.toNat = t.regs.dstPtr.toNat - s.regs.dstPtr.toNat ∧
          t.written .dst s.regs.dstPtr.toNat t.regs.outCount.toNat ∧
          keepsOutside .dst s.regs.dstPtr.toNat t.regs.outCount.toNat s t) ∨
        (t.regs.status = { done := false, fault := true, warnLong := false, warnShort := false, eoiSeen := false } ∧
          t.regs.fault = 0x11 ∧ t.regs.dstPtr = s.regs.dstPtr ∧
          (s.cfg.size .dst ≤ s.regs.dstPtr.toNat →
            t.regs.faultInfo = s.regs.dstPtr ∧ t.regs.outCount = 0 ∧ t.dst = s.dst) ∧
          (s.regs.dstPtr.toNat < s.cfg.size .dst →
            let room := s.cfg.size .dst - s.regs.dstPtr.toNat
            ((room % 256 ≠ 1 ∧ t.regs.faultInfo = BitVec.ofNat 32 (s.cfg.size .dst) ∧ t.regs.outCount = BitVec.ofNat 32 room) ∨
              (room % 256 = 1 ∧ t.regs.outCount = BitVec.ofNat 32 (room + 1) ∧
                (t.regs.faultInfo = BitVec.ofNat 32 (s.cfg.size .dst) ∨
                  t.regs.faultInfo = BitVec.ofNat 32 (s.cfg.size .dst + 1)))) ∧
            ∀ j < room,
              let before := Memory.read s.dst (s.regs.dstPtr.toNat + j)
              let after := Memory.read t.dst (s.regs.dstPtr.toNat + j)
              if j % 256 = 1 ∧ room < j + 256 then
                after = before ∨
                  (t.regs.faultInfo = BitVec.ofNat 32 (s.cfg.size .dst) ∧ after = some (BitVec.ofNat 8 (room - j - 1)))
              else ∃ b, after = some b) ∧
          keepsOutside .dst s.regs.dstPtr.toNat (s.cfg.size .dst - s.regs.dstPtr.toNat) s t))

/-- A COMPRESS whose stream does not fit in DST latches DST_BOUNDS and leaves exactly the bytes of the reference stream that fit,
but for the length byte of the sub-block it was filling (40_lzw_compress.md R132, R135, 60_exceptions.md R291), with DST_PTR
as it was, OUT_COUNT the cursor's advance, and nothing else changed. The length byte is missing if the sub-block is not the
last one or lacks data, so if more than the terminator does not fit; a byte reserved at DST_SIZE is passed over. -/
def Obligations.CompressOutOfRoomKeepsItsPrefix : Prop :=
  ∀ (s : State) (symbols : List Byte),
    let m := s.regs.minCode.toNat
    let cursor := s.regs.dstPtr.toNat
    let size := s.cfg.size .dst
    let room := size - cursor
    let stream := streamOf m (symbols.map fun b => b.toNat % 2 ^ m)
    s.ready → 2 ≤ m ∧ m ≤ 8 → symbols ≠ [] → s.regs.idxLen.toNat = symbols.length → symbols.length ≤ s.cfg.size .idx →
    s.holds .idx 0 symbols → size < cursor + stream.length →
    ∃ t, exec .compress s = .next t ∧
      (∀ j < room, Memory.read t.dst (cursor + j) =
        if j % 256 = 1 ∧ room < j + 256 ∧ room + 1 < stream.length then Memory.read s.dst (cursor + j) else stream[j]?) ∧
      keepsOutside .dst cursor room s t ∧
      t = { s with
        dst := t.dst
        regs := { s.regs with
          cmd := 1
          status := { done := false, fault := true, warnLong := false, warnShort := false, eoiSeen := false }
          fault := 0x11
          faultInfo := BitVec.ofNat 32
            (if size ≤ cursor then cursor else if room % 256 = 1 ∧ room + 1 < stream.length then size + 1 else size)
          outCount := BitVec.ofNat 32 (if size ≤ cursor then 0 else if room % 256 = 1 then room + 1 else room)
          pixCount := 0 } }

/-- After a COMPRESS that ran out of DST the host provides a larger DST, writes RESET and the command again
(44_host_container.md R254): if the stream fits now, the command completes from the unchanged DST_PTR as it would have, the
bytes below the old cursor still standing. That the host's act is an entry of `script` is the model's (log entries 6, 24). -/
def Obligations.LargerDstLetsCompressRepeat : Prop :=
  ∀ (s t : State) (size : Fin 4294967296) (symbols : List Byte),
    let m := s.regs.minCode.toNat
    let cursor := s.regs.dstPtr.toNat
    let stream := streamOf m (symbols.map fun b => b.toNat % 2 ^ m)
    s.ready → 2 ≤ m ∧ m ≤ 8 → symbols ≠ [] → s.regs.idxLen.toNat = symbols.length → symbols.length ≤ s.cfg.size .idx →
    s.holds .idx 0 symbols → exec .compress s = .next t → t.regs.fault = 0x11 → t.regs.status.fault = true →
    cursor + stream.length ≤ size.val →
    ∃ u, Sys2Proof.core.run 3 { t with
        script := [.provideDst size, .writeReg s.cfg.glzBase .word 7, .writeReg s.cfg.glzBase .word 1] } = .next u ∧
      u.holds .dst cursor stream ∧ (∀ x < cursor, Memory.read u.dst x = Memory.read s.dst x) ∧
      u = { s with
        cfg := { s.cfg with dstSize := size }
        dst := u.dst
        script := []
        regs := { s.regs with
          cmd := 1
          status := { done := true, fault := false, warnLong := false, warnShort := false, eoiSeen := false }
          fault := 0
          faultInfo := 0
          dstPtr := BitVec.ofNat 32 (cursor + stream.length)
          outCount := BitVec.ofNat 32 stream.length
          pixCount := 0 } }

/-- The bytes COMPRESS writes depend on the minimum code size and the masked symbols only (40_lzw_compress.md R120): not on the
cursor, nor on anything else of the state. -/
def Obligations.CompressOutputDependsOnSymbolsOnly : Prop :=
  ∀ s₁ s₂ t₁ t₂ : State, s₁.ready → s₂.ready →
    s₁.regs.minCode = s₂.regs.minCode → s₁.regs.idxLen = s₂.regs.idxLen →
    (∀ j < s₁.regs.idxLen.toNat, ∃ a b, Memory.read s₁.idx j = some a ∧ Memory.read s₂.idx j = some b ∧
      a.toNat % 2 ^ s₁.regs.minCode.toNat = b.toNat % 2 ^ s₁.regs.minCode.toNat) →
    exec .compress s₁ = .next t₁ → exec .compress s₂ = .next t₂ →
    t₁.regs.status.done = true → t₂.regs.status.done = true →
    t₁.regs.outCount = t₂.regs.outCount ∧
      ∀ j < t₁.regs.outCount.toNat,
        Memory.read t₁.dst (s₁.regs.dstPtr.toNat + j) = Memory.read t₂.dst (s₂.regs.dstPtr.toNat + j)

/-- Compressing, copying the stream from DST to SRC, and decompressing gives the masked symbols back, with no warning
(40_lzw_compress.md R120, 44_host_container.md R268); EOI_SEEN is left open (41_lzw_decompress.md R179). -/
def Obligations.CompressThenDecompressReturnsSymbols : Prop :=
  ∀ s t u : State, s.ready → exec .compress s = .next t → t.regs.status.done = true →
    u.ready → u.regs.idxLen = s.regs.idxLen → u.regs.idxLen.toNat ≤ u.cfg.size .idx →
    u.regs.srcPtr.toNat + t.regs.outCount.toNat ≤ u.cfg.size .src →
    (∀ j < t.regs.outCount.toNat,
      Memory.read u.src (u.regs.srcPtr.toNat + j) = Memory.read t.dst (s.regs.dstPtr.toNat + j)) →
    ∃ v, exec .decompress u = .next v ∧ v.running = .idle ∧
      v.regs.status.done = true ∧ v.regs.status.fault = false ∧ v.regs.status.warnLong = false ∧
      v.regs.status.warnShort = false ∧ v.regs.outCount = u.regs.idxLen ∧
      ∀ j < u.regs.idxLen.toNat, ∃ a b, Memory.read s.idx j = some a ∧ Memory.read v.idx j = some b ∧
        b.toNat = a.toNat % 2 ^ s.regs.minCode.toNat

/-- A hit of LZWC (40_lzw_compress.md R124, R125): if the table maps the key of prefix code and masked symbol to a code, the
prefix advances to it, and nothing else changes. -/
def Obligations.CompressorHitEmitsNothing : Prop :=
  ∀ (s : State) (w : Lzwc) (b : Byte) (e : CEntry), s.running = .lzwc w → w.i < s.regs.idxLen.toNat →
    s.fetchByte .idx w.i = .value b → e ∈ w.tab → e.pfx = w.pfx → e.symbol = b.toNat % 2 ^ w.m →
    (∀ x ∈ w.tab, x.pfx = e.pfx → x.symbol = e.symbol → x.code = e.code) →
    step s = .next { s with running := .lzwc { w with pfx := e.code, i := w.i + 1 } }

/-! ## The codes of the stream -/

/-- LIT (41_lzw_decompress.md R161, R165 to R168): a literal that fits is written and the machine goes on. -/
def Obligations.LitWritesItsSymbol : Prop :=
  ∀ (s : State) (w : Lzwd) (k : Option PixelFormat) (m : Nat) (symbol : Byte),
    s.running = .lzwd w k → w.m = m → symbol.toNat < 2 ^ m → w.op + 1 ≤ w.n → w.n ≤ s.cfg.size .idx → w.next ≤ 4096 →
    ∃ t, exec (.lit m symbol) s = .next t ∧ DataCodeDone s t w k symbol.toNat [symbol]

/-- REF (41_lzw_decompress.md R162, R165 to R168): the sequence of a defined entry, if it fits, is written. -/
def Obligations.RefWritesItsSequence : Prop :=
  ∀ (s : State) (w : Lzwd) (k : Option PixelFormat) (code : BitVec 12) (symbols : List Byte),
    s.running = .lzwd w k → w.Ok s.cfg → 2 ^ w.m + 2 ≤ code.toNat → code.toNat < w.next →
    IsSeq w.m w.tab code.toNat symbols → w.op + symbols.length ≤ w.n →
    ∃ t, exec (.ref code) s = .next t ∧ DataCodeDone s t w k code.toNat symbols

/-- KWK (41_lzw_decompress.md R163, R165 to R168): the previous sequence followed by its first symbol, if it fits, is written,
and the code becomes an entry of exactly that sequence. -/
def Obligations.KwkRepeatsTheFirstSymbol : Prop :=
  ∀ (s : State) (w : Lzwd) (k : Option PixelFormat) (code : BitVec 12) (prev : Nat) (first : Byte) (rest : List Byte),
    s.running = .lzwd w k → w.Ok s.cfg → code.toNat = w.next → w.prev = some prev →
    IsSeq w.m w.tab prev (first :: rest) → w.op + (rest.length + 2) ≤ w.n →
    ∃ t w', exec (.kwk code) s = .next t ∧ DataCodeDone s t w k code.toNat ((first :: rest) ++ [first]) ∧
      t.running = .lzwd w' k ∧ IsSeq w'.m w'.tab code.toNat ((first :: rest) ++ [first])

/-- Under the invariant every data code has a sequence, and only one (41_lzw_decompress.md R160, R166). -/
def Obligations.EveryDefinedCodeHasOneSequence : Prop :=
  ∀ (cfg : Config) (w : Lzwd) (c : Nat), w.Ok cfg → DataCode w.m w.next c →
    ∃ symbols, symbols ≠ [] ∧ symbols.length ≤ 4096 - 2 ^ w.m - 1 ∧ IsSeq w.m w.tab c symbols ∧
      ∀ other, IsSeq w.m w.tab c other → other = symbols

/-- CLEAR (41_lzw_decompress.md R157): table, width and previous code return to the start, and nothing else changes. -/
def Obligations.ClearResetsTableAndWidth : Prop :=
  ∀ (s : State) (w : Lzwd) (k : Option PixelFormat) (m : Nat), s.running = .lzwd w k → w.m = m →
    exec (.clear m) s = .next { s with
      running := .lzwd { w with next := 2 ^ m + 2, width := m + 1, prev := none, tab := [] } k }

/-- EOI at the end of a DECOMPRESS (41_lzw_decompress.md R158, R176 a, R177): EOI_SEEN, WARN_SHORT exactly when the output is
short, zeros in the rest of IDX, OUT_COUNT, DONE. -/
def Obligations.EoiEndsDecompress : Prop :=
  ∀ (s : State) (w : Lzwd) (m : Nat), s.running = .lzwd w none → w.m = m → w.op ≤ w.n → w.n ≤ s.cfg.size .idx →
    w.op < 4294967296 → s.regs.status.warnLong = false → s.regs.status.warnShort = false →
    ∃ t, exec (.eoi m) s = .next t ∧ DecompressEnded s t none w.op w.n false (decide (w.op ≠ w.n)) true

/-- EOI in a DECBLIT command (43_commands.md R229): as for DECOMPRESS, but BLIT starts in the command's format and DONE stays. -/
def Obligations.EoiStartsBlitInDecblit : Prop :=
  ∀ (s : State) (w : Lzwd) (fmt : PixelFormat) (m : Nat), s.running = .lzwd w (some fmt) → w.m = m → w.op ≤ w.n →
    w.n ≤ s.cfg.size .idx → w.op < 4294967296 →
    ∃ t, exec (.eoi m) s = .next t ∧ t.holds .idx w.op (List.replicate (w.n - w.op) 0) ∧
      keepsOutside .idx w.op (w.n - w.op) s t ∧
      t = { s with
        idx := t.idx
        running := .blit { i := 0, fmt := fmt, cnt := 0 }
        regs := { s.regs with
          status := { s.regs.status with
            warnShort := s.regs.status.warnShort || decide (w.op ≠ w.n)
            eoiSeen := true }
          outCount := BitVec.ofNat 32 w.op } }

/-- INVALID (41_lzw_decompress.md R164, R181, 60_exceptions.md R309): INVALID_CODE with the code as info, OUT_COUNT the symbols
written so far, nothing of this code written, no zero fill, idle. -/
def Obligations.InvalidCodeFaults : Prop :=
  ∀ (s : State) (w : Lzwd) (k : Option PixelFormat) (code : BitVec 12), s.running = .lzwd w k →
    2 ^ w.m + 2 ≤ code.toNat → (w.next < code.toNat ∨ (code.toNat = w.next ∧ w.prev = none)) →
    w.op < 4294967296 → s.regs.status.fault = false →
    exec (.invalid code) s = .next { s with
      running := .idle
      regs := { s.regs with
        status := { s.regs.status with fault := true }
        fault := 0x12
        faultInfo := code.setWidth 32
        outCount := BitVec.ofNat 32 w.op } }

/-- A data code that does not fit (41_lzw_decompress.md R165, R176 c, R177): nothing of it is written, WARN_LONG, no short
test, zeros from the output pointer on; DONE in a DECOMPRESS, BLIT in a DECBLIT (43_commands.md R229). For LIT, REF and
KWK. -/
def Obligations.CodeThatDoesNotFitIsDroppedWhole : Prop :=
  ∀ (s : State) (w : Lzwd) (k : Option PixelFormat) (i : Instr) (symbols : List Byte), s.running = .lzwd w k → w.Ok s.cfg →
    w.op < 4294967296 → s.regs.status.warnShort = false → s.regs.status.eoiSeen = false →
    w.context.admits i = true →
    ((∃ symbol, i = .lit w.m symbol ∧ symbols = [symbol]) ∨
      (∃ code, i = .ref code ∧ IsSeq w.m w.tab code.toNat symbols) ∨
      (∃ code prev first rest, i = .kwk code ∧ w.prev = some prev ∧ IsSeq w.m w.tab prev (first :: rest) ∧
        symbols = (first :: rest) ++ [first])) →
    w.n < w.op + symbols.length →
    ∃ t, exec i s = .next t ∧ DecompressEnded s t k w.op w.n true false false

/-- A code runs only while LZWD runs, and only as the class the decompressor's state gives it (00_scope.md R2, 30_encoding.md
R97), the model's refusals of log entry 10; and a code run as the class the decoder gives it in that state is never
refused. -/
def Obligations.CodesRunOnlyWhereTheyAreRead : Prop :=
  ∀ (s : State) (i : Instr), i.isCommand = false →
    ((∀ w k, s.running ≠ .lzwd w k) → exec i s = .refused .noCodeStream) ∧
    (∀ w k, s.running = .lzwd w k → w.context.admits i = false → exec i s = .refused .codeOutOfContext) ∧
    (∀ w k code, s.running = .lzwd w k → w.context.wf = true → decodeCode w.context code = i →
      w.context.admits i = true ∧ ∀ r, exec i s ≠ .refused r)

/-! ## Fetching codes, and the step -/

/-- `GetCode` (41_lzw_decompress.md R153, R154, R181), for every number of data bytes it can need: none, one or two, since a
code has at most 12 bits. The low d_width bits are taken and the rest kept; a byte is read only if the code needs it; the
terminator ends the data, a byte outside SRC is SRC_BOUNDS, and a byte never written the model's fault (93 U1, log entry 4). -/
def Obligations.GetCodeTakesTheLowBits : Prop :=
  ∀ (s : State) (w : Lzwd), 1 ≤ w.width → w.width ≤ 12 → w.acc < 2 ^ w.nb →
    (w.width ≤ w.nb → getCode s w = codeTaken w) ∧
    (w.nb < w.width → w.ended = true → getCode s w = .endOfData w) ∧
    (w.nb < w.width → w.ended = false →
      stopsFetch s w w ∧
      ∀ w₁, feeds s w w₁ →
        (w.width ≤ w.nb + 8 → getCode s w = codeTaken w₁) ∧
        (w.nb + 8 < w.width →
          stopsFetch s w w₁ ∧ ∀ w₂, feeds s w₁ w₂ → getCode s w = codeTaken w₂))

/-- With LZWD running, a step is `exec` of the fetched code, at the state in which its bits have been taken; or the end of
data, or SRC_BOUNDS, or the model's fault for a byte never written. -/
def Obligations.StepRunsTheFetchedCode : Prop :=
  ∀ (s : State) (w : Lzwd) (k : Option PixelFormat), s.running = .lzwd w k →
    (∀ w' c, getCode s w = .code w' c → step s = exec (decodeCode w'.context c) { s with running := .lzwd w' k }) ∧
    (∀ w', getCode s w = .endOfData w' → w'.op ≤ w'.n → w'.n ≤ s.cfg.size .idx → w'.op < 4294967296 →
      s.regs.status.warnLong = false → s.regs.status.warnShort = false → s.regs.status.eoiSeen = false →
      ∃ t, step s = .next t ∧ DecompressEnded s t k w'.op w'.n false (decide (w'.op ≠ w'.n)) false) ∧
    (∀ w' a, getCode s w = .bounds w' a → w'.op < 4294967296 → s.regs.status.fault = false →
      step s = .next { s with
        running := .idle
        regs := { s.regs with
          status := { s.regs.status with fault := true }
          fault := 0x10
          faultInfo := BitVec.ofNat 32 a
          outCount := BitVec.ofNat 32 w'.op } }) ∧
    (∀ a, getCode s w = .unwritten a → step s = .fault (.unwrittenRead .src a))

/-- With GLZ idle and a write of a command word to CMD the host's next action, a step is `exec` of the decoded command, with
that action taken from the script. -/
def Obligations.StepRunsTheWrittenCommand : Prop :=
  ∀ (s : State) (word : Word) (i : Instr) (rest : List HostAction), s.running = .idle →
    s.script = .writeReg s.cfg.glzBase .word word :: rest → decodeCommand word = .ok i →
    step s = exec i { s with script := rest }

/-- With GLZ idle and no action left, a step changes nothing (log entry 6). -/
def Obligations.IdleWithoutActionsStays : Prop :=
  ∀ s : State, s.running = .idle → s.script = [] → step s = .next s

/-! ## DECOMPRESS and DECBLIT -/

/-- DECOMPRESS of a stream that lies in SRC does what the reference decompressor says (41_lzw_decompress.md R150, R178): its
symbols in IDX, then zeros unless it faulted, OUT_COUNT, the flags, and nothing else. -/
def Obligations.DecompressComputesReference : Prop :=
  ∀ (s : State) (m : Nat) (blocks : List (List Byte)),
    let n := s.regs.idxLen.toNat
    let stream := streamBytes m blocks
    s.ready → 2 ≤ m ∧ m ≤ 8 → (∀ b ∈ blocks, 1 ≤ b.length ∧ b.length ≤ 255) → n ≤ s.cfg.size .idx →
    s.regs.srcPtr.toNat + stream.length ≤ s.cfg.size .src → s.holds .src s.regs.srcPtr.toNat stream →
    ∃ t, exec .decompress s = .next t ∧ DecompressReturned s t ∧
      match decoded m n blocks.flatten with
      | (out, .invalid code) => DecompressFaulted s t out 0x12 code
      | (out, ending) => DecompressCompleted s t n out ending

/-- DECOMPRESS of a stream that SRC ends in the middle of, of which SRC holds `k` bytes (41_lzw_decompress.md R153, R181,
20_memory.md R65, 60_exceptions.md R291): as the reference decompressor says of the data bytes that SRC holds, but where these
end before a code is whole, SRC_BOUNDS at the first address outside SRC, with the symbols decoded so far in IDX and no zero
fill. No byte is read ahead: a stream that ends before the end of SRC completes. -/
def Obligations.DecompressStopsAtTheEndOfSrc : Prop :=
  ∀ (s : State) (m k : Nat) (blocks : List (List Byte)),
    let n := s.regs.idxLen.toNat
    let stream := streamBytes m blocks
    s.ready → 2 ≤ m ∧ m ≤ 8 → (∀ b ∈ blocks, 1 ≤ b.length ∧ b.length ≤ 255) → n ≤ s.cfg.size .idx →
    1 ≤ k → k < stream.length → s.regs.srcPtr.toNat + k = s.cfg.size .src →
    s.holds .src s.regs.srcPtr.toNat (stream.take k) →
    ∃ t, exec .decompress s = .next t ∧ DecompressReturned s t ∧
      match decoded m n (dataWithin blocks (k - 1)) with
      | (out, .endOfData) => DecompressFaulted s t out 0x10 (s.cfg.size .src)
      | (out, .invalid code) => DecompressFaulted s t out 0x12 code
      | (out, ending) => DecompressCompleted s t n out ending

/-- The empty stream `[m][0]` (41_lzw_decompress.md R182 b): DECOMPRESS completes with every expected symbol 0. -/
def Obligations.DecompressOfEmptyStreamFillsZeros : Prop :=
  ∀ (s : State) (m : Byte), s.ready → 2 ≤ m.toNat ∧ m.toNat ≤ 8 → s.regs.idxLen.toNat ≤ s.cfg.size .idx →
    s.fetchByte .src s.regs.srcPtr.toNat = .value m → s.fetchByte .src (s.regs.srcPtr.toNat + 1) = .value 0 →
    ∃ t, exec .decompress s = .next t ∧ t.holds .idx 0 (List.replicate s.regs.idxLen.toNat 0) ∧
      keepsOutside .idx 0 s.regs.idxLen.toNat s t ∧
      t = { s with
        idx := t.idx
        regs := { s.regs with
          cmd := 2
          status := { done := true, fault := false, warnLong := false, warnShort := decide (s.regs.idxLen ≠ 0),
                      eoiSeen := false }
          outCount := 0
          pixCount := 0 } }

/-- The first byte of the stream (41_lzw_decompress.md R152, R181, 60_exceptions.md R301, R307): outside SRC, SRC_BOUNDS; not
in 2 .. 8, BAD_MIN_CODE with the byte; never written, the model's fault (93 U1). Nothing is written. -/
def Obligations.DecompressFirstByte : Prop :=
  ∀ s : State, s.ready → s.regs.idxLen.toNat ≤ s.cfg.size .idx →
    (s.cfg.size .src ≤ s.regs.srcPtr.toNat → exec .decompress s = .next (refusedState s 2 0x10 s.regs.srcPtr)) ∧
    (∀ b, s.fetchByte .src s.regs.srcPtr.toNat = .value b → b.toNat < 2 ∨ 8 < b.toNat →
      exec .decompress s = .next (refusedState s 2 0x02 (b.setWidth 32))) ∧
    (s.regs.srcPtr.toNat < s.cfg.size .src → Memory.read s.src s.regs.srcPtr.toNat = none →
      exec .decompress s = .fault (.unwrittenRead .src s.regs.srcPtr.toNat))

/-- DECBLIT is DECOMPRESS of the frame's symbols followed by BLIT in its format (43_commands.md R229, R230): it leaves what the
two commands leave, except that IDX_LEN keeps its value and the decompression's flags and count stand; and if the
decompression faults, BLIT does not run. -/
def Obligations.DecblitIsDecompressThenBlit : Prop :=
  ∀ (s u : State) (fused blit : Instr) (opc : BitVec 4),
    (fused = .decblitBgra ∧ blit = .blitBgra ∧ opc = 5) ∨ (fused = .decblitRgba ∧ blit = .blitRgba ∧ opc = 6) →
    s.ready → FrameOk s.cfg s.regs →
    exec .decompress { s with regs := { s.regs with idxLen := BitVec.ofNat 32 (frameSymbols s.regs) } } = .next u →
    (u.regs.status.fault = true →
      exec fused s = .next { u with regs := { u.regs with cmd := opc, idxLen := s.regs.idxLen } }) ∧
    (∀ v, u.regs.status.fault = false → exec blit u = .next v →
      exec fused s = .next { v with
        regs := { v.regs with
          cmd := opc
          idxLen := s.regs.idxLen
          outCount := u.regs.outCount
          status := { v.regs.status with
            warnLong := u.regs.status.warnLong
            warnShort := u.regs.status.warnShort
            eoiSeen := u.regs.status.eoiSeen } } })

/-- DECBLIT_BGRA and DECBLIT_RGBA complete on the empty stream `[m][0]` when every symbol 0 is transparent or has its three
palette bytes written (43_commands.md R229, 42_blit.md R209 h): zeros in IDX, WARN_SHORT, and the frame drawn in colour 0 or
left as it was. -/
def Obligations.DecblitOfEmptyStreamCompletes : Prop :=
  ∀ (s : State) (m : Byte) (c : Instr × BitVec 4 × PixelFormat),
    c ∈ [(Instr.decblitBgra, 5, PixelFormat.bgra), (Instr.decblitRgba, 6, PixelFormat.rgba)] →
    s.ready → FrameOk s.cfg s.regs → 2 ≤ m.toNat ∧ m.toNat ≤ 8 →
    s.fetchByte .src s.regs.srcPtr.toNat = .value m → s.fetchByte .src (s.regs.srcPtr.toNat + 1) = .value 0 →
    ((s.regs.blitCtrl.transEn = true ∧ s.regs.blitCtrl.transIndex = 0) ∨ s.written .src s.regs.palPtr.toNat 3) →
    ∃ t, exec c.1 s = .next t ∧ t.holds .idx 0 (List.replicate (frameSymbols s.regs) 0) ∧
      keepsOutside .idx 0 (frameSymbols s.regs) s t ∧
      (∀ i < frameSymbols s.regs, pixelDrawn s t c.2.2 i 0) ∧
      (∀ x, ¬ inFrame s.regs x → Memory.read t.pix x = Memory.read s.pix x) ∧
      t = { s with
        idx := t.idx
        pix := t.pix
        regs := { s.regs with
          cmd := c.2.1
          status := { done := true, fault := false, warnLong := false, warnShort := true, eoiSeen := false }
          outCount := 0
          pixCount := BitVec.ofNat 32
            (if s.regs.blitCtrl.transEn = true ∧ s.regs.blitCtrl.transIndex = 0 then 0 else frameSymbols s.regs) } }

/-- DECOMPRESS and the blit commands are idempotent (43_commands.md R235 d): written twice, a completed command leaves the
second time what it left the first. -/
def Obligations.RepeatedCommandChangesNothing : Prop :=
  ∀ (s t : State) (i : Instr), i ∈ [Instr.decompress, .blitBgra, .blitRgba, .decblitBgra, .decblitRgba] → s.ready →
    s.MemoriesOk → exec i s = .next t → t.regs.status.done = true → exec i t = .next t

/-! ## BLIT -/

/-- BLIT_BGRA and BLIT_RGBA complete whenever the checks pass, the symbols are written, and every symbol is transparent, or
below PAL_SIZE.N with its three palette bytes written (42_blit.md R190 to R204): the frame's pixels are drawn, no other byte
of PIX changes, and PIX_COUNT is the number of symbols that are not transparent. -/
def Obligations.BlitDrawsTheFrame : Prop :=
  ∀ (s : State) (symbols : List Byte) (c : Instr × BitVec 4 × PixelFormat),
    c ∈ [(Instr.blitBgra, 3, PixelFormat.bgra), (Instr.blitRgba, 4, PixelFormat.rgba)] →
    s.ready → FrameOk s.cfg s.regs → symbols.length = frameSymbols s.regs → s.holds .idx 0 symbols →
    (∀ v ∈ symbols, (s.regs.blitCtrl.transEn = true ∧ v = s.regs.blitCtrl.transIndex) ∨
      (v.toNat < s.regs.palSize.toNat ∧ s.written .src (s.regs.palPtr.toNat + 3 * v.toNat) 3)) →
    ∃ t, exec c.1 s = .next t ∧
      (∀ i v, symbols[i]? = some v → pixelDrawn s t c.2.2 i v) ∧
      (∀ x, ¬ inFrame s.regs x → Memory.read t.pix x = Memory.read s.pix x) ∧
      t = { s with
        pix := t.pix
        regs := { s.regs with
          cmd := c.2.1
          status := { done := true, fault := false, warnLong := false, warnShort := false, eoiSeen := false }
          outCount := 0
          pixCount := BitVec.ofNat 32 (opaqueCount s.regs.blitCtrl symbols) } }

/-- A frame whose every symbol is transparent (42_blit.md R199, R209 d): PIX is unchanged, PIX_COUNT is 0, DONE is 1, and no
byte of the palette is needed. -/
def Obligations.TransparentFrameLeavesCanvas : Prop :=
  ∀ (s : State) (c : Instr × BitVec 4), c ∈ [(Instr.blitBgra, 3), (Instr.blitRgba, 4)] → s.ready → FrameOk s.cfg s.regs →
    s.regs.blitCtrl.transEn = true → (∀ i < frameSymbols s.regs, Memory.read s.idx i = some s.regs.blitCtrl.transIndex) →
    exec c.1 s = .next { s with
      regs := { s.regs with
        cmd := c.2
        status := { done := true, fault := false, warnLong := false, warnShort := false, eoiSeen := false }
        outCount := 0
        pixCount := 0 } }

/-- PALETTE_INDEX (42_blit.md R200, R205): at the first symbol that is neither transparent nor below PAL_SIZE.N, the earlier
pixels are drawn, none at or after it, PIX_COUNT counts them, and FAULT_INFO is its position. -/
def Obligations.PaletteIndexFaultIsPrecise : Prop :=
  ∀ (s : State) (before : List Byte) (bad : Byte) (c : Instr × BitVec 4 × PixelFormat),
    c ∈ [(Instr.blitBgra, 3, PixelFormat.bgra), (Instr.blitRgba, 4, PixelFormat.rgba)] →
    s.ready → FrameOk s.cfg s.regs → before.length < frameSymbols s.regs → s.holds .idx 0 (before ++ [bad]) →
    (∀ v ∈ before, (s.regs.blitCtrl.transEn = true ∧ v = s.regs.blitCtrl.transIndex) ∨
      (v.toNat < s.regs.palSize.toNat ∧ s.written .src (s.regs.palPtr.toNat + 3 * v.toNat) 3)) →
    ¬ (s.regs.blitCtrl.transEn = true ∧ bad = s.regs.blitCtrl.transIndex) → s.regs.palSize.toNat ≤ bad.toNat →
    ∃ t, exec c.1 s = .next t ∧
      (∀ i v, before[i]? = some v → pixelDrawn s t c.2.2 i v) ∧
      (∀ x, (¬ ∃ i < before.length, pixelAddress s.regs i ≤ x ∧ x < pixelAddress s.regs i + 4) →
        Memory.read t.pix x = Memory.read s.pix x) ∧
      t = { s with
        pix := t.pix
        regs := { s.regs with
          cmd := c.2.1
          status := { done := false, fault := true, warnLong := false, warnShort := false, eoiSeen := false }
          fault := 0x13
          faultInfo := BitVec.ofNat 32 before.length
          outCount := 0
          pixCount := BitVec.ofNat 32 (opaqueCount s.regs.blitCtrl before) } }

/-- The interlace map lists the rows in the four passes (42_blit.md R194): rows 0, 8, 16, ...; 4, 12, 20, ...; 2, 6, 10, ...;
1, 3, 5, ...; and is a permutation of the rows. -/
def Obligations.InterlaceListsTheFourPasses : Prop :=
  ∀ h : Nat,
    (List.range h).map (fun s => ilace s h) = passRows h ∧
    ((List.range h).map (fun s => ilace s h)).Perm (List.range h)

/-- The destination addresses (42_blit.md R192 to R197): symbol `i` lands in column `i mod w` of row `i div w`, or, interlaced, of
the row at that place of the four passes; inside the canvas, four bytes each, no two symbols' pixels overlapping, and exactly
the pixels of the frame rectangle. -/
def Obligations.PixelAddressesCoverTheFrameOnce : Prop :=
  ∀ (cfg : Config) (r : Regs), FrameOk cfg r →
    (∀ i < frameSymbols r, ∃ row,
      (if r.blitCtrl.interlaced = true then (passRows r.frameSize.h.toNat)[i / r.frameSize.w.toNat]? = some row
       else row = i / r.frameSize.w.toNat) ∧
      pixelAddress r i =
        4 * ((r.framePos.y.toNat + row) * r.canvas.w.toNat + (r.framePos.x.toNat + i % r.frameSize.w.toNat))) ∧
    (∀ i < frameSymbols r, pixelAddress r i + 3 < 4 * r.canvas.w.toNat * r.canvas.h.toNat) ∧
    (∀ i < frameSymbols r, ∀ j < frameSymbols r, i ≠ j →
      pixelAddress r i + 4 ≤ pixelAddress r j ∨ pixelAddress r j + 4 ≤ pixelAddress r i) ∧
    (∀ col row, col < r.frameSize.w.toNat → row < r.frameSize.h.toNat →
      ∃ i < frameSymbols r,
        pixelAddress r i =
          4 * ((r.framePos.y.toNat + row) * r.canvas.w.toNat + (r.framePos.x.toNat + col)))

/-- Interlace correctness (42_blit.md R208): the rows stored in interlaced order and blitted interlaced leave the same canvas
as the rows in order blitted without. -/
def Obligations.InterlacedBlitEqualsOrderedBlit : Prop :=
  ∀ (s u t v : State) (i : Instr), i ∈ [Instr.blitBgra, .blitRgba] → s.ready → u.ready →
    u = { s with
      idx := u.idx
      regs := { s.regs with blitCtrl := { s.regs.blitCtrl with interlaced := true } } } →
    s.regs.blitCtrl.interlaced = false →
    (∀ row < s.regs.frameSize.h.toNat, ∀ col < s.regs.frameSize.w.toNat,
      Memory.read u.idx (row * s.regs.frameSize.w.toNat + col) =
        Memory.read s.idx (ilace row s.regs.frameSize.h.toNat * s.regs.frameSize.w.toNat + col)) →
    exec i s = .next t → exec i u = .next v → t.regs.status.done = true →
    v.regs.status.done = true ∧ v.regs.pixCount = t.regs.pixCount ∧
      ∀ x, Memory.read v.pix x = Memory.read t.pix x

/-! ## The machine as a whole -/

/-- Which memory each instruction may write (43_commands.md R236, 10_state.md R40 to R44): SRC none, DST only COMPRESS, IDX only
DECOMPRESS, DECBLIT and their codes, PIX only the blit commands. -/
def Obligations.MemoriesEachInstructionMayWrite : Prop :=
  ∀ (i : Instr) (s t : State), exec i s = .next t →
    t.src = s.src ∧
    (i ≠ .compress → t.dst = s.dst) ∧
    (i ∈ [Instr.compress, .blitBgra, .blitRgba, .reset] → t.idx = s.idx) ∧
    (i ∈ [Instr.compress, .decompress, .reset] ∨ i.isCommand = false → t.pix = s.pix)

/-- Operand registers are never changed, but DST_PTR by a COMPRESS that completes (43_commands.md R234); nor are the machine's
parameters or the model's own fields. -/
def Obligations.OperandRegistersAreKept : Prop :=
  ∀ (i : Instr) (s t : State), exec i s = .next t →
    keepsOperandsButDst s t ∧ keepsHost s t ∧
    (i ≠ .compress ∨ t.regs.status.done = false → t.regs.dstPtr = s.regs.dstPtr)

/-- The first fault stays until RESET (10_state.md R31, 60_exceptions.md R292, R295): with a fault latched, a step that is not
the host's RESET keeps STATUS.FAULT, FAULT and FAULT_INFO. -/
def Obligations.FirstFaultStaysUntilReset : Prop :=
  ∀ s t : State, s.running = .idle → s.regs.status.fault = true → step s = .next t →
    s.script.head? ≠ some (.writeReg s.cfg.glzBase .word 0x00000007) → keepsFault s t ∧ t.running = .idle

/-- Every CMD write that answers a next state has returned: no unit is left running (70_reset_and_hazards.md R329,
41_lzw_decompress.md R180). -/
def Obligations.CommandsReturnIdle : Prop :=
  ∀ (word : Word) (s t : State), s.running = .idle → commandWrite word s = .next t → t.running = .idle

/-- A command run whole is its working steps one after the other (10_state.md R20): from a running unit, what `run` answers
is what some number of steps of the machine answer. -/
def Obligations.RunIsItsWorkingSteps : Prop :=
  ∀ s : State,
    (∀ t, run s = .next t → ∃ n, Sys2Proof.core.run n s = .next t) ∧
    (∀ f, run s = .fault f → ∃ n, Sys2Proof.core.run n s = .fault f)

/-- After hardware reset (10_state.md R52, 70_reset_and_hazards.md R320): every register reads 0, no unit runs, no byte of any
memory has been written; for every choice of the parameters. -/
def Obligations.HardwareResetZeroesRegisters : Prop :=
  ∀ cfg : Config,
    (∀ r : Reg, regRead (State.hardwareReset cfg).regs r = 0) ∧
    (∀ (space : Space) (a : Nat), Memory.read ((State.hardwareReset cfg).memory space) a = none) ∧
    (State.hardwareReset cfg).running = .idle ∧ (State.hardwareReset cfg).cfg = cfg

/-- The first command after hardware reset with nothing set up (70_reset_and_hazards.md R322): COMPRESS is refused with
BAD_MIN_CODE(0), the blit commands with BAD_DIMENSIONS(0), and DECOMPRESS needs SRC[0], which was never written. The last
clause is the model's choice (DEDUCED): that DECOMPRESS is not refused follows R322 against 10_state.md R52 (log entry 20), and
the stop at the unwritten byte is the model's own fault (93_implementation_defined.md U1, log entry 4). -/
def Obligations.FirstCommandAfterReset : Prop :=
  ∀ cfg : Config,
    let s := State.hardwareReset cfg
    exec .compress s = .next (refusedState s 1 0x02 0) ∧
    (∀ c ∈ blitCommands, exec c.1 s = .next (refusedState s c.2 0x04 0)) ∧
    (1 ≤ cfg.size .src → exec .decompress s = .fault (.unwrittenRead .src 0))

/-- The host's view of the registers (10_state.md R26): a write stores the defined fields of an operand register and nothing
else, reserved bits read 0, read-only registers keep their values, a CMD word with a bit of [31:4] set is refused, and an
access that is not a word at one of the sixteen offsets is refused by the model. -/
def Obligations.RegisterWritesStoreDefinedFields : Prop :=
  ∀ (s : State) (v : Word), s.running = .idle →
    let defined : Reg → Word := fun r => match r with
      | .minCode => 0x0000000F | .palSize => 0x000001FF | .blitCtrl => 0x000003FF
      | .cmd => 0x0000000F | .status => 0x0000001F | .fault => 0x000000FF
      | _ => 0xFFFFFFFF
    let readOnly := [Reg.status, .fault, .faultInfo, .outCount, .pixCount]
    (∀ r : Reg, regRead s.regs r &&& ~~~ defined r = 0) ∧
    (∀ r : Reg, r ∈ readOnly → hostWriteReg (s.cfg.glzBase + r.offset) .word v s = .next s) ∧
    (∀ r : Reg, r ≠ .cmd → r ∉ readOnly →
      ∃ t, hostWriteReg (s.cfg.glzBase + r.offset) .word v s = .next t ∧ regRead t.regs r = v &&& defined r ∧
        (∀ q : Reg, q ≠ r → regRead t.regs q = regRead s.regs q) ∧ t = { s with regs := t.regs }) ∧
    (∀ r : Reg, hostReadReg (s.cfg.glzBase + r.offset) .word s = .next { s with readData := regRead s.regs r }) ∧
    (s.regs.status.fault = false → v >>> 4 ≠ 0 →
      ∃ t, hostWriteReg s.cfg.glzBase .word v s = .next t ∧ t.regs.fault = 0x01 ∧ t.regs.faultInfo = v) ∧
    (∀ addr size, (size ≠ .word ∨ ∀ r : Reg, addr ≠ s.cfg.glzBase + r.offset) →
      hostWriteReg addr size v s = .refused (.outsideInterface addr) ∧
      hostReadReg addr size s = .refused (.outsideInterface addr))

/-- The host's accesses to the memories (20_memory.md R68, R72): a written byte reads back, every other byte of every memory
reads as before, a read changes nothing but what the host has read. -/
def Obligations.HostMemoryAccesses : Prop :=
  ∀ (s : State) (space : Space) (a : Nat) (b : Byte), s.MemoriesOk → a < s.cfg.size space →
    (∃ t, hostWriteMem space a b s = .next t ∧ t.regs = s.regs ∧ t.running = s.running ∧ keepsHost s t ∧
      hostReadMem space a t = .next { t with readData := b.setWidth 32 } ∧
      ∀ sp x, sp ≠ space ∨ x ≠ a → Memory.read (t.memory sp) x = Memory.read (s.memory sp) x) ∧
    (∃ t, hostReadMem space a s = .next t ∧ t = { s with readData := t.readData })

/-! ## Invariants -/

/-- The machine after hardware reset meets the invariant, for every choice of the parameters. -/
def Obligations.HardwareResetMeetsInvariant : Prop :=
  ∀ cfg : Config, (State.hardwareReset cfg).Inv

/-- Every step keeps the memories canonical and inside their sizes. -/
def Obligations.StepKeepsMemoriesCanonical : Prop :=
  ∀ s t : State, s.MemoriesOk → step s = .next t → t.MemoriesOk

/-- Every step keeps the control registers consistent (10_state.md R29 to R31, 43_commands.md R222, 41_lzw_decompress.md R176). -/
def Obligations.StepKeepsFlagsConsistent : Prop :=
  ∀ s t : State, s.FlagsOk → step s = .next t → t.FlagsOk

/-- Every step keeps the whole invariant: the units' registers within the widths and relations of 10_state.md R46 to R50, the
code tables well-founded (41_lzw_decompress.md R166), the flags and the memories. -/
def Obligations.StepKeepsInvariant : Prop :=
  ∀ s t : State, s.Inv → step s = .next t → t.Inv

/-- Under the invariant a step can stop only for a byte of SRC or IDX never written, or at an access of the host outside the
interface or a DST it provides that is not larger (20_memory.md R67, 41_lzw_decompress.md R166): no unit reaches outside a
memory or reads an undefined entry. -/
def Obligations.UnitsStayInsideMemories : Prop :=
  ∀ s : State, s.Inv →
    (∀ f, step s = .fault f → ∃ space a, f = .unwrittenRead space a ∧ (space = .src ∨ space = .idx)) ∧
    (∀ r, step s = .refused r →
      s.running = .idle ∧
        ((∃ addr, r = .outsideInterface addr) ∨ (∃ space addr, r = .hostOutsideMemory space addr) ∨
          ∃ size, r = .dstNotLarger size))
end

