-- ==== Sys2Proof/Laws/State.lean ====
section
/-! SUPPORT. One lemma for each field of `State` after each update of Machine/Ops.lean, and for each flag of STATUS after each
flag computation of Machine/Flags.lean, so that no proof unfolds a record update. -/

namespace Sys2Proof.Machine

/-! ### The parts of a state -/

@[simp] theorem State.setMemory_cfg (s : State) (sp : Space) (m : Memory) :
    (s.setMemory sp m).cfg = s.cfg := by cases sp <;> rfl
@[simp] theorem State.setMemory_regs (s : State) (sp : Space) (m : Memory) :
    (s.setMemory sp m).regs = s.regs := by cases sp <;> rfl
@[simp] theorem State.setMemory_running (s : State) (sp : Space) (m : Memory) :
    (s.setMemory sp m).running = s.running := by cases sp <;> rfl
@[simp] theorem State.setMemory_script (s : State) (sp : Space) (m : Memory) :
    (s.setMemory sp m).script = s.script := by cases sp <;> rfl
@[simp] theorem State.setMemory_readData (s : State) (sp : Space) (m : Memory) :
    (s.setMemory sp m).readData = s.readData := by cases sp <;> rfl
@[simp] theorem State.setMemory_memory_self (s : State) (sp : Space) (m : Memory) :
    (s.setMemory sp m).memory sp = m := by cases sp <;> rfl
theorem State.setMemory_memory_of_ne (s : State) {sp sp' : Space} (m : Memory) (h : sp' ≠ sp) :
    (s.setMemory sp m).memory sp' = s.memory sp' := by cases sp <;> cases sp' <;> first | rfl | exact absurd rfl h
theorem State.setMemory_memory (s : State) (sp sp' : Space) (m : Memory) :
    (s.setMemory sp m).memory sp' = if sp' = sp then m else s.memory sp' := by
  cases sp <;> cases sp' <;> rfl
@[simp] theorem State.setMemory_src_src (s : State) (m : Memory) : (s.setMemory .src m).src = m := rfl
@[simp] theorem State.setMemory_src_dst (s : State) (m : Memory) : (s.setMemory .src m).dst = s.dst := rfl
@[simp] theorem State.setMemory_src_idx (s : State) (m : Memory) : (s.setMemory .src m).idx = s.idx := rfl
@[simp] theorem State.setMemory_src_pix (s : State) (m : Memory) : (s.setMemory .src m).pix = s.pix := rfl
@[simp] theorem State.setMemory_dst_src (s : State) (m : Memory) : (s.setMemory .dst m).src = s.src := rfl
@[simp] theorem State.setMemory_dst_dst (s : State) (m : Memory) : (s.setMemory .dst m).dst = m := rfl
@[simp] theorem State.setMemory_dst_idx (s : State) (m : Memory) : (s.setMemory .dst m).idx = s.idx := rfl
@[simp] theorem State.setMemory_dst_pix (s : State) (m : Memory) : (s.setMemory .dst m).pix = s.pix := rfl
@[simp] theorem State.setMemory_idx_src (s : State) (m : Memory) : (s.setMemory .idx m).src = s.src := rfl
@[simp] theorem State.setMemory_idx_dst (s : State) (m : Memory) : (s.setMemory .idx m).dst = s.dst := rfl
@[simp] theorem State.setMemory_idx_idx (s : State) (m : Memory) : (s.setMemory .idx m).idx = m := rfl
@[simp] theorem State.setMemory_idx_pix (s : State) (m : Memory) : (s.setMemory .idx m).pix = s.pix := rfl
@[simp] theorem State.setMemory_pix_src (s : State) (m : Memory) : (s.setMemory .pix m).src = s.src := rfl
@[simp] theorem State.setMemory_pix_dst (s : State) (m : Memory) : (s.setMemory .pix m).dst = s.dst := rfl
@[simp] theorem State.setMemory_pix_idx (s : State) (m : Memory) : (s.setMemory .pix m).idx = s.idx := rfl
@[simp] theorem State.setMemory_pix_pix (s : State) (m : Memory) : (s.setMemory .pix m).pix = m := rfl
@[simp] theorem State.memory_src (s : State) : s.memory .src = s.src := rfl
@[simp] theorem State.memory_dst (s : State) : s.memory .dst = s.dst := rfl
@[simp] theorem State.memory_idx (s : State) : s.memory .idx = s.idx := rfl
@[simp] theorem State.memory_pix (s : State) : s.memory .pix = s.pix := rfl

@[simp] theorem State.setRegs_cfg (s : State) (r : Regs) : (s.setRegs r).cfg = s.cfg := rfl
@[simp] theorem State.setRegs_regs (s : State) (r : Regs) : (s.setRegs r).regs = r := rfl
@[simp] theorem State.setRegs_src (s : State) (r : Regs) : (s.setRegs r).src = s.src := rfl
@[simp] theorem State.setRegs_dst (s : State) (r : Regs) : (s.setRegs r).dst = s.dst := rfl
@[simp] theorem State.setRegs_idx (s : State) (r : Regs) : (s.setRegs r).idx = s.idx := rfl
@[simp] theorem State.setRegs_pix (s : State) (r : Regs) : (s.setRegs r).pix = s.pix := rfl
@[simp] theorem State.setRegs_running (s : State) (r : Regs) : (s.setRegs r).running = s.running := rfl
@[simp] theorem State.setRegs_script (s : State) (r : Regs) : (s.setRegs r).script = s.script := rfl
@[simp] theorem State.setRegs_readData (s : State) (r : Regs) : (s.setRegs r).readData = s.readData := rfl
@[simp] theorem State.setRegs_memory (s : State) (r : Regs) (sp : Space) :
    (s.setRegs r).memory sp = s.memory sp := by cases sp <;> rfl

@[simp] theorem State.setRunning_cfg (s : State) (r : Running) : (s.setRunning r).cfg = s.cfg := rfl
@[simp] theorem State.setRunning_regs (s : State) (r : Running) : (s.setRunning r).regs = s.regs := rfl
@[simp] theorem State.setRunning_src (s : State) (r : Running) : (s.setRunning r).src = s.src := rfl
@[simp] theorem State.setRunning_dst (s : State) (r : Running) : (s.setRunning r).dst = s.dst := rfl
@[simp] theorem State.setRunning_idx (s : State) (r : Running) : (s.setRunning r).idx = s.idx := rfl
@[simp] theorem State.setRunning_pix (s : State) (r : Running) : (s.setRunning r).pix = s.pix := rfl
@[simp] theorem State.setRunning_running (s : State) (r : Running) : (s.setRunning r).running = r := rfl
@[simp] theorem State.setRunning_script (s : State) (r : Running) : (s.setRunning r).script = s.script := rfl
@[simp] theorem State.setRunning_readData (s : State) (r : Running) : (s.setRunning r).readData = s.readData := rfl
@[simp] theorem State.setRunning_memory (s : State) (r : Running) (sp : Space) :
    (s.setRunning r).memory sp = s.memory sp := by cases sp <;> rfl

@[simp] theorem State.setStatus_cfg (s : State) (f : Status) : (s.setStatus f).cfg = s.cfg := rfl
@[simp] theorem State.setStatus_regs (s : State) (f : Status) : (s.setStatus f).regs = { s.regs with status := f } := rfl
@[simp] theorem State.setStatus_src (s : State) (f : Status) : (s.setStatus f).src = s.src := rfl
@[simp] theorem State.setStatus_dst (s : State) (f : Status) : (s.setStatus f).dst = s.dst := rfl
@[simp] theorem State.setStatus_idx (s : State) (f : Status) : (s.setStatus f).idx = s.idx := rfl
@[simp] theorem State.setStatus_pix (s : State) (f : Status) : (s.setStatus f).pix = s.pix := rfl
@[simp] theorem State.setStatus_running (s : State) (f : Status) : (s.setStatus f).running = s.running := rfl
@[simp] theorem State.setStatus_script (s : State) (f : Status) : (s.setStatus f).script = s.script := rfl
@[simp] theorem State.setStatus_readData (s : State) (f : Status) : (s.setStatus f).readData = s.readData := rfl
@[simp] theorem State.setStatus_memory (s : State) (f : Status) (sp : Space) :
    (s.setStatus f).memory sp = s.memory sp := by cases sp <;> rfl

@[simp] theorem State.setOutCount_cfg (s : State) (w : Word) : (s.setOutCount w).cfg = s.cfg := rfl
@[simp] theorem State.setOutCount_regs (s : State) (w : Word) : (s.setOutCount w).regs = { s.regs with outCount := w } := rfl
@[simp] theorem State.setOutCount_src (s : State) (w : Word) : (s.setOutCount w).src = s.src := rfl
@[simp] theorem State.setOutCount_dst (s : State) (w : Word) : (s.setOutCount w).dst = s.dst := rfl
@[simp] theorem State.setOutCount_idx (s : State) (w : Word) : (s.setOutCount w).idx = s.idx := rfl
@[simp] theorem State.setOutCount_pix (s : State) (w : Word) : (s.setOutCount w).pix = s.pix := rfl
@[simp] theorem State.setOutCount_running (s : State) (w : Word) : (s.setOutCount w).running = s.running := rfl
@[simp] theorem State.setOutCount_script (s : State) (w : Word) : (s.setOutCount w).script = s.script := rfl
@[simp] theorem State.setOutCount_readData (s : State) (w : Word) : (s.setOutCount w).readData = s.readData := rfl
@[simp] theorem State.setOutCount_memory (s : State) (w : Word) (sp : Space) :
    (s.setOutCount w).memory sp = s.memory sp := by cases sp <;> rfl

@[simp] theorem State.setPixCount_cfg (s : State) (w : Word) : (s.setPixCount w).cfg = s.cfg := rfl
@[simp] theorem State.setPixCount_regs (s : State) (w : Word) : (s.setPixCount w).regs = { s.regs with pixCount := w } := rfl
@[simp] theorem State.setPixCount_src (s : State) (w : Word) : (s.setPixCount w).src = s.src := rfl
@[simp] theorem State.setPixCount_dst (s : State) (w : Word) : (s.setPixCount w).dst = s.dst := rfl
@[simp] theorem State.setPixCount_idx (s : State) (w : Word) : (s.setPixCount w).idx = s.idx := rfl
@[simp] theorem State.setPixCount_pix (s : State) (w : Word) : (s.setPixCount w).pix = s.pix := rfl
@[simp] theorem State.setPixCount_running (s : State) (w : Word) : (s.setPixCount w).running = s.running := rfl
@[simp] theorem State.setPixCount_script (s : State) (w : Word) : (s.setPixCount w).script = s.script := rfl
@[simp] theorem State.setPixCount_readData (s : State) (w : Word) : (s.setPixCount w).readData = s.readData := rfl
@[simp] theorem State.setPixCount_memory (s : State) (w : Word) (sp : Space) :
    (s.setPixCount w).memory sp = s.memory sp := by cases sp <;> rfl

@[simp] theorem State.setDstPtr_cfg (s : State) (w : Word) : (s.setDstPtr w).cfg = s.cfg := rfl
@[simp] theorem State.setDstPtr_regs (s : State) (w : Word) : (s.setDstPtr w).regs = { s.regs with dstPtr := w } := rfl
@[simp] theorem State.setDstPtr_src (s : State) (w : Word) : (s.setDstPtr w).src = s.src := rfl
@[simp] theorem State.setDstPtr_dst (s : State) (w : Word) : (s.setDstPtr w).dst = s.dst := rfl
@[simp] theorem State.setDstPtr_idx (s : State) (w : Word) : (s.setDstPtr w).idx = s.idx := rfl
@[simp] theorem State.setDstPtr_pix (s : State) (w : Word) : (s.setDstPtr w).pix = s.pix := rfl
@[simp] theorem State.setDstPtr_running (s : State) (w : Word) : (s.setDstPtr w).running = s.running := rfl
@[simp] theorem State.setDstPtr_script (s : State) (w : Word) : (s.setDstPtr w).script = s.script := rfl
@[simp] theorem State.setDstPtr_readData (s : State) (w : Word) : (s.setDstPtr w).readData = s.readData := rfl
@[simp] theorem State.setDstPtr_memory (s : State) (w : Word) (sp : Space) :
    (s.setDstPtr w).memory sp = s.memory sp := by cases sp <;> rfl

@[simp] theorem State.replaceDst_cfg (s : State) (size : Fin 4294967296) (m : Memory) :
    (s.replaceDst size m).cfg = { s.cfg with dstSize := size } := rfl
@[simp] theorem State.replaceDst_regs (s : State) (size : Fin 4294967296) (m : Memory) :
    (s.replaceDst size m).regs = s.regs := rfl
@[simp] theorem State.replaceDst_src (s : State) (size : Fin 4294967296) (m : Memory) :
    (s.replaceDst size m).src = s.src := rfl
@[simp] theorem State.replaceDst_dst (s : State) (size : Fin 4294967296) (m : Memory) : (s.replaceDst size m).dst = m := rfl
@[simp] theorem State.replaceDst_idx (s : State) (size : Fin 4294967296) (m : Memory) :
    (s.replaceDst size m).idx = s.idx := rfl
@[simp] theorem State.replaceDst_pix (s : State) (size : Fin 4294967296) (m : Memory) :
    (s.replaceDst size m).pix = s.pix := rfl
@[simp] theorem State.replaceDst_running (s : State) (size : Fin 4294967296) (m : Memory) :
    (s.replaceDst size m).running = s.running := rfl
@[simp] theorem State.replaceDst_script (s : State) (size : Fin 4294967296) (m : Memory) :
    (s.replaceDst size m).script = s.script := rfl
@[simp] theorem State.replaceDst_readData (s : State) (size : Fin 4294967296) (m : Memory) :
    (s.replaceDst size m).readData = s.readData := rfl
@[simp] theorem State.replaceDst_size_src (s : State) (size : Fin 4294967296) (m : Memory) :
    (s.replaceDst size m).cfg.size .src = s.cfg.size .src := rfl
@[simp] theorem State.replaceDst_size_idx (s : State) (size : Fin 4294967296) (m : Memory) :
    (s.replaceDst size m).cfg.size .idx = s.cfg.size .idx := rfl
@[simp] theorem State.replaceDst_size_pix (s : State) (size : Fin 4294967296) (m : Memory) :
    (s.replaceDst size m).cfg.size .pix = s.cfg.size .pix := rfl
@[simp] theorem State.replaceDst_size_dst (s : State) (size : Fin 4294967296) (m : Memory) :
    (s.replaceDst size m).cfg.size .dst = size.val := rfl

/-! ### Faults, the take, completion -/

@[simp] theorem raise_cfg (c : FaultCode) (info : Nat) (s : State) : (raise c info s).cfg = s.cfg := rfl
@[simp] theorem raise_regs (c : FaultCode) (info : Nat) (s : State) : (raise c info s).regs = s.regs.latch c info := rfl
@[simp] theorem raise_src (c : FaultCode) (info : Nat) (s : State) : (raise c info s).src = s.src := rfl
@[simp] theorem raise_dst (c : FaultCode) (info : Nat) (s : State) : (raise c info s).dst = s.dst := rfl
@[simp] theorem raise_idx (c : FaultCode) (info : Nat) (s : State) : (raise c info s).idx = s.idx := rfl
@[simp] theorem raise_pix (c : FaultCode) (info : Nat) (s : State) : (raise c info s).pix = s.pix := rfl
@[simp] theorem raise_running (c : FaultCode) (info : Nat) (s : State) : (raise c info s).running = .idle := rfl
@[simp] theorem raise_script (c : FaultCode) (info : Nat) (s : State) : (raise c info s).script = s.script := rfl
@[simp] theorem raise_readData (c : FaultCode) (info : Nat) (s : State) : (raise c info s).readData = s.readData := rfl
@[simp] theorem raise_memory (c : FaultCode) (info : Nat) (s : State) (sp : Space) :
    (raise c info s).memory sp = s.memory sp := by cases sp <;> rfl

@[simp] theorem clearFault_cfg (s : State) : (clearFault s).cfg = s.cfg := rfl
@[simp] theorem clearFault_regs (s : State) :
    (clearFault s).regs =
      { s.regs with cmd := 0, status := Status.clear, fault := 0, faultInfo := 0, outCount := 0, pixCount := 0 } := rfl
@[simp] theorem clearFault_src (s : State) : (clearFault s).src = s.src := rfl
@[simp] theorem clearFault_dst (s : State) : (clearFault s).dst = s.dst := rfl
@[simp] theorem clearFault_idx (s : State) : (clearFault s).idx = s.idx := rfl
@[simp] theorem clearFault_pix (s : State) : (clearFault s).pix = s.pix := rfl
@[simp] theorem clearFault_running (s : State) : (clearFault s).running = s.running := rfl
@[simp] theorem clearFault_script (s : State) : (clearFault s).script = s.script := rfl
@[simp] theorem clearFault_readData (s : State) : (clearFault s).readData = s.readData := rfl
@[simp] theorem clearFault_memory (s : State) (sp : Space) : (clearFault s).memory sp = s.memory sp := by cases sp <;> rfl

@[simp] theorem take_cfg (opc : BitVec 4) (s : State) : (take opc s).cfg = s.cfg := rfl
@[simp] theorem take_regs (opc : BitVec 4) (s : State) :
    (take opc s).regs = { s.regs with cmd := opc, status := s.regs.status.taken, outCount := 0, pixCount := 0 } := rfl
@[simp] theorem take_src (opc : BitVec 4) (s : State) : (take opc s).src = s.src := rfl
@[simp] theorem take_dst (opc : BitVec 4) (s : State) : (take opc s).dst = s.dst := rfl
@[simp] theorem take_idx (opc : BitVec 4) (s : State) : (take opc s).idx = s.idx := rfl
@[simp] theorem take_pix (opc : BitVec 4) (s : State) : (take opc s).pix = s.pix := rfl
@[simp] theorem take_running (opc : BitVec 4) (s : State) : (take opc s).running = s.running := rfl
@[simp] theorem take_script (opc : BitVec 4) (s : State) : (take opc s).script = s.script := rfl
@[simp] theorem take_readData (opc : BitVec 4) (s : State) : (take opc s).readData = s.readData := rfl
@[simp] theorem take_memory (opc : BitVec 4) (s : State) (sp : Space) :
    (take opc s).memory sp = s.memory sp := by cases sp <;> rfl

@[simp] theorem complete_cfg (s : State) : (complete s).cfg = s.cfg := rfl
@[simp] theorem complete_regs (s : State) : (complete s).regs = { s.regs with status := s.regs.status.complete } := rfl
@[simp] theorem complete_src (s : State) : (complete s).src = s.src := rfl
@[simp] theorem complete_dst (s : State) : (complete s).dst = s.dst := rfl
@[simp] theorem complete_idx (s : State) : (complete s).idx = s.idx := rfl
@[simp] theorem complete_pix (s : State) : (complete s).pix = s.pix := rfl
@[simp] theorem complete_running (s : State) : (complete s).running = .idle := rfl
@[simp] theorem complete_script (s : State) : (complete s).script = s.script := rfl
@[simp] theorem complete_readData (s : State) : (complete s).readData = s.readData := rfl
@[simp] theorem complete_memory (s : State) (sp : Space) : (complete s).memory sp = s.memory sp := by cases sp <;> rfl

/-- With no fault latched, latching sets FAULT, FAULT_INFO and STATUS.FAULT (60_exceptions.md R290). -/
theorem Regs.latch_of_clear (r : Regs) (c : FaultCode) (info : Nat) (h : r.status.fault = false) :
    r.latch c info = { r with fault := c.code, faultInfo := BitVec.ofNat 32 info, status := r.status.latch } := by
  simp [Regs.latch, h]

/-- With a fault latched, latching changes nothing (60_exceptions.md R290 step 3). -/
theorem Regs.latch_of_fault (r : Regs) (c : FaultCode) (info : Nat) (h : r.status.fault = true) : r.latch c info = r := by
  simp [Regs.latch, h]

@[simp] theorem Regs.latch_cmd (r : Regs) (c : FaultCode) (info : Nat) : (r.latch c info).cmd = r.cmd := by
  unfold Regs.latch; split <;> rfl
@[simp] theorem Regs.latch_srcPtr (r : Regs) (c : FaultCode) (info : Nat) : (r.latch c info).srcPtr = r.srcPtr := by
  unfold Regs.latch; split <;> rfl
@[simp] theorem Regs.latch_dstPtr (r : Regs) (c : FaultCode) (info : Nat) : (r.latch c info).dstPtr = r.dstPtr := by
  unfold Regs.latch; split <;> rfl
@[simp] theorem Regs.latch_idxLen (r : Regs) (c : FaultCode) (info : Nat) : (r.latch c info).idxLen = r.idxLen := by
  unfold Regs.latch; split <;> rfl
@[simp] theorem Regs.latch_minCode (r : Regs) (c : FaultCode) (info : Nat) : (r.latch c info).minCode = r.minCode := by
  unfold Regs.latch; split <;> rfl
@[simp] theorem Regs.latch_canvas (r : Regs) (c : FaultCode) (info : Nat) : (r.latch c info).canvas = r.canvas := by
  unfold Regs.latch; split <;> rfl
@[simp] theorem Regs.latch_framePos (r : Regs) (c : FaultCode) (info : Nat) : (r.latch c info).framePos = r.framePos := by
  unfold Regs.latch; split <;> rfl
@[simp] theorem Regs.latch_frameSize (r : Regs) (c : FaultCode) (info : Nat) : (r.latch c info).frameSize = r.frameSize := by
  unfold Regs.latch; split <;> rfl
@[simp] theorem Regs.latch_palPtr (r : Regs) (c : FaultCode) (info : Nat) : (r.latch c info).palPtr = r.palPtr := by
  unfold Regs.latch; split <;> rfl
@[simp] theorem Regs.latch_palSize (r : Regs) (c : FaultCode) (info : Nat) : (r.latch c info).palSize = r.palSize := by
  unfold Regs.latch; split <;> rfl
@[simp] theorem Regs.latch_blitCtrl (r : Regs) (c : FaultCode) (info : Nat) : (r.latch c info).blitCtrl = r.blitCtrl := by
  unfold Regs.latch; split <;> rfl
@[simp] theorem Regs.latch_outCount (r : Regs) (c : FaultCode) (info : Nat) : (r.latch c info).outCount = r.outCount := by
  unfold Regs.latch; split <;> rfl
@[simp] theorem Regs.latch_pixCount (r : Regs) (c : FaultCode) (info : Nat) : (r.latch c info).pixCount = r.pixCount := by
  unfold Regs.latch; split <;> rfl

@[simp] theorem Regs.latch_status_fault (r : Regs) (c : FaultCode) (info : Nat) : (r.latch c info).status.fault = true := by
  unfold Regs.latch; split
  · assumption
  · rfl

/-! ### STATUS -/

@[simp] theorem Status.clear_done  : Status.clear.done = false := rfl
@[simp] theorem Status.clear_fault  : Status.clear.fault = false := rfl
@[simp] theorem Status.clear_warnLong  : Status.clear.warnLong = false := rfl
@[simp] theorem Status.clear_warnShort  : Status.clear.warnShort = false := rfl
@[simp] theorem Status.clear_eoiSeen  : Status.clear.eoiSeen = false := rfl
@[simp] theorem Status.taken_done (f : Status) : f.taken.done = false := rfl
@[simp] theorem Status.taken_fault (f : Status) : f.taken.fault = f.fault := rfl
@[simp] theorem Status.taken_warnLong (f : Status) : f.taken.warnLong = false := rfl
@[simp] theorem Status.taken_warnShort (f : Status) : f.taken.warnShort = false := rfl
@[simp] theorem Status.taken_eoiSeen (f : Status) : f.taken.eoiSeen = false := rfl
@[simp] theorem Status.complete_done (f : Status) : f.complete.done = true := rfl
@[simp] theorem Status.complete_fault (f : Status) : f.complete.fault = f.fault := rfl
@[simp] theorem Status.complete_warnLong (f : Status) : f.complete.warnLong = f.warnLong := rfl
@[simp] theorem Status.complete_warnShort (f : Status) : f.complete.warnShort = f.warnShort := rfl
@[simp] theorem Status.complete_eoiSeen (f : Status) : f.complete.eoiSeen = f.eoiSeen := rfl
@[simp] theorem Status.latch_done (f : Status) : f.latch.done = f.done := rfl
@[simp] theorem Status.latch_fault (f : Status) : f.latch.fault = true := rfl
@[simp] theorem Status.latch_warnLong (f : Status) : f.latch.warnLong = f.warnLong := rfl
@[simp] theorem Status.latch_warnShort (f : Status) : f.latch.warnShort = f.warnShort := rfl
@[simp] theorem Status.latch_eoiSeen (f : Status) : f.latch.eoiSeen = f.eoiSeen := rfl
@[simp] theorem Status.endLong_done (f : Status) : f.endLong.done = f.done := rfl
@[simp] theorem Status.endLong_fault (f : Status) : f.endLong.fault = f.fault := rfl
@[simp] theorem Status.endLong_warnLong (f : Status) : f.endLong.warnLong = true := rfl
@[simp] theorem Status.endLong_warnShort (f : Status) : f.endLong.warnShort = f.warnShort := rfl
@[simp] theorem Status.endLong_eoiSeen (f : Status) : f.endLong.eoiSeen = f.eoiSeen := rfl
@[simp] theorem Status.shortTest_done (f : Status) (op n : Nat) : (f.shortTest op n).done = f.done := rfl
@[simp] theorem Status.shortTest_fault (f : Status) (op n : Nat) : (f.shortTest op n).fault = f.fault := rfl
@[simp] theorem Status.shortTest_warnLong (f : Status) (op n : Nat) : (f.shortTest op n).warnLong = f.warnLong := rfl
@[simp] theorem Status.shortTest_warnShort (f : Status) (op n : Nat) :
    (f.shortTest op n).warnShort = if op ≠ n then true else f.warnShort := rfl
@[simp] theorem Status.shortTest_eoiSeen (f : Status) (op n : Nat) : (f.shortTest op n).eoiSeen = f.eoiSeen := rfl
@[simp] theorem Status.sawEoi_done (f : Status) : f.sawEoi.done = f.done := rfl
@[simp] theorem Status.sawEoi_fault (f : Status) : f.sawEoi.fault = f.fault := rfl
@[simp] theorem Status.sawEoi_warnLong (f : Status) : f.sawEoi.warnLong = f.warnLong := rfl
@[simp] theorem Status.sawEoi_warnShort (f : Status) : f.sawEoi.warnShort = f.warnShort := rfl
@[simp] theorem Status.sawEoi_eoiSeen (f : Status) : f.sawEoi.eoiSeen = true := rfl

/-! ### Counts -/

/-- A count below 2^32 is stored as it is. -/
theorem countWord_of_lt {n : Nat} (h : n < 4294967296) : countWord n = BitVec.ofNat 32 n := if_pos h

theorem countWord_toNat {n : Nat} (h : n < 4294967296) : (countWord n).toNat = n := by
  rw [countWord_of_lt h, BitVec.toNat_ofNat]; exact Nat.mod_eq_of_lt h

end Sys2Proof.Machine
end

