-- ==== Sys2Proof/Laws/Memory.lean ====
section
/-! SUPPORT. The laws of a memory: a read after a write, writes of several bytes, the canonical form and its bound, and that two
canonical memories that read alike are equal. -/

namespace Sys2Proof.Machine

/-! ### Read after write -/

@[simp] theorem Memory.read_nil (x : Nat) : Memory.read [] x = none := rfl

@[simp] theorem Memory.read_write_self (m : Memory) (x : Nat) (v : Byte) : Memory.read (Memory.write m x v) x = some v := by
  induction m with
  | nil => simp [Memory.write, Memory.read]
  | cons c m ih =>
    obtain ⟨a, b⟩ := c
    unfold Memory.write
    split
    · simp [Memory.read]
    · split
      · simp [Memory.read]
      · have : a ≠ x := by omega
        simpa [Memory.read, this] using ih

theorem Memory.read_write_of_ne (m : Memory) {x y : Nat} (v : Byte) (h : y ≠ x) :
    Memory.read (Memory.write m x v) y = Memory.read m y := by
  have hx : x ≠ y := fun e => h e.symm
  induction m with
  | nil => simp [Memory.write, Memory.read, hx]
  | cons c m ih =>
    obtain ⟨a, b⟩ := c
    unfold Memory.write
    split
    · simp [Memory.read, hx]
    · split
      · rename_i e; subst e; simp [Memory.read, hx]
      · simp only [Memory.read, ih]

theorem Memory.read_write (m : Memory) (x y : Nat) (v : Byte) :
    Memory.read (Memory.write m x v) y = if y = x then some v else Memory.read m y := by
  split
  · rename_i e; rw [e]; exact read_write_self m x v
  · rename_i e; exact read_write_of_ne m v e

/-- Below the address a byte reads as before, from it on nothing has been written. -/
theorem Memory.read_below (m : Memory) (a x : Nat) :
    Memory.read (Memory.below m a) x = if x < a then Memory.read m x else none := by
  induction m with
  | nil => simp [Memory.below]
  | cons c m ih =>
    obtain ⟨y, b⟩ := c
    by_cases hy : y < a
    · have e : Memory.below ((y, b) :: m) a = (y, b) :: Memory.below m a := by simp [Memory.below, hy]
      rw [e]
      by_cases hx : y = x
      · subst hx; simp [Memory.read, hy]
      · simp [Memory.read, hx, ih]
    · have e : Memory.below ((y, b) :: m) a = Memory.below m a := by simp [Memory.below, hy]
      rw [e, ih]
      by_cases hx : x < a
      · have : y ≠ x := by omega
        simp [Memory.read, this, hx]
      · simp [hx]

theorem Memory.wf_below {m : Memory} (a : Nat) (h : Memory.wf m) : Memory.wf (Memory.below m a) :=
  List.Pairwise.sublist List.filter_sublist h

theorem Memory.within_below {m : Memory} {size : Nat} (a : Nat) (h : Memory.within m size) :
    Memory.within (Memory.below m a) size := fun x hx => h x (List.mem_filter.mp hx).1

@[simp] theorem Memory.writeList_nil (m : Memory) (x : Nat) : Memory.writeList m x [] = m := rfl

@[simp] theorem Memory.writeList_cons (m : Memory) (x : Nat) (v : Byte) (vs : List Byte) :
    Memory.writeList m x (v :: vs) = Memory.writeList (Memory.write m x v) (x + 1) vs := rfl

theorem Memory.writeList_append (m : Memory) (x : Nat) (vs ws : List Byte) :
    Memory.writeList m x (vs ++ ws) = Memory.writeList (Memory.writeList m x vs) (x + vs.length) ws := by
  induction vs generalizing m x with
  | nil => rfl
  | cons v vs ih => simp only [List.cons_append, writeList_cons, ih, List.length_cons, Nat.add_assoc, Nat.add_comm 1]

/-- A byte outside the written ones reads as before. -/
theorem Memory.read_writeList_outside (m : Memory) (x : Nat) (vs : List Byte) {y : Nat} (h : y < x ∨ x + vs.length ≤ y) :
    Memory.read (Memory.writeList m x vs) y = Memory.read m y := by
  induction vs generalizing m x with
  | nil => rfl
  | cons v vs ih =>
    rw [List.length_cons] at h
    rw [writeList_cons, ih (Memory.write m x v) (x + 1) (by omega), read_write_of_ne m v (by omega)]

/-- Each written byte reads back. -/
theorem Memory.read_writeList_inside (m : Memory) (x : Nat) (vs : List Byte) (j : Nat) (h : j < vs.length) :
    Memory.read (Memory.writeList m x vs) (x + j) = some vs[j] := by
  induction vs generalizing m x j with
  | nil => exact absurd h (Nat.not_lt_zero j)
  | cons v vs ih =>
    cases j with
    | zero => rw [writeList_cons, read_writeList_outside _ _ _ (by omega)]; simp
    | succ j =>
      have e : x + (j + 1) = x + 1 + j := by omega
      rw [writeList_cons, e, ih (Memory.write m x v) (x + 1) j (by simpa using h)]
      rfl

/-! ### The canonical form -/

theorem Memory.mem_write {m : Memory} {x : Nat} {v : Byte} {c : Host.Cell} (h : c ∈ Memory.write m x v) :
    c = (x, v) ∨ c ∈ m := by
  induction m with
  | nil => simpa [Memory.write] using h
  | cons d m ih =>
    obtain ⟨a, b⟩ := d
    unfold Memory.write at h
    split at h
    · simpa using h
    · split at h
      · rcases List.mem_cons.mp h with h | h
        · exact .inl h
        · exact .inr (List.mem_cons_of_mem _ h)
      · rcases List.mem_cons.mp h with h | h
        · exact .inr (h ▸ List.mem_cons_self)
        · exact (ih h).imp_right (List.mem_cons_of_mem _)

/-- Writing a byte keeps the canonical form. -/
theorem Memory.wf_write {m : Memory} (x : Nat) (v : Byte) (h : Memory.wf m) : Memory.wf (Memory.write m x v) := by
  induction m with
  | nil => simp [Memory.wf, Memory.write]
  | cons d m ih =>
    obtain ⟨a, b⟩ := d
    obtain ⟨ha, hm⟩ := List.pairwise_cons.mp h
    unfold Memory.write
    split
    · rename_i lt
      refine List.pairwise_cons.mpr ⟨fun c hc => ?_, h⟩
      rcases List.mem_cons.mp hc with rfl | hc
      · exact lt
      · exact Nat.lt_trans lt (ha c hc)
    · split
      · rename_i e; subst e; exact List.pairwise_cons.mpr ⟨ha, hm⟩
      · refine List.pairwise_cons.mpr ⟨fun c hc => ?_, ih hm⟩
        rcases Memory.mem_write hc with rfl | hc
        · show a < x; omega
        · exact ha c hc

theorem Memory.within_write {m : Memory} {size x : Nat} (v : Byte) (h : Memory.within m size) (hx : x < size) :
    Memory.within (Memory.write m x v) size := by
  intro c hc
  rcases Memory.mem_write hc with rfl | hc
  · exact hx
  · exact h c hc

theorem Memory.wf_writeList {m : Memory} (x : Nat) (vs : List Byte) (h : Memory.wf m) :
    Memory.wf (Memory.writeList m x vs) := by
  induction vs generalizing m x with
  | nil => exact h
  | cons v vs ih => exact ih (x + 1) (Memory.wf_write x v h)

theorem Memory.within_writeList {m : Memory} {size x : Nat} (vs : List Byte) (h : Memory.within m size)
    (hx : x + vs.length ≤ size) : Memory.within (Memory.writeList m x vs) size := by
  induction vs generalizing m x with
  | nil => exact h
  | cons v vs ih =>
    rw [List.length_cons] at hx
    exact ih (Memory.within_write v h (by omega)) (by omega)

theorem Memory.read_eq_none_of_lt {m : Memory} {x : Nat} (h : ∀ c ∈ m, x < c.1) : Memory.read m x = none := by
  induction m with
  | nil => rfl
  | cons d m ih =>
    obtain ⟨a, b⟩ := d
    have : a ≠ x := Nat.ne_of_gt (h (a, b) List.mem_cons_self)
    simpa [Memory.read, this] using ih fun c hc => h c (List.mem_cons_of_mem _ hc)

/-- A byte that reads lies below the bound. -/
theorem Memory.lt_of_read {m : Memory} {size x : Nat} {b : Byte} (h : Memory.within m size) (hr : Memory.read m x = some b) :
    x < size := by
  induction m with
  | nil => cases hr
  | cons d m ih =>
    obtain ⟨a, c⟩ := d
    unfold Memory.read at hr
    split at hr
    · rename_i e; exact e ▸ h (a, c) List.mem_cons_self
    · exact ih (fun c hc => h c (List.mem_cons_of_mem _ hc)) hr

/-- Canonical memories that read alike are equal. -/
theorem Memory.eq_of_read {m n : Memory} (hm : Memory.wf m) (hn : Memory.wf n)
    (h : ∀ x, Memory.read m x = Memory.read n x) : m = n := by
  induction m generalizing n with
  | nil =>
    cases n with
    | nil => rfl
    | cons d n => have := h d.1; simp [Memory.read] at this
  | cons c m ih =>
    cases n with
    | nil => have := h c.1; simp [Memory.read] at this
    | cons d n =>
      obtain ⟨a, v⟩ := c
      obtain ⟨b, w⟩ := d
      obtain ⟨ha, hm'⟩ := List.pairwise_cons.mp hm
      obtain ⟨hb, hn'⟩ := List.pairwise_cons.mp hn
      have first : a = b := by
        rcases Nat.lt_trichotomy a b with lt | e | lt
        · have e := h a
          have : b ≠ a := by omega
          have none := Memory.read_eq_none_of_lt (m := n) (x := a) fun c hc => Nat.lt_trans lt (hb c hc)
          simp [Memory.read, this, none] at e
        · exact e
        · have e := h b
          have : a ≠ b := by omega
          have none := Memory.read_eq_none_of_lt (m := m) (x := b) fun c hc => Nat.lt_trans lt (ha c hc)
          simp [Memory.read, this, none] at e
      subst first
      have same : v = w := by simpa [Memory.read] using h a
      subst same
      refine congrArg _ (ih hm' hn' fun x => ?_)
      by_cases e : a = x
      · subst e
        rw [Memory.read_eq_none_of_lt ha, Memory.read_eq_none_of_lt hb]
      · simpa [Memory.read, e] using h x

/-- Writing the value a byte holds changes nothing. -/
theorem Memory.write_of_read {m : Memory} {x : Nat} {v : Byte} (hm : Memory.wf m) (h : Memory.read m x = some v) :
    Memory.write m x v = m := by
  refine Memory.eq_of_read (Memory.wf_write x v hm) hm fun y => ?_
  rw [Memory.read_write]
  split
  · rename_i e; rw [e, h]
  · rfl

/-- Memory after reset is canonical, and inside any size. -/
theorem Memory.wf_nil : Memory.wf [] := List.Pairwise.nil

theorem Memory.within_nil (size : Nat) : Memory.within [] size := fun _ h => absurd h List.not_mem_nil

end Sys2Proof.Machine
end

