-- ==== Sys2Proof/Laws/Ops.lean ====
section
/-! SUPPORT. What each shared operation of Machine/Ops.lean and Machine/Commands.lean can do, said once. -/

namespace Sys2Proof.Machine

/-! ### Reading -/

theorem State.fetchByte_eq_value {s : State} {sp : Space} {a : Nat} {b : Byte} :
    s.fetchByte sp a = .value b ↔ a < s.cfg.size sp ∧ Memory.read (s.memory sp) a = some b := by
  unfold State.fetchByte
  split
  · split <;> simp_all
  · simp_all

theorem State.fetchByte_eq_outside {s : State} {sp : Space} {a : Nat} :
    s.fetchByte sp a = .outside ↔ s.cfg.size sp ≤ a := by
  unfold State.fetchByte
  split
  · split <;> simp_all
  · simp_all

theorem State.fetchByte_eq_unwritten {s : State} {sp : Space} {a : Nat} :
    s.fetchByte sp a = .unwritten ↔ a < s.cfg.size sp ∧ Memory.read (s.memory sp) a = none := by
  unfold State.fetchByte
  split
  · split <;> simp_all
  · simp_all

/-- A fetch depends on the parameters and on one memory only. -/
theorem State.fetchByte_congr {s t : State} {sp : Space} (hc : t.cfg = s.cfg) (hm : t.memory sp = s.memory sp) (a : Nat) :
    t.fetchByte sp a = s.fetchByte sp a := by
  simp only [State.fetchByte, hc, hm]

theorem State.readChecked_of_value {s : State} {sp : Space} {a : Nat} {b : Byte} (k : Byte → Res)
    (h : s.fetchByte sp a = .value b) : s.readChecked sp a k = k b := by
  simp [State.readChecked, h]

/-- A checked read goes on with the byte, or stops because nothing wrote it, or because it does not exist. -/
theorem State.readChecked_cases (s : State) (sp : Space) (a : Nat) (k : Byte → Res) :
    (∃ b, s.fetchByte sp a = .value b ∧ s.readChecked sp a k = k b) ∨
    (s.fetchByte sp a = .unwritten ∧ s.readChecked sp a k = .fault (.unwrittenRead sp a)) ∨
    (s.fetchByte sp a = .outside ∧ s.readChecked sp a k = .fault (.outsideMemory sp a)) := by
  unfold State.readChecked
  split <;> simp_all

theorem State.readChecked_next {s t : State} {sp : Space} {a : Nat} {k : Byte → Res} (h : s.readChecked sp a k = .next t) :
    ∃ b, s.fetchByte sp a = .value b ∧ k b = .next t := by
  rcases s.readChecked_cases sp a k with ⟨b, hb, e⟩ | ⟨-, e⟩ | ⟨-, e⟩
  · exact ⟨b, hb, e ▸ h⟩
  · rw [e] at h; cases h
  · rw [e] at h; cases h

/-! ### Writing -/

theorem State.writeChecked_of_fits {s : State} {sp : Space} {a : Nat} {bytes : List Byte} (k : State → Res)
    (h : a + bytes.length ≤ s.cfg.size sp) :
    s.writeChecked sp a bytes k = k (s.setMemory sp (Memory.writeList (s.memory sp) a bytes)) := if_pos h

theorem State.writeChecked_of_not_fits {s : State} {sp : Space} {a : Nat} {bytes : List Byte} (k : State → Res)
    (h : s.cfg.size sp < a + bytes.length) : s.writeChecked sp a bytes k = .fault (.outsideMemory sp a) :=
  if_neg (Nat.not_le_of_lt h)

theorem State.writeChecked_next {s t : State} {sp : Space} {a : Nat} {bytes : List Byte} {k : State → Res}
    (h : s.writeChecked sp a bytes k = .next t) :
    a + bytes.length ≤ s.cfg.size sp ∧ k (s.setMemory sp (Memory.writeList (s.memory sp) a bytes)) = .next t := by
  unfold State.writeChecked at h
  split at h
  · exact ⟨‹_›, h⟩
  · cases h

/-- A checked write keeps the memories canonical and inside their sizes. -/
theorem State.setMemory_writeList_ok {s : State} {sp : Space} {a : Nat} {bytes : List Byte}
    (hw : ∀ sp, Memory.wf (s.memory sp)) (hi : ∀ sp, Memory.within (s.memory sp) (s.cfg.size sp))
    (h : a + bytes.length ≤ s.cfg.size sp) :
    (∀ sp', Memory.wf ((s.setMemory sp (Memory.writeList (s.memory sp) a bytes)).memory sp')) ∧
    (∀ sp', Memory.within ((s.setMemory sp (Memory.writeList (s.memory sp) a bytes)).memory sp') (s.cfg.size sp')) := by
  refine ⟨fun sp' => ?_, fun sp' => ?_⟩ <;> rw [State.setMemory_memory] <;> split
  · exact Memory.wf_writeList a bytes (hw sp)
  · exact hw sp'
  · rename_i e; subst e; exact Memory.within_writeList bytes (hi _) h
  · exact hi sp'

/-! ### Sequencing -/

@[simp] theorem andThen_next (s : State) (k : State → Res) : andThen (.next s) k = k s := rfl
@[simp] theorem andThen_fault (f : Fault) (k : State → Res) : andThen (.fault f) k = .fault f := rfl
@[simp] theorem andThen_refused (r : Refusal) (k : State → Res) : andThen (.refused r) k = .refused r := rfl

theorem andThen_eq_next {r : Res} {k : State → Res} {t : State} (h : andThen r k = .next t) :
    ∃ s, r = .next s ∧ k s = .next t := by
  cases r with
  | next s => exact ⟨s, rfl, h⟩
  | fault f => cases h
  | refused r => cases h

theorem andThen_eq_fault {r : Res} {k : State → Res} {f : Fault} (h : andThen r k = .fault f) :
    r = .fault f ∨ ∃ s, r = .next s ∧ k s = .fault f := by
  cases r with
  | next s => exact .inr ⟨s, rfl, h⟩
  | fault g => exact .inl h
  | refused r => cases h

theorem andThen_eq_refused {r : Res} {k : State → Res} {e : Refusal} (h : andThen r k = .refused e) :
    r = .refused e ∨ ∃ s, r = .next s ∧ k s = .refused e := by
  cases r with
  | next s => exact .inr ⟨s, rfl, h⟩
  | fault g => cases h
  | refused r => exact .inl h

/-! ### Commands -/

theorem whenIdle_of_idle {s : State} (k : Res) (h : s.running = .idle) : whenIdle s k = k := by simp [whenIdle, h]

/-- A command given while a unit runs is refused by the model (log entry 11). -/
theorem whenIdle_of_running {s : State} (k : Res) (h : s.running ≠ .idle) : whenIdle s k = .refused .commandRunning := by
  unfold whenIdle; split <;> simp_all

theorem whenIdle_next {s t : State} {k : Res} (h : whenIdle s k = .next t) : s.running = .idle ∧ k = .next t := by
  by_cases i : s.running = .idle
  · exact ⟨i, whenIdle_of_idle k i ▸ h⟩
  · rw [whenIdle_of_running k i] at h; cases h

/-- The gate: with a fault latched a working command does nothing (60_exceptions.md R292). -/
theorem command_of_fault {opc : BitVec 4} {checks : State → List (Bool × FaultCode × Nat)} {start : State → Res} {s : State}
    (hi : s.running = .idle) (hf : s.regs.status.fault = true) : command opc checks start s = .next s := by
  simp [command, whenIdle_of_idle _ hi, hf]

/-- A check that fails refuses the command (43_commands.md R221 c). -/
theorem command_of_refused {opc : BitVec 4} {checks : State → List (Bool × FaultCode × Nat)} {start : State → Res} {s : State}
    {c : FaultCode} {info : Nat} (hi : s.running = .idle) (hf : s.regs.status.fault = false)
    (hc : firstFailing (checks (take opc s)) = some (c, info)) :
    command opc checks start s = .next (raise c info (take opc s)) := by
  simp [command, whenIdle_of_idle _ hi, hf, accept, hc]

/-- A command whose checks pass starts its unit and runs it (43_commands.md R220). -/
theorem command_of_accepted {opc : BitVec 4} {checks : State → List (Bool × FaultCode × Nat)} {start : State → Res} {s : State}
    (hi : s.running = .idle) (hf : s.regs.status.fault = false) (hc : firstFailing (checks (take opc s)) = none) :
    command opc checks start s = andThen (start (take opc s)) run := by
  simp [command, whenIdle_of_idle _ hi, hf, accept, hc]

/-- Everything a command that answers a next state can have done. -/
theorem command_next {opc : BitVec 4} {checks : State → List (Bool × FaultCode × Nat)} {start : State → Res} {s t : State}
    (h : command opc checks start s = .next t) :
    s.running = .idle ∧
    ((s.regs.status.fault = true ∧ t = s) ∨
      (s.regs.status.fault = false ∧
        ((∃ c info, firstFailing (checks (take opc s)) = some (c, info) ∧ t = raise c info (take opc s)) ∨
          (firstFailing (checks (take opc s)) = none ∧ ∃ u, start (take opc s) = .next u ∧ run u = .next t)))) := by
  obtain ⟨hi, -⟩ := whenIdle_next h
  refine ⟨hi, ?_⟩
  cases hf : s.regs.status.fault with
  | true => rw [command_of_fault hi hf] at h; cases h; exact .inl ⟨rfl, rfl⟩
  | false =>
    refine .inr ⟨rfl, ?_⟩
    cases hc : firstFailing (checks (take opc s)) with
    | some p =>
      obtain ⟨c, info⟩ := p
      rw [command_of_refused hi hf hc] at h; cases h
      exact .inl ⟨c, info, rfl, rfl⟩
    | none =>
      rw [command_of_accepted hi hf hc] at h
      exact .inr ⟨rfl, andThen_eq_next h⟩

/-- Which check fails first, one check at a time (60_exceptions.md R293). -/
@[simp] theorem firstFailing_nil : firstFailing [] = none := rfl

theorem firstFailing_cons (bad : Bool) (c : FaultCode) (info : Nat) (rest : List (Bool × FaultCode × Nat)) :
    firstFailing ((bad, c, info) :: rest) = if bad then some (c, info) else firstFailing rest := rfl

/-! ### The registers as the host sees them -/

@[simp] theorem Reg.ofOffset_offset (r : Reg) : Reg.ofOffset r.offset = some r := by cases r <;> rfl

theorem Reg.offset_of_ofOffset {o : Nat} {r : Reg} (h : Reg.ofOffset o = some r) : r.offset = o := by
  unfold Reg.ofOffset at h
  split at h <;> cases h <;> rfl

theorem Reg.atAddress_offset (cfg : Config) (r : Reg) : Reg.atAddress cfg (cfg.glzBase + r.offset) = some r := by
  simp [Reg.atAddress]

theorem Reg.atAddress_eq_some {cfg : Config} {addr : Nat} {r : Reg} :
    Reg.atAddress cfg addr = some r ↔ addr = cfg.glzBase + r.offset := by
  constructor
  · intro h
    unfold Reg.atAddress at h
    split at h
    · have := Reg.offset_of_ofOffset h; omega
    · cases h
  · rintro rfl; exact Reg.atAddress_offset cfg r

theorem Reg.atAddress_eq_none {cfg : Config} {addr : Nat} :
    Reg.atAddress cfg addr = none ↔ ∀ r : Reg, addr ≠ cfg.glzBase + r.offset := by
  constructor
  · rintro h r rfl; rw [Reg.atAddress_offset] at h; cases h
  · intro h
    cases e : Reg.atAddress cfg addr with
    | none => rfl
    | some r => exact absurd (Reg.atAddress_eq_some.mp e) (h r)

end Sys2Proof.Machine
end

