-- ==== Sys2Proof/Laws/Checks.lean ====
section
/-! SUPPORT. What it means that the checks of a command all pass (43_commands.md R223 to R225), and what a refused command
leaves. -/

namespace Sys2Proof.Machine

theorem firstFailing_eq_none {checks : List (Bool × FaultCode × Nat)} :
    firstFailing checks = none ↔ ∀ c ∈ checks, c.1 = false := by
  induction checks with
  | nil => simp
  | cons c rest ih =>
    obtain ⟨bad, code, info⟩ := c
    rw [firstFailing_cons]
    cases bad <;> simp [ih]

theorem compressChecks_pass {s : State} :
    firstFailing (compressChecks s) = none ↔
      2 ≤ s.regs.minCode.toNat ∧ s.regs.minCode.toNat ≤ 8 ∧ 1 ≤ s.regs.idxLen.toNat ∧
        s.regs.idxLen.toNat ≤ s.cfg.size .idx := by
  rw [firstFailing_eq_none]
  simp only [compressChecks, List.forall_mem_cons, List.not_mem_nil, false_implies, implies_true, and_true,
    Bool.or_eq_false_iff, decide_eq_false_iff_not, beq_eq_false_iff_ne]
  omega

theorem decompressChecks_pass {s : State} :
    firstFailing (decompressChecks s) = none ↔ s.regs.idxLen.toNat ≤ s.cfg.size .idx := by
  rw [firstFailing_eq_none]
  simp only [decompressChecks, List.forall_mem_cons, List.not_mem_nil, false_implies, implies_true, and_true,
    decide_eq_false_iff_not]
  omega

theorem paletteSizeOk_iff (n : Nat) : paletteSizeOk n = true ↔ n ∈ [2, 4, 8, 16, 32, 64, 128, 256] := by
  unfold paletteSizeOk; exact List.contains_iff_mem

/-- The blit checks pass exactly where the compositor's preconditions hold (42_blit.md R190). -/
theorem blitChecks_pass {s : State} : firstFailing (blitChecks s) = none ↔ FrameOk s.cfg s.regs := by
  rw [firstFailing_eq_none]
  simp only [blitChecks, List.forall_mem_cons, List.not_mem_nil, false_implies, implies_true, and_true,
    Bool.or_eq_false_iff, decide_eq_false_iff_not, beq_eq_false_iff_ne, Bool.not_eq_eq_eq_not, Bool.not_false,
    paletteSizeOk_iff]
  constructor
  · rintro ⟨⟨a1, a2⟩, ⟨b1, b2⟩, c1, c2, d, e1, e2, e3⟩
    exact ⟨by omega, by omega, by omega, by omega, d, by omega, by omega, by omega⟩
  · rintro ⟨⟨a1, a2⟩, ⟨b1, b2⟩, c1, c2, d, e1, e2, e3⟩
    exact ⟨by omega, by omega, by omega, by omega, d, by omega, by omega, by omega⟩

@[simp] theorem take_frameOk (opc : BitVec 4) (s : State) :
    FrameOk (take opc s).cfg (take opc s).regs ↔ FrameOk s.cfg s.regs :=
  ⟨fun h => ⟨h.1, h.2, h.3, h.4, h.5, h.6, h.7, h.8⟩, fun h => ⟨h.1, h.2, h.3, h.4, h.5, h.6, h.7, h.8⟩⟩

/-- The registers of a taken command that a check refused (43_commands.md R221 c). -/
theorem refused_regs {s : State} (opc : BitVec 4) (c : FaultCode) (info : Nat) (hf : s.regs.status.fault = false) :
    (raise c info (take opc s)).regs =
      { s.regs with
        cmd := opc
        status := { done := false, fault := true, warnLong := false, warnShort := false, eoiSeen := false }
        fault := c.code
        faultInfo := BitVec.ofNat 32 info
        outCount := 0
        pixCount := 0 } := by
  rw [raise_regs, Regs.latch_of_clear _ _ _ (show (take opc s).regs.status.fault = false from hf)]
  rfl

end Sys2Proof.Machine
end

