-- ==== Sys2Proof/Laws/Compress.lean ====
section
/-! SUPPORT. What emitting does (40_lzw_compress.md R129 to R133): which working registers it keeps, the bounds it keeps, and
which bytes of DST it can write. -/

namespace Sys2Proof.Machine

/-! ### Writing from a base address up -/

/-- Between two contents of DST: canonical form and bound are kept, and only bytes in `[base, size)` differ. -/
structure Wrote (size base : Nat) (dst dst' : Memory) : Prop where
  wf : Memory.wf dst → Memory.wf dst'
  within : Memory.within dst size → Memory.within dst' size
  outside : ∀ x, x < base ∨ size ≤ x → Memory.read dst' x = Memory.read dst x

theorem Wrote.refl (size base : Nat) (dst : Memory) : Wrote size base dst dst := ⟨id, id, fun _ _ => rfl⟩

theorem Wrote.trans {size base : Nat} {d d' d'' : Memory} (h : Wrote size base d d') (h' : Wrote size base d' d'') :
    Wrote size base d d'' :=
  ⟨h'.wf ∘ h.wf, h'.within ∘ h.within, fun x hx => (h'.outside x hx).trans (h.outside x hx)⟩

theorem Wrote.write {size base a : Nat} (dst : Memory) (b : Byte) (ha : base ≤ a) (hs : a < size) :
    Wrote size base dst (Memory.write dst a b) :=
  ⟨Memory.wf_write a b, fun h => Memory.within_write b h hs, fun _ hx => Memory.read_write_of_ne dst b (by omega)⟩

/-- Emitting from `dst` ended well in registers with `Q`, or at a write not below `size`, which is `size` or `size + 1`. -/
def Emit.Meets (e : Emit) (size base : Nat) (dst : Memory) (Q : Lzwc → Prop) : Prop :=
  match e with
  | .ok w d => Q w ∧ Wrote size base dst d
  | .bounds _ d a => (a = size ∨ a = size + 1) ∧ Wrote size base dst d

theorem Emit.Meets.ok {size base : Nat} {dst : Memory} {Q : Lzwc → Prop} {w : Lzwc} (h : Q w) :
    Emit.Meets (.ok w dst) size base dst Q := ⟨h, Wrote.refl size base dst⟩

theorem Emit.Meets.bind {e : Emit} {size base : Nat} {dst : Memory} {Q R : Lzwc → Prop} {k : Lzwc → Memory → Emit}
    (h : e.Meets size base dst Q) (hk : ∀ w d, Q w → (k w d).Meets size base d R) : (e.bind k).Meets size base dst R := by
  cases e with
  | bounds w d a => exact h
  | ok w d =>
    obtain ⟨hq, hw⟩ := h
    have := hk w d hq
    show (k w d).Meets size base dst R
    cases e : k w d with
    | ok w' d' => rw [e] at this; exact ⟨this.1, hw.trans this.2⟩
    | bounds w' d' a => rw [e] at this; exact ⟨this.1, hw.trans this.2⟩

theorem Emit.Meets.mono {e : Emit} {size base : Nat} {dst : Memory} {Q R : Lzwc → Prop} (h : e.Meets size base dst Q)
    (hq : ∀ w, Q w → R w) : e.Meets size base dst R := by
  cases e with
  | ok w d => exact ⟨hq w h.1, h.2⟩
  | bounds w d a => exact h

theorem putAt_meets {size base a : Nat} (b : Byte) {w : Lzwc} (dst : Memory) {Q : Lzwc → Prop} (ha : base ≤ a)
    (hs : a ≤ size + 1) (h : a < size → Q w) : (putAt size a b w dst).Meets size base dst Q := by
  unfold putAt
  split
  · exact ⟨h ‹_›, Wrote.write dst b ha ‹_›⟩
  · exact ⟨by omega, Wrote.refl size base dst⟩

/-! ### The open sub-block -/

/-- The cursor registers between two data bytes (40_lzw_compress.md R130). -/
structure Lzwc.Open (size base : Nat) (w : Lzwc) : Prop where
  sb_after : base ≤ w.sb
  block_open : w.sb + 1 ≤ w.p ∧ w.p ≤ w.sb + 255
  p_bound : w.p ≤ size + 1

/-- Everything but c_acc, c_nb, c_p and c_sb is the same. -/
structure Lzwc.Same (w w' : Lzwc) : Prop where
  m : w'.m = w.m
  width : w'.width = w.width
  next : w'.next = w.next
  pfx : w'.pfx = w.pfx
  i : w'.i = w.i
  tab : w'.tab = w.tab

theorem Lzwc.Same.refl (w : Lzwc) : w.Same w := ⟨rfl, rfl, rfl, rfl, rfl, rfl⟩

theorem Lzwc.Same.trans {w w' w'' : Lzwc} (h : w.Same w') (h' : w'.Same w'') : w.Same w'' :=
  ⟨h'.m.trans h.m, h'.width.trans h.width, h'.next.trans h.next, h'.pfx.trans h.pfx, h'.i.trans h.i, h'.tab.trans h.tab⟩

theorem putByte_meets {size base : Nat} (b : Byte) {w : Lzwc} (dst : Memory) (h : w.Open size base) :
    (putByte size b w dst).Meets size base dst fun w' =>
      w'.Open size base ∧ w.Same w' ∧ w'.acc = w.acc ∧ w'.nb = w.nb ∧ w.p < w'.p := by
  obtain ⟨h1, h2, h3⟩ := h
  refine Emit.Meets.bind
    (putAt_meets (Q := fun w' => w' = w ∧ w.p < size) b dst (by omega) h3 fun lt => ⟨rfl, lt⟩) ?_
  rintro w' d ⟨rfl, lt⟩
  unfold closeFull
  split
  · rename_i full
    simp only at full
    refine Emit.Meets.bind
      (putAt_meets (Q := fun v => v = { w' with p := w'.p + 1 }) 255 d h1 (by simp only; omega) fun _ => rfl) ?_
    rintro v d' rfl
    exact Emit.Meets.ok ⟨⟨by simp only; omega, by simp only; omega, by simp only; omega⟩, ⟨rfl, rfl, rfl, rfl, rfl, rfl⟩, rfl, rfl, by simp only; omega⟩
  · rename_i full
    simp only at full
    exact Emit.Meets.ok ⟨⟨h1, by simp only; omega, by simp only; omega⟩, ⟨rfl, rfl, rfl, rfl, rfl, rfl⟩, rfl, rfl, by simp only; omega⟩

/-- The loop of EmitCode leaves fewer than eight bits, and no bit above them. -/
theorem drain_meets {size base : Nat} (fuel : Nat) {w : Lzwc} (dst : Memory) (h : w.Open size base) (hf : w.nb ≤ fuel)
    (ha : w.acc < 2 ^ w.nb) :
    (drain size fuel w dst).Meets size base dst fun w' =>
      w'.Open size base ∧ w.Same w' ∧ w'.nb ≤ 7 ∧ w'.acc < 2 ^ w'.nb ∧ w.p ≤ w'.p := by
  induction fuel generalizing w dst with
  | zero => exact Emit.Meets.ok ⟨h, .refl w, by omega, ha, Nat.le_refl _⟩
  | succ fuel ih =>
    unfold drain
    split
    · rename_i ge
      refine Emit.Meets.bind (putByte_meets _ dst h) ?_
      rintro w' d ⟨ho, hs, ea, en, hp⟩
      have hacc : w'.acc >>> 8 < 2 ^ (w'.nb - 8) := by
        rw [ea, en, Nat.shiftRight_eq_div_pow, Nat.div_lt_iff_lt_mul (by decide), ← Nat.pow_add]
        have e : w.nb - 8 + 8 = w.nb := by omega
        rw [e]; exact ha
      refine Emit.Meets.mono (ih (w := { w' with acc := w'.acc >>> 8, nb := w'.nb - 8 }) d
        ⟨ho.1, ho.2, ho.3⟩ (by simp only; omega) hacc) ?_
      rintro v ⟨h1, h2, h3, h4, h5⟩
      exact ⟨h1, hs.trans ⟨h2.1, h2.2, h2.3, h2.4, h2.5, h2.6⟩, h3, h4, by simp only at h5; omega⟩
    · exact Emit.Meets.ok ⟨h, .refl w, by omega, ha, Nat.le_refl _⟩

theorem or_shift_lt {a c n k : Nat} (ha : a < 2 ^ n) (hc : c < 2 ^ k) : a ||| (c <<< n) < 2 ^ (n + k) := by
  refine Nat.or_lt_two_pow (Nat.lt_of_lt_of_le ha (Nat.pow_le_pow_right (by decide) (by omega))) ?_
  rw [Nat.shiftLeft_eq, Nat.mul_comm, Nat.pow_add]
  exact Nat.mul_lt_mul_of_pos_left hc (Nat.two_pow_pos n)

/-- EmitCode (40_lzw_compress.md R129) of a code that fits the width. -/
theorem emitCode_meets {size base : Nat} {c : Nat} {w : Lzwc} (dst : Memory) (h : w.Open size base) (ha : w.acc < 2 ^ w.nb)
    (hc : c < 2 ^ w.width) :
    (emitCode size c w dst).Meets size base dst fun w' =>
      w'.Open size base ∧ w.Same w' ∧ w'.nb ≤ 7 ∧ w'.acc < 2 ^ w'.nb ∧ w.p ≤ w'.p := by
  refine Emit.Meets.mono (drain_meets _ dst (w := { w with acc := w.acc ||| (c <<< w.nb), nb := w.nb + w.width })
    ⟨h.1, h.2, h.3⟩ (Nat.le_refl _) (or_shift_lt ha hc)) ?_
  rintro v ⟨h1, h2, h3, h4, h5⟩
  exact ⟨h1, ⟨h2.1, h2.2, h2.3, h2.4, h2.5, h2.6⟩, h3, h4, h5⟩

theorem flush_meets {size base : Nat} {w : Lzwc} (dst : Memory) (h : w.Open size base) :
    (flush size w dst).Meets size base dst fun w' => w'.Open size base ∧ w.Same w' ∧ w.p ≤ w'.p := by
  unfold flush
  split
  · refine Emit.Meets.bind (putByte_meets _ dst h) ?_
    rintro w' d ⟨ho, hs, -, -, hp⟩
    exact Emit.Meets.ok ⟨⟨ho.1, ho.2, ho.3⟩, hs.trans ⟨rfl, rfl, rfl, rfl, rfl, rfl⟩, Nat.le_of_lt hp⟩
  · exact Emit.Meets.ok ⟨h, .refl w, Nat.le_refl _⟩

theorem closeStream_meets {size base : Nat} {w : Lzwc} (dst : Memory) (h : w.Open size base) :
    (closeStream size w dst).Meets size base dst fun w' => w'.p ≤ size ∧ w.p ≤ w'.p := by
  obtain ⟨h1, h2, h3⟩ := h
  unfold closeStream
  split
  · exact putAt_meets 0 dst h1 (by omega) fun _ => ⟨by omega, Nat.le_refl _⟩
  · refine Emit.Meets.bind (putAt_meets (Q := fun v => v = w) _ dst h1 (by omega) fun _ => rfl) ?_
    rintro v d rfl
    refine Emit.Meets.bind (putAt_meets (Q := fun u => u = v ∧ v.p < size) _ d (by omega) h3 fun lt => ⟨rfl, lt⟩) ?_
    rintro u d' ⟨rfl, lt⟩
    exact Emit.Meets.ok ⟨by simp only; omega, by simp only; omega⟩

/-- Everything after the last symbol (40_lzw_compress.md R128): the stream is closed inside DST, or a write was not below its
size. -/
theorem emitFinish_meets {size base : Nat} {w : Lzwc} (dst : Memory) (h : w.Open size base) (ha : w.acc < 2 ^ w.nb)
    (hp : w.pfx < 2 ^ w.width) (he : eoiCode w.m < 2 ^ w.width) :
    (emitFinish size w dst).Meets size base dst fun w' => w'.p ≤ size ∧ w.p ≤ w'.p := by
  refine Emit.Meets.bind (emitCode_meets dst h ha hp) ?_
  rintro w1 d1 ⟨o1, s1, -, a1, p1⟩
  refine Emit.Meets.bind (emitCode_meets d1 o1 a1 (by rw [s1.m, s1.width]; exact he)) ?_
  rintro w2 d2 ⟨o2, s2, -, a2, p2⟩
  refine Emit.Meets.bind (flush_meets d2 o2) ?_
  rintro w3 d3 ⟨o3, s3, p3⟩
  exact Emit.Meets.mono (closeStream_meets d3 o3) fun w4 ⟨h1, h2⟩ => ⟨h1, by omega⟩

/-! ### The table -/

/-- What a lookup finds is an entry of the table (40_lzw_compress.md R124). -/
theorem lookup_eq_some {tab : List CEntry} {pfx symbol code : Nat} (h : lookup tab pfx symbol = some code) :
    { pfx := pfx, symbol := symbol, code := code } ∈ tab := by
  induction tab with
  | nil => cases h
  | cons e t ih =>
    unfold lookup at h
    split at h
    · rename_i k
      obtain ⟨rfl, rfl⟩ := k
      cases h
      exact List.mem_cons_self
    · exact List.mem_cons_of_mem _ (ih h)

theorem lookup_eq_none {tab : List CEntry} {pfx symbol : Nat} (h : lookup tab pfx symbol = none) :
    ∀ e ∈ tab, ¬ (e.pfx = pfx ∧ e.symbol = symbol) := by
  induction tab with
  | nil => simp
  | cons e t ih =>
    unfold lookup at h
    split at h
    · cases h
    · rename_i k
      intro x hx
      rcases List.mem_cons.mp hx with rfl | hx
      · exact k
      · exact ih h x hx

/-- In a table that gives a key one code, the lookup of an entry's key finds its code (10_state.md R47). -/
theorem lookup_of_mem {tab : List CEntry} {e : CEntry} (h : e ∈ tab)
    (one : ∀ x ∈ tab, x.pfx = e.pfx → x.symbol = e.symbol → x.code = e.code) : lookup tab e.pfx e.symbol = some e.code := by
  cases k : lookup tab e.pfx e.symbol with
  | none => exact absurd ⟨rfl, rfl⟩ (lookup_eq_none k e h)
  | some code => rw [← one _ (lookup_eq_some k) rfl rfl]

/-- A masked symbol is below 2^m (30_encoding.md R105). -/
theorem maskSymbol_lt (m : Nat) (b : Byte) : maskSymbol m b < 2 ^ m := by
  unfold maskSymbol
  rw [Nat.and_two_pow_sub_one_eq_mod]
  exact Nat.mod_lt _ (Nat.two_pow_pos m)

theorem maskSymbol_eq_mod (m : Nat) (b : Byte) : maskSymbol m b = b.toNat % 2 ^ m :=
  Nat.and_two_pow_sub_one_eq_mod b.toNat m

/-! ### Committing -/

/-- A step of LZWC that goes on either committed what was emitted or latched DST_BOUNDS (40_lzw_compress.md R135). -/
theorem commit_next {e : Emit} {s t : State} {k : Lzwc → State → Res} (h : commit e s k = .next t) :
    (∃ w dst, e = .ok w dst ∧ k w (s.setMemory .dst dst) = .next t) ∨
    (∃ w dst a, e = .bounds w dst a ∧ t = lzwcFault w.p a dst s) := by
  cases e with
  | ok w dst => exact .inl ⟨w, dst, rfl, h⟩
  | bounds w dst a => cases h; exact .inr ⟨w, dst, a, rfl, rfl⟩

end Sys2Proof.Machine
end

