-- ==== Sys2Proof/Laws/Decompress.lean ====
section
/-! SUPPORT. What fetching a code does (41_lzw_decompress.md R153), and what a code does once (R157 to R168). -/

namespace Sys2Proof.Machine

/-! ### Fetching -/

/-- The registers a fetch keeps: all but d_acc, d_nb, d_p, d_sbrem and d_ended. -/
structure Lzwd.Same (w w' : Lzwd) : Prop where
  m : w'.m = w.m
  width : w'.width = w.width
  next : w'.next = w.next
  prev : w'.prev = w.prev
  op : w'.op = w.op
  n : w'.n = w.n
  tab : w'.tab = w.tab

theorem Lzwd.Same.refl (w : Lzwd) : w.Same w := ⟨rfl, rfl, rfl, rfl, rfl, rfl, rfl⟩

theorem Lzwd.Same.trans {w w' w'' : Lzwd} (h : w.Same w') (h' : w'.Same w'') : w.Same w'' :=
  ⟨h'.m.trans h.m, h'.width.trans h.width, h'.next.trans h.next, h'.prev.trans h.prev, h'.op.trans h.op, h'.n.trans h.n,
    h'.tab.trans h.tab⟩

/-- The stream cursor and accumulator within the bounds of 10_state.md R48, for a memory of `size` bytes. -/
structure Lzwd.Fed (size : Nat) (w : Lzwd) : Prop where
  acc_bound : w.acc < 2 ^ w.nb
  sbrem_bound : w.sbrem ≤ 255
  p_bound : w.p ≤ size

theorem acc_takeByte_lt {acc nb : Nat} (b : Byte) (h : acc < 2 ^ nb) : acc ||| (b.toNat <<< nb) < 2 ^ (nb + 8) := by
  refine Nat.or_lt_two_pow (Nat.lt_of_lt_of_le h (Nat.pow_le_pow_right (by decide) (by omega))) ?_
  rw [Nat.shiftLeft_eq, Nat.mul_comm, Nat.pow_add]
  exact Nat.mul_lt_mul_of_pos_left b.isLt (Nat.two_pow_pos nb)

/-- Bits above those held enter by addition. -/
theorem or_shift_eq_add {acc nb : Nat} (b : Nat) (h : acc < 2 ^ nb) : acc ||| (b <<< nb) = acc + b * 2 ^ nb := by
  rw [Nat.or_comm, Nat.shiftLeft_eq, Nat.mul_comm b, ← Nat.two_pow_add_eq_or_of_lt h, Nat.add_comm, Nat.mul_comm]

/-- What refilling from `w` can answer: registers within bounds that meet `Q`, an address not below SRC_SIZE, or a byte never
written. -/
def Refill.Meets (r : Refill) (s : State) (w : Lzwd) (Q : Lzwd → Prop) : Prop :=
  match r with
  | .ready w' => w'.Fed (s.cfg.size .src) ∧ w.Same w' ∧ Q w'
  | .bounds w' a => w.Same w' ∧ s.cfg.size .src ≤ a
  | .unwritten a => s.fetchByte .src a = .unwritten

theorem Refill.Meets.mono {r : Refill} {s : State} {w v : Lzwd} {Q R : Lzwd → Prop} (h : r.Meets s v Q) (hs : w.Same v)
    (hq : ∀ u, Q u → R u) : r.Meets s w R := by
  cases r with
  | ready u => exact ⟨h.1, hs.trans h.2.1, hq u h.2.2⟩
  | bounds u a => exact ⟨hs.trans h.1, h.2⟩
  | unwritten a => exact h

theorem refillData_spec (s : State) {w : Lzwd} (h : w.Fed (s.cfg.size .src)) :
    (refillData s w).Meets s w fun w' => w'.nb = w.nb + 8 ∧ w'.ended = w.ended := by
  unfold refillData
  split <;> rename_i e
  · have := (State.fetchByte_eq_value.mp e).1
    exact ⟨⟨acc_takeByte_lt _ h.acc_bound, by have := h.sbrem_bound; simp only [Lzwd.takeByte]; omega,
      by simp only [Lzwd.takeByte]; omega⟩, ⟨rfl, rfl, rfl, rfl, rfl, rfl, rfl⟩, rfl, rfl⟩
  · exact ⟨.refl w, State.fetchByte_eq_outside.mp e⟩
  · exact e

/-- One turn of the refill loop: it ends the data or adds eight bits. -/
theorem refillTurn_spec (s : State) {w : Lzwd} (h : w.Fed (s.cfg.size .src)) :
    (refillTurn s w).Meets s w fun w' =>
      (w'.nb = w.nb + 8 ∧ w'.ended = w.ended) ∨ (w'.nb = w.nb ∧ w'.ended = true) := by
  unfold refillTurn
  split
  · split <;> rename_i e
    · have lt := (State.fetchByte_eq_value.mp e).1
      split
      · rename_i z
        simp only [Lzwd.takeLength, z, if_pos]
        exact ⟨⟨h.acc_bound, h.sbrem_bound, by simp only; omega⟩, ⟨rfl, rfl, rfl, rfl, rfl, rfl, rfl⟩, .inr ⟨rfl, rfl⟩⟩
      · rename_i l z
        simp only [Lzwd.takeLength, z, if_false]
        refine Refill.Meets.mono (refillData_spec s (w := { w with p := w.p + 1, sbrem := l.toNat })
          ⟨h.acc_bound, by have := l.isLt; simp only; omega, by simp only; omega⟩)
          ⟨rfl, rfl, rfl, rfl, rfl, rfl, rfl⟩ fun u hu => .inl hu
    · exact ⟨.refl w, State.fetchByte_eq_outside.mp e⟩
    · exact e
  · exact Refill.Meets.mono (refillData_spec s h) (.refl w) fun u hu => .inl hu

/-- The refill loop, given enough turns: enough bits, or the end of the data; fewer than eight bits too many. -/
theorem refill_spec (s : State) (fuel : Nat) {w : Lzwd} (h : w.Fed (s.cfg.size .src)) (hf : w.width ≤ w.nb + fuel) :
    (refill s fuel w).Meets s w fun w' =>
      w.nb ≤ w'.nb ∧ (w'.nb < w.width + 8 ∨ w'.nb = w.nb) ∧ (w.width ≤ w'.nb ∨ w'.ended = true) := by
  induction fuel generalizing w with
  | zero => exact ⟨h, .refl w, Nat.le_refl _, .inr rfl, .inl hf⟩
  | succ fuel ih =>
    unfold refill
    split
    · rename_i lt
      have turn := refillTurn_spec s h
      cases e : refillTurn s w with
      | bounds u a => rw [e] at turn; exact turn
      | unwritten a => rw [e] at turn; exact turn
      | ready u =>
        rw [e] at turn
        obtain ⟨fed, same, more⟩ := turn
        rcases more with ⟨nb, en⟩ | ⟨nb, en⟩
        · refine Refill.Meets.mono (ih fed (by rw [same.width]; omega)) same ?_
          rw [same.width]
          rintro v ⟨h1, h2, h3⟩
          exact ⟨by omega, by omega, h3⟩
        · have stop : refill s fuel u = .ready u := by
            cases fuel with
            | zero => rfl
            | succ f => simp [refill, en]
          show (refill s fuel u).Meets s w _
          rw [stop]
          exact ⟨fed, same, by omega, .inr nb, .inr en⟩
    · rename_i lt
      refine ⟨h, .refl w, Nat.le_refl _, .inr rfl, ?_⟩
      by_cases g : w.nb < w.width
      · right
        cases en : w.ended with
        | true => rfl
        | false => exact absurd ⟨g, en⟩ lt
      · left; omega

/-- GetCode (41_lzw_decompress.md R153, R154) from at most seven bits held: everything it can answer. -/
theorem getCode_spec (s : State) {w : Lzwd} (h : w.Fed (s.cfg.size .src)) (hn : w.nb ≤ 7) :
    match getCode s w with
    | .code w' c => w'.Fed (s.cfg.size .src) ∧ w.Same w' ∧ w'.nb ≤ 7 ∧ (w.width ≤ 12 → c.toNat < 2 ^ w.width)
    | .endOfData w' => w.Same w'
    | .bounds w' a => w.Same w' ∧ s.cfg.size .src ≤ a
    | .unwritten a => s.fetchByte .src a = .unwritten := by
  have r := refill_spec s w.width h (by omega)
  unfold getCode
  cases e : refill s w.width w <;> rw [e] at r
  · obtain ⟨fed, same, le, lt, enough⟩ := r
    rename_i w'
    by_cases ge : w'.nb < w'.width
    · simp only [ge, if_true]
      exact same
    · simp only [ge, if_false]
      have hw : w'.width = w.width := same.width
      refine ⟨⟨?_, fed.sbrem_bound, fed.p_bound⟩, same.trans ⟨rfl, rfl, rfl, rfl, rfl, rfl, rfl⟩, ?_, fun h12 => ?_⟩
      · show w'.acc >>> w'.width < 2 ^ (w'.nb - w'.width)
        rw [Nat.shiftRight_eq_div_pow, Nat.div_lt_iff_lt_mul (Nat.two_pow_pos _), ← Nat.pow_add]
        have : w'.nb - w'.width + w'.width = w'.nb := by omega
        rw [this]; exact fed.acc_bound
      · show w'.nb - w'.width ≤ 7
        omega
      · rw [Nat.and_two_pow_sub_one_eq_mod, BitVec.toNat_ofNat, hw]
        exact Nat.lt_of_le_of_lt (Nat.mod_le _ _) (Nat.mod_lt _ (Nat.two_pow_pos _))
  · exact r
  · exact r

/-! ### The classes of a code -/

/-! What admits a code, one kind at a time (30_encoding.md R97). -/

theorem Lzwd.admits_lit (w : Lzwd) (m : Nat) (symbol : Byte) :
    w.context.admits (.lit m symbol) = true ↔ m = w.m ∧ symbol.toNat < 2 ^ m := by
  unfold Lzwd.context CodeContext.admits
  rw [Bool.and_eq_true, beq_iff_eq, decide_eq_true_iff]

theorem Lzwd.admits_clear (w : Lzwd) (m : Nat) : w.context.admits (.clear m) = true ↔ m = w.m := by
  unfold Lzwd.context CodeContext.admits
  rw [beq_iff_eq]

theorem Lzwd.admits_eoi (w : Lzwd) (m : Nat) : w.context.admits (.eoi m) = true ↔ m = w.m := by
  unfold Lzwd.context CodeContext.admits
  rw [beq_iff_eq]

theorem Lzwd.admits_ref (w : Lzwd) (code : BitVec 12) :
    w.context.admits (.ref code) = true ↔ firstCode w.m ≤ code.toNat ∧ code.toNat < w.next := by
  unfold Lzwd.context CodeContext.admits
  rw [Bool.and_eq_true, decide_eq_true_iff, decide_eq_true_iff]
  rfl

theorem Lzwd.admits_kwk (w : Lzwd) (code : BitVec 12) :
    w.context.admits (.kwk code) = true ↔ firstCode w.m ≤ code.toNat ∧ code.toNat = w.next ∧ w.prev ≠ none := by
  unfold Lzwd.context CodeContext.admits
  rw [Bool.and_eq_true, Bool.and_eq_true, decide_eq_true_iff, beq_iff_eq, Option.isSome_iff_ne_none, and_assoc]
  rfl

theorem Lzwd.admits_invalid (w : Lzwd) (code : BitVec 12) :
    w.context.admits (.invalid code) = true ↔
      firstCode w.m ≤ code.toNat ∧ (w.next < code.toNat ∨ (code.toNat = w.next ∧ w.prev = none)) := by
  unfold Lzwd.context CodeContext.admits
  rw [Bool.and_eq_true, Bool.or_eq_true, Bool.and_eq_true, decide_eq_true_iff, decide_eq_true_iff, beq_iff_eq]
  cases w.prev <;> simp [firstCode]

/-- The class a code has is one its context admits (30_encoding.md R97). -/
theorem admits_decodeCode {ctx : CodeContext} (hn : 2 ^ ctx.m + 2 ≤ ctx.next) (hm : ctx.m ≤ 8) (c : BitVec 12) :
    ctx.admits (decodeCode ctx c) = true := by
  unfold decodeCode
  split
  · simp [CodeContext.admits]
  · split
    · simp [CodeContext.admits]
    · split
      · split
        · rename_i lt
          have e : (c.setWidth 8).toNat = c.toNat := by
            have : 2 ^ ctx.m ≤ 2 ^ 8 := Nat.pow_le_pow_right (by decide) hm
            rw [BitVec.toNat_setWidth]; exact Nat.mod_eq_of_lt (by omega)
          simp [CodeContext.admits, e, lt]
        · rename_i h1 h2 h3 h4
          simp [CodeContext.admits, h3]; omega
      · split
        · rename_i h1 h2 h3 h4
          simp [CodeContext.admits, h4.1, h4.2, hn]
        · rename_i h1 h2 h3 h4
          simp only [CodeContext.admits, Bool.and_eq_true, decide_eq_true_eq, Bool.or_eq_true, beq_iff_eq,
            Bool.not_eq_eq_eq_not, Bool.not_true]
          refine ⟨by omega, ?_⟩
          by_cases e : c.toNat = ctx.next
          · right; exact ⟨e, by simpa [e] using h4⟩
          · left; omega

/-! ### What a code acts on -/

theorem onCode_of_admits {i : Instr} {s : State} {k : Lzwd → Option PixelFormat → Res} {w : Lzwd} {b : Option PixelFormat}
    (hr : s.running = .lzwd w b) (ha : w.context.admits i = true) : onCode i s k = k w b := by
  simp [onCode, hr, ha]

/-- A code that answers a next state found LZWD running in a state that admits it. -/
theorem onCode_next {i : Instr} {s t : State} {k : Lzwd → Option PixelFormat → Res} (h : onCode i s k = .next t) :
    ∃ w b, s.running = .lzwd w b ∧ w.context.admits i = true ∧ k w b = .next t := by
  unfold onCode at h
  split at h
  · split at h
    · exact ⟨_, _, ‹_›, ‹_›, h⟩
    · cases h
  · cases h
  · cases h
  · cases h

/-- A data code that answers a next state either took the LONG exit or wrote its symbols and went on (41_lzw_decompress.md R165
to R168). -/
theorem dataCode_next {w : Lzwd} {b : Option PixelFormat} {code : Nat} {symbols : List Byte} {s t : State}
    (h : dataCode w b code symbols s = .next t) :
    (w.n < w.op + symbols.length ∧ lzwdLong w b s = .next t) ∨
    (w.op + symbols.length ≤ w.n ∧ w.op + symbols.length ≤ s.cfg.size .idx ∧
      t = (s.setMemory .idx (Memory.writeList s.idx w.op symbols)).setRunning
        (.lzwd (Lzwd.learn { w with op := w.op + symbols.length } code (symbols.headD 0)) b)) := by
  unfold dataCode at h
  split at h
  · exact .inl ⟨‹_›, h⟩
  · obtain ⟨hs, e⟩ := State.writeChecked_next h
    cases e
    exact .inr ⟨by omega, hs, rfl⟩

/-- The end of a decompression that answers a next state (41_lzw_decompress.md R177, 43_commands.md R229). -/
theorem lzwdFill_next {w : Lzwd} {b : Option PixelFormat} {s t : State} (h : lzwdFill w b s = .next t) :
    w.op + (w.n - w.op) ≤ s.cfg.size .idx ∧
    ((b = none ∧ t = complete ((s.setMemory .idx
        (Memory.writeList s.idx w.op (List.replicate (w.n - w.op) 0))).setOutCount (countWord w.op))) ∨
      (∃ fmt, b = some fmt ∧ t = blitStart fmt ((s.setMemory .idx
        (Memory.writeList s.idx w.op (List.replicate (w.n - w.op) 0))).setOutCount (countWord w.op)))) := by
  obtain ⟨hs, e⟩ := State.writeChecked_next h
  rw [List.length_replicate] at hs
  refine ⟨hs, ?_⟩
  cases b with
  | none => cases e; exact .inl ⟨rfl, rfl⟩
  | some fmt => cases e; exact .inr ⟨fmt, rfl, rfl⟩

/-- The insertion: everything it can do (41_lzw_decompress.md R166 to R168). -/
theorem Lzwd.learn_spec (w : Lzwd) (code : Nat) (first : Byte) :
    (∃ prev, w.prev = some prev ∧ w.next < maxCodes ∧
      w.learn code first =
        { w with
          tab := { code := w.next, pfx := prev, byte := first } :: w.tab
          next := w.next + 1
          width := if 2 ^ w.width ≤ w.next + 1 ∧ w.width < maxWidth then w.width + 1 else w.width
          prev := some code }) ∨
    ((w.prev = none ∨ maxCodes ≤ w.next) ∧ w.learn code first = { w with prev := some code }) := by
  unfold Lzwd.learn
  split
  · split
    · exact .inl ⟨_, ‹_›, ‹_›, rfl⟩
    · exact .inr ⟨.inr (by omega), rfl⟩
  · exact .inr ⟨.inl ‹_›, rfl⟩

end Sys2Proof.Machine
end

