-- ==== Sys2Proof/Laws/PerInstr.lean ====
section
/-! SUPPORT. The per-instruction law `Encodes`: a well-formed instruction is encoded in the format of its kind, and a code has a
context in which it is read. -/

namespace Sys2Proof.Laws.Encodes

/-- A command's word is one of 1 .. 7 with no reserved bit (30_encoding.md R90, R91); a code has a well-formed context that
admits it (30_encoding.md R97). -/
def Statement (i : Instr) : Prop :=
  i.wf = true →
    match encode i with
    | .command word => i.isCommand = true ∧ 1 ≤ word.toNat ∧ word.toNat ≤ 7
    | .code _ => i.isCommand = false ∧ ∃ ctx : CodeContext, ctx.wf = true ∧ ctx.admits i = true

theorem compress : Statement .compress := fun _ => ⟨rfl, by decide, by decide⟩
theorem decompress : Statement .decompress := fun _ => ⟨rfl, by decide, by decide⟩
theorem blitBgra : Statement .blitBgra := fun _ => ⟨rfl, by decide, by decide⟩
theorem blitRgba : Statement .blitRgba := fun _ => ⟨rfl, by decide, by decide⟩
theorem decblitBgra : Statement .decblitBgra := fun _ => ⟨rfl, by decide, by decide⟩
theorem decblitRgba : Statement .decblitRgba := fun _ => ⟨rfl, by decide, by decide⟩
theorem reset : Statement .reset := fun _ => ⟨rfl, by decide, by decide⟩

/-- At the start of a stream of minimum code size m the context is well-formed. -/
theorem startContext_wf {m : Nat} (h : minCodeOk m = true) :
    CodeContext.wf { m := m, next := 2 ^ m + 2, hasPrev := false } = true := by
  have bounds : 2 ≤ m ∧ m ≤ 8 := by simpa [minCodeOk] using h
  have pow : 2 ^ m ≤ 2 ^ 8 := Nat.pow_le_pow_right (by decide) bounds.2
  have fits : 2 ^ m + 2 ≤ maxCodes := by unfold maxCodes; omega
  simp [CodeContext.wf, h, fits]

theorem lit (m : Nat) (symbol : Byte) : Statement (.lit m symbol) := by
  intro h
  simp only [Instr.wf, Bool.and_eq_true, decide_eq_true_eq] at h
  exact ⟨rfl, _, startContext_wf h.1, by simp [CodeContext.admits, h.2]⟩

theorem clear (m : Nat) : Statement (.clear m) := fun h =>
  ⟨rfl, _, startContext_wf h, by simp [CodeContext.admits]⟩

theorem eoi (m : Nat) : Statement (.eoi m) := fun h =>
  ⟨rfl, _, startContext_wf h, by simp [CodeContext.admits]⟩

/-- A context of minimum code size 2, the smallest first table code. -/
theorem smallContext_wf {next : Nat} {hasPrev : Bool} (h : 6 ≤ next) (h' : next ≤ 4096) :
    CodeContext.wf { m := 2, next := next, hasPrev := hasPrev } = true := by
  have fits : next ≤ maxCodes := h'
  simp [CodeContext.wf, minCodeOk, h, fits]

theorem ref (code : BitVec 12) : Statement (.ref code) := by
  intro h
  simp only [Instr.wf, decide_eq_true_eq] at h
  have lt := code.isLt
  exact ⟨rfl, { m := 2, next := code.toNat + 1, hasPrev := true }, smallContext_wf (by omega) (by omega), by
    simp only [CodeContext.admits, Bool.and_eq_true, decide_eq_true_eq]; omega⟩

theorem kwk (code : BitVec 12) : Statement (.kwk code) := by
  intro h
  simp only [Instr.wf, decide_eq_true_eq] at h
  have lt := code.isLt
  exact ⟨rfl, { m := 2, next := code.toNat, hasPrev := true }, smallContext_wf (by omega) (by omega), by
    simp only [CodeContext.admits, Bool.and_eq_true, decide_eq_true_eq, beq_self_eq_true, and_true]; omega⟩

theorem invalid (code : BitVec 12) : Statement (.invalid code) := by
  intro h
  simp only [Instr.wf, decide_eq_true_eq] at h
  refine ⟨rfl, { m := 2, next := 6, hasPrev := false }, smallContext_wf (by omega) (by omega), ?_⟩
  simp only [CodeContext.admits, Bool.and_eq_true, Bool.or_eq_true, decide_eq_true_eq, beq_iff_eq, Bool.not_false, and_true]
  omega

end Sys2Proof.Laws.Encodes
end

