-- ==== Sys2Proof/Laws/Run.lean ====
section
/-! SUPPORT. The run of a unit and the step of the machine: a step of a running unit is the working step that `run` repeats, and
what holds of every working step holds of a run. -/

namespace Sys2Proof.Machine

/-- `exec` of a code is the interpreter LZWD repeats inside a command. -/
theorem exec_eq_execCode {i : Instr} (h : i.isCommand = false) (s : State) : exec i s = execCode i s := by
  cases i <;> first | rfl | cases h

/-- A value of the code stream never decodes to a command. -/
theorem decodeCode_isCommand (ctx : CodeContext) (c : BitVec 12) : (decodeCode ctx c).isCommand = false := by
  unfold decodeCode
  repeat' split
  all_goals rfl

theorem lzwdStep_exec (w : Lzwd) (b : Option PixelFormat) (s : State) :
    lzwdStep exec w b s = lzwdStep execCode w b s := by
  unfold lzwdStep
  split
  · exact exec_eq_execCode (decodeCode_isCommand _ _) _
  · rfl
  · rfl
  · rfl

/-- With a unit running, a step is its working step. -/
theorem step_eq_unitStep {s : State} (h : s.running ≠ .idle) : step s = unitStep s := by
  cases e : s.running with
  | idle => exact absurd e h
  | lzwc w => simp only [step, unitStep, e]
  | lzwd w b => simp only [step, unitStep, e, lzwdStep_exec]
  | blit w => simp only [step, unitStep, e]

/-- With GLZ idle, a step is the host's next action. -/
theorem step_of_action {s : State} {a : HostAction} {rest : List HostAction} (h : s.running = .idle)
    (hs : s.script = a :: rest) : step s = hostAct a { s with script := rest } := by
  simp [step, h, hs]

theorem step_of_idle {s : State} (h : s.running = .idle) (hs : s.script = []) : step s = .next s := by
  simp [step, h, hs]

/-- Everything providing a DST can do (44_host_container.md R254). -/
theorem hostProvideDst_cases (size : Fin 4294967296) (s : State) :
    (s.cfg.size .dst < size.val ∧
      hostProvideDst size s = .next (s.replaceDst size (Memory.below s.dst s.regs.dstPtr.toNat))) ∨
    (size.val ≤ s.cfg.size .dst ∧ hostProvideDst size s = .refused (.dstNotLarger size.val)) := by
  unfold hostProvideDst
  split
  · exact .inl ⟨‹_›, rfl⟩
  · exact .inr ⟨Nat.not_lt.mp ‹_›, rfl⟩

/-- A larger DST keeps the memories canonical and inside their sizes. -/
theorem State.MemoriesOk.replaceDst {s : State} (h : s.MemoriesOk) {size : Fin 4294967296} (hs : s.cfg.size .dst ≤ size.val)
    (a : Nat) : (s.replaceDst size (Memory.below s.dst a)).MemoriesOk := by
  constructor
  · intro sp
    cases sp with
    | dst => exact Memory.wf_below a (h.wf .dst)
    | src => exact h.wf .src
    | idx => exact h.wf .idx
    | pix => exact h.wf .pix
  · intro sp
    cases sp with
    | dst => exact fun x hx => Nat.lt_of_lt_of_le (Memory.within_below a (h.within .dst) x hx) hs
    | src => exact h.within .src
    | idx => exact h.within .idx
    | pix => exact h.within .pix

/-! ### Running -/

theorem runToIdle_of_idle (fuel : Nat) {s : State} (h : s.running = .idle) : runToIdle fuel s = .next s := by
  cases fuel with
  | zero => rfl
  | succ f => simp [runToIdle, h]

theorem runToIdle_of_running (fuel : Nat) {s : State} (h : s.running ≠ .idle) :
    runToIdle (fuel + 1) s = andThen (unitStep s) (runToIdle fuel) := by
  unfold runToIdle
  split <;> first | rfl | exact absurd ‹_› h

/-- What every working step keeps, a run keeps. -/
theorem runToIdle_induction {P : State → Prop} (hs : ∀ s t, P s → s.running ≠ .idle → unitStep s = .next t → P t)
    (fuel : Nat) {s t : State} (h : P s) (hr : runToIdle fuel s = .next t) : P t := by
  induction fuel generalizing s with
  | zero => cases hr; exact h
  | succ fuel ih =>
    by_cases hi : s.running = .idle
    · rw [runToIdle_of_idle _ hi] at hr; cases hr; exact h
    · rw [runToIdle_of_running fuel hi] at hr
      obtain ⟨u, hu, hr⟩ := andThen_eq_next hr
      exact ih (hs s u h hi hu) hr

theorem run_induction {P : State → Prop} (hs : ∀ s t, P s → s.running ≠ .idle → unitStep s = .next t → P t)
    {s t : State} (h : P s) (hr : run s = .next t) : P t :=
  runToIdle_induction hs (stepsLeft s) h hr

/-- A measure that every working step lowers bounds the run: it ends idle. -/
theorem runToIdle_ends {measure : State → Nat} (hm : ∀ s t, s.running ≠ .idle → unitStep s = .next t → t.running ≠ .idle →
    measure t < measure s) (fuel : Nat) {s t : State} (hf : s.running = .idle ∨ measure s < fuel)
    (hr : runToIdle fuel s = .next t) : t.running = .idle := by
  induction fuel generalizing s with
  | zero =>
    rcases hf with hf | hf
    · cases hr; exact hf
    · exact absurd hf (Nat.not_lt_zero _)
  | succ fuel ih =>
    by_cases hi : s.running = .idle
    · rw [runToIdle_of_idle _ hi] at hr; cases hr; exact hi
    · rw [runToIdle_of_running fuel hi] at hr
      obtain ⟨u, hu, hr⟩ := andThen_eq_next hr
      refine ih ?_ hr
      by_cases hiu : u.running = .idle
      · exact .inl hiu
      · refine .inr ?_
        have := hm s u hi hu hiu
        rcases hf with hf | hf
        · exact absurd hf hi
        · omega

/-! ### What one working step does -/

/-- Everything a working step of LZWC that answers a next state can do. -/
theorem lzwcStep_next {w : Lzwc} {s t : State} (h : lzwcStep w s = .next t) :
    (w.i < s.regs.idxLen.toNat ∧ ∃ b, s.fetchByte .idx w.i = .value b ∧
      ((∃ w' dst, symbolStep (s.cfg.size .dst) (maskSymbol w.m b) w s.dst = .ok w' dst ∧
          t = (s.setMemory .dst dst).setRunning (.lzwc w')) ∨
        (∃ w' dst a, symbolStep (s.cfg.size .dst) (maskSymbol w.m b) w s.dst = .bounds w' dst a ∧
          t = lzwcFault w'.p a dst s))) ∨
    (s.regs.idxLen.toNat ≤ w.i ∧
      ((∃ w' dst, emitFinish (s.cfg.size .dst) w s.dst = .ok w' dst ∧ t = lzwcDone w' (s.setMemory .dst dst)) ∨
        (∃ w' dst a, emitFinish (s.cfg.size .dst) w s.dst = .bounds w' dst a ∧ t = lzwcFault w'.p a dst s))) := by
  unfold lzwcStep at h
  simp only at h
  split at h
  · obtain ⟨b, hb, h⟩ := State.readChecked_next h
    refine .inl ⟨‹_›, b, hb, ?_⟩
    rcases commit_next h with ⟨w', dst, e, h⟩ | ⟨w', dst, a, e, h⟩
    · cases h; exact .inl ⟨w', dst, e, rfl⟩
    · exact .inr ⟨w', dst, a, e, h⟩
  · refine .inr ⟨by omega, ?_⟩
    rcases commit_next h with ⟨w', dst, e, h⟩ | ⟨w', dst, a, e, h⟩
    · cases h; exact .inl ⟨w', dst, e, rfl⟩
    · exact .inr ⟨w', dst, a, e, h⟩

/-- Everything a working step of BLIT that answers a next state can do (42_blit.md R198 to R205). -/
theorem blitStep_next {w : Blit} {s t : State} (h : blitStep w s = .next t) :
    (frameSymbols s.regs ≤ w.i ∧ t = complete (s.setPixCount (countWord w.cnt))) ∨
    (w.i < frameSymbols s.regs ∧ ∃ v, s.fetchByte .idx w.i = .value v ∧
      ((isTransparent s.regs.blitCtrl v = true ∧ t = s.setRunning (.blit { w with i := w.i + 1 })) ∨
        (isTransparent s.regs.blitCtrl v = false ∧ s.regs.palSize.toNat ≤ v.toNat ∧ t = blitFault w s) ∨
        (isTransparent s.regs.blitCtrl v = false ∧ v.toNat < s.regs.palSize.toNat ∧ ∃ r g b,
          s.fetchByte .src (s.regs.palPtr.toNat + 3 * v.toNat) = .value r ∧
          s.fetchByte .src (s.regs.palPtr.toNat + 3 * v.toNat + 1) = .value g ∧
          s.fetchByte .src (s.regs.palPtr.toNat + 3 * v.toNat + 2) = .value b ∧
          pixelAddress s.regs w.i + 4 ≤ s.cfg.size .pix ∧
          t = (s.setMemory .pix (Memory.writeList s.pix (pixelAddress s.regs w.i) (pixelBytes w.fmt r g b))).setRunning
            (.blit { w with i := w.i + 1, cnt := w.cnt + 1 })))) := by
  unfold blitStep at h
  split at h
  · obtain ⟨v, hv, h⟩ := State.readChecked_next h
    refine .inr ⟨‹_›, v, hv, ?_⟩
    unfold blitSymbol at h
    split at h
    · cases h; exact .inl ⟨‹_›, rfl⟩
    · have tr : isTransparent s.regs.blitCtrl v = false := by simpa using ‹¬ isTransparent _ _ = true›
      split at h
      · cases h; exact .inr (.inl ⟨tr, ‹_›, rfl⟩)
      · obtain ⟨r, hr, h⟩ := State.readChecked_next h
        obtain ⟨g, hg, h⟩ := State.readChecked_next h
        obtain ⟨b, hb, h⟩ := State.readChecked_next h
        obtain ⟨hs, h⟩ := State.writeChecked_next h
        cases h
        have len : (pixelBytes w.fmt r g b).length = 4 := by cases w.fmt <;> rfl
        rw [len] at hs
        exact .inr (.inr ⟨tr, by omega, r, g, b, hr, hg, hb, hs, rfl⟩)
  · cases h; exact .inl ⟨by omega, rfl⟩

/-- Everything a working step of LZWD can do: the code it fetched, or one of its ends (41_lzw_decompress.md R156). -/
theorem lzwdStep_cases (ex : Instr → State → Res) (w : Lzwd) (b : Option PixelFormat) (s : State) :
    (∃ w' c, getCode s w = .code w' c ∧
      lzwdStep ex w b s = ex (decodeCode w'.context c) (s.setRunning (.lzwd w' b))) ∨
    (∃ w', getCode s w = .endOfData w' ∧ lzwdStep ex w b s = lzwdEnd w' b s) ∨
    (∃ w' a, getCode s w = .bounds w' a ∧ lzwdStep ex w b s = .next (lzwdFault .srcBounds a w' s)) ∨
    (∃ a, getCode s w = .unwritten a ∧ lzwdStep ex w b s = .fault (.unwrittenRead .src a)) := by
  unfold lzwdStep
  cases getCode s w with
  | code w' c => exact .inl ⟨w', c, rfl, rfl⟩
  | endOfData w' => exact .inr (.inl ⟨w', rfl, rfl⟩)
  | bounds w' a => exact .inr (.inr (.inl ⟨w', a, rfl, rfl⟩))
  | unwritten a => exact .inr (.inr (.inr ⟨a, rfl, rfl⟩))

/-! ### Everything a working step can do -/

/-- The three ways STATUS can change where a decompression ends without fault (41_lzw_decompress.md R176). -/
inductive EndFlags (f : Status) : Status → Prop where
  | long : EndFlags f f.endLong
  | data (op n : Nat) : EndFlags f (f.shortTest op n)
  | eoi (op n : Nat) : EndFlags f (f.sawEoi.shortTest op n)

/-- What a working step can change: one constructor for each way a unit goes on or ends. -/
inductive UnitChange (s t : State) : Prop where
  | lzwcGo (w w' : Lzwc) (dst : Memory) : s.running = .lzwc w → t = (s.setMemory .dst dst).setRunning (.lzwc w') →
      UnitChange s t
  | lzwcEnd (w w' : Lzwc) (dst : Memory) : s.running = .lzwc w → t = lzwcDone w' (s.setMemory .dst dst) → UnitChange s t
  | lzwcFault (w : Lzwc) (p a : Nat) (dst : Memory) : s.running = .lzwc w → t = lzwcFault p a dst s → UnitChange s t
  | lzwdGo (w w' : Lzwd) (b : Option PixelFormat) (idx : Memory) : s.running = .lzwd w b →
      t = (s.setMemory .idx idx).setRunning (.lzwd w' b) → UnitChange s t
  | lzwdEnd (w : Lzwd) (f : Status) (idx : Memory) (count : Word) : s.running = .lzwd w none →
      EndFlags s.regs.status f → t = complete (((s.setStatus f).setMemory .idx idx).setOutCount count) → UnitChange s t
  | lzwdBlit (w : Lzwd) (f : Status) (fmt : PixelFormat) (idx : Memory) (count : Word) : s.running = .lzwd w (some fmt) →
      EndFlags s.regs.status f → t = blitStart fmt (((s.setStatus f).setMemory .idx idx).setOutCount count) →
      UnitChange s t
  | lzwdFault (w w' : Lzwd) (b : Option PixelFormat) (c : FaultCode) (info : Nat) : s.running = .lzwd w b →
      t = lzwdFault c info w' s → UnitChange s t
  | blitGo (w w' : Blit) (pix : Memory) : s.running = .blit w → t = (s.setMemory .pix pix).setRunning (.blit w') →
      UnitChange s t
  | blitEnd (w : Blit) (count : Word) : s.running = .blit w → t = complete (s.setPixCount count) → UnitChange s t
  | blitFault (w : Blit) : s.running = .blit w → t = blitFault w s → UnitChange s t

theorem lzwdFill_change {w w' : Lzwd} {b : Option PixelFormat} {s u t : State} {f : Status} {r : Running}
    (hs : s.running = .lzwd w b) (hu : u = s.setRunning r) (hf : EndFlags s.regs.status f)
    (h : lzwdFill w' b (u.setStatus f) = .next t) : UnitChange s t := by
  subst hu
  obtain ⟨-, ⟨rfl, e⟩ | ⟨fmt, rfl, e⟩⟩ := lzwdFill_next h
  · exact .lzwdEnd w f _ _ hs hf (by rw [e]; rfl)
  · exact .lzwdBlit w f fmt _ _ hs hf (by rw [e]; rfl)

theorem dataCode_change {w w' : Lzwd} {b : Option PixelFormat} {s u t : State} {r : Running} {code : Nat}
    {symbols : List Byte} (hs : s.running = .lzwd w b) (hu : u = s.setRunning r)
    (h : dataCode w' b code symbols u = .next t) : UnitChange s t := by
  rcases dataCode_next h with ⟨-, e⟩ | ⟨-, -, e⟩
  · exact lzwdFill_change hs hu .long (by subst hu; exact e)
  · subst hu; exact .lzwdGo w _ b _ hs (by rw [e]; rfl)

/-- A code run at `s` with other registers of LZWD changes `s` as a working step does. -/
theorem execCode_change {w w' : Lzwd} {b : Option PixelFormat} {i : Instr} {s u t : State} (hs : s.running = .lzwd w b)
    (hu : u = s.setRunning (.lzwd w' b)) (h : execCode i u = .next t) : UnitChange s t := by
  have hr : u.running = .lzwd w' b := hu ▸ rfl
  cases i with
  | compress | decompress | blitBgra | blitRgba | decblitBgra | decblitRgba | reset => cases h
  | lit m symbol =>
    obtain ⟨v, k, hv, -, h⟩ := onCode_next h
    rw [hr] at hv; cases hv
    exact dataCode_change hs hu h
  | clear m =>
    obtain ⟨v, k, hv, -, h⟩ := onCode_next h
    rw [hr] at hv; cases hv; subst hu; cases h
    exact .lzwdGo w _ b s.idx hs rfl
  | eoi m =>
    obtain ⟨v, k, hv, -, h⟩ := onCode_next h
    rw [hr] at hv; cases hv
    exact lzwdFill_change hs hu (.eoi w'.op w'.n) (by subst hu; exact h)
  | ref code =>
    obtain ⟨v, k, hv, -, h⟩ := onCode_next h
    rw [hr] at hv; cases hv
    split at h
    · exact dataCode_change hs hu h
    · cases h
  | kwk code =>
    obtain ⟨v, k, hv, -, h⟩ := onCode_next h
    rw [hr] at hv; cases hv
    split at h
    · split at h
      · exact dataCode_change hs hu h
      · cases h
    · cases h
  | invalid code =>
    obtain ⟨v, k, hv, -, h⟩ := onCode_next h
    rw [hr] at hv; cases hv; subst hu; cases h
    exact .lzwdFault w w' b _ _ hs rfl

/-- A working step that answers a next state is one of the changes. -/
theorem unitStep_change {s t : State} (hi : s.running ≠ .idle) (h : unitStep s = .next t) : UnitChange s t := by
  unfold unitStep at h
  cases e : s.running with
  | idle => exact absurd e hi
  | lzwc w =>
    rw [e] at h
    rcases lzwcStep_next h with ⟨-, b, -, ⟨w', dst, -, h⟩ | ⟨w', dst, a, -, h⟩⟩ | ⟨-, ⟨w', dst, -, h⟩ | ⟨w', dst, a, -, h⟩⟩
    · exact .lzwcGo w w' dst e h
    · exact .lzwcFault w _ a dst e h
    · exact .lzwcEnd w w' dst e h
    · exact .lzwcFault w _ a dst e h
  | lzwd w b =>
    rw [e] at h
    simp only at h
    rcases lzwdStep_cases execCode w b s with ⟨w', c, -, k⟩ | ⟨w', -, k⟩ | ⟨w', a, -, k⟩ | ⟨a, -, k⟩ <;> rw [k] at h
    · exact execCode_change e rfl h
    · exact lzwdFill_change (r := s.running) (u := s) e rfl (.data w'.op w'.n) h
    · cases h; exact .lzwdFault w w' b _ _ e rfl
    · cases h
  | blit w =>
    rw [e] at h
    rcases blitStep_next h with ⟨-, h⟩ | ⟨-, v, -, ⟨-, h⟩ | ⟨-, -, h⟩ | ⟨-, -, r, g, b, -, -, -, -, h⟩⟩
    · exact .blitEnd w _ e h
    · exact .blitGo w _ s.pix e h
    · exact .blitFault w e h
    · exact .blitGo w _ _ e h

end Sys2Proof.Machine
end

