-- ==== Sys2Proof/Tests/Slice0.lean ====
section
/-! SUPPORT. The model's own tests: the smoke test of WellFormed, decoding of words written out from 30_encoding.md, small tests
with the vectors of 95_test_vectors.md, and a witness for the hypotheses of every statement that has some. -/

open Sys2Proof Sys2Proof.Machine Sys2Proof.Claims

namespace Sys2Proof.Tests

/-! ## Well-formedness: ill-formed terms are refused -/

theorem test_wf_lit_m_too_small : (Instr.lit 1 0).wf = false := by decide
theorem test_wf_lit_m_too_large : (Instr.lit 9 0).wf = false := by decide
theorem test_wf_lit_symbol_too_large : (Instr.lit 2 4).wf = false := by decide
theorem test_wf_lit_largest_symbol : (Instr.lit 2 3).wf = true := by decide
theorem test_wf_clear_m_too_small : (Instr.clear 1).wf = false := by decide
theorem test_wf_eoi_m_too_large : (Instr.eoi 9).wf = false := by decide
theorem test_wf_ref_too_small : (Instr.ref 5).wf = false := by decide
theorem test_wf_kwk_too_small : (Instr.kwk 5).wf = false := by decide
theorem test_wf_invalid_too_small : (Instr.invalid 5).wf = false := by decide
theorem test_wf_invalid_smallest : (Instr.invalid 6).wf = true := by decide
theorem test_wf_context_next_too_large : CodeContext.wf { m := 8, next := 4097, hasPrev := true } = false := by decide
theorem test_wf_context_next_too_small : CodeContext.wf { m := 8, next := 257, hasPrev := true } = false := by decide

/-! ## Decoding: words written out from 30_encoding.md R91, R97 and R98 -/

theorem test_decode_compress : decodeCommand 0b00000000000000000000000000000001 = .ok .compress := by decide
theorem test_decode_decompress : decodeCommand 0b00000000000000000000000000000010 = .ok .decompress := by decide
theorem test_decode_blitBgra : decodeCommand 0b00000000000000000000000000000011 = .ok .blitBgra := by decide
theorem test_decode_blitRgba : decodeCommand 0b00000000000000000000000000000100 = .ok .blitRgba := by decide
theorem test_decode_decblitBgra : decodeCommand 0b00000000000000000000000000000101 = .ok .decblitBgra := by decide
theorem test_decode_decblitRgba : decodeCommand 0b00000000000000000000000000000110 = .ok .decblitRgba := by decide
theorem test_decode_reset : decodeCommand 0b00000000000000000000000000000111 = .ok .reset := by decide
theorem test_decode_zero : decodeCommand 0x00000000 = .error (.reservedOpcode 0) := by decide
theorem test_decode_opcode_8 : decodeCommand 0x00000008 = .error (.reservedOpcode 8) := by decide
theorem test_decode_opcode_15 : decodeCommand 0x0000000F = .error (.reservedOpcode 15) := by decide
theorem test_decode_bit_4 : decodeCommand 0x00000017 = .error (.reservedBits 0x17) := by decide
theorem test_decode_bit_31 : decodeCommand 0x80000001 = .error (.reservedBits 0x80000001) := by decide

/-- The middle of a stream of m = 2: codes 6 and 7 defined, a previous data code. -/
def midContext : CodeContext := { m := 2, next := 8, hasPrev := true }

/-- The start of a stream of m = 2. -/
def startContext : CodeContext := { m := 2, next := 6, hasPrev := false }

theorem test_decode_lit_largest : decodeCode midContext 0b000000000011 = .lit 2 3 := by decide
theorem test_decode_lit_m8 : decodeCode { m := 8, next := 258, hasPrev := false } 0b000011111111 = .lit 8 255 := by decide
theorem test_decode_clear : decodeCode midContext 0b000000000100 = .clear 2 := by decide
theorem test_decode_clear_m8 : decodeCode { m := 8, next := 4096, hasPrev := true } 0b000100000000 = .clear 8 := by decide
theorem test_decode_eoi : decodeCode midContext 0b000000000101 = .eoi 2 := by decide
theorem test_decode_ref_first : decodeCode midContext 0b000000000110 = .ref 6 := by decide
theorem test_decode_ref_last : decodeCode midContext 0b000000000111 = .ref 7 := by decide
theorem test_decode_kwk : decodeCode midContext 0b000000001000 = .kwk 8 := by decide
theorem test_decode_invalid_above : decodeCode midContext 0b000000001001 = .invalid 9 := by decide
theorem test_decode_invalid_no_prev : decodeCode startContext 0b000000000110 = .invalid 6 := by decide
theorem test_decode_full_table : decodeCode { m := 8, next := 4096, hasPrev := true } 0b111111111111 = .ref 4095 := by decide

/-- The table's words: a command in 32 bits, codes in 12 bits held in two bytes. -/
theorem test_table_words :
    decodeTableWord 32 6 = some .decblitRgba ∧ decodeTableWord 32 0 = none ∧ decodeTableWord 16 0 = some (.lit 2 0) ∧
    decodeTableWord 16 0x100 = some (.clear 8) ∧ decodeTableWord 16 5 = some (.eoi 2) ∧
    decodeTableWord 16 0x102 = some (.ref 0x102) := by decide

/-! ## A small machine: program P2 of 95_test_vectors.md section 6, with COMPRESS's and DECOMPRESS's operands set too -/

/-- Consecutive bytes from an address. -/
def cells : Nat → List Byte → Memory
  | _, [] => []
  | a, b :: bs => (a, b) :: cells (a + 1) bs

/-- A 1 by 1 canvas and frame, a palette of two colours at SRC 0, the stream `02 02 44 01 00` (vector CV-1) at SRC 6, one symbol
in IDX. -/
def scene : State :=
  { State.reset with
    src := cells 0 [0xFF, 0x00, 0x00, 0x00, 0xFF, 0x00, 0x02, 0x02, 0x44, 0x01, 0x00]
    idx := [(0, 0)]
    regs := { Regs.reset with
      srcPtr := 6
      idxLen := 1
      minCode := 2
      canvas := { w := 1, h := 1 }
      frameSize := { w := 1, h := 1 }
      palSize := 2 } }

/-- `scene` with other registers, other memories, or other sizes. -/
def sceneRegs (f : Regs → Regs) : State := { scene with regs := f scene.regs }
def sceneStream (bytes : List Byte) (n : Word) : State :=
  { scene with src := cells 0 bytes, idx := [], regs := { scene.regs with srcPtr := 0, idxLen := n } }
def sceneFault : State :=
  { scene with
    regs := { scene.regs with
      status := { Status.clear with fault := true }
      fault := 0x01 } }

/-- The next state, if the outcome is one. -/
def nextOf (r : Res) : Option State :=
  match r with
  | .next t => some t
  | .fault _ => none
  | .refused _ => none

theorem eq_next_of_nextOf {r : Res} {t : State} (h : nextOf r = some t) : r = .next t := by
  cases r <;> simp_all [nextOf]

/-- The fault or the refusal, if the outcome is one. -/
def stopOf (r : Res) : Option (Fault ⊕ Refusal) :=
  match r with
  | .next _ => none
  | .fault f => some (.inl f)
  | .refused f => some (.inr f)

/-- A part of the next state. -/
def after {α : Type} (r : Res) (f : State → α) : Option α := (nextOf r).map f

/-- CV-1. -/
theorem test_compress_CV1 :
    after (exec .compress scene) (fun t => (t.dst, t.regs.dstPtr, t.regs.outCount, t.regs.status.toWord)) =
      some (cells 0 [0x02, 0x02, 0x44, 0x01, 0x00], 5, 5, 0x01) := by decide +kernel

/-- CF-1: the terminator does not fit. -/
theorem test_compress_CF1 :
    after (exec .compress { scene with cfg := { scene.cfg with dstSize := 4 } })
        (fun t => (t.dst, t.regs.fault, t.regs.faultInfo, t.regs.outCount, t.regs.dstPtr)) =
      some (cells 0 [0x02, 0x02, 0x44, 0x01], 0x11, 4, 4, 0) := by decide +kernel

/-- DX-18. -/
theorem test_decompress_DX18 :
    after (exec .decompress (sceneStream [0x02, 0x03, 0x44, 0x8C, 0x05, 0x00] 7))
        (fun t => (t.idx, t.regs.outCount, t.regs.status.toWord)) =
      some (cells 0 [0, 1, 0, 1, 0, 1, 0], 7, 0x11) := by decide +kernel

/-- DX-3: the last code does not fit. -/
theorem test_decompress_DX3 :
    after (exec .decompress (sceneStream [0x02, 0x02, 0x84, 0x5F, 0x00] 5))
        (fun t => (t.idx, t.regs.outCount, t.regs.status.toWord)) =
      some (cells 0 [0, 0, 0, 0, 0], 3, 0x05) := by decide +kernel

/-- BV-5. -/
theorem test_blitRgba_BV5 :
    after (exec .blitRgba scene) (fun t => (t.pix, t.regs.pixCount, t.regs.status.toWord)) =
      some (cells 0 [0xFF, 0x00, 0x00, 0xFF], 1, 0x01) := by decide +kernel

/-- BV-5. -/
theorem test_blitBgra_BV5 :
    after (exec .blitBgra scene) (fun t => (t.pix, t.regs.pixCount, t.regs.status.toWord)) =
      some (cells 0 [0x00, 0x00, 0xFF, 0xFF], 1, 0x01) := by decide +kernel

/-- The set-up of BV-8: the second symbol is outside the palette. -/
def sceneBV8 : State :=
  { scene with
    src := cells 0 [0, 1, 2, 3, 4, 5, 6, 7, 8, 9, 10, 11]
    idx := cells 0 [1, 5]
    regs := { scene.regs with
      canvas := { w := 2, h := 2 }
      frameSize := { w := 2, h := 1 }
      palSize := 4 } }

theorem test_blitBgra_BV8 :
    after (exec .blitBgra sceneBV8) (fun t => (t.pix, t.regs.fault, t.regs.faultInfo, t.regs.pixCount, t.regs.status.toWord)) =
      some (cells 0 [0x05, 0x04, 0x03, 0xFF], 0x13, 1, 1, 0x02) := by decide +kernel

/-- BV-2: five interlaced rows. -/
theorem test_blitRgba_BV2 :
    after (exec .blitRgba { scene with
        src := cells 0 [0, 1, 2, 10, 11, 12, 20, 21, 22, 30, 31, 32, 40, 41, 42]
        idx := cells 0 [0, 1, 2, 3, 4]
        regs := { scene.regs with
          canvas := { w := 1, h := 5 }
          frameSize := { w := 1, h := 5 }
          palSize := 8
          blitCtrl := { transIndex := 0, transEn := false, interlaced := true } } })
        (fun t => (t.pix, t.regs.pixCount)) =
      some (cells 0 [0x00, 0x01, 0x02, 0xFF, 0x1E, 0x1F, 0x20, 0xFF, 0x14, 0x15, 0x16, 0xFF, 0x28, 0x29, 0x2A, 0xFF, 0x0A, 0x0B,
        0x0C, 0xFF], 5) := by decide +kernel

/-- P2. -/
theorem test_decblitRgba_P2 :
    after (exec .decblitRgba scene)
        (fun t => (t.pix, t.idx, t.regs.outCount, t.regs.pixCount, t.regs.status.toWord)) =
      some (cells 0 [0xFF, 0x00, 0x00, 0xFF], [(0, 0)], 1, 1, 0x11) := by decide +kernel

/-- P2. -/
theorem test_decblitBgra_P2 :
    after (exec .decblitBgra scene)
        (fun t => (t.pix, t.idx, t.regs.outCount, t.regs.pixCount, t.regs.status.toWord)) =
      some (cells 0 [0x00, 0x00, 0xFF, 0xFF], [(0, 0)], 1, 1, 0x11) := by decide +kernel

/-- KV-25. -/
theorem test_reset_KV25 :
    after (exec .reset { sceneFault with regs := { sceneFault.regs with cmd := 1, faultInfo := 9, outCount := 5 } })
        (fun t => t) = some scene := by decide +kernel

/-- KV-13: the first failing check wins. -/
theorem test_checks_KV13 :
    after (exec .blitRgba (sceneRegs fun r => { r with
        canvas := { w := 2, h := 2 }
        framePos := { x := 1, y := 1 }
        frameSize := { w := 2, h := 2 }
        palSize := 3 }))
      (fun t => (t.regs.fault, t.regs.faultInfo, t.regs.cmd, t.regs.status.toWord)) = some (0x05, 0, 4, 0x02) := by
  decide +kernel

/-- KV-21: an illegal word after a completed command. -/
theorem test_illegal_KV21 :
    after (commandWrite 9 (sceneRegs fun r => { r with status := { Status.clear with done := true }, cmd := 1, outCount := 5 }))
      (fun t => (t.regs.status.toWord, t.regs.fault, t.regs.faultInfo, t.regs.cmd, t.regs.outCount)) =
      some (0x03, 0x01, 9, 1, 5) := by decide +kernel

/-- KV-28. -/
theorem test_reserved_bits_KV28 :
    after (hostWriteReg 0x1C .word 0xFFFFFFFF scene) (fun t => regRead t.regs .minCode) = some 0x0000000F ∧
    after (hostWriteReg 0x30 .word 0xFFFFFFFF scene) (fun t => regRead t.regs .palSize) = some 0x000001FF ∧
    after (hostWriteReg 0x34 .word 0xFFFFFFFF scene) (fun t => regRead t.regs .blitCtrl) = some 0x000003FF := by
  decide +kernel

/-! ## The codes, one at a time: LZWD in the stream of DX-18 after the codes 4, 0, 1, 6 -/

/-- LZWD before code 8 of DX-18: entries 6 = (0, 1) and 7 = (1, 0), four symbols written. -/
def midLzwd : Lzwd :=
  { m := 2, width := 4, next := 8, prev := some 6, acc := 8, nb := 4, p := 4, sbrem := 1, ended := false, op := 4, n := 7,
    tab := [{ code := 7, pfx := 1, byte := 0 }, { code := 6, pfx := 0, byte := 1 }] }

/-- `scene` with LZWD there. -/
def mid (w : Lzwd) (b : Option PixelFormat) : State :=
  { sceneStream [0x02, 0x03, 0x44, 0x8C, 0x05, 0x00] 7 with idx := cells 0 [0, 1, 0, 1], running := .lzwd w b }

/-- What LZWD holds after a code that goes on. -/
def lzwdOf (s : State) : Option Lzwd :=
  match s.running with
  | .lzwd w _ => some w
  | .idle => none
  | .lzwc _ => none
  | .blit _ => none

/-- IDX and LZWD after a code that goes on. -/
def goesOn (r : Res) : Option (Memory × Lzwd) :=
  match nextOf r with
  | some t => (lzwdOf t).map fun w => (t.idx, w)
  | none => none

theorem test_lit :
    goesOn (exec (.lit 2 3) (mid midLzwd none)) =
      some (cells 0 [0, 1, 0, 1, 3],
        { midLzwd with op := 5, next := 9, prev := some 3, tab := { code := 8, pfx := 6, byte := 3 } :: midLzwd.tab }) := by
  decide +kernel

theorem test_ref :
    goesOn (exec (.ref 7) (mid midLzwd none)) =
      some (cells 0 [0, 1, 0, 1, 1, 0],
        { midLzwd with op := 6, next := 9, prev := some 7, tab := { code := 8, pfx := 6, byte := 1 } :: midLzwd.tab }) := by
  decide +kernel

/-- 90_conflicts.md C2: 0, 1, 0 and not 0, 1, 1. -/
theorem test_kwk :
    goesOn (exec (.kwk 8) (mid midLzwd none)) =
      some (cells 0 [0, 1, 0, 1, 0, 1, 0],
        { midLzwd with op := 7, next := 9, prev := some 8, tab := { code := 8, pfx := 6, byte := 0 } :: midLzwd.tab }) := by
  decide +kernel

theorem test_clear :
    after (exec (.clear 2) (mid midLzwd none)) (fun t => (lzwdOf t).map fun w => (w.next, w.width, w.prev, w.op)) =
      some (some (6, 3, none, 4)) := by decide +kernel

theorem test_eoi :
    after (exec (.eoi 2) (mid midLzwd none)) (fun t => (t.idx, t.regs.outCount, t.regs.status.toWord)) =
      some (cells 0 [0, 1, 0, 1, 0, 0, 0], 4, 0x19) := by decide +kernel

theorem test_invalid :
    after (exec (.invalid 9) (mid midLzwd none))
        (fun t => (t.idx, t.regs.outCount, t.regs.fault, t.regs.faultInfo, t.regs.status.toWord)) =
      some (cells 0 [0, 1, 0, 1], 4, 0x12, 9, 0x02) := by decide +kernel

/-! ## withFetchWord: the next step runs the instruction of a table word -/

theorem test_fetch_command :
    nextOf (step (State.reset.withFetchWord 32 3)) = nextOf (exec .blitBgra State.reset) := by decide +kernel

theorem test_fetch_lit :
    after (step (State.reset.withFetchWord 16 3)) (fun t => (t.idx, (lzwdOf t).map fun w => w.prev)) =
      some ([(0, 3)], some (some 3)) := by decide +kernel

theorem test_fetch_ref :
    after (step (State.reset.withFetchWord 16 0x102)) (fun t => (t.idx, (lzwdOf t).map fun w => w.prev)) =
      some ([(0, 0), (1, 0)], some (some 0x102)) := by decide +kernel

/-! ## Witnesses: for every statement with hypotheses, a state and operands that meet all of them together -/

/-- An outcome that is a next state of which a test holds. -/
def answers (r : Res) (p : State → Bool) : Bool :=
  match r with
  | .next t => p t
  | .fault _ => false
  | .refused _ => false

theorem exists_next {r : Res} {p : State → Bool} (h : answers r p = true) : ∃ t, r = .next t ∧ p t = true := by
  cases r with
  | next t => exact ⟨t, rfl, h⟩
  | fault f => cases h
  | refused f => cases h

theorem scene_ready : scene.ready := by decide

theorem scene_frameOk : FrameOk scene.cfg scene.regs := by constructor <;> decide

theorem scene_memoriesOk : scene.MemoriesOk := by constructor <;> intro sp <;> cases sp <;> decide

theorem scene_flagsOk : scene.FlagsOk := by
  constructor <;> first | decide | exact (fun h => absurd h (by decide)) | (intro w k h; cases h)

theorem midLzwd_ok : midLzwd.Ok scene.cfg := by
  constructor <;> first
    | decide
    | (intro c h; cases h; exact .inr (by decide))
    | exact ⟨by decide, .inl (by decide), by decide, by decide, .inl (by decide), by decide, rfl⟩

/-- CodeClassesByValueAndCounter: every class at the ends of its range, and no value in two classes. -/
theorem witness_CodeClassesByValueAndCounter :
    midContext.wf = true ∧ startContext.wf = true ∧ CodeContext.wf { m := 8, next := 4096, hasPrev := true } = true ∧
    (List.range 10).map (fun c => decodeCode midContext (BitVec.ofNat 12 c)) =
      [.lit 2 0, .lit 2 1, .lit 2 2, .lit 2 3, .clear 2, .eoi 2, .ref 6, .ref 7, .kwk 8, .invalid 9] ∧
    decodeCode startContext 6 = .invalid 6 := by decide

theorem witness_DecodeAfterEncode :
    midContext.wf = true ∧ (Instr.kwk 8).wf = true ∧ midContext.admits (.kwk 8) = true ∧
    Instr.blitRgba.wf = true ∧ Instr.blitRgba.isCommand = true := by decide

theorem witness_EncodeAfterDecode :
    midContext.wf = true ∧ decode midContext (.code 0xFFF) = .ok (.invalid 0xFFF) ∧
    decode midContext (.command 7) = .ok .reset := by decide

theorem witness_IllegalCommandLatchesOnlyTheFault :
    scene.ready ∧ (0x00000010 : Word) >>> 4 ≠ 0 ∧ (0x00000000 : Word) &&& 0xF = 0 ∧
    8 ≤ ((0x00000008 : Word) &&& 0xF).toNat ∧ 8 ≤ ((0x0000000F : Word) &&& 0xF).toNat := by decide

theorem witness_GateIgnoresAllButReset :
    sceneFault.running = .idle ∧ sceneFault.regs.status.fault = true ∧ (0x00000017 : Word) ≠ 0x00000007 ∧
    Reg.canvas ≠ Reg.cmd ∧ 4095 < sceneFault.cfg.size .pix ∧ 10 < sceneFault.cfg.size .src ∧
    Memory.read (sceneFault.memory .src) 10 = some 0x00 := by decide

theorem witness_ResetClearsStatusAndCounts : sceneFault.running = .idle ∧ scene.running = .idle := by decide

/-- The registers of `scene` with other COMPRESS operands. -/
def compressOperands (m : BitVec 4) (len : Word) : State := sceneRegs fun r => { r with minCode := m, idxLen := len }

theorem witness_CompressChecksInOrder :
    ((compressOperands 1 1).ready ∧ (compressOperands 1 1).regs.minCode.toNat < 2) ∧
    ((compressOperands 9 1).ready ∧ 8 < (compressOperands 9 1).regs.minCode.toNat) ∧
    ((compressOperands 2 0).ready ∧ 2 ≤ (compressOperands 2 0).regs.minCode.toNat ∧
      (compressOperands 2 0).regs.minCode.toNat ≤ 8 ∧ (compressOperands 2 0).regs.idxLen.toNat = 0) ∧
    ((compressOperands 8 4097).ready ∧ (compressOperands 8 4097).regs.minCode.toNat ≤ 8 ∧
      (compressOperands 8 4097).cfg.size .idx < (compressOperands 8 4097).regs.idxLen.toNat) := by decide

theorem witness_DecompressLengthCheck :
    (compressOperands 2 4097).ready ∧ (compressOperands 2 4097).cfg.size .idx < (compressOperands 2 4097).regs.idxLen.toNat := by
  decide

/-- One state for each of the eight blit checks, failing it at the boundary and no earlier one (KV-1 to KV-11). -/
def blitFailures : List State :=
  [ sceneRegs fun r => { r with canvas := { w := 0, h := 1 }, frameSize := { w := 0, h := 1 } },
    sceneRegs fun r => { r with frameSize := { w := 1, h := 0 } },
    sceneRegs fun r => { r with framePos := { x := 1, y := 0 } },
    sceneRegs fun r => { r with framePos := { x := 0, y := 1 } },
    sceneRegs fun r => { r with palSize := 257 },
    { scene with cfg := { scene.cfg with idxSize := 0 } },
    { scene with cfg := { scene.cfg with pixSize := 3 } },
    { scene with cfg := { scene.cfg with srcSize := 5 } } ]

theorem witness_BlitChecksInOrder :
    (∀ s ∈ blitFailures, s.ready) ∧ (Instr.decblitBgra, (5 : BitVec 4)) ∈ blitCommands ∧
    blitFailures.map (fun s => firstFailing (blitChecks s)) =
      [some (.badDimensions, 0), some (.badDimensions, 1), some (.frameOutsideCanvas, 0), some (.frameOutsideCanvas, 1),
        some (.badPaletteSize, 257), some (.bufferTooSmall, 1), some (.bufferTooSmall, 2), some (.bufferTooSmall, 3)] := by
  decide

/-- CV-1 ending exactly at DST_SIZE. -/
theorem witness_CompressAppendsReferenceStream :
    let s : State := { scene with cfg := { scene.cfg with dstSize := 8 }, regs := { scene.regs with dstPtr := 3 } }
    s.ready ∧ s.regs.idxLen.toNat = [(0 : Byte)].length ∧ [(0 : Byte)].length ≤ s.cfg.size .idx ∧ s.holds .idx 0 [0] ∧
    streamOf 2 [0] = [0x02, 0x02, 0x44, 0x01, 0x00] ∧
    s.regs.dstPtr.toNat + (streamOf s.regs.minCode.toNat ([(0 : Byte)].map fun b => b.toNat % 2 ^ s.regs.minCode.toNat)).length ≤
      s.cfg.size .dst := by
  unfold State.holds; decide +kernel

/-- Both outcomes: one symbol in DST of 8 bytes at cursor 3, and in DST of 7. -/
theorem witness_CompressEndsDoneOrDstBounds :
    (scene.ready ∧ 2 ≤ scene.regs.minCode.toNat ∧ scene.regs.minCode.toNat ≤ 8 ∧ 1 ≤ scene.regs.idxLen.toNat ∧
      scene.written .idx 0 scene.regs.idxLen.toNat) ∧
    answers (exec .compress scene) (fun t => t.regs.status.done) = true ∧
    answers (exec .compress { scene with cfg := { scene.cfg with dstSize := 7 }, regs := { scene.regs with dstPtr := 3 } })
      (fun t => t.regs.fault = 0x11 && t.regs.faultInfo = 7) = true ∧
    answers (exec .compress { scene with cfg := { scene.cfg with dstSize := 4 }, regs := { scene.regs with dstPtr := 3 } })
      (fun t => t.regs.fault = 0x11 && t.regs.faultInfo = 5) = true ∧
    answers (exec .compress { scene with cfg := { scene.cfg with dstSize := 3 }, regs := { scene.regs with dstPtr := 4 } })
      (fun t => t.regs.fault = 0x11 && t.regs.faultInfo = 4) = true := by
  refine ⟨⟨by decide, by decide, by decide, by decide, by decide, ?_⟩, by decide +kernel⟩
  intro j hj
  have : j = 0 := by have : j < 1 := hj; omega
  exact ⟨0, by subst this; decide⟩

/-- `scene` with one symbol to compress at a cursor in a DST of a size. -/
def tightDst (size : Fin 4294967296) (cursor : Word) : State :=
  { scene with cfg := { scene.cfg with dstSize := size }, regs := { scene.regs with dstPtr := cursor } }

/-- CF-1 to CF-3, and DST ended before the cursor and right after the minimum-code-size byte. -/
theorem witness_CompressOutOfRoomKeepsItsPrefix :
    (let s := tightDst 4 0;
      s.ready ∧ s.regs.idxLen.toNat = [(0 : Byte)].length ∧ [(0 : Byte)].length ≤ s.cfg.size .idx ∧ s.holds .idx 0 [0] ∧
      s.cfg.size .dst < s.regs.dstPtr.toNat +
        (streamOf s.regs.minCode.toNat ([(0 : Byte)].map fun b => b.toNat % 2 ^ s.regs.minCode.toNat)).length) ∧
    [tightDst 4 0, tightDst 3 0, tightDst 12 10, tightDst 3 4, tightDst 1 0].map (fun s =>
        after (exec .compress s) fun t => (t.dst, t.regs.faultInfo, t.regs.outCount)) =
      [some ([(0, 0x02), (1, 0x02), (2, 0x44), (3, 0x01)], 4, 4), some ([(0, 0x02), (2, 0x44)], 3, 3),
        some ([(10, 0x02)], 12, 2), some ([], 4, 0), some ([(0, 0x02)], 2, 2)] := by
  unfold State.holds; decide +kernel

/-- CF-1 and a DST of eight bytes in its place. -/
theorem witness_LargerDstLetsCompressRepeat :
    (tightDst 4 0).ready ∧ (tightDst 4 0).holds .idx 0 [0] ∧ 0 + (streamOf 2 [0]).length ≤ 8 ∧
    answers (exec .compress (tightDst 4 0)) (fun t => decide (t.regs.fault = 0x11 ∧ t.regs.status.fault = true)) = true := by
  unfold State.holds; decide +kernel

/-- A larger DST keeps the bytes below the cursor; one that is not larger is refused. -/
theorem test_provideDst :
    after (hostAct (.provideDst 8) { tightDst 4 1 with dst := [(0, 7), (1, 9)] }) (fun t => (t.dst, t.cfg.size .dst)) =
      some ([(0, 7)], 8) ∧
    stopOf (hostAct (.provideDst 4) (tightDst 4 1)) = some (.inr (.dstNotLarger 4)) := by decide +kernel

/-- Two states that differ in the cursor and in the bits of the symbol that are masked away. -/
theorem witness_CompressOutputDependsOnSymbolsOnly :
    let s₁ := scene
    let s₂ : State := { scene with idx := [(0, 4)], regs := { scene.regs with dstPtr := 9 } }
    s₁.ready ∧ s₂.ready ∧ Memory.read s₁.idx 0 = some 0 ∧ Memory.read s₂.idx 0 = some 4 ∧ 4 % 2 ^ s₁.regs.minCode.toNat = 0 ∧
    answers (exec .compress s₁) (fun t => t.regs.status.done) = true ∧
    answers (exec .compress s₂) (fun t => t.regs.status.done) = true := by decide +kernel

/-- CV-1 compressed from `scene`, copied to SRC, decompressed. -/
theorem witness_CompressThenDecompressReturnsSymbols :
    scene.ready ∧
    answers (exec .compress scene) (fun t =>
      let u : State := { scene with src := t.dst, regs := { scene.regs with srcPtr := 0 } }
      decide (t.regs.status.done = true ∧ u.ready ∧ u.regs.idxLen = scene.regs.idxLen ∧
        u.regs.idxLen.toNat ≤ u.cfg.size .idx ∧ u.regs.srcPtr.toNat + t.regs.outCount.toNat ≤ u.cfg.size .src ∧
        ∀ j < t.regs.outCount.toNat,
          Memory.read u.src (u.regs.srcPtr.toNat + j) = Memory.read t.dst (scene.regs.dstPtr.toNat + j))) = true := by
  decide +kernel

/-- LZWC before the third symbol of CV-2, with key (0, 0) in the table. -/
def hitLzwc : Lzwc :=
  { m := 2, width := 3, next := 7, pfx := 0, i := 2, acc := 4, nb := 6, p := 2, sb := 1,
    tab := [{ pfx := 0, symbol := 0, code := 6 }] }

theorem witness_CompressorHitEmitsNothing :
    let s : State := { scene with idx := cells 0 [0, 0, 4, 0, 0, 0], running := .lzwc hitLzwc,
                                  regs := { scene.regs with idxLen := 6 } }
    s.running = .lzwc hitLzwc ∧ hitLzwc.i < s.regs.idxLen.toNat ∧ s.fetchByte .idx hitLzwc.i = .value 4 ∧
    { pfx := 0, symbol := 0, code := 6 } ∈ hitLzwc.tab ∧ 0 = hitLzwc.pfx ∧ 0 = (4 : Byte).toNat % 2 ^ hitLzwc.m ∧
    (∀ x ∈ hitLzwc.tab, x.pfx = 0 → x.symbol = 0 → x.code = 6) := by decide

theorem witness_LitWritesItsSymbol :
    (mid midLzwd none).running = .lzwd midLzwd none ∧ midLzwd.m = 2 ∧ (3 : Byte).toNat < 2 ^ 2 ∧
    midLzwd.op + 1 ≤ midLzwd.n ∧ midLzwd.n ≤ (mid midLzwd none).cfg.size .idx ∧ midLzwd.next ≤ 4096 := by decide

/-- The sequences of entries 6 and 7 of `midLzwd`. -/
theorem seq_6 : IsSeq 2 midLzwd.tab 6 [0, 1] :=
  .entry (tab := midLzwd.tab) { code := 6, pfx := 0, byte := 1 } [0] (by decide) (by decide) (.lit 0 (by decide))

theorem seq_7 : IsSeq 2 midLzwd.tab 7 [1, 0] :=
  .entry (tab := midLzwd.tab) { code := 7, pfx := 1, byte := 0 } [1] (by decide) (by decide) (.lit 1 (by decide))

theorem witness_RefWritesItsSequence :
    (mid midLzwd none).running = .lzwd midLzwd none ∧ midLzwd.Ok (mid midLzwd none).cfg ∧
    2 ^ midLzwd.m + 2 ≤ (7 : BitVec 12).toNat ∧ (7 : BitVec 12).toNat < midLzwd.next ∧
    IsSeq midLzwd.m midLzwd.tab (7 : BitVec 12).toNat [1, 0] ∧ midLzwd.op + [(1 : Byte), 0].length ≤ midLzwd.n :=
  ⟨rfl, midLzwd_ok, by decide, by decide, seq_7, by decide⟩

theorem witness_KwkRepeatsTheFirstSymbol :
    (mid midLzwd none).running = .lzwd midLzwd none ∧ midLzwd.Ok (mid midLzwd none).cfg ∧
    (8 : BitVec 12).toNat = midLzwd.next ∧ midLzwd.prev = some 6 ∧ IsSeq midLzwd.m midLzwd.tab 6 (0 :: [1]) ∧
    midLzwd.op + ([(1 : Byte)].length + 2) ≤ midLzwd.n :=
  ⟨rfl, midLzwd_ok, by decide, rfl, seq_6, by decide⟩

theorem witness_EveryDefinedCodeHasOneSequence :
    midLzwd.Ok scene.cfg ∧ DataCode midLzwd.m midLzwd.next 3 ∧ DataCode midLzwd.m midLzwd.next 7 :=
  ⟨midLzwd_ok, .inl (by decide), .inr (by decide)⟩

theorem witness_ClearResetsTableAndWidth :
    (mid midLzwd none).running = .lzwd midLzwd none ∧ midLzwd.m = 2 := by decide

theorem witness_EoiEndsDecompress :
    (mid midLzwd none).running = .lzwd midLzwd none ∧ midLzwd.m = 2 ∧ midLzwd.op ≤ midLzwd.n ∧
    midLzwd.n ≤ (mid midLzwd none).cfg.size .idx ∧ midLzwd.op < 4294967296 ∧
    (mid midLzwd none).regs.status.warnLong = false ∧ (mid midLzwd none).regs.status.warnShort = false := by decide

theorem witness_EoiStartsBlitInDecblit :
    (mid midLzwd (some .rgba)).running = .lzwd midLzwd (some .rgba) ∧ midLzwd.m = 2 ∧ midLzwd.op ≤ midLzwd.n ∧
    midLzwd.n ≤ (mid midLzwd (some .rgba)).cfg.size .idx ∧ midLzwd.op < 4294967296 := by decide

/-- Both causes: a code above the next code, and the next code with no previous one. -/
theorem witness_InvalidCodeFaults :
    ((mid midLzwd none).running = .lzwd midLzwd none ∧ 2 ^ midLzwd.m + 2 ≤ (9 : BitVec 12).toNat ∧
      midLzwd.next < (9 : BitVec 12).toNat ∧ midLzwd.op < 4294967296 ∧ (mid midLzwd none).regs.status.fault = false) ∧
    (2 ^ (Lzwd.start 2 1 4).m + 2 ≤ (6 : BitVec 12).toNat ∧ (6 : BitVec 12).toNat = (Lzwd.start 2 1 4).next ∧
      (Lzwd.start 2 1 4).prev = none) := by decide

/-- `midLzwd` with fewer symbols expected. -/
def fullLzwd (n : Nat) : Lzwd := { midLzwd with n := n }

theorem fullLzwd_ok : (fullLzwd 4).Ok scene.cfg :=
  ⟨midLzwd_ok.1, midLzwd_ok.2, midLzwd_ok.3, midLzwd_ok.4, midLzwd_ok.5, midLzwd_ok.6, midLzwd_ok.7, midLzwd_ok.8,
    midLzwd_ok.9, midLzwd_ok.10, by decide, by decide, midLzwd_ok.13⟩

/-- No place left: LIT 3, REF 7 and KWK 8 do not fit; in a DECOMPRESS or in a DECBLIT. -/
theorem witness_CodeThatDoesNotFitIsDroppedWhole :
    (mid (fullLzwd 4) none).running = .lzwd (fullLzwd 4) none ∧
    (mid (fullLzwd 4) (some .rgba)).running = .lzwd (fullLzwd 4) (some .rgba) ∧
    (fullLzwd 4).Ok (mid (fullLzwd 4) none).cfg ∧ (fullLzwd 4).op < 4294967296 ∧
    (mid (fullLzwd 4) none).regs.status.warnShort = false ∧ (mid (fullLzwd 4) none).regs.status.eoiSeen = false ∧
    (fullLzwd 4).context.admits (.lit 2 3) = true ∧ (fullLzwd 4).context.admits (.ref 7) = true ∧
    (fullLzwd 4).context.admits (.kwk 8) = true ∧ (fullLzwd 4).prev = some 6 ∧
    IsSeq (fullLzwd 4).m (fullLzwd 4).tab (7 : BitVec 12).toNat [1, 0] ∧
    IsSeq (fullLzwd 4).m (fullLzwd 4).tab 6 (0 :: [1]) ∧ (fullLzwd 4).n < (fullLzwd 4).op + [(3 : Byte)].length :=
  ⟨rfl, rfl, fullLzwd_ok, by decide, rfl, rfl, by decide, by decide, by decide, rfl, seq_7, seq_6, by decide⟩

theorem witness_CodesRunOnlyWhereTheyAreRead :
    (∀ w k, scene.running ≠ .lzwd w k) ∧ (Instr.ref 7).isCommand = false ∧
    midLzwd.context.admits (.ref 8) = false ∧ midLzwd.context.wf = true ∧ decodeCode midLzwd.context 7 = .ref 7 :=
  ⟨fun _ _ h => (nomatch h), by decide, by decide, by decide, by decide⟩

/-- LZWD about to read the first code at SRC address `p`, `sbrem` bytes of the sub-block left, and a state with SRC. -/
def fetching (p sbrem width : Nat) : Lzwd := { Lzwd.start 8 p 4 with sbrem := sbrem, width := width }
def streaming (src : Memory) (size : Fin 4294967297) : State := { scene with src := src, cfg := { scene.cfg with srcSize := size } }

/-- No byte needed, or the data ended. -/
theorem witness_GetCodeTakesTheLowBits :
    (1 ≤ midLzwd.width ∧ midLzwd.width ≤ 12 ∧ midLzwd.acc < 2 ^ midLzwd.nb ∧ midLzwd.width ≤ midLzwd.nb) ∧
    (let w := { fetching 1 0 3 with ended := true }; w.acc < 2 ^ w.nb ∧ w.nb < w.width ∧ w.ended = true) := by decide

/-- One byte: of the same sub-block, of the next, or instead of it the terminator, the end of SRC before the length byte and
after it, a byte never written. -/
theorem witness_GetCode_one_byte :
    let w := fetching 1 0 3
    (w.acc < 2 ^ w.nb ∧ w.nb < w.width ∧ w.width ≤ w.nb + 8 ∧ w.ended = false) ∧
    feeds (streaming (cells 1 [5]) 4096) (fetching 1 2 3) { fetching 2 1 3 with acc := 5, nb := 8 } ∧
    feeds (streaming (cells 1 [3, 5]) 4096) w { fetching 3 2 3 with acc := 5, nb := 8 } ∧
    endsData (streaming (cells 1 [0]) 4096) w { fetching 2 0 3 with ended := true } ∧
    lacks (streaming [] 1) w 1 .outside ∧ lacks (streaming (cells 1 [3]) 2) w 2 .outside ∧
    lacks (streaming [] 4096) w 1 .unwritten :=
  ⟨by decide, ⟨5, .inl (by decide)⟩, ⟨5, .inr ⟨by decide, 3, by decide⟩⟩, by unfold endsData; decide, ⟨by decide, .inl rfl⟩,
    ⟨by decide, .inr ⟨rfl, rfl, 3, by decide⟩⟩, ⟨by decide, .inl rfl⟩⟩

/-- Two bytes for a code of nine bits: both there; or after the first the terminator, the end of SRC, a byte never written. -/
theorem witness_GetCode_two_bytes :
    let w := fetching 1 0 9
    let w₁ := { fetching 3 0 9 with acc := 5, nb := 8 }
    (w.acc < 2 ^ w.nb ∧ w.nb + 8 < w.width ∧ w.width ≤ 12 ∧ w.ended = false) ∧
    (∀ src size, (streaming src size).fetchByte .src 1 = .value 1 → (streaming src size).fetchByte .src 2 = .value 5 →
      feeds (streaming src size) w w₁) ∧
    feeds (streaming (cells 1 [1, 5, 1, 7]) 4096) w₁ { fetching 5 0 9 with acc := 1797, nb := 16 } ∧
    endsData (streaming (cells 1 [1, 5, 0]) 4096) w₁ { fetching 4 0 9 with acc := 5, nb := 8, ended := true } ∧
    lacks (streaming (cells 1 [1, 5]) 3) w₁ 3 .outside ∧ lacks (streaming (cells 1 [1, 5, 1]) 4) w₁ 4 .outside ∧
    lacks (streaming (cells 1 [1, 5]) 4096) w₁ 3 .unwritten :=
  ⟨by decide, fun _ _ h1 h2 => ⟨5, .inr ⟨rfl, 1, by decide, h1, h2, rfl⟩⟩, ⟨7, .inr ⟨by decide, 1, by decide⟩⟩,
    by unfold endsData; decide, ⟨by decide, .inl rfl⟩, ⟨by decide, .inr ⟨rfl, rfl, 1, by decide⟩⟩, ⟨by decide, .inl rfl⟩⟩

/-- The four clauses: a code, the end of the data (in a DECOMPRESS and in a DECBLIT), the end of SRC, a byte never written. -/
theorem witness_StepRunsTheFetchedCode :
    (mid midLzwd none).running = .lzwd midLzwd none ∧
    getCode (mid midLzwd none) midLzwd = .code { midLzwd with acc := 0, nb := 0 } 8 ∧
    (let w := { midLzwd with acc := 0, nb := 0, p := 5, sbrem := 0 };
      getCode (mid w none) w = .endOfData { w with p := 6, ended := true } ∧
      getCode (mid w (some .bgra)) w = .endOfData { w with p := 6, ended := true }) ∧
    (let w := { midLzwd with acc := 0, nb := 0, p := 4096, sbrem := 0 }; getCode (mid w none) w = .bounds w 4096) ∧
    (let w := { midLzwd with acc := 0, nb := 0, p := 6, sbrem := 0 }; getCode (mid w none) w = .unwritten 6) ∧
    midLzwd.op ≤ midLzwd.n ∧ midLzwd.n ≤ (mid midLzwd none).cfg.size .idx ∧ midLzwd.op < 4294967296 ∧
    (mid midLzwd none).regs.status = Status.clear := by decide +kernel

theorem witness_StepRunsTheWrittenCommand :
    let s : State := { scene with script := [.writeReg 0 .word 6] }
    s.running = .idle ∧ s.script = .writeReg s.cfg.glzBase .word 6 :: [] ∧ decodeCommand 6 = .ok .decblitRgba := by decide

theorem witness_IdleWithoutActionsStays : scene.running = .idle ∧ scene.script = [] := by decide

/-- A stream of the given data in one sub-block, at SRC 0. -/
def oneBlock (data : List Byte) (n : Word) : State := sceneStream (streamBytes 2 [data]) n

/-- Each of the four endings: DX-2, DX-6c, DX-3, DX-10. -/
theorem witness_DecompressComputesReference :
    let s := oneBlock [0x84, 0x5F] 6
    (s.ready ∧ 1 ≤ [(0x84 : Byte), 0x5F].length ∧ [(0x84 : Byte), 0x5F].length ≤ 255 ∧ s.regs.idxLen.toNat ≤ s.cfg.size .idx ∧
      s.regs.srcPtr.toNat + (streamBytes 2 [[0x84, 0x5F]]).length ≤ s.cfg.size .src ∧
      s.holds .src s.regs.srcPtr.toNat (streamBytes 2 [[0x84, 0x5F]])) ∧
    decoded 2 6 [0x84, 0x5F] = ([0, 0, 0, 0, 0, 0], .eoi) ∧ decoded 2 4 [0x8C, 0x00] = ([1, 2, 0, 0], .endOfData) ∧
    decoded 2 5 [0x84, 0x5F] = ([0, 0, 0], .long) ∧ decoded 2 4 [0xC4, 0x01] = ([0], .invalid 7) := by
  unfold State.holds; decide +kernel

/-- DX-2's stream with SRC ending after its last data byte, which holds EOI; before it; and after the first length byte. -/
theorem witness_DecompressStopsAtTheEndOfSrc :
    let s := fun (k : Nat) (size : Fin 4294967297) =>
      { streaming (cells 0 ((streamBytes 2 [[0x84, 0x5F]]).take k)) size with
        regs := { scene.regs with srcPtr := 0, idxLen := 6 } }
    ((s 4 4).ready ∧ (s 4 4).regs.idxLen.toNat ≤ (s 4 4).cfg.size .idx ∧ 4 < (streamBytes 2 [[0x84, 0x5F]]).length ∧
      (s 4 4).regs.srcPtr.toNat + 4 = (s 4 4).cfg.size .src ∧
      (s 4 4).holds .src (s 4 4).regs.srcPtr.toNat ((streamBytes 2 [[0x84, 0x5F]]).take 4)) ∧
    decoded 2 6 (dataWithin [[0x84, 0x5F]] 3) = ([0, 0, 0, 0, 0, 0], .eoi) ∧
    decoded 2 6 (dataWithin [[0x84, 0x5F]] 2) = ([0], .endOfData) ∧ dataWithin [[0x84, 0x5F]] 1 = [] ∧
    dataWithin [[1, 2], [3, 4, 5]] 6 = [1, 2, 3, 4] ∧
    after (exec .decompress (s 3 3)) (fun t => (t.idx, t.regs.fault, t.regs.faultInfo, t.regs.outCount)) =
      some ([(0, 0)], 0x10, 3, 1) := by
  unfold State.holds; decide +kernel

theorem witness_DecompressOfEmptyStreamFillsZeros :
    let s := sceneStream [0x02, 0x00] 1
    s.ready ∧ 2 ≤ (2 : Byte).toNat ∧ (2 : Byte).toNat ≤ 8 ∧ s.regs.idxLen.toNat ≤ s.cfg.size .idx ∧
    s.fetchByte .src s.regs.srcPtr.toNat = .value 2 ∧ s.fetchByte .src (s.regs.srcPtr.toNat + 1) = .value 0 := by decide

/-- DX-26, DX-14, DX-15, and SRC never written. -/
theorem witness_DecompressFirstByte :
    (let s := sceneRegs fun r => { r with srcPtr := 4096 };
      s.ready ∧ s.regs.idxLen.toNat ≤ s.cfg.size .idx ∧ s.cfg.size .src ≤ s.regs.srcPtr.toNat) ∧
    (let s := sceneStream [0x01] 1; s.ready ∧ s.fetchByte .src s.regs.srcPtr.toNat = .value 1) ∧
    (let s := sceneStream [0x09] 1; s.ready ∧ s.fetchByte .src s.regs.srcPtr.toNat = .value 9) ∧
    (let s := sceneStream [] 1;
      s.ready ∧ s.regs.srcPtr.toNat < s.cfg.size .src ∧ Memory.read s.src s.regs.srcPtr.toNat = none) := by decide

/-- P2, whose decompression completes, and DX-11, whose decompression faults. -/
theorem witness_DecblitIsDecompressThenBlit :
    scene.ready ∧ FrameOk scene.cfg scene.regs ∧
    answers (exec .decompress { scene with regs := { scene.regs with idxLen := BitVec.ofNat 32 (frameSymbols scene.regs) } })
      (fun u => !u.regs.status.fault && answers (exec .blitRgba u) (fun v => v.regs.status.done)) = true ∧
    answers (exec .decompress (sceneStream [0x02, 0x01, 0x34, 0x00] 1)) (fun u => u.regs.status.fault) = true :=
  ⟨scene_ready, scene_frameOk, by decide +kernel, by decide +kernel⟩

/-- `scene` with the empty stream at SRC 6 and a palette of colour 0; and with colour 0 transparent and no palette. -/
def emptyScene (transEn : Bool) (src : Memory) : State :=
  { scene with
    src := src
    regs := { scene.regs with blitCtrl := { transIndex := 0, transEn := transEn, interlaced := false } } }

theorem witness_DecblitOfEmptyStreamCompletes :
    (let s := emptyScene false (cells 0 [0xFF, 0x00, 0x00] ++ cells 6 [0x02, 0x00]);
      s.ready ∧ FrameOk s.cfg s.regs ∧ s.fetchByte .src s.regs.srcPtr.toNat = .value 2 ∧
        s.fetchByte .src (s.regs.srcPtr.toNat + 1) = .value 0 ∧ s.written .src s.regs.palPtr.toNat 3) ∧
    (let s := emptyScene true (cells 6 [0x02, 0x00]);
      s.ready ∧ FrameOk s.cfg s.regs ∧ s.fetchByte .src s.regs.srcPtr.toNat = .value 2 ∧
        s.fetchByte .src (s.regs.srcPtr.toNat + 1) = .value 0 ∧ s.regs.blitCtrl.transEn = true ∧
        s.regs.blitCtrl.transIndex = 0) := by
  refine ⟨⟨by decide, by constructor <;> decide, by decide, by decide, by decide, ?_⟩, by decide, by constructor <;> decide, by decide,
    by decide, rfl, rfl⟩
  intro j hj
  match j, hj with
  | 0, _ => exact ⟨0xFF, by decide⟩
  | 1, _ => exact ⟨0, by decide⟩
  | 2, _ => exact ⟨0, by decide⟩

theorem witness_RepeatedCommandChangesNothing :
    scene.ready ∧ scene.MemoriesOk ∧ (∃ t, exec .decblitRgba scene = .next t ∧ t.regs.status.done = true) :=
  ⟨scene_ready, scene_memoriesOk, exists_next (by decide +kernel)⟩

theorem scene_colour_0 : scene.written .src (scene.regs.palPtr.toNat + 3 * (0 : Byte).toNat) 3 := by
  refine ⟨by decide, fun j hj => ?_⟩
  match j, hj with
  | 0, _ => exact ⟨0xFF, by decide⟩
  | 1, _ => exact ⟨0, by decide⟩
  | 2, _ => exact ⟨0, by decide⟩

theorem witness_BlitDrawsTheFrame :
    scene.ready ∧ FrameOk scene.cfg scene.regs ∧ [(0 : Byte)].length = frameSymbols scene.regs ∧ scene.holds .idx 0 [0] ∧
    ∀ v ∈ [(0 : Byte)], (scene.regs.blitCtrl.transEn = true ∧ v = scene.regs.blitCtrl.transIndex) ∨
      (v.toNat < scene.regs.palSize.toNat ∧ scene.written .src (scene.regs.palPtr.toNat + 3 * v.toNat) 3) := by
  refine ⟨scene_ready, scene_frameOk, by decide, by unfold State.holds; decide, fun v hv => ?_⟩
  have : v = 0 := by simpa using hv
  subst this
  exact .inr ⟨by decide, scene_colour_0⟩

theorem witness_TransparentFrameLeavesCanvas :
    let s := emptyScene true []
    s.ready ∧ FrameOk s.cfg s.regs ∧ s.regs.blitCtrl.transEn = true ∧
      ∀ i < frameSymbols s.regs, Memory.read s.idx i = some s.regs.blitCtrl.transIndex :=
  ⟨by decide, by constructor <;> decide, rfl, by decide⟩

/-- BV-8, and an offending symbol in the first place. -/
theorem witness_PaletteIndexFaultIsPrecise :
    (sceneBV8.ready ∧ FrameOk sceneBV8.cfg sceneBV8.regs ∧ [(1 : Byte)].length < frameSymbols sceneBV8.regs ∧
      sceneBV8.holds .idx 0 ([1] ++ [5]) ∧
      (∀ v ∈ [(1 : Byte)], (sceneBV8.regs.blitCtrl.transEn = true ∧ v = sceneBV8.regs.blitCtrl.transIndex) ∨
        (v.toNat < sceneBV8.regs.palSize.toNat ∧ sceneBV8.written .src (sceneBV8.regs.palPtr.toNat + 3 * v.toNat) 3)) ∧
      ¬ (sceneBV8.regs.blitCtrl.transEn = true ∧ (5 : Byte) = sceneBV8.regs.blitCtrl.transIndex) ∧
      sceneBV8.regs.palSize.toNat ≤ (5 : Byte).toNat) ∧
    (let s : State := { scene with idx := [(0, 2)] };
      s.ready ∧ ([] : List Byte).length < frameSymbols s.regs ∧ s.holds .idx 0 ([] ++ [2]) ∧
        s.regs.palSize.toNat ≤ (2 : Byte).toNat) := by
  refine ⟨⟨by decide, by constructor <;> decide, by decide, by unfold State.holds; decide, fun v hv => ?_, by decide, by decide⟩,
    by decide, by decide, by unfold State.holds; decide, by decide⟩
  have : v = 1 := by simpa using hv
  subst this
  refine .inr ⟨by decide, by decide, fun j hj => ?_⟩
  match j, hj with
  | 0, _ => exact ⟨3, by decide⟩
  | 1, _ => exact ⟨4, by decide⟩
  | 2, _ => exact ⟨5, by decide⟩

/-- Not interlaced, a frame of two columns; interlaced, BV-2's five rows, of which the second stored is row 4. -/
theorem witness_PixelAddressesCoverTheFrameOnce :
    FrameOk sceneBV8.cfg sceneBV8.regs ∧ sceneBV8.regs.blitCtrl.interlaced = false ∧ 1 < frameSymbols sceneBV8.regs ∧
    (let s := sceneRegs fun r => { r with
        canvas := { w := 1, h := 5 }
        frameSize := { w := 1, h := 5 }
        blitCtrl := { transIndex := 0, transEn := false, interlaced := true } };
      FrameOk s.cfg s.regs ∧ s.regs.blitCtrl.interlaced = true ∧ 4 < frameSymbols s.regs) ∧
    passRows 5 = [0, 4, 2, 1, 3] :=
  ⟨by constructor <;> decide, rfl, by decide, ⟨by constructor <;> decide, rfl, by decide⟩, by decide⟩

/-- Three rows in the order 0, 1, 2, and the same rows stored as 0, 2, 1. -/
def threeRows (interlaced : Bool) (symbols : List Byte) : State :=
  { scene with
    idx := cells 0 symbols
    regs := { scene.regs with
      canvas := { w := 1, h := 3 }
      frameSize := { w := 1, h := 3 }
      blitCtrl := { transIndex := 1, transEn := true, interlaced := interlaced } } }

theorem witness_InterlacedBlitEqualsOrderedBlit :
    let s := threeRows false [0, 0, 1]
    let u := threeRows true [0, 1, 0]
    s.ready ∧ u.ready ∧
    u = { s with idx := u.idx, regs := { s.regs with blitCtrl := { s.regs.blitCtrl with interlaced := true } } } ∧
    s.regs.blitCtrl.interlaced = false ∧
    (∀ row < s.regs.frameSize.h.toNat, ∀ col < s.regs.frameSize.w.toNat,
      Memory.read u.idx (row * s.regs.frameSize.w.toNat + col) =
        Memory.read s.idx (ilace row s.regs.frameSize.h.toNat * s.regs.frameSize.w.toNat + col)) ∧
    answers (exec .blitBgra s) (fun t => t.regs.status.done) = true ∧ answers (exec .blitBgra u) (fun _ => true) = true := by
  decide +kernel

theorem witness_MemoriesEachInstructionMayWrite :
    answers (exec .compress scene) (fun _ => true) = true ∧ answers (exec (.ref 7) (mid midLzwd none)) (fun _ => true) = true := by
  decide +kernel

theorem witness_OperandRegistersAreKept :
    (∃ t, exec .decompress scene = .next t ∧ t.regs.status.done = true) ∧
    (∃ t, exec .compress (compressOperands 9 1) = .next t ∧ (!t.regs.status.done) = true) :=
  ⟨exists_next (by decide +kernel), exists_next (by decide +kernel)⟩

theorem witness_FirstFaultStaysUntilReset :
    let s : State := { sceneFault with script := [.writeReg 0 .word 1] }
    s.running = .idle ∧ s.regs.status.fault = true ∧ answers (step s) (fun _ => true) = true ∧
    s.script.head? ≠ some (.writeReg s.cfg.glzBase .word 0x00000007) := by decide +kernel

theorem witness_CommandsReturnIdle :
    scene.running = .idle ∧ answers (commandWrite 6 scene) (fun _ => true) = true ∧
    answers (commandWrite 0 scene) (fun _ => true) = true := by decide +kernel

/-- A run that ends, and a run that meets a byte never written. -/
theorem witness_RunIsItsWorkingSteps :
    answers (run (mid midLzwd none)) (fun t => t.running = .idle) = true ∧
    stopOf (run { mid midLzwd none with src := cells 0 [0x02, 0x03, 0x44, 0x8C] }) =
      some (.inl (.unwrittenRead .src 4)) := by decide +kernel

theorem witness_FirstCommandAfterReset : 1 ≤ Config.standard.size .src := by decide

theorem witness_RegisterWritesStoreDefinedFields :
    scene.running = .idle ∧ scene.regs.status.fault = false ∧ (0x00000010 : Word) >>> 4 ≠ 0 ∧
    Reg.blitCtrl ≠ Reg.cmd ∧ Reg.blitCtrl ∉ [Reg.status, .fault, .faultInfo, .outCount, .pixCount] ∧
    AccessSize.half ≠ AccessSize.word ∧ (∀ r : Reg, 0x40 ≠ scene.cfg.glzBase + r.offset) ∧
    (∀ r : Reg, 0x01 ≠ scene.cfg.glzBase + r.offset) :=
  ⟨rfl, rfl, by decide, by decide, by decide, by decide, fun r => by cases r <;> decide, fun r => by cases r <;> decide⟩

theorem witness_HostMemoryAccesses : scene.MemoriesOk ∧ 4095 < scene.cfg.size .pix ∧ 0 < scene.cfg.size .dst :=
  ⟨scene_memoriesOk, by decide, by decide⟩

/-- `scene` with the host about to give DECBLIT_RGBA. -/
def scripted : State := { scene with script := [.writeReg 0 .word 6] }

theorem scripted_inv : scripted.Inv :=
  ⟨⟨scene_memoriesOk.1, scene_memoriesOk.2⟩,
    ⟨scene_flagsOk.1, scene_flagsOk.2, scene_flagsOk.3, scene_flagsOk.4, scene_flagsOk.5, scene_flagsOk.6, scene_flagsOk.7,
      scene_flagsOk.8⟩, trivial⟩

/-- The invariant is met by a running unit too. -/
theorem mid_inv : (mid midLzwd none).Inv := by
  refine ⟨?_, ?_, midLzwd_ok⟩
  · constructor <;> intro sp <;> cases sp <;> decide
  · constructor <;> first | decide | exact (fun h => absurd h (by decide)) | exact (fun _ _ _ => ⟨rfl, rfl, rfl⟩)

theorem witness_StepKeepsMemoriesCanonical :
    scripted.MemoriesOk ∧ answers (step scripted) (fun _ => true) = true := ⟨scripted_inv.1, by decide +kernel⟩

theorem witness_StepKeepsFlagsConsistent :
    scripted.FlagsOk ∧ (mid midLzwd none).FlagsOk ∧ answers (step scripted) (fun _ => true) = true ∧
    answers (step (mid midLzwd none)) (fun _ => true) = true :=
  ⟨scripted_inv.2, mid_inv.2, by decide +kernel, by decide +kernel⟩

theorem witness_StepKeepsInvariant :
    scripted.Inv ∧ (mid midLzwd none).Inv ∧ answers (step scripted) (fun _ => true) = true ∧
    answers (step (mid midLzwd none)) (fun _ => true) = true :=
  ⟨scripted_inv, mid_inv, by decide +kernel, by decide +kernel⟩

/-- A stop of each kind in a state that meets the invariant. -/
theorem witness_UnitsStayInsideMemories :
    State.reset.Inv ∧
    stopOf (step { State.reset with script := [.writeReg 0 .word 2] }) = some (.inl (.unwrittenRead .src 0)) ∧
    stopOf (step { State.reset with script := [.readReg 0x40 .word] }) = some (.inr (.outsideInterface 0x40)) ∧
    stopOf (step { State.reset with script := [.readMem .pix 4096] }) = some (.inr (.hostOutsideMemory .pix 4096)) := by
  refine ⟨⟨?_, ?_, trivial⟩, by decide +kernel⟩
  · constructor <;> intro sp <;> cases sp <;> decide
  · constructor <;> first | decide | exact (fun h => absurd h (by decide)) | (intro w k h; cases h)

end Sys2Proof.Tests
end

section
/-! PROOF. When the model refuses a code (log entry 10): every code acts through `onCode`, and past it nothing refuses. -/

namespace Sys2Proof

/-- What a well-formed context says (10_state.md R48). -/
theorem CodeContext.wf_iff (ctx : CodeContext) :
    ctx.wf = true ↔ (2 ≤ ctx.m ∧ ctx.m ≤ 8) ∧ 2 ^ ctx.m + 2 ≤ ctx.next ∧ ctx.next ≤ maxCodes := by
  simp [CodeContext.wf, minCodeOk, and_assoc]

end Sys2Proof

namespace Sys2Proof.Machine

/-! ### The refusals of `onCode` -/

theorem onCode_of_not_lzwd {i : Instr} {s : State} (k : Lzwd → Option PixelFormat → Res)
    (h : ∀ w b, s.running ≠ .lzwd w b) : onCode i s k = .refused .noCodeStream := by
  cases e : s.running with
  | lzwd w b => exact absurd e (h w b)
  | idle | lzwc w | blit w => simp only [onCode, e]

theorem onCode_of_not_admits {i : Instr} {s : State} (k : Lzwd → Option PixelFormat → Res) {w : Lzwd}
    {b : Option PixelFormat} (hr : s.running = .lzwd w b) (ha : w.context.admits i = false) :
    onCode i s k = .refused .codeOutOfContext := by
  simp [onCode, hr, ha]

/-! ### Past `onCode` nothing refuses -/

/-- A checked write refuses only where what follows it does. -/
theorem State.writeChecked_refused {s : State} {sp : Space} {a : Nat} {bytes : List Byte} {k : State → Res} {r : Refusal}
    (h : s.writeChecked sp a bytes k = .refused r) :
    k (s.setMemory sp (Memory.writeList (s.memory sp) a bytes)) = .refused r := by
  unfold State.writeChecked at h
  split at h
  · exact h
  · cases h

theorem lzwdFill_ne_refused (w : Lzwd) (b : Option PixelFormat) (s : State) (r : Refusal) :
    lzwdFill w b s ≠ .refused r := by
  intro h
  have after := State.writeChecked_refused h
  cases b with
  | none => cases after
  | some fmt => cases after

theorem dataCode_ne_refused (w : Lzwd) (b : Option PixelFormat) (code : Nat) (symbols : List Byte) (s : State)
    (r : Refusal) : dataCode w b code symbols s ≠ .refused r := by
  intro h
  unfold dataCode at h
  split at h
  · exact lzwdFill_ne_refused _ _ _ _ h
  · cases State.writeChecked_refused h

/-- Every code is `onCode` of a meaning that refuses nothing its context admits. -/
theorem exec_eq_onCode {i : Instr} (hi : i.isCommand = false) (s : State) :
    ∃ k, exec i s = onCode i s k ∧ ∀ w b r, w.context.admits i = true → k w b ≠ .refused r := by
  cases i with
  | compress | decompress | blitBgra | blitRgba | decblitBgra | decblitRgba | reset => cases hi
  | lit m symbol => exact ⟨_, rfl, fun _ _ _ _ => dataCode_ne_refused _ _ _ _ _ _⟩
  | clear m => exact ⟨_, rfl, fun _ _ _ _ => nofun⟩
  | eoi m => exact ⟨_, rfl, fun _ _ _ _ => lzwdFill_ne_refused _ _ _ _⟩
  | ref code =>
    refine ⟨_, rfl, fun w b r _ h => ?_⟩
    split at h
    · exact dataCode_ne_refused _ _ _ _ _ _ h
    · cases h
  | kwk code =>
    refine ⟨_, rfl, fun w b r ha h => ?_⟩
    obtain ⟨-, -, hprev⟩ := (w.admits_kwk code).mp ha
    split at h
    · split at h
      · exact dataCode_ne_refused _ _ _ _ _ _ h
      · cases h
    · exact absurd ‹w.prev = none› hprev
  | invalid code => exact ⟨_, rfl, fun _ _ _ _ => nofun⟩

/-- A code its context admits is never refused. -/
theorem exec_ne_refused_of_admits {i : Instr} {s : State} {w : Lzwd} {b : Option PixelFormat} (hi : i.isCommand = false)
    (hr : s.running = .lzwd w b) (ha : w.context.admits i = true) (r : Refusal) : exec i s ≠ .refused r := by
  obtain ⟨k, hk, hne⟩ := exec_eq_onCode hi s
  rw [hk, onCode_of_admits hr ha]
  exact hne w b r ha

/-- Settles O26: `onCode` makes both refusals, and the class the decoder gives a code is one its context admits. -/
theorem codesRunOnlyWhereTheyAreRead : Obligations.CodesRunOnlyWhereTheyAreRead := by
  intro s i hi
  obtain ⟨k, hk, -⟩ := exec_eq_onCode hi s
  refine ⟨fun h => ?_, fun w b hr ha => ?_, fun w b code hr hwf hc => ?_⟩
  · rw [hk, onCode_of_not_lzwd k h]
  · rw [hk, onCode_of_not_admits k hr ha]
  · obtain ⟨⟨-, hm⟩, hn, -⟩ := w.context.wf_iff.mp hwf
    have ha : w.context.admits i = true := hc ▸ admits_decodeCode hn hm code
    exact ⟨ha, exec_ne_refused_of_admits hi hr ha⟩

end Sys2Proof.Machine
end

section
/-! PROOF. Everything a step from idle can do: the host's action, the command a CMD write selects, the unit it starts. -/

namespace Sys2Proof.Machine

/-! ### The command a word selects (30_encoding.md R91, R92) -/

theorem decodeCommand_ok {word : Word} {i : Instr} (h : decodeCommand word = .ok i) :
    reservedField word = 0 ∧ commandOfOpc (opcField word).toNat = some i := by
  unfold decodeCommand at h
  split at h
  · cases h
  · split at h
    · cases h; exact ⟨by simpa using ‹¬ reservedField word ≠ 0›, ‹_›⟩
    · cases h

theorem commandOfOpc_eq_reset {opc : Nat} (h : commandOfOpc opc = some .reset) : opc = 7 := by
  unfold commandOfOpc at h
  split at h <;> cases h
  rfl

/-- RESET has one word (30_encoding.md R91). -/
theorem eq_seven_of_decodeCommand_reset {word : Word} (h : decodeCommand word = .ok .reset) : word = 7 := by
  obtain ⟨hr, ho⟩ := decodeCommand_ok h
  have opc := commandOfOpc_eq_reset ho
  have high := congrArg BitVec.toNat hr
  simp only [opcField, reservedField, BitVec.extractLsb'_toNat, Nat.shiftRight_eq_div_pow, BitVec.ofNat_eq_ofNat,
    BitVec.toNat_ofNat] at opc high
  have lt := word.isLt
  exact BitVec.eq_of_toNat_eq (by simp only [BitVec.ofNat_eq_ofNat, BitVec.toNat_ofNat]; omega)

/-- A word with a bit of [31:4] set is no command (30_encoding.md R92). -/
theorem decodeCommand_of_reserved {word : Word} (h : word >>> 4 ≠ 0) :
    decodeCommand word = .error (.reservedBits word) := by
  have hr : reservedField word ≠ 0 := by
    intro z
    have high := congrArg BitVec.toNat z
    simp only [reservedField, BitVec.extractLsb'_toNat, Nat.shiftRight_eq_div_pow, BitVec.ofNat_eq_ofNat,
      BitVec.toNat_ofNat] at high
    have lt := word.isLt
    refine h (BitVec.eq_of_toNat_eq ?_)
    simp only [BitVec.toNat_ushiftRight, Nat.shiftRight_eq_div_pow, BitVec.ofNat_eq_ofNat, BitVec.toNat_ofNat]
    omega
  exact if_pos hr

/-! ### What a command does from idle -/

/-- The start of the unit of an accepted command (43_commands.md R223 to R229). -/
inductive Started (s u : State) : Prop where
  | compress : firstFailing (compressChecks s) = none → lzwcStart s = .next u → Started s u
  | decompress : firstFailing (decompressChecks s) = none → lzwdStart s.regs.idxLen.toNat none s = .next u → Started s u
  | blit (fmt : PixelFormat) : firstFailing (blitChecks s) = none → u = blitStart fmt s → Started s u
  | decblit (fmt : PixelFormat) : firstFailing (blitChecks s) = none →
      lzwdStart (frameSymbols s.regs) (some fmt) s = .next u → Started s u

/-- What an instruction given to an idle GLZ can do: RESET's effect, nothing behind the gate, a refusal, or a whole run
(43_commands.md R220, R221, R231). -/
inductive CommandChange (i : Instr) (s t : State) : Prop where
  | reset : i = .reset → t = clearFault s → CommandChange i s t
  | gated : s.regs.status.fault = true → t = s → CommandChange i s t
  | refused (opc : BitVec 4) (c : FaultCode) (info : Nat) : s.regs.status.fault = false → opc.toNat ≤ 6 →
      t = raise c info (take opc s) → CommandChange i s t
  | ran (opc : BitVec 4) (u : State) : s.regs.status.fault = false → opc.toNat ≤ 6 → Started (take opc s) u →
      run u = .next t → CommandChange i s t

theorem command_change {i : Instr} {opc : BitVec 4} {checks : State → List (Bool × FaultCode × Nat)} {start : State → Res}
    {s t : State} (ho : opc.toNat ≤ 6)
    (hstart : ∀ u, firstFailing (checks (take opc s)) = none → start (take opc s) = .next u → Started (take opc s) u)
    (h : command opc checks start s = .next t) : CommandChange i s t := by
  obtain ⟨-, ⟨hf, e⟩ | ⟨hf, ⟨c, info, -, e⟩ | ⟨hc, u, hu, hr⟩⟩⟩ := command_next h
  · exact .gated hf e
  · exact .refused opc c info hf ho e
  · exact .ran opc u hf ho (hstart u hc hu) hr

/-- A code answers no next state where LZWD does not run. -/
theorem exec_code_ne_next {i : Instr} (hc : i.isCommand = false) {s : State} (hi : s.running = .idle) (t : State) :
    exec i s ≠ .next t := by
  intro h
  obtain ⟨k, hk, -⟩ := exec_eq_onCode hc s
  obtain ⟨w, b, hr, -⟩ := onCode_next (hk ▸ h)
  rw [hi] at hr; cases hr

/-- Everything an instruction that answers a next state from idle can do. -/
theorem exec_change {i : Instr} {s t : State} (hi : s.running = .idle) (h : exec i s = .next t) : CommandChange i s t := by
  cases i with
  | compress => exact command_change (by decide) (fun _ => .compress) h
  | decompress => exact command_change (by decide) (fun _ => .decompress) h
  | blitBgra => exact command_change (by decide) (fun _ hc e => .blit .bgra hc (by cases e; rfl)) h
  | blitRgba => exact command_change (by decide) (fun _ hc e => .blit .rgba hc (by cases e; rfl)) h
  | decblitBgra => exact command_change (by decide) (fun _ => .decblit .bgra) h
  | decblitRgba => exact command_change (by decide) (fun _ => .decblit .rgba) h
  | reset =>
    obtain ⟨-, e⟩ := whenIdle_next h
    cases e; exact .reset rfl rfl
  | lit | clear | eoi | ref | kwk | invalid => exact absurd h (exec_code_ne_next rfl hi t)

/-! ### What the host does -/

theorem illegalCommand_next {word : Word} {s t : State} (h : illegalCommand word s = .next t) :
    (s.regs.status.fault = true ∧ t = s) ∨ (s.regs.status.fault = false ∧ t = raise .illegalCommand word.toNat s) := by
  obtain ⟨-, e⟩ := whenIdle_next h
  split at e <;> cases e
  · exact .inl ⟨‹_›, rfl⟩
  · exact .inr ⟨by simpa using ‹¬ s.regs.status.fault = true›, rfl⟩

/-- What an action of the host can do while GLZ is idle (10_state.md R26, 20_memory.md R72, 44_host_container.md R254). -/
inductive HostChange (a : HostAction) (s t : State) : Prop where
  | command (word : Word) (i : Instr) : a = .writeReg s.cfg.glzBase .word word → decodeCommand word = .ok i →
      CommandChange i s t → HostChange a s t
  | ignored : t = s → HostChange a s t
  | illegal (info : Nat) : s.regs.status.fault = false → t = raise .illegalCommand info s → HostChange a s t
  | operand (r : Reg) (v : Word) : t = s.setRegs (regWrite s.regs v r) → HostChange a s t
  | read (w : Word) : t = { s with readData := w } → HostChange a s t
  | memory (sp : Space) (x : Nat) (v : Byte) : x < s.cfg.size sp →
      t = s.setMemory sp (Memory.write (s.memory sp) x v) → HostChange a s t
  | dst (size : Fin 4294967296) : s.cfg.size .dst < size.val →
      t = s.replaceDst size (Memory.below s.dst s.regs.dstPtr.toNat) → HostChange a s t

theorem commandWrite_change {word : Word} {s t : State} (hi : s.running = .idle) (h : commandWrite word s = .next t) :
    HostChange (.writeReg s.cfg.glzBase .word word) s t := by
  unfold commandWrite at h
  split at h
  · exact .command word _ rfl ‹_› (exec_change hi h)
  · rcases illegalCommand_next h with ⟨-, e⟩ | ⟨hf, e⟩
    · exact .ignored e
    · exact .illegal _ hf e

theorem hostWriteReg_change {addr : Nat} {size : AccessSize} {v : Word} {s t : State} (hi : s.running = .idle)
    (h : hostWriteReg addr size v s = .next t) : HostChange (.writeReg addr size v) s t := by
  unfold hostWriteReg at h
  split at h
  · have ha : addr = s.cfg.glzBase := Reg.atAddress_eq_some.mp ‹Reg.atAddress s.cfg addr = some .cmd›
    exact ha ▸ commandWrite_change hi h
  · cases h; exact .operand _ v rfl
  · cases h
  · cases h
  · cases h

theorem hostReadReg_change {addr : Nat} {size : AccessSize} {s t : State} (h : hostReadReg addr size s = .next t) :
    HostChange (.readReg addr size) s t := by
  unfold hostReadReg at h
  split at h <;> cases h
  exact .read _ rfl

theorem hostWriteMem_change {sp : Space} {x : Nat} {v : Byte} {s t : State} (h : hostWriteMem sp x v s = .next t) :
    HostChange (.writeMem sp x v) s t := by
  unfold hostWriteMem at h
  split at h <;> cases h
  exact .memory sp x v ‹_› rfl

theorem hostReadMem_change {sp : Space} {x : Nat} {s t : State} (h : hostReadMem sp x s = .next t) :
    HostChange (.readMem sp x) s t := by
  unfold hostReadMem at h
  split at h <;> cases h
  exact .read _ rfl

theorem hostProvideDst_change {size : Fin 4294967296} {s t : State} (h : hostProvideDst size s = .next t) :
    HostChange (.provideDst size) s t := by
  rcases hostProvideDst_cases size s with ⟨hs, e⟩ | ⟨-, e⟩ <;> rw [e] at h <;> cases h
  exact .dst size hs rfl

theorem hostAct_change {a : HostAction} {s t : State} (hi : s.running = .idle) (h : hostAct a s = .next t) :
    HostChange a s t := by
  cases a with
  | writeReg addr size v => exact hostWriteReg_change hi h
  | readReg addr size => exact hostReadReg_change h
  | writeMem sp x v => exact hostWriteMem_change h
  | readMem sp x => exact hostReadMem_change h
  | provideDst size => exact hostProvideDst_change h

/-- A step from idle does nothing, or makes the first action of the script. -/
theorem step_idle_change {s t : State} (hi : s.running = .idle) (h : step s = .next t) :
    t = s ∨ ∃ a rest, s.script = a :: rest ∧ HostChange a { s with script := rest } t := by
  cases hs : s.script with
  | nil => rw [step_of_idle hi hs] at h; cases h; exact .inl rfl
  | cons a rest =>
    rw [step_of_action hi hs] at h
    exact .inr ⟨a, rest, rfl, hostAct_change hi h⟩

end Sys2Proof.Machine
end

section
/-! PROOF. The control registers: the first fault stays latched, and STATUS, FAULT, FAULT_INFO and CMD stay consistent. -/

namespace Sys2Proof.Machine

/-- STATUS, FAULT, FAULT_INFO and CMD are the same. -/
structure keepsControl (s t : State) : Prop where
  status : t.regs.status = s.regs.status
  fault : t.regs.fault = s.regs.fault
  info : t.regs.faultInfo = s.regs.faultInfo
  cmd : t.regs.cmd = s.regs.cmd

theorem keepsControl.refl (s : State) : keepsControl s s := ⟨rfl, rfl, rfl, rfl⟩

theorem keepsControl.keepsFault {s t : State} (h : keepsControl s t) : keepsFault s t :=
  ⟨congrArg Status.fault h.status, h.fault, h.info⟩

/-- A register write stores nothing in a control register (10_state.md R26). -/
theorem keepsControl_regWrite (s : State) (v : Word) (r : Reg) : keepsControl s (s.setRegs (regWrite s.regs v r)) := by
  cases r <;> exact ⟨rfl, rfl, rfl, rfl⟩

theorem keepsControl_setMemory (s : State) (sp : Space) (m : Memory) : keepsControl s (s.setMemory sp m) := by
  constructor <;> rw [State.setMemory_regs]

/-- With a fault latched, an action that is not RESET leaves the control registers and GLZ idle (60_exceptions.md R292). -/
theorem HostChange.keepsControl_of_fault {a : HostAction} {s t : State} (hi : s.running = .idle)
    (hf : s.regs.status.fault = true) (hr : a ≠ .writeReg s.cfg.glzBase .word 7) (h : HostChange a s t) :
    keepsControl s t ∧ t.running = .idle := by
  have latched : s.regs.status.fault ≠ false := by simp [hf]
  cases h with
  | command word i ha hd hc =>
    cases hc with
    | reset e _ => subst e; exact absurd (eq_seven_of_decodeCommand_reset hd ▸ ha) hr
    | gated _ e => subst e; exact ⟨.refl _, hi⟩
    | refused _ _ _ hf' | ran _ _ hf' => exact absurd hf' latched
  | ignored e => subst e; exact ⟨.refl _, hi⟩
  | illegal _ hf' => exact absurd hf' latched
  | operand r v e => exact e ▸ ⟨keepsControl_regWrite s v r, hi⟩
  | read w e => exact e ▸ ⟨⟨rfl, rfl, rfl, rfl⟩, hi⟩
  | memory sp x v _ e => exact e ▸ ⟨keepsControl_setMemory s sp _, by rw [State.setMemory_running, hi]⟩
  | dst size _ e => exact e ▸ ⟨⟨rfl, rfl, rfl, rfl⟩, hi⟩

/-- Settles O45: the gate lets no command but RESET change anything, and no other action reaches the fault registers. -/
theorem firstFaultStaysUntilReset : Obligations.FirstFaultStaysUntilReset := by
  intro s t hi hf h hr
  rcases step_idle_change hi h with rfl | ⟨a, rest, hs, hc⟩
  · exact ⟨⟨rfl, rfl, rfl⟩, hi⟩
  · have notReset : a ≠ .writeReg s.cfg.glzBase .word 7 := by rintro rfl; exact hr (by rw [hs]; rfl)
    obtain ⟨kept, idle⟩ := HostChange.keepsControl_of_fault (s := { s with script := rest }) hi hf notReset hc
    exact ⟨⟨kept.keepsFault.latched, kept.fault, kept.info⟩, idle⟩

end Sys2Proof.Machine
end

section
/-! PROOF. STATUS, FAULT, FAULT_INFO and CMD stay consistent (10_state.md R29 to R31, 43_commands.md R222). -/

namespace Sys2Proof.Machine

/-! ### Keeping the flags consistent -/

/-- Only the control registers and what runs matter to their consistency. -/
theorem State.FlagsOk.of_keepsControl {s t : State} (h : s.FlagsOk) (k : keepsControl s t)
    (hc : t.running ≠ .idle → s.regs.status.fault = false ∧ s.regs.status.done = false)
    (hl : ∀ w b, t.running = .lzwd w b →
      s.regs.status.warnLong = false ∧ s.regs.status.warnShort = false ∧ s.regs.status.eoiSeen = false) : t.FlagsOk := by
  obtain ⟨ks, kf, ki, kc⟩ := k
  constructor <;> simp only [ks, kf, ki, kc]
  · exact h.no_fault
  · exact h.fault_listed
  · exact h.done_fault
  · exact h.one_warning
  · exact h.long_no_eoi
  · exact h.cmd_range
  · exact hc
  · exact hl

/-- Where no unit runs the control registers alone matter. -/
theorem State.FlagsOk.of_idle {s t : State} (h : s.FlagsOk) (k : keepsControl s t) (hi : t.running = .idle) : t.FlagsOk :=
  h.of_keepsControl k (fun n => absurd hi n) fun w b e => by rw [hi] at e; cases e

/-- A state without a fault: FAULT and FAULT_INFO read 0, and the flags agree with what runs. -/
theorem State.FlagsOk.of_no_fault {t : State} (hf : t.regs.status.fault = false)
    (hz : t.regs.fault = 0 ∧ t.regs.faultInfo = 0) (hw : ¬ (t.regs.status.warnLong = true ∧ t.regs.status.warnShort = true))
    (he : ¬ (t.regs.status.warnLong = true ∧ t.regs.status.eoiSeen = true)) (hc : t.regs.cmd.toNat ≤ 6)
    (hd : t.running ≠ .idle → t.regs.status.done = false) (hl : ∀ w b, t.running ≠ .lzwd w b) : t.FlagsOk where
  no_fault := fun _ => hz
  fault_listed := fun h => absurd h (by simp [hf])
  done_fault := fun _ h => absurd h (by simp [hf])
  one_warning := hw
  long_no_eoi := he
  cmd_range := hc
  running_clear := fun h => ⟨hf, hd h⟩
  lzwd_flags := fun w b h => absurd h (hl w b)

/-- Taking an exception (60_exceptions.md R290): DONE stands beside it only if it is ILLEGAL_COMMAND. -/
theorem State.FlagsOk.raise {s : State} (h : s.FlagsOk) (c : FaultCode) (info : Nat)
    (hd : s.regs.status.done = true → c = .illegalCommand) : (raise c info s).FlagsOk := by
  cases hf : s.regs.status.fault with
  | true => exact h.of_idle (by constructor <;> rw [raise_regs, Regs.latch_of_fault _ _ _ hf]) rfl
  | false =>
    have regs : (Machine.raise c info s).regs =
        { s.regs with fault := c.code, faultInfo := BitVec.ofNat 32 info, status := s.regs.status.latch } :=
      Regs.latch_of_clear _ _ _ hf
    constructor <;> simp only [regs, raise_running, Status.latch_done, Status.latch_fault, Status.latch_warnLong,
      Status.latch_warnShort, Status.latch_eoiSeen]
    · nofun
    · exact fun _ => ⟨c, rfl⟩
    · exact fun done _ => congrArg FaultCode.code (hd done)
    · exact h.one_warning
    · exact h.long_no_eoi
    · exact h.cmd_range
    · exact fun n => absurd rfl n
    · nofun

/-- Completion (43_commands.md R222): DONE, with no fault. -/
theorem State.FlagsOk.complete {s : State} (h : s.FlagsOk) (hf : s.regs.status.fault = false) : (complete s).FlagsOk :=
  .of_no_fault hf (h.no_fault hf) h.one_warning h.long_no_eoi h.cmd_range (fun n => absurd rfl n) nofun

/-- The take (43_commands.md R221 c). -/
theorem State.FlagsOk.take {s : State} (h : s.FlagsOk) {opc : BitVec 4} (hi : s.running = .idle)
    (hf : s.regs.status.fault = false) (ho : opc.toNat ≤ 6) : (take opc s).FlagsOk :=
  .of_no_fault hf (h.no_fault hf) nofun nofun ho (fun _ => rfl) fun w b e => by rw [take_running, hi] at e; cases e

/-- RESET (43_commands.md R231). -/
theorem clearFault_flagsOk {s : State} (hi : s.running = .idle) : (clearFault s).FlagsOk :=
  .of_no_fault rfl ⟨rfl, rfl⟩ nofun nofun (by decide : (0 : BitVec 4).toNat ≤ 6) (fun _ => rfl)
    fun w b e => by rw [clearFault_running, hi] at e; cases e

/-- However a decompression ends (41_lzw_decompress.md R176), from clear flags: FAULT and DONE stay, and WARN_LONG stands
alone. -/
theorem EndFlags.consistent {f g : Status} (h : EndFlags f g)
    (clear : f.warnLong = false ∧ f.warnShort = false ∧ f.eoiSeen = false) :
    g.fault = f.fault ∧ g.done = f.done ∧ ¬ (g.warnLong = true ∧ g.warnShort = true) ∧
      ¬ (g.warnLong = true ∧ g.eoiSeen = true) := by
  obtain ⟨hl, hs, he⟩ := clear
  cases h with
  | long => simp [hs, he]
  | data op n => simp [hl]
  | eoi op n => simp [hl]

/-! ### The units -/

/-- A running unit that stops by a fault (60_exceptions.md R290). -/
theorem State.FlagsOk.raise_of_running {s t u : State} (h : s.FlagsOk) (hi : s.running ≠ .idle) {c : FaultCode} {info : Nat}
    (ht : t = Machine.raise c info u) (k : keepsControl s u) : t.FlagsOk := by
  subst ht
  have stopped : (u.setRunning .idle).FlagsOk := h.of_idle ⟨k.status, k.fault, k.info, k.cmd⟩ rfl
  have not_done : u.regs.status.done = false := k.status ▸ (h.running_clear hi).2
  exact stopped.raise c info fun d => absurd d (by simp [not_done])

/-- A running unit that completes (43_commands.md R222). -/
theorem State.FlagsOk.complete_of_running {s u : State} (h : s.FlagsOk) (hi : s.running ≠ .idle) (k : keepsControl s u) :
    (Machine.complete u).FlagsOk := by
  have stopped : (u.setRunning .idle).FlagsOk := h.of_idle ⟨k.status, k.fault, k.info, k.cmd⟩ rfl
  have no_fault : u.regs.status.fault = false := k.status ▸ (h.running_clear hi).1
  exact stopped.complete no_fault

/-- Every working step keeps the control registers consistent. -/
theorem unitStep_keeps_flags {s t : State} (h : s.FlagsOk) (hi : s.running ≠ .idle) (hs : unitStep s = .next t) :
    t.FlagsOk := by
  have clear := h.running_clear hi
  cases unitStep_change hi hs with
  | lzwcGo w w' dst e ht =>
    subst ht; exact h.of_keepsControl ⟨rfl, rfl, rfl, rfl⟩ (fun _ => clear) nofun
  | lzwcEnd w w' dst e ht => subst ht; exact h.complete_of_running hi ⟨rfl, rfl, rfl, rfl⟩
  | lzwcFault w p a dst e ht => exact h.raise_of_running hi ht ⟨rfl, rfl, rfl, rfl⟩
  | lzwdGo w w' b idx e ht =>
    subst ht; exact h.of_keepsControl ⟨rfl, rfl, rfl, rfl⟩ (fun _ => clear) fun _ _ _ => h.lzwd_flags w b e
  | lzwdEnd w f idx count e hf ht =>
    obtain ⟨ff, -, hw, he⟩ := hf.consistent (h.lzwd_flags w none e)
    subst ht
    exact .of_no_fault (ff.trans clear.1) (h.no_fault clear.1) hw he h.cmd_range (fun n => absurd rfl n) nofun
  | lzwdBlit w f fmt idx count e hf ht =>
    obtain ⟨ff, fd, hw, he⟩ := hf.consistent (h.lzwd_flags w (some fmt) e)
    subst ht
    exact .of_no_fault (ff.trans clear.1) (h.no_fault clear.1) hw he h.cmd_range (fun _ => fd.trans clear.2) nofun
  | lzwdFault w w' b c info e ht => exact h.raise_of_running hi ht ⟨rfl, rfl, rfl, rfl⟩
  | blitGo w w' pix e ht =>
    subst ht; exact h.of_keepsControl ⟨rfl, rfl, rfl, rfl⟩ (fun _ => clear) nofun
  | blitEnd w count e ht => subst ht; exact h.complete_of_running hi ⟨rfl, rfl, rfl, rfl⟩
  | blitFault w e ht => exact h.raise_of_running hi ht ⟨rfl, rfl, rfl, rfl⟩

/-! ### The start of a unit -/

theorem lzwcStart_next {s u : State} (h : lzwcStart s = .next u) :
    (s.cfg.size .dst ≤ s.regs.dstPtr.toNat ∧
      u = lzwcFault s.regs.dstPtr.toNat s.regs.dstPtr.toNat s.dst s) ∨
    (s.regs.dstPtr.toNat < s.cfg.size .dst ∧ ∃ b,
      let m := s.regs.minCode.toNat
      let dst := Memory.write s.dst s.regs.dstPtr.toNat (BitVec.ofNat 8 m)
      let e := emitCode (s.cfg.size .dst) (clearCode m) (Lzwc.start m s.regs.dstPtr.toNat (maskSymbol m b)) dst
      (∃ w d, e = .ok w d ∧ u = (s.setMemory .dst d).setRunning (.lzwc w)) ∨
      (∃ w d a, e = .bounds w d a ∧ u = lzwcFault w.p a d s)) := by
  unfold lzwcStart at h
  simp only at h
  split at h
  · obtain ⟨b, -, h⟩ := State.readChecked_next h
    refine .inr ⟨‹_›, b, ?_⟩
    rcases commit_next h with ⟨w, d, e, h⟩ | ⟨w, d, a, e, h⟩
    · cases h; exact .inl ⟨w, d, e, rfl⟩
    · exact .inr ⟨w, d, a, e, h⟩
  · cases h; exact .inl ⟨Nat.le_of_not_lt ‹_›, rfl⟩

theorem lzwdStart_next {n : Nat} {b : Option PixelFormat} {s u : State} (h : lzwdStart n b s = .next u) :
    (∃ m : Nat, 2 ≤ m ∧ m ≤ 8 ∧ s.regs.srcPtr.toNat < s.cfg.size .src ∧
      u = s.setRunning (.lzwd (Lzwd.start m (s.regs.srcPtr.toNat + 1) n) b)) ∨
    ∃ c info, u = raise c info s := by
  unfold lzwdStart at h
  simp only at h
  split at h
  · rename_i m hm
    have lt := (State.fetchByte_eq_value.mp hm).1
    split at h <;> cases h
    · have range : 2 ≤ m.toNat ∧ m.toNat ≤ 8 := by simpa [minCodeOk] using ‹minCodeOk m.toNat = true›
      exact .inl ⟨_, range.1, range.2, lt, rfl⟩
    · exact .inr ⟨_, _, rfl⟩
  · cases h; exact .inr ⟨_, _, rfl⟩
  · cases h

/-- A started unit runs with the control registers of the take, or has stopped with a fault at once. -/
theorem Started.control {s u : State} (h : Started s u) :
    keepsControl s u ∨ ∃ c info v, u = raise c info v ∧ keepsControl s v ∧ v.running = s.running := by
  have decoder {n : Nat} {b : Option PixelFormat} (e : lzwdStart n b s = .next u) :
      keepsControl s u ∨ ∃ c info v, u = raise c info v ∧ keepsControl s v ∧ v.running = s.running := by
    rcases lzwdStart_next e with ⟨m, -, -, -, e⟩ | ⟨c, info, e⟩
    · subst e; exact .inl ⟨rfl, rfl, rfl, rfl⟩
    · exact .inr ⟨c, info, s, e, .refl s, rfl⟩
  cases h with
  | compress _ e =>
    rcases lzwcStart_next e with ⟨-, e⟩ | ⟨-, b, ⟨w, d, -, e⟩ | ⟨w, d, a, -, e⟩⟩
    · exact .inr ⟨_, _, _, e, ⟨rfl, rfl, rfl, rfl⟩, rfl⟩
    · subst e; exact .inl ⟨rfl, rfl, rfl, rfl⟩
    · exact .inr ⟨_, _, _, e, ⟨rfl, rfl, rfl, rfl⟩, rfl⟩
  | decompress _ e | decblit _ _ e => exact decoder e
  | blit fmt _ e => subst e; exact .inl ⟨rfl, rfl, rfl, rfl⟩

/-- The start of a taken command keeps the control registers consistent. -/
theorem Started.flagsOk {s u : State} {opc : BitVec 4} (h : s.FlagsOk) (hi : s.running = .idle)
    (hf : s.regs.status.fault = false) (ho : opc.toNat ≤ 6) (hs : Started (take opc s) u) : u.FlagsOk := by
  have taken := h.take hi hf ho
  rcases hs.control with k | ⟨c, info, v, rfl, k, hv⟩
  · exact taken.of_keepsControl k (fun _ => ⟨hf, rfl⟩) fun _ _ _ => ⟨rfl, rfl, rfl⟩
  · have idle : v.running = .idle := hv.trans hi
    exact (taken.of_idle k idle).raise c info fun d => by rw [k.status] at d; cases d

/-! ### The step -/

theorem CommandChange.flagsOk {i : Instr} {s t : State} (h : s.FlagsOk) (hi : s.running = .idle)
    (hc : CommandChange i s t) : t.FlagsOk := by
  cases hc with
  | reset _ e => subst e; exact clearFault_flagsOk hi
  | gated _ e => subst e; exact h
  | refused opc c info hf ho e => subst e; exact (h.take hi hf ho).raise c info nofun
  | ran opc u hf ho hs hr => exact run_induction (fun _ _ => unitStep_keeps_flags) (hs.flagsOk h hi hf ho) hr

theorem HostChange.flagsOk {a : HostAction} {s t : State} (h : s.FlagsOk) (hi : s.running = .idle)
    (hc : HostChange a s t) : t.FlagsOk := by
  cases hc with
  | command word i _ _ hc => exact hc.flagsOk h hi
  | ignored e => subst e; exact h
  | illegal info _ e => subst e; exact h.raise _ info fun _ => rfl
  | operand r v e => subst e; exact h.of_idle (keepsControl_regWrite s v r) hi
  | read w e => subst e; exact h.of_idle ⟨rfl, rfl, rfl, rfl⟩ hi
  | memory sp x v _ e =>
    subst e; exact h.of_idle (keepsControl_setMemory s sp _) (by rw [State.setMemory_running, hi])
  | dst size _ e => subst e; exact h.of_idle ⟨rfl, rfl, rfl, rfl⟩ hi

/-- Settles O54: the host's action or the command it writes when GLZ is idle, the unit's working step when one runs. -/
theorem stepKeepsFlagsConsistent : Obligations.StepKeepsFlagsConsistent := by
  intro s t h hs
  by_cases hi : s.running = .idle
  · rcases step_idle_change hi hs with rfl | ⟨a, rest, -, hc⟩
    · exact h
    · have popped : State.FlagsOk { s with script := rest } := h.of_idle ⟨rfl, rfl, rfl, rfl⟩ hi
      exact hc.flagsOk popped hi
  · exact unitStep_keeps_flags h hi (step_eq_unitStep hi ▸ hs)

end Sys2Proof.Machine
end

section
/-! PROOF. The run of a unit step by step (10_state.md R20), and hardware reset (R52). -/

namespace Sys2Proof.Machine

/-! ### A run is steps of the machine -/

theorem core_run_succ {s t : State} (n : Nat) (h : step s = .next t) : core.run (n + 1) s = core.run n t := by
  simp only [Host.Core.run, core, h]

theorem core_run_one_of_stop {s : State} (h : ∀ t, step s ≠ .next t) : core.run 1 s = step s := by
  simp only [Host.Core.run, core]
  cases e : step s with
  | next t => exact absurd e (h t)
  | fault f => rfl
  | refused r => rfl

/-- However many working steps are allowed, they are steps of the machine. -/
theorem runToIdle_eq_core_run (fuel : Nat) (s : State) : ∃ n, core.run n s = runToIdle fuel s := by
  induction fuel generalizing s with
  | zero => exact ⟨0, rfl⟩
  | succ fuel ih =>
    by_cases hi : s.running = .idle
    · exact ⟨0, (runToIdle_of_idle _ hi).symm⟩
    · rw [runToIdle_of_running fuel hi, ← step_eq_unitStep hi]
      cases e : step s with
      | next t =>
        obtain ⟨n, hn⟩ := ih t
        exact ⟨n + 1, (core_run_succ n e).trans hn⟩
      | fault f => exact ⟨1, (core_run_one_of_stop (by simp [e])).trans e⟩
      | refused r => exact ⟨1, (core_run_one_of_stop (by simp [e])).trans e⟩

/-- Settles O47, by induction on the number of working steps allowed. -/
theorem runIsItsWorkingSteps : Obligations.RunIsItsWorkingSteps := by
  intro s
  obtain ⟨n, hn⟩ := runToIdle_eq_core_run (stepsLeft s) s
  exact ⟨fun t h => ⟨n, hn.trans h⟩, fun f h => ⟨n, hn.trans h⟩⟩

/-! ### Hardware reset -/

theorem regRead_reset (r : Reg) : regRead Regs.reset r = 0 := by cases r <;> decide

theorem hardwareReset_memory (cfg : Config) (sp : Space) : (State.hardwareReset cfg).memory sp = [] := by
  cases sp <;> rfl

/-- Settles O48: every field is 0 and every memory is empty. -/
theorem hardwareResetZeroesRegisters : Obligations.HardwareResetZeroesRegisters := fun cfg =>
  ⟨regRead_reset, fun sp a => by rw [hardwareReset_memory, Memory.read_nil], rfl, rfl⟩

/-- Settles O52: no unit runs, no flag is set, no byte is written. -/
theorem hardwareResetMeetsInvariant : Obligations.HardwareResetMeetsInvariant := fun cfg =>
  { memories :=
      ⟨fun sp => hardwareReset_memory cfg sp ▸ Memory.wf_nil, fun sp => hardwareReset_memory cfg sp ▸ Memory.within_nil _⟩
    flags := .of_no_fault rfl ⟨rfl, rfl⟩ nofun nofun (Nat.zero_le 6) (fun _ => rfl) nofun
    unit := trivial }

end Sys2Proof.Machine
end

section
/-! PROOF. The registers as the host sees them (10_state.md R26). -/

namespace Sys2Proof.Machine

/-! ### Fields of a word -/

theorem getElem_mask {k i : Nat} (hi : i < 32) : (BitVec.ofNat 32 (2 ^ k - 1))[i] = decide (i < k) := by
  rw [← BitVec.getLsbD_eq_getElem, BitVec.getLsbD_ofNat, Nat.testBit_two_pow_sub_one, decide_eq_true hi, Bool.true_and]

theorem getElem_flagBit (b : Bool) (k : Nat) {i : Nat} (hi : i < 32) :
    (flagBit b k)[i] = (b && decide (k = i)) := by
  cases b with
  | false => simp [flagBit]
  | true =>
    simp only [flagBit, if_true, ← BitVec.getLsbD_eq_getElem, BitVec.getLsbD_ofNat, Nat.testBit_two_pow, hi, decide_true]

theorem and_flagBit (v : Word) (k : Nat) : v &&& flagBit true k = flagBit (v.getLsbD k) k := by
  ext i hi
  rw [BitVec.getElem_and, getElem_flagBit _ _ hi, getElem_flagBit _ _ hi]
  by_cases e : k = i
  · subst e; simp [BitVec.getLsbD_eq_getElem hi]
  · simp [e]

/-- A field of `k` bits fills no bit from `n` on, where `k ≤ n`. -/
theorem setWidth_and_not_mask {k n : Nat} (x : BitVec k) (h : k ≤ n) :
    x.setWidth 32 &&& ~~~ BitVec.ofNat 32 (2 ^ n - 1) = 0 := by
  ext i hi
  by_cases hn : i < n
  · simp [getElem_mask, hn]
  · simp [BitVec.getElem_setWidth, BitVec.getLsbD_of_ge x i (by omega)]

/-- A flag below bit `n` fills no bit from `n` on. -/
theorem flagBit_and_not_mask (b : Bool) {k n : Nat} (h : k < n) : flagBit b k &&& ~~~ BitVec.ofNat 32 (2 ^ n - 1) = 0 := by
  ext i hi
  by_cases hn : i < n
  · simp [getElem_mask, hn]
  · have : k ≠ i := by omega
    simp [getElem_flagBit, this]

/-- The low `k` bits of a word are a mask of it. -/
theorem extract_low_eq_mask {k : Nat} (v : Word) :
    (v.extractLsb' 0 k).setWidth 32 = v &&& BitVec.ofNat 32 (2 ^ k - 1) := by
  ext i hi
  by_cases hk : i < k <;> simp [getElem_mask, hk, hi]

theorem halves_extract (v : Word) : halves (v.extractLsb' 0 16) (v.extractLsb' 16 16) = v := by
  unfold halves
  rw [BitVec.extractLsb'_append_extractLsb'_eq_extractLsb' (by rfl)]
  exact BitVec.extractLsb'_eq_self

/-! ### Reserved bits -/

theorem Status.toWord_reserved (f : Status) : f.toWord &&& ~~~ BitVec.ofNat 32 (2 ^ 5 - 1) = 0 := by
  simp (disch := decide) only [Status.toWord, BitVec.and_or_distrib_right, flagBit_and_not_mask]
  rfl

theorem BlitCtrl.toWord_reserved (c : BlitCtrl) : c.toWord &&& ~~~ BitVec.ofNat 32 (2 ^ 10 - 1) = 0 := by
  simp (disch := decide) only [BlitCtrl.toWord, BitVec.and_or_distrib_right, setWidth_and_not_mask, flagBit_and_not_mask]
  rfl

/-- A word stored in BLIT_CTRL reads back without its reserved bits (10_state.md R25). -/
theorem blitCtrl_toWord_extract (v : Word) :
    BlitCtrl.toWord { transIndex := v.extractLsb' 0 8, transEn := v.getLsbD 8, interlaced := v.getLsbD 9 } =
      v &&& 0x000003FF := by
  have fields : (0x000003FF : Word) = BitVec.ofNat 32 (2 ^ 8 - 1) ||| flagBit true 8 ||| flagBit true 9 := by decide
  rw [fields, BitVec.and_or_distrib_left, BitVec.and_or_distrib_left, and_flagBit, and_flagBit, ← extract_low_eq_mask]
  rfl

/-! ### Reading and writing registers -/

/-- The defined fields of a register (10_state.md R21). -/
def Reg.fieldMask : Reg → Word
  | .minCode => 0x0000000F
  | .palSize => 0x000001FF
  | .blitCtrl => 0x000003FF
  | .cmd => 0x0000000F
  | .status => 0x0000001F
  | .fault => 0x000000FF
  | .faultInfo | .srcPtr | .dstPtr | .idxLen | .canvas | .framePos | .frameSize | .palPtr | .outCount | .pixCount => 0xFFFFFFFF

/-- The registers a host write leaves as they are, CMD apart (10_state.md R26). -/
def Reg.readOnly : List Reg := [.status, .fault, .faultInfo, .outCount, .pixCount]

theorem word_and_not_ones (w : Word) : w &&& ~~~ (0xFFFFFFFF : Word) = 0 := by
  rw [show ~~~ (0xFFFFFFFF : Word) = 0 by decide]; exact BitVec.and_zero

theorem word_and_ones (w : Word) : w &&& (0xFFFFFFFF : Word) = w := BitVec.and_allOnes

/-- Reserved bits read 0 (10_state.md R26). -/
theorem regRead_reserved (regs : Regs) (r : Reg) : regRead regs r &&& ~~~ r.fieldMask = 0 := by
  cases r with
  | cmd | minCode => exact setWidth_and_not_mask (n := 4) _ (Nat.le_refl 4)
  | status => exact regs.status.toWord_reserved
  | fault => exact setWidth_and_not_mask (n := 8) _ (Nat.le_refl 8)
  | palSize => exact setWidth_and_not_mask (n := 9) _ (Nat.le_refl 9)
  | blitCtrl => exact regs.blitCtrl.toWord_reserved
  | faultInfo | srcPtr | dstPtr | idxLen | canvas | framePos | frameSize | palPtr | outCount | pixCount =>
    exact word_and_not_ones _

/-- An operand register reads as the defined fields of the word last written to it (10_state.md R26). -/
theorem regRead_regWrite_self (regs : Regs) (v : Word) {r : Reg} (hc : r ≠ .cmd) (hr : r ∉ Reg.readOnly) :
    regRead (regWrite regs v r) r = v &&& r.fieldMask := by
  cases r with
  | cmd => exact absurd rfl hc
  | status | fault | faultInfo | outCount | pixCount => exact absurd (by decide) hr
  | minCode => exact extract_low_eq_mask v
  | palSize => exact extract_low_eq_mask v
  | blitCtrl => exact blitCtrl_toWord_extract v
  | canvas | framePos | frameSize => exact (halves_extract v).trans (word_and_ones v).symm
  | srcPtr | dstPtr | idxLen | palPtr => exact (word_and_ones v).symm

/-- A register write changes no other register. -/
theorem regRead_regWrite_of_ne (regs : Regs) (v : Word) {r q : Reg} (h : q ≠ r) :
    regRead (regWrite regs v r) q = regRead regs q := by
  cases r <;> cases q <;> first | exact absurd rfl h | rfl

theorem regWrite_readOnly (regs : Regs) (v : Word) {r : Reg} (h : r ∈ Reg.readOnly) : regWrite regs v r = regs := by
  simp only [Reg.readOnly, List.mem_cons, List.not_mem_nil, or_false] at h
  rcases h with rfl | rfl | rfl | rfl | rfl <;> rfl

/-! ### The host's accesses -/

theorem hostWriteReg_register {s : State} (v : Word) {r : Reg} (h : r ≠ .cmd) :
    hostWriteReg (s.cfg.glzBase + r.offset) .word v s = .next (s.setRegs (regWrite s.regs v r)) := by
  unfold hostWriteReg
  rw [Reg.atAddress_offset]
  split
  · rename_i e; exact absurd (Option.some.inj e) h
  · rename_i e; cases e; rfl
  all_goals rename_i e; cases e

theorem hostReadReg_register (s : State) (r : Reg) :
    hostReadReg (s.cfg.glzBase + r.offset) .word s = .next { s with readData := regRead s.regs r } := by
  simp only [hostReadReg, Reg.atAddress_offset]

theorem hostWriteReg_cmd (s : State) (v : Word) : hostWriteReg s.cfg.glzBase .word v s = commandWrite v s := by
  have address : Reg.atAddress s.cfg s.cfg.glzBase = some .cmd := Reg.atAddress_offset s.cfg .cmd
  simp only [hostWriteReg, address]

/-- A word with a reserved bit set is refused as no command (30_encoding.md R92, 43_commands.md R221 b). -/
theorem commandWrite_of_reserved {s : State} {v : Word} (hi : s.running = .idle) (hf : s.regs.status.fault = false)
    (h : v >>> 4 ≠ 0) : commandWrite v s = .next (raise .illegalCommand v.toNat s) := by
  simp [commandWrite, decodeCommand_of_reserved h, illegalCommand, whenIdle_of_idle _ hi, hf]

/-- An access that is not a word, or at no offset, is refused by the model (93_implementation_defined.md U9). -/
theorem register_access_refused {s : State} {addr : Nat} {size : AccessSize} (v : Word)
    (h : size ≠ .word ∨ ∀ r : Reg, addr ≠ s.cfg.glzBase + r.offset) :
    hostWriteReg addr size v s = .refused (.outsideInterface addr) ∧
      hostReadReg addr size s = .refused (.outsideInterface addr) := by
  cases size with
  | byte | half => exact ⟨rfl, rfl⟩
  | word =>
    have outside : Reg.atAddress s.cfg addr = none :=
      Reg.atAddress_eq_none.mpr (h.resolve_left fun n => n rfl)
    constructor
    · simp only [hostWriteReg, outside]
    · simp only [hostReadReg, outside]

/-- Settles O50, one clause for each kind of access: `regRead` and `regWrite` by the fields of the register. -/
theorem registerWritesStoreDefinedFields : Obligations.RegisterWritesStoreDefinedFields := by
  intro s v hi defined readOnly
  have masks : defined = Reg.fieldMask := funext fun r => by cases r <;> rfl
  rw [masks]
  refine ⟨regRead_reserved s.regs, fun r hr => ?_, fun r hc hr => ?_, hostReadReg_register s, fun hf hv => ?_,
    fun addr size => register_access_refused v⟩
  · have notCmd : r ≠ .cmd := by rintro rfl; exact absurd hr (by decide)
    rw [hostWriteReg_register v notCmd, regWrite_readOnly s.regs v hr]
    rfl
  · exact ⟨_, hostWriteReg_register v hc, regRead_regWrite_self s.regs v hc hr,
      fun q hq => regRead_regWrite_of_ne s.regs v hq, rfl⟩
  · refine ⟨_, (hostWriteReg_cmd s v).trans (commandWrite_of_reserved hi hf hv), ?_⟩
    rw [raise_regs, Regs.latch_of_clear _ _ _ hf]
    exact ⟨rfl, BitVec.ofNat_toNat ..⟩

end Sys2Proof.Machine
end

section
/-! PROOF. The memories of the invariant, and what the units read of the registers. -/

namespace Sys2Proof.Machine

/-! ### Memories -/

/-- A state with the same parameters and the same four memories. -/
theorem State.MemoriesOk.same {s t : State} (h : s.MemoriesOk) (hc : t.cfg = s.cfg := by rfl)
    (hsrc : t.src = s.src := by rfl) (hdst : t.dst = s.dst := by rfl) (hidx : t.idx = s.idx := by rfl)
    (hpix : t.pix = s.pix := by rfl) : t.MemoriesOk := by
  have memory : ∀ sp, t.memory sp = s.memory sp := by
    intro sp
    cases sp with
    | src => exact hsrc
    | dst => exact hdst
    | idx => exact hidx
    | pix => exact hpix
  exact ⟨fun sp => memory sp ▸ h.wf sp, fun sp => memory sp ▸ hc ▸ h.within sp⟩

theorem State.MemoriesOk.setMemory {s : State} (h : s.MemoriesOk) {sp : Space} {m : Memory} (hw : Memory.wf m)
    (hi : Memory.within m (s.cfg.size sp)) : (s.setMemory sp m).MemoriesOk := by
  constructor <;> intro sp' <;> rw [State.setMemory_memory] <;> split
  · exact hw
  · exact h.wf sp'
  · rename_i e; subst e; rw [State.setMemory_cfg]; exact hi
  · rw [State.setMemory_cfg]; exact h.within sp'

theorem State.MemoriesOk.writeList {s : State} (h : s.MemoriesOk) (sp : Space) {a : Nat} {bytes : List Byte}
    (fits : a + bytes.length ≤ s.cfg.size sp) : (s.setMemory sp (Memory.writeList (s.memory sp) a bytes)).MemoriesOk :=
  h.setMemory (Memory.wf_writeList a bytes (h.wf sp)) (Memory.within_writeList bytes (h.within sp) fits)

theorem State.MemoriesOk.write {s : State} (h : s.MemoriesOk) (sp : Space) {a : Nat} (b : Byte) (lt : a < s.cfg.size sp) :
    (s.setMemory sp (Memory.write (s.memory sp) a b)).MemoriesOk :=
  h.setMemory (Memory.wf_write a b (h.wf sp)) (Memory.within_write b (h.within sp) lt)

/-- What the compressor wrote into DST. -/
theorem State.MemoriesOk.wrote {s : State} (h : s.MemoriesOk) {base : Nat} {dst : Memory}
    (hw : Wrote (s.cfg.size .dst) base s.dst dst) : (s.setMemory .dst dst).MemoriesOk :=
  h.setMemory (hw.wf (h.wf .dst)) (hw.within (h.within .dst))

/-! ### What the units need -/

theorem State.unitOk_of_idle {s : State} (h : s.running = .idle) : s.unitOk := by simp only [State.unitOk, h]

theorem State.unitOk_lzwc {s : State} {w : Lzwc} (h : s.running = .lzwc w) :
    s.unitOk ↔ w.Ok s.cfg s.regs.idxLen.toNat s.regs.dstPtr.toNat := by simp only [State.unitOk, h]

theorem State.unitOk_blit {s : State} {w : Blit} (h : s.running = .blit w) :
    s.unitOk ↔ FrameOk s.cfg s.regs ∧ w.i ≤ frameSymbols s.regs ∧ w.cnt ≤ w.i := by simp only [State.unitOk, h]

/-- Before BLIT the frame has passed the blit checks, and its number of symbols is expected (43_commands.md R229). -/
def blitAwaits (cfg : Config) (r : Regs) (n : Nat) (b : Option PixelFormat) : Prop :=
  ∀ fmt, b = some fmt → FrameOk cfg r ∧ n = frameSymbols r

theorem State.unitOk_lzwd {s : State} {w : Lzwd} {b : Option PixelFormat} (h : s.running = .lzwd w b) :
    s.unitOk ↔ w.Ok s.cfg ∧ blitAwaits s.cfg s.regs w.n b := by
  cases b <;> simp [State.unitOk, h, blitAwaits]

/-- The frame reads five operand registers only. -/
theorem FrameOk.of_eq {cfg : Config} {r r' : Regs} (h : FrameOk cfg r) (hc : r'.canvas = r.canvas := by rfl)
    (hp : r'.framePos = r.framePos := by rfl) (hs : r'.frameSize = r.frameSize := by rfl)
    (hn : r'.palSize = r.palSize := by rfl) (ha : r'.palPtr = r.palPtr := by rfl) : FrameOk cfg r' := by
  obtain ⟨h1, h2, h3, h4, h5, h6, h7, h8⟩ := h
  constructor <;> simp only [hc, hp, hs, hn, ha] <;> assumption

end Sys2Proof.Machine
end

section
/-! PROOF. LZWC keeps its working registers within their bounds (10_state.md R46, R47, 40_lzw_compress.md R124 to R130). -/

namespace Sys2Proof.Machine

/-! ### Codes -/

theorem DataCode.mono {m next next' c : Nat} (h : DataCode m next c) (le : next ≤ next') : DataCode m next' c :=
  h.imp_right fun ⟨h1, h2⟩ => ⟨h1, by omega⟩

/-- A data code fits a width that holds the codes below the next code. -/
theorem DataCode.lt_two_pow {m next width c : Nat} (h : DataCode m next c) (hm : m ≤ width) (hn : next ≤ 2 ^ width) :
    c < 2 ^ width := by
  have pow : 2 ^ m ≤ 2 ^ width := Nat.pow_le_pow_right (by decide) hm
  rcases h with h | ⟨-, h⟩ <;> omega

/-- The codes 2^m and 2^m + 1 and the first table code fit the width m + 1 (00_scope.md R12). -/
theorem firstCode_lt_two_pow {m : Nat} (h : 2 ≤ m) : firstCode m < 2 ^ (m + 1) := by
  have four : 2 ^ 2 ≤ 2 ^ m := Nat.pow_le_pow_right (by decide) h
  unfold firstCode
  rw [Nat.pow_succ]
  omega

theorem firstCode_le_maxCodes {m : Nat} (h : m ≤ 8) : firstCode m ≤ maxCodes := by
  have pow : 2 ^ m ≤ 2 ^ 8 := Nat.pow_le_pow_right (by decide) h
  unfold firstCode maxCodes
  omega

/-- The entries of the compressor's table have the codes from FIRST(m) on, below the next code. -/
theorem CTable.code_range {m : Nat} {tab : List CEntry} {next : Nat} (h : CTable m tab next) :
    firstCode m ≤ next ∧ ∀ e ∈ tab, firstCode m ≤ e.code ∧ e.code < next := by
  induction tab generalizing next with
  | nil => exact ⟨Nat.le_of_eq h.symm, nofun⟩
  | cons e t ih =>
    obtain ⟨hn, -, -, -, ht⟩ := h
    obtain ⟨first, older⟩ := ih ht
    refine ⟨by omega, fun x hx => ?_⟩
    rcases List.mem_cons.mp hx with rfl | hx
    · exact ⟨first, by omega⟩
    · have := older x hx
      exact ⟨this.1, by omega⟩

/-! ### The working registers -/

section Registers

variable {cfg : Config} {len cursor : Nat} {w : Lzwc}

theorem Lzwc.Ok.opened (h : w.Ok cfg len cursor) : w.Open (cfg.size .dst) (cursor + 1) :=
  ⟨h.sb_after, h.block_open, h.p_bound⟩

/-- Emitting moves c_acc, c_nb, c_p and c_sb within their bounds. -/
theorem Lzwc.Ok.emitted (h : w.Ok cfg len cursor) {w' : Lzwc} (ho : w'.Open (cfg.size .dst) (cursor + 1)) (hs : w.Same w')
    (hn : w'.nb ≤ 7) (ha : w'.acc < 2 ^ w'.nb) : w'.Ok cfg len cursor := by
  obtain ⟨em, ew, en, ep, ei, et⟩ := hs
  obtain ⟨sb, block, p⟩ := ho
  exact
    { m_range := em ▸ h.m_range
      next_range := en ▸ em ▸ h.next_range
      width_range := ew ▸ em ▸ h.width_range
      next_width := en ▸ ew ▸ h.next_width
      pfx_code := em ▸ en ▸ ep ▸ h.pfx_code
      i_range := ei ▸ h.i_range
      len_fits := h.len_fits
      nb_bound := hn
      acc_bound := ha
      sb_after := sb
      block_open := block
      p_bound := p
      table := em ▸ et ▸ en ▸ h.table }

theorem Lzwc.Ok.emitCode (h : w.Ok cfg len cursor) {c : Nat} (hc : c < 2 ^ w.width) (dst : Memory) :
    (emitCode (cfg.size .dst) c w dst).Meets (cfg.size .dst) (cursor + 1) dst fun w' =>
      w.Same w' ∧ w'.Ok cfg len cursor :=
  (emitCode_meets dst h.opened h.acc_bound hc).mono fun _ ⟨ho, hs, hn, ha, _⟩ => ⟨hs, h.emitted ho hs hn ha⟩

theorem Lzwc.Ok.pfx_lt (h : w.Ok cfg len cursor) : w.pfx < 2 ^ w.width :=
  h.pfx_code.lt_two_pow (by have := h.width_range; omega) h.next_width

/-- CLEAR and EOI fit every width (00_scope.md R12). -/
theorem Lzwc.Ok.eoi_lt (h : w.Ok cfg len cursor) : eoiCode w.m < 2 ^ w.width := by
  have first := firstCode_lt_two_pow h.m_range.1
  have pow : 2 ^ (w.m + 1) ≤ 2 ^ w.width := Nat.pow_le_pow_right (by decide) h.width_range.1
  unfold firstCode at first
  unfold eoiCode
  omega

theorem Lzwc.Ok.clear_lt (h : w.Ok cfg len cursor) : clearCode w.m < 2 ^ w.width :=
  Nat.lt_of_succ_lt h.eoi_lt

/-- Going on to the next symbol (40_lzw_compress.md R124): c_prefix is a data code, and there was a symbol to take. -/
theorem Lzwc.Ok.advance (h : w.Ok cfg len cursor) {pfx : Nat} (hp : DataCode w.m w.next pfx) (hi : w.i < len) :
    (w.advance pfx).Ok cfg len cursor :=
  { h with pfx_code := hp, i_range := ⟨Nat.succ_pos _, hi⟩ }

/-- The insertion of a missed key in a table that is not full, with the width test before it (40_lzw_compress.md R126). -/
theorem Lzwc.Ok.insert (h : w.Ok cfg len cursor) {symbol : Nat} (hk : symbol < 2 ^ w.m) (hn : w.next ≠ maxCodes)
    (hl : lookup w.tab w.pfx symbol = none) : (w.insert w.pfx symbol).Ok cfg len cursor := by
  obtain ⟨first, last⟩ := h.next_range
  obtain ⟨narrow, wide⟩ := h.width_range
  have room : w.next + 1 ≤ maxCodes := by omega
  have positive := Nat.two_pow_pos w.width
  have double : 2 ^ (w.width + 1) = 2 * 2 ^ w.width := by rw [Nat.pow_succ, Nat.mul_comm]
  have fits := h.next_width
  have grows : 2 ^ w.width ≤ w.next → w.width < maxWidth := fun ge => by
    refine (Nat.pow_lt_pow_iff_right (a := 2) (by decide)).mp ?_
    show 2 ^ w.width < maxCodes
    omega
  refine { h with
    next_range := ⟨Nat.le_succ_of_le first, room⟩
    width_range := ?_
    next_width := ?_
    pfx_code := h.pfx_code.mono (Nat.le_succ _)
    table := ⟨rfl, h.pfx_code, hk, lookup_eq_none hl, h.table⟩ }
  · simp only [Lzwc.insert]
    split
    · exact ⟨by omega, grows ‹_›⟩
    · exact ⟨narrow, wide⟩
  · simp only [Lzwc.insert]
    split <;> omega

/-- The table after a CLEAR (40_lzw_compress.md R127), with a symbol in c_prefix. -/
theorem Lzwc.Ok.resetTable_advance (h : w.Ok cfg len cursor) {symbol : Nat} (hk : symbol < 2 ^ w.m) (hi : w.i < len) :
    (w.resetTable.advance symbol).Ok cfg len cursor :=
  { h with
    next_range := ⟨Nat.le_refl _, firstCode_le_maxCodes h.m_range.2⟩
    width_range := ⟨Nat.le_refl _, by have := h.m_range.2; show w.m + 1 ≤ 12; omega⟩
    next_width := Nat.le_of_lt (firstCode_lt_two_pow h.m_range.1)
    pfx_code := .inl hk
    i_range := ⟨Nat.succ_pos _, hi⟩
    table := rfl }

/-- One symbol (40_lzw_compress.md R124 to R127) keeps the bounds. -/
theorem Lzwc.Ok.symbolStep (h : w.Ok cfg len cursor) {symbol : Nat} (hk : symbol < 2 ^ w.m) (hi : w.i < len) (dst : Memory) :
    (symbolStep (cfg.size .dst) symbol w dst).Meets (cfg.size .dst) (cursor + 1) dst fun w' => w'.Ok cfg len cursor := by
  unfold Machine.symbolStep
  split
  · rename_i code hit
    have range := h.table.code_range.2 _ (lookup_eq_some hit)
    exact .ok (h.advance (.inr range) hi)
  · rename_i miss
    refine (h.emitCode h.pfx_lt dst).bind fun w1 d1 ⟨s1, h1⟩ => ?_
    have hk1 : symbol < 2 ^ w1.m := s1.m ▸ hk
    have hi1 : w1.i < len := s1.i ▸ hi
    split
    · refine (h1.emitCode h1.clear_lt d1).bind fun w2 d2 ⟨s2, h2⟩ => ?_
      exact .ok (h2.resetTable_advance (s2.m ▸ hk1) (s2.i ▸ hi1))
    · rename_i notFull
      have inserted := h1.insert hk1 notFull (by rw [s1.tab, s1.pfx]; exact miss)
      exact .ok (inserted.advance (.inl hk1) hi1)

/-- After the last symbol (40_lzw_compress.md R128 to R133). -/
theorem Lzwc.Ok.emitFinish (h : w.Ok cfg len cursor) (dst : Memory) :
    (emitFinish (cfg.size .dst) w dst).Meets (cfg.size .dst) (cursor + 1) dst fun _ => True :=
  (emitFinish_meets dst h.opened h.acc_bound h.pfx_lt h.eoi_lt).mono fun _ _ => trivial

end Registers

/-- The registers as COMPRESS starts (40_lzw_compress.md R122, R123). -/
theorem Lzwc.start_ok {cfg : Config} {len cursor m pfx : Nat} (hm : 2 ≤ m ∧ m ≤ 8) (hp : pfx < 2 ^ m) (h1 : 1 ≤ len)
    (hl : len ≤ cfg.size .idx) (hc : cursor < cfg.size .dst) : (Lzwc.start m cursor pfx).Ok cfg len cursor where
  m_range := hm
  next_range := ⟨Nat.le_refl _, firstCode_le_maxCodes hm.2⟩
  width_range := ⟨Nat.le_refl _, show m + 1 ≤ 12 by omega⟩
  next_width := Nat.le_of_lt (firstCode_lt_two_pow hm.1)
  pfx_code := .inl hp
  i_range := ⟨Nat.le_refl _, h1⟩
  len_fits := hl
  nb_bound := Nat.zero_le _
  acc_bound := Nat.one_pos
  sb_after := Nat.lt_succ_self _
  block_open := ⟨Nat.le_refl _, show cursor + 2 ≤ cursor + 1 + 255 by omega⟩
  p_bound := show cursor + 2 ≤ cfg.size .dst + 1 by omega
  table := rfl

/-! ### The working step and the start -/

/-- What LZWC's emissions leave in DST, whether or not they end well. -/
theorem Emit.Meets.memories {s : State} (hm : s.MemoriesOk) {e : Emit} {base : Nat} {Q : Lzwc → Prop}
    (h : e.Meets (s.cfg.size .dst) base s.dst Q) :
    (∀ w d, e = .ok w d → Q w ∧ (s.setMemory .dst d).MemoriesOk) ∧
    (∀ w d a, e = .bounds w d a → (s.setMemory .dst d).MemoriesOk) := by
  constructor
  · rintro w d rfl; exact ⟨h.1, hm.wrote h.2⟩
  · rintro w d a rfl; exact hm.wrote h.2

/-- A fault of LZWC keeps what was written (40_lzw_compress.md R135). -/
theorem lzwcFault_keeps_units {s : State} {dst : Memory} (h : (s.setMemory .dst dst).MemoriesOk) (p a : Nat) :
    (lzwcFault p a dst s).MemoriesOk ∧ (lzwcFault p a dst s).unitOk :=
  ⟨h.same, State.unitOk_of_idle rfl⟩

/-- A working step of LZWC keeps the memories and its registers within their bounds. -/
theorem lzwcStep_keeps_units {w : Lzwc} {s t : State} (hr : s.running = .lzwc w) (hm : s.MemoriesOk) (hu : s.unitOk)
    (h : lzwcStep w s = .next t) : t.MemoriesOk ∧ t.unitOk := by
  have ok := (State.unitOk_lzwc hr).mp hu
  rcases lzwcStep_next h with ⟨hi, b, -, hs⟩ | ⟨-, hf⟩
  · obtain ⟨good, bad⟩ := (ok.symbolStep (maskSymbol_lt w.m b) hi s.dst).memories hm
    rcases hs with ⟨w', d, e, rfl⟩ | ⟨w', d, a, e, rfl⟩
    · obtain ⟨ok', mem⟩ := good w' d e
      exact ⟨mem.same, (State.unitOk_lzwc rfl).mpr ok'⟩
    · exact lzwcFault_keeps_units (bad w' d a e) w'.p a
  · obtain ⟨good, bad⟩ := (ok.emitFinish s.dst).memories hm
    rcases hf with ⟨w', d, e, rfl⟩ | ⟨w', d, a, e, rfl⟩
    · exact ⟨(good w' d e).2.same, State.unitOk_of_idle rfl⟩
    · exact lzwcFault_keeps_units (bad w' d a e) w'.p a

/-- The start of an accepted COMPRESS. -/
theorem lzwcStart_keeps_units {s u : State} (hm : s.MemoriesOk) (hc : firstFailing (compressChecks s) = none)
    (h : lzwcStart s = .next u) : u.MemoriesOk ∧ u.unitOk := by
  obtain ⟨m2, m8, len1, fits⟩ := compressChecks_pass.mp hc
  rcases lzwcStart_next h with ⟨-, rfl⟩ | ⟨hp, b, hs⟩
  · exact lzwcFault_keeps_units (hm.same) _ _
  · have first := Lzwc.start_ok ⟨m2, m8⟩ (maskSymbol_lt s.regs.minCode.toNat b) len1 fits hp
    have header := hm.write .dst (BitVec.ofNat 8 s.regs.minCode.toNat) hp
    obtain ⟨good, bad⟩ := (first.emitCode first.clear_lt _).memories header
    rcases hs with ⟨w, d, e, rfl⟩ | ⟨w, d, a, e, rfl⟩
    · obtain ⟨⟨-, ok⟩, mem⟩ := good w d e
      exact ⟨mem.same, (State.unitOk_lzwc rfl).mpr ok⟩
    · exact lzwcFault_keeps_units ((bad w d a e).same) w.p a

end Sys2Proof.Machine
end

section
/-! PROOF. LZWD keeps its working registers within their bounds and its table well-founded (10_state.md R48, R49,
41_lzw_decompress.md R160 to R168). -/

namespace Sys2Proof.Machine

/-! ### Sequences -/

/-- A list of symbols of `m` bits. -/
def SymbolsBelow (m : Nat) (symbols : List Byte) : Prop := ∀ b ∈ symbols, b.toNat < 2 ^ m

theorem SymbolsBelow.append {m : Nat} {xs ys : List Byte} (hx : SymbolsBelow m xs) (hy : SymbolsBelow m ys) :
    SymbolsBelow m (xs ++ ys) := fun b hb => (List.mem_append.mp hb).elim (hx b) (hy b)

theorem SymbolsBelow.singleton {m : Nat} {b : Byte} (h : b.toNat < 2 ^ m) : SymbolsBelow m [b] := by
  intro c hc
  rw [List.mem_singleton.mp hc]; exact h

theorem SymbolsBelow.headD {m : Nat} {xs : List Byte} (h : SymbolsBelow m xs) : (xs.headD 0).toNat < 2 ^ m := by
  cases xs with
  | nil => exact Nat.two_pow_pos m
  | cons x xs => exact h x List.mem_cons_self

theorem literal_below {m c : Nat} (h : c < 2 ^ m) : SymbolsBelow m [BitVec.ofNat 8 c] := by
  refine .singleton ?_
  rw [BitVec.toNat_ofNat]
  exact Nat.lt_of_le_of_lt (Nat.mod_le _ _) h

/-- The sequences of a table are made of symbols (41_lzw_decompress.md R160, R166). -/
theorem DTable.seqOf_below {m : Nat} {tab : List DEntry} {next c : Nat} {symbols : List Byte} (h : DTable m tab next)
    (hs : seqOf m tab c = some symbols) : SymbolsBelow m symbols := by
  induction tab generalizing next c symbols with
  | nil =>
    unfold seqOf at hs
    split at hs <;> cases hs
    exact literal_below ‹_›
  | cons e t ih =>
    obtain ⟨-, -, hb, ht⟩ := h
    unfold seqOf at hs
    split at hs
    · cases hs; exact literal_below ‹_›
    · split at hs
      · obtain ⟨older, ho, rfl⟩ := Option.map_eq_some_iff.mp hs
        exact (ih ht ho).append (.singleton hb)
      · exact ih ht hs

/-! ### The working registers -/

section Registers

variable {cfg : Config} {w : Lzwd}

theorem Lzwd.Ok.fed (h : w.Ok cfg) : w.Fed (cfg.size .src) := ⟨h.acc_bound, h.sbrem_bound, h.p_bound⟩

/-- Fetching moves d_acc, d_nb, d_p, d_sbrem and d_ended within their bounds. -/
theorem Lzwd.Ok.fetched (h : w.Ok cfg) {w' : Lzwd} (hs : w.Same w') (hf : w'.Fed (cfg.size .src)) (hn : w'.nb ≤ 7) :
    w'.Ok cfg := by
  obtain ⟨em, ew, en, ep, eo, ec, et⟩ := hs
  obtain ⟨acc, sbrem, p⟩ := hf
  exact
    { m_range := em ▸ h.m_range
      next_range := en ▸ em ▸ h.next_range
      width_range := ew ▸ em ▸ h.width_range
      next_width := en ▸ ew ▸ h.next_width
      prev_code := em ▸ en ▸ ep ▸ h.prev_code
      prev_none := em ▸ en ▸ ep ▸ h.prev_none
      nb_bound := hn
      acc_bound := acc
      sbrem_bound := sbrem
      p_bound := p
      op_bound := eo ▸ ec ▸ h.op_bound
      n_fits := ec ▸ h.n_fits
      table := em ▸ et ▸ en ▸ h.table }

/-- A code that is the previous one from now on: a data code, or the very entry the insertion makes (41_lzw_decompress.md R162,
R163). -/
def Lzwd.CanLearn (w : Lzwd) (code : Nat) : Prop :=
  DataCode w.m w.next code ∨ (firstCode w.m ≤ code ∧ code = w.next ∧ w.prev ≠ none ∧ w.next < maxCodes)

/-- The insertion and d_prev (41_lzw_decompress.md R166 to R168). -/
theorem Lzwd.Ok.learn (h : w.Ok cfg) {code : Nat} {first : Byte} (hc : w.CanLearn code) (hb : first.toNat < 2 ^ w.m) :
    (w.learn code first).Ok cfg := by
  rcases w.learn_spec code first with ⟨prev, hp, room, e⟩ | ⟨full, e⟩ <;> rw [e]
  · obtain ⟨low, -⟩ := h.next_range
    obtain ⟨narrow, wide⟩ := h.width_range
    have double : 2 ^ (w.width + 1) = 2 * 2 ^ w.width := by rw [Nat.pow_succ, Nat.mul_comm]
    have code' : DataCode w.m (w.next + 1) code :=
      hc.elim (fun d => d.mono (Nat.le_succ _)) fun ⟨ge, eq, _⟩ => .inr ⟨ge, by omega⟩
    exact
      { h with
        next_range := ⟨Nat.le_succ_of_le low, room⟩
        width_range := by
          simp only
          split
          · exact ⟨Nat.le_succ_of_le narrow, (by assumption : _ ∧ w.width < maxWidth).2⟩
          · exact ⟨narrow, wide⟩
        next_width := by
          have fits := h.next_width
          simp only
          split <;> omega
        prev_code := fun c e => Option.some.inj e ▸ code'
        prev_none := nofun
        table := ⟨rfl, h.prev_code prev hp, hb, h.table⟩ }
  · have code' : DataCode w.m w.next code := hc.resolve_right fun ⟨_, _, hasPrev, room⟩ =>
      full.elim hasPrev fun ge => by omega
    exact { h with prev_code := fun c e => Option.some.inj e ▸ code', prev_none := nofun }

theorem Lzwd.learn_n (w : Lzwd) (code : Nat) (first : Byte) : (w.learn code first).n = w.n := by
  rcases w.learn_spec code first with ⟨prev, -, -, e⟩ | ⟨-, e⟩ <;> rw [e]

/-- CLEAR (41_lzw_decompress.md R157). -/
theorem Lzwd.Ok.clear (h : w.Ok cfg) :
    Lzwd.Ok cfg { w with next := firstCode w.m, width := w.m + 1, prev := none, tab := [] } :=
  { h with
    next_range := ⟨Nat.le_refl _, firstCode_le_maxCodes h.m_range.2⟩
    width_range := ⟨Nat.le_refl _, by have := h.m_range.2; show w.m + 1 ≤ 12; omega⟩
    next_width := .inl (firstCode_lt_two_pow h.m_range.1)
    prev_code := nofun
    prev_none := fun _ => rfl
    table := rfl }

/-- The output of symbols that fit (41_lzw_decompress.md R165). -/
theorem Lzwd.Ok.output (h : w.Ok cfg) {k : Nat} (hk : w.op + k ≤ w.n) : Lzwd.Ok cfg { w with op := w.op + k } :=
  { h with op_bound := hk }

end Registers

/-- The registers as LZWD starts (41_lzw_decompress.md R152). -/
theorem Lzwd.start_ok {cfg : Config} {m p n : Nat} (hm : 2 ≤ m ∧ m ≤ 8) (hp : p ≤ cfg.size .src) (hn : n ≤ cfg.size .idx) :
    (Lzwd.start m p n).Ok cfg where
  m_range := hm
  next_range := ⟨Nat.le_refl _, firstCode_le_maxCodes hm.2⟩
  width_range := ⟨Nat.le_refl _, show m + 1 ≤ 12 by omega⟩
  next_width := .inl (firstCode_lt_two_pow hm.1)
  prev_code := nofun
  prev_none := fun _ => rfl
  nb_bound := Nat.zero_le _
  acc_bound := Nat.one_pos
  sbrem_bound := Nat.zero_le _
  p_bound := hp
  op_bound := Nat.zero_le _
  n_fits := hn
  table := rfl

/-! ### The codes -/

section Codes

variable {w : Lzwd} {b : Option PixelFormat} {s t : State}

/-- The end of a decompression without fault: idle, or BLIT at the frame's first symbol (41_lzw_decompress.md R177,
43_commands.md R229). -/
theorem lzwdFill_keeps_units (hm : s.MemoriesOk) (hb : blitAwaits s.cfg s.regs w.n b) (h : lzwdFill w b s = .next t) :
    t.MemoriesOk ∧ t.unitOk := by
  obtain ⟨fits, e⟩ := lzwdFill_next h
  have filled := hm.writeList .idx (bytes := List.replicate (w.n - w.op) 0) (by rw [List.length_replicate]; exact fits)
  rcases e with ⟨-, rfl⟩ | ⟨fmt, hf, rfl⟩
  · exact ⟨filled.same, State.unitOk_of_idle rfl⟩
  · have frame := (hb fmt hf).1.of_eq (r' := { s.regs with outCount := countWord w.op })
    exact ⟨filled.same, (State.unitOk_blit rfl).mpr ⟨frame, Nat.zero_le _, Nat.le_refl _⟩⟩

/-- The end of a decompression after its flags are set: the units do not read STATUS. -/
theorem lzwdFill_setStatus_keeps_units (hm : s.MemoriesOk) (hb : blitAwaits s.cfg s.regs w.n b) {f : Status}
    (h : lzwdFill w b (s.setStatus f) = .next t) : t.MemoriesOk ∧ t.unitOk :=
  lzwdFill_keeps_units (s := s.setStatus f) (hm.same)
    (fun fmt e => (hb fmt e).imp (fun frame => frame.of_eq) id) h

/-- A data code made of symbols (41_lzw_decompress.md R165 to R168). -/
theorem dataCode_keeps_units (hm : s.MemoriesOk) (ok : w.Ok s.cfg) (hb : blitAwaits s.cfg s.regs w.n b) {code : Nat}
    {symbols : List Byte} (hc : w.CanLearn code) (hs : SymbolsBelow w.m symbols)
    (h : dataCode w b code symbols s = .next t) : t.MemoriesOk ∧ t.unitOk := by
  rcases dataCode_next h with ⟨-, e⟩ | ⟨room, fits, rfl⟩
  · exact lzwdFill_setStatus_keeps_units hm hb e
  · have learned := (ok.output room).learn (code := code) hc hs.headD
    have awaits : blitAwaits s.cfg s.regs (Lzwd.learn { w with op := w.op + symbols.length } code (symbols.headD 0)).n b :=
      (Lzwd.learn_n _ _ _).symm ▸ hb
    exact ⟨(hm.writeList .idx fits).same, (State.unitOk_lzwd rfl).mpr ⟨learned, awaits⟩⟩

/-- A fault of LZWD writes no memory and leaves GLZ idle (41_lzw_decompress.md R181). -/
theorem lzwdFault_keeps_units (hm : s.MemoriesOk) (c : FaultCode) (info : Nat) (w : Lzwd) :
    (lzwdFault c info w s).MemoriesOk ∧ (lzwdFault c info w s).unitOk :=
  ⟨hm.same, State.unitOk_of_idle rfl⟩

/-- Every code keeps the memories and the registers of LZWD within their bounds. -/
theorem execCode_keeps_units {i : Instr} (hr : s.running = .lzwd w b) (hm : s.MemoriesOk) (ok : w.Ok s.cfg)
    (hb : blitAwaits s.cfg s.regs w.n b) (h : execCode i s = .next t) : t.MemoriesOk ∧ t.unitOk := by
  cases i with
  | compress | decompress | blitBgra | blitRgba | decblitBgra | decblitRgba | reset => cases h
  | lit m symbol =>
    obtain ⟨v, k, hv, ha, h⟩ := onCode_next h
    rw [hr] at hv; cases hv
    obtain ⟨same, lt⟩ := (w.admits_lit m symbol).mp ha
    have below : symbol.toNat < 2 ^ w.m := same ▸ lt
    exact dataCode_keeps_units hm ok hb (.inl (.inl below)) (.singleton below) h
  | clear m =>
    obtain ⟨v, k, hv, -, h⟩ := onCode_next h
    rw [hr] at hv; cases hv; cases h
    exact ⟨hm.same, (State.unitOk_lzwd rfl).mpr ⟨ok.clear, hb⟩⟩
  | eoi m =>
    obtain ⟨v, k, hv, -, h⟩ := onCode_next h
    rw [hr] at hv; cases hv
    exact lzwdFill_setStatus_keeps_units hm hb h
  | ref code =>
    obtain ⟨v, k, hv, ha, h⟩ := onCode_next h
    rw [hr] at hv; cases hv
    split at h
    · exact dataCode_keeps_units hm ok hb (.inl (.inr ((w.admits_ref code).mp ha))) (ok.table.seqOf_below ‹_›) h
    · cases h
  | kwk code =>
    obtain ⟨v, k, hv, ha, h⟩ := onCode_next h
    rw [hr] at hv; cases hv
    obtain ⟨first, same, hasPrev⟩ := (w.admits_kwk code).mp ha
    have room : w.next < maxCodes := same ▸ code.isLt
    split at h
    · split at h
      · have below := ok.table.seqOf_below ‹seqOf w.m w.tab _ = some _›
        exact dataCode_keeps_units hm ok hb (.inr ⟨first, same, hasPrev, room⟩) (below.append (.singleton below.headD)) h
      · cases h
    · cases h
  | invalid code =>
    obtain ⟨v, k, hv, -, h⟩ := onCode_next h
    rw [hr] at hv; cases hv; cases h
    exact lzwdFault_keeps_units hm _ _ w

end Codes

/-! ### The working step and the start -/

/-- A working step of LZWD keeps the memories and its registers within their bounds. -/
theorem lzwdStep_keeps_units {w : Lzwd} {b : Option PixelFormat} {s t : State} (hr : s.running = .lzwd w b)
    (hm : s.MemoriesOk) (hu : s.unitOk) (h : lzwdStep execCode w b s = .next t) : t.MemoriesOk ∧ t.unitOk := by
  obtain ⟨ok, hb⟩ := (State.unitOk_lzwd hr).mp hu
  have fetch := getCode_spec s ok.fed ok.nb_bound
  rcases lzwdStep_cases execCode w b s with ⟨w', c, e, k⟩ | ⟨w', e, k⟩ | ⟨w', a, e, k⟩ | ⟨a, -, k⟩ <;> rw [k] at h
  · rw [e] at fetch
    obtain ⟨fed, same, nb, -⟩ := fetch
    exact execCode_keeps_units (s := s.setRunning (.lzwd w' b)) rfl (hm.same)
      (ok.fetched same fed nb) (same.n.symm ▸ hb) h
  · rw [e] at fetch
    exact lzwdFill_setStatus_keeps_units hm (fetch.n.symm ▸ hb) h
  · cases h; exact lzwdFault_keeps_units hm _ _ w'
  · cases h

/-- The start of LZWD for a number of symbols that fits IDX (41_lzw_decompress.md R152). -/
theorem lzwdStart_keeps_units {n : Nat} {b : Option PixelFormat} {s u : State} (hm : s.MemoriesOk)
    (hn : n ≤ s.cfg.size .idx) (hb : blitAwaits s.cfg s.regs n b) (h : lzwdStart n b s = .next u) :
    u.MemoriesOk ∧ u.unitOk := by
  rcases lzwdStart_next h with ⟨m, m2, m8, hp, rfl⟩ | ⟨c, info, rfl⟩
  · exact ⟨hm.same, (State.unitOk_lzwd rfl).mpr ⟨Lzwd.start_ok ⟨m2, m8⟩ hp hn, hb⟩⟩
  · exact ⟨hm.same, State.unitOk_of_idle rfl⟩

end Sys2Proof.Machine
end

section
/-! PROOF. BLIT keeps its registers within their bounds (10_state.md R50), and every step keeps the whole invariant. -/

namespace Sys2Proof.Machine

/-- A working step of BLIT keeps the memories and its registers within their bounds. -/
theorem blitStep_keeps_units {w : Blit} {s t : State} (hr : s.running = .blit w) (hm : s.MemoriesOk) (hu : s.unitOk)
    (h : blitStep w s = .next t) : t.MemoriesOk ∧ t.unitOk := by
  obtain ⟨frame, -, count⟩ := (State.unitOk_blit hr).mp hu
  rcases blitStep_next h with ⟨-, rfl⟩ | ⟨hi, v, -, ⟨-, rfl⟩ | ⟨-, -, rfl⟩ | ⟨-, -, r, g, b, -, -, -, fits, rfl⟩⟩
  · exact ⟨hm.same, State.unitOk_of_idle rfl⟩
  · exact ⟨hm.same,
      (State.unitOk_blit (w := { w with i := w.i + 1 }) rfl).mpr ⟨frame, hi, Nat.le_succ_of_le count⟩⟩
  · exact ⟨hm.same, State.unitOk_of_idle rfl⟩
  · have four : (pixelBytes w.fmt r g b).length = 4 := by cases w.fmt <;> rfl
    exact ⟨(hm.writeList .pix (four.symm ▸ fits)).same,
      (State.unitOk_blit (w := { w with i := w.i + 1, cnt := w.cnt + 1 }) rfl).mpr ⟨frame, hi, Nat.succ_le_succ count⟩⟩

/-- Every working step keeps the memories canonical and the units within their bounds. -/
theorem unitStep_keeps_units {s t : State} (hm : s.MemoriesOk) (hu : s.unitOk) (hi : s.running ≠ .idle)
    (h : unitStep s = .next t) : t.MemoriesOk ∧ t.unitOk := by
  unfold unitStep at h
  cases hr : s.running with
  | idle => exact absurd hr hi
  | lzwc w => rw [hr] at h; exact lzwcStep_keeps_units hr hm hu h
  | lzwd w b => rw [hr] at h; exact lzwdStep_keeps_units hr hm hu h
  | blit w => rw [hr] at h; exact blitStep_keeps_units hr hm hu h

/-- The checks of an accepted command give its unit the bounds it starts with (43_commands.md R223 to R229). -/
theorem Started.units {s u : State} (hm : s.MemoriesOk) (h : Started s u) : u.MemoriesOk ∧ u.unitOk := by
  cases h with
  | compress hc e => exact lzwcStart_keeps_units hm hc e
  | decompress hc e => exact lzwdStart_keeps_units (b := none) hm (decompressChecks_pass.mp hc) nofun e
  | blit fmt hc e =>
    subst e
    exact ⟨hm.same,
      (State.unitOk_blit rfl).mpr ⟨blitChecks_pass.mp hc, Nat.zero_le _, Nat.le_refl _⟩⟩
  | decblit fmt hc e =>
    have frame := blitChecks_pass.mp hc
    exact lzwdStart_keeps_units hm frame.idx_fits (fun _ _ => ⟨frame, rfl⟩) e

/-- A whole command keeps the memories canonical and the units within their bounds. -/
theorem CommandChange.units {i : Instr} {s t : State} (hm : s.MemoriesOk) (hi : s.running = .idle)
    (h : CommandChange i s t) : t.MemoriesOk ∧ t.unitOk := by
  cases h with
  | reset _ e => subst e; exact ⟨hm.same, State.unitOk_of_idle hi⟩
  | gated _ e => subst e; exact ⟨hm, State.unitOk_of_idle hi⟩
  | refused opc c info _ _ e => subst e; exact ⟨hm.same, State.unitOk_of_idle rfl⟩
  | ran opc u _ _ hs hr =>
    have taken : (take opc s).MemoriesOk := hm.same
    exact run_induction (P := fun s => s.MemoriesOk ∧ s.unitOk)
      (fun _ _ ⟨hm, hu⟩ hi h => unitStep_keeps_units hm hu hi h) (hs.units taken) hr

/-- An action of the host keeps the memories canonical and the units within their bounds. -/
theorem HostChange.units {a : HostAction} {s t : State} (hm : s.MemoriesOk) (hi : s.running = .idle)
    (h : HostChange a s t) : t.MemoriesOk ∧ t.unitOk := by
  cases h with
  | command word i _ _ hc => exact hc.units hm hi
  | ignored e => subst e; exact ⟨hm, State.unitOk_of_idle hi⟩
  | illegal info _ e => subst e; exact ⟨hm.same, State.unitOk_of_idle rfl⟩
  | operand r v e => subst e; exact ⟨hm.same, State.unitOk_of_idle hi⟩
  | read w e => subst e; exact ⟨hm.same, State.unitOk_of_idle hi⟩
  | memory sp x v lt e =>
    subst e; exact ⟨hm.write sp v lt, State.unitOk_of_idle (by rw [State.setMemory_running, hi])⟩
  | dst size larger e => subst e; exact ⟨hm.replaceDst (Nat.le_of_lt larger) _, State.unitOk_of_idle hi⟩

/-- Settles O55: the flags by O54, the memories and the units by the host's action or the working step. -/
theorem stepKeepsInvariant : Obligations.StepKeepsInvariant := by
  intro s t h hs
  have units : t.MemoriesOk ∧ t.unitOk := by
    by_cases hi : s.running = .idle
    · rcases step_idle_change hi hs with rfl | ⟨a, rest, -, hc⟩
      · exact ⟨h.memories, h.unit⟩
      · have popped : State.MemoriesOk { s with script := rest } := h.memories.same
        exact hc.units popped hi
    · exact unitStep_keeps_units h.memories h.unit hi (step_eq_unitStep hi ▸ hs)
  exact ⟨units.1, stepKeepsFlagsConsistent s t h.flags hs, units.2⟩

end Sys2Proof.Machine
end

section
/-! PROOF. The host's accesses to the memories (20_memory.md R68, R72), and every step keeps the memories canonical and inside
their sizes (R65 to R67), whatever the units' registers hold. -/

namespace Sys2Proof.Machine

/-! ### The host's accesses -/

theorem hostWriteMem_of_lt {s : State} {sp : Space} {a : Nat} (b : Byte) (h : a < s.cfg.size sp) :
    hostWriteMem sp a b s = .next (s.setMemory sp (Memory.write (s.memory sp) a b)) := if_pos h

theorem hostReadMem_of_lt {s : State} {sp : Space} {a : Nat} (h : a < s.cfg.size sp) :
    hostReadMem sp a s = .next { s with readData := (hostByte s sp a).setWidth 32 } := if_pos h

/-- The host sees the byte just written. -/
theorem hostByte_write_self (s : State) (sp : Space) (a : Nat) (b : Byte) :
    hostByte (s.setMemory sp (Memory.write (s.memory sp) a b)) sp a = b := by
  simp only [hostByte, State.setMemory_memory_self, Memory.read_write_self]

/-- One byte of one memory is written: every other byte of every memory reads as before. -/
theorem State.read_setMemory_write_of_ne (s : State) {sp sp' : Space} {a x : Nat} (b : Byte) (h : sp' ≠ sp ∨ x ≠ a) :
    Memory.read ((s.setMemory sp (Memory.write (s.memory sp) a b)).memory sp') x = Memory.read (s.memory sp') x := by
  by_cases e : sp' = sp
  · subst e
    rw [State.setMemory_memory_self]
    exact Memory.read_write_of_ne _ b (h.resolve_left fun n => n rfl)
  · rw [State.setMemory_memory_of_ne s _ e]

/-- Settles O51, by the laws of a memory for a read after a write. -/
theorem hostMemoryAccesses : Obligations.HostMemoryAccesses := by
  intro s sp a b _ lt
  refine ⟨⟨_, hostWriteMem_of_lt b lt, State.setMemory_regs .., State.setMemory_running .., ⟨State.setMemory_cfg ..,
    State.setMemory_script .., State.setMemory_readData ..⟩, ?_, fun _ _ => s.read_setMemory_write_of_ne b⟩,
    ⟨_, hostReadMem_of_lt lt, rfl⟩⟩
  rw [hostReadMem_of_lt (by rw [State.setMemory_cfg]; exact lt), hostByte_write_self]

/-! ### What emitting leaves in DST -/

/-- DST as emitting leaves it, whether or not it ended at a write out of bounds. -/
def Emit.dst : Emit → Memory
  | .ok _ dst => dst
  | .bounds _ dst _ => dst

section Emitting

variable {size : Nat}

theorem Emit.wrote_bind {e : Emit} {dst : Memory} {k : Lzwc → Memory → Emit} (h : Wrote size 0 dst e.dst)
    (hk : ∀ w d, Wrote size 0 d (k w d).dst) : Wrote size 0 dst (e.bind k).dst := by
  cases e with
  | ok w d => exact h.trans (hk w d)
  | bounds w d a => exact h

theorem Emit.wrote_ok (w : Lzwc) (dst : Memory) : Wrote size 0 dst (Emit.ok w dst).dst := .refl size 0 dst

/-- A write is compared with the size first (20_memory.md R66). -/
theorem putAt_wrote (a : Nat) (b : Byte) (w : Lzwc) (dst : Memory) : Wrote size 0 dst (putAt size a b w dst).dst := by
  unfold putAt
  split
  · exact .write dst b (Nat.zero_le a) ‹_›
  · exact .refl size 0 dst

theorem putByte_wrote (b : Byte) (w : Lzwc) (dst : Memory) : Wrote size 0 dst (putByte size b w dst).dst := by
  refine Emit.wrote_bind (putAt_wrote ..) fun w d => ?_
  unfold closeFull
  split
  · exact Emit.wrote_bind (putAt_wrote ..) fun _ _ => Emit.wrote_ok ..
  · exact Emit.wrote_ok ..

theorem drain_wrote (fuel : Nat) (w : Lzwc) (dst : Memory) : Wrote size 0 dst (drain size fuel w dst).dst := by
  induction fuel generalizing w dst with
  | zero => exact Emit.wrote_ok ..
  | succ fuel ih =>
    unfold drain
    split
    · exact Emit.wrote_bind (putByte_wrote ..) fun _ _ => ih ..
    · exact Emit.wrote_ok ..

theorem emitCode_wrote (c : Nat) (w : Lzwc) (dst : Memory) : Wrote size 0 dst (emitCode size c w dst).dst :=
  drain_wrote ..

theorem flush_wrote (w : Lzwc) (dst : Memory) : Wrote size 0 dst (flush size w dst).dst := by
  unfold flush
  split
  · exact Emit.wrote_bind (putByte_wrote ..) fun _ _ => Emit.wrote_ok ..
  · exact Emit.wrote_ok ..

theorem closeStream_wrote (w : Lzwc) (dst : Memory) : Wrote size 0 dst (closeStream size w dst).dst := by
  unfold closeStream
  split
  · exact putAt_wrote ..
  · exact Emit.wrote_bind (putAt_wrote ..) fun _ _ =>
      Emit.wrote_bind (putAt_wrote ..) fun _ _ => Emit.wrote_ok ..

theorem emitFinish_wrote (w : Lzwc) (dst : Memory) : Wrote size 0 dst (emitFinish size w dst).dst :=
  Emit.wrote_bind (emitCode_wrote ..) fun _ _ => Emit.wrote_bind (emitCode_wrote ..) fun _ _ =>
    Emit.wrote_bind (flush_wrote ..) fun _ _ => closeStream_wrote ..

theorem symbolStep_wrote (k : Nat) (w : Lzwc) (dst : Memory) : Wrote size 0 dst (symbolStep size k w dst).dst := by
  unfold symbolStep
  split
  · exact Emit.wrote_ok ..
  · refine Emit.wrote_bind (emitCode_wrote ..) fun w d => ?_
    split
    · exact Emit.wrote_bind (emitCode_wrote ..) fun _ _ => Emit.wrote_ok ..
    · exact Emit.wrote_ok ..

end Emitting

/-! ### The working steps -/

theorem lzwcStep_keeps_memories {w : Lzwc} {s t : State} (hm : s.MemoriesOk) (h : lzwcStep w s = .next t) :
    t.MemoriesOk := by
  have step (k : Nat) := hm.wrote (symbolStep_wrote k w s.dst)
  have finish := hm.wrote (emitFinish_wrote w s.dst)
  rcases lzwcStep_next h with ⟨-, b, -, ⟨w', d, e, rfl⟩ | ⟨w', d, a, e, rfl⟩⟩ | ⟨-, ⟨w', d, e, rfl⟩ | ⟨w', d, a, e, rfl⟩⟩
  · exact (e ▸ step (maskSymbol w.m b)).same
  · exact (e ▸ step (maskSymbol w.m b)).same
  · exact (e ▸ finish).same
  · exact (e ▸ finish).same

theorem lzwdFill_keeps_memories {w : Lzwd} {b : Option PixelFormat} {s t : State} (hm : s.MemoriesOk)
    (h : lzwdFill w b s = .next t) : t.MemoriesOk := by
  obtain ⟨fits, e⟩ := lzwdFill_next h
  have filled := hm.writeList .idx (bytes := List.replicate (w.n - w.op) 0) (by rwa [List.length_replicate])
  rcases e with ⟨-, rfl⟩ | ⟨fmt, -, rfl⟩
  · exact filled.same
  · exact filled.same

theorem dataCode_keeps_memories {w : Lzwd} {b : Option PixelFormat} {code : Nat} {symbols : List Byte} {s t : State}
    (hm : s.MemoriesOk) (h : dataCode w b code symbols s = .next t) : t.MemoriesOk := by
  rcases dataCode_next h with ⟨-, e⟩ | ⟨-, fits, rfl⟩
  · exact lzwdFill_keeps_memories (s := s.setStatus _) hm.same e
  · exact (hm.writeList .idx fits).same

theorem execCode_keeps_memories {i : Instr} {s t : State} (hm : s.MemoriesOk) (h : execCode i s = .next t) :
    t.MemoriesOk := by
  cases i with
  | compress | decompress | blitBgra | blitRgba | decblitBgra | decblitRgba | reset => cases h
  | lit m symbol =>
    obtain ⟨w, b, -, -, h⟩ := onCode_next h
    exact dataCode_keeps_memories hm h
  | clear m =>
    obtain ⟨w, b, -, -, h⟩ := onCode_next h
    cases h; exact hm.same
  | eoi m =>
    obtain ⟨w, b, -, -, h⟩ := onCode_next h
    exact lzwdFill_keeps_memories (s := (s.setStatus _).setStatus _) hm.same h
  | ref code =>
    obtain ⟨w, b, -, -, h⟩ := onCode_next h
    split at h
    · exact dataCode_keeps_memories hm h
    · cases h
  | kwk code =>
    obtain ⟨w, b, -, -, h⟩ := onCode_next h
    split at h
    · split at h
      · exact dataCode_keeps_memories hm h
      · cases h
    · cases h
  | invalid code =>
    obtain ⟨w, b, -, -, h⟩ := onCode_next h
    cases h; exact hm.same

theorem lzwdStep_keeps_memories {w : Lzwd} {b : Option PixelFormat} {s t : State} (hm : s.MemoriesOk)
    (h : lzwdStep execCode w b s = .next t) : t.MemoriesOk := by
  rcases lzwdStep_cases execCode w b s with ⟨w', c, -, k⟩ | ⟨w', -, k⟩ | ⟨w', a, -, k⟩ | ⟨a, -, k⟩ <;> rw [k] at h
  · exact execCode_keeps_memories (s := s.setRunning _) hm.same h
  · exact lzwdFill_keeps_memories (s := s.setStatus _) hm.same h
  · cases h; exact hm.same
  · cases h

theorem length_pixelBytes (fmt : PixelFormat) (r g b : Byte) : (pixelBytes fmt r g b).length = 4 := by cases fmt <;> rfl

theorem blitStep_keeps_memories {w : Blit} {s t : State} (hm : s.MemoriesOk) (h : blitStep w s = .next t) :
    t.MemoriesOk := by
  rcases blitStep_next h with ⟨-, rfl⟩ | ⟨-, v, -, ⟨-, rfl⟩ | ⟨-, -, rfl⟩ | ⟨-, -, r, g, b, -, -, -, fits, rfl⟩⟩
  · exact hm.same
  · exact hm.same
  · exact hm.same
  · exact (hm.writeList .pix (bytes := pixelBytes w.fmt r g b) (by rwa [length_pixelBytes])).same

/-- Every write of a unit is compared with the size of its memory, so no working step needs the unit's bounds. -/
theorem unitStep_keeps_memories {s t : State} (hm : s.MemoriesOk) (h : unitStep s = .next t) : t.MemoriesOk := by
  unfold unitStep at h
  split at h
  · cases h; exact hm
  · exact lzwcStep_keeps_memories hm h
  · exact lzwdStep_keeps_memories hm h
  · exact blitStep_keeps_memories hm h

/-- Settles O53: the host's action when GLZ is idle, which starts a unit within its bounds; the working step when one runs. -/
theorem stepKeepsMemoriesCanonical : Obligations.StepKeepsMemoriesCanonical := by
  intro s t hm h
  by_cases hi : s.running = .idle
  · rcases step_idle_change hi h with rfl | ⟨a, rest, -, hc⟩
    · exact hm
    · have popped : State.MemoriesOk { s with script := rest } := hm.same
      exact (hc.units popped hi).1
  · exact unitStep_keeps_memories hm (step_eq_unitStep hi ▸ h)

end Sys2Proof.Machine
end

section
/-! PROOF. The ways an outcome may stop, and the rule each shared operation obeys. -/

namespace Sys2Proof.Machine

/-- The outcome stops, if it does, at a byte of SRC or IDX never written, or with a refusal in `R`. -/
def StopsOnly (R : Refusal → Prop) (r : Res) : Prop :=
  (∀ f, r = .fault f → ∃ space a, f = .unwrittenRead space a ∧ (space = .src ∨ space = .idx)) ∧
    ∀ e, r = .refused e → R e

/-- The outcome of a unit: it stops, if it does, at a byte of SRC or IDX never written (93_implementation_defined.md U1). -/
abbrev UnitStops (r : Res) : Prop := StopsOnly (fun _ => False) r

theorem StopsOnly.next {R : Refusal → Prop} (s : State) : StopsOnly R (.next s) := ⟨nofun, nofun⟩

theorem StopsOnly.unwritten {R : Refusal → Prop} {sp : Space} (a : Nat) (h : sp = .src ∨ sp = .idx) :
    StopsOnly R (.fault (.unwrittenRead sp a)) := ⟨fun _ e => by cases e; exact ⟨sp, a, rfl, h⟩, nofun⟩

theorem StopsOnly.refused {R : Refusal → Prop} {e : Refusal} (h : R e) : StopsOnly R (.refused e) :=
  ⟨nofun, fun _ k => by cases k; exact h⟩

theorem StopsOnly.mono {R R' : Refusal → Prop} {r : Res} (h : StopsOnly R r) (hr : ∀ e, R e → R' e) : StopsOnly R' r :=
  ⟨h.1, fun e k => hr e (h.2 e k)⟩

section Rules

variable {R : Refusal → Prop} {s : State}

/-- A read below the size of SRC or IDX. -/
theorem StopsOnly.readChecked {sp : Space} {a : Nat} {k : Byte → Res} (hs : sp = .src ∨ sp = .idx)
    (ha : a < s.cfg.size sp) (hk : ∀ b, StopsOnly R (k b)) : StopsOnly R (s.readChecked sp a k) := by
  rcases s.readChecked_cases sp a k with ⟨b, -, e⟩ | ⟨-, e⟩ | ⟨out, -⟩
  · exact e ▸ hk b
  · exact e ▸ .unwritten a hs
  · exact absurd (State.fetchByte_eq_outside.mp out) (Nat.not_le_of_lt ha)

/-- A write that fits. -/
theorem StopsOnly.writeChecked {sp : Space} {a : Nat} {bytes : List Byte} {k : State → Res}
    (fits : a + bytes.length ≤ s.cfg.size sp) (hk : ∀ t, StopsOnly R (k t)) :
    StopsOnly R (s.writeChecked sp a bytes k) := State.writeChecked_of_fits k fits ▸ hk _

theorem StopsOnly.andThen {r : Res} {k : State → Res} (hr : StopsOnly R r) (hk : ∀ t, r = .next t → StopsOnly R (k t)) :
    StopsOnly R (andThen r k) := by
  cases r with
  | next t => exact hk t rfl
  | fault f => exact hr
  | refused e => exact hr

/-- Emitting out of bounds is a fault of GLZ, not of the model (40_lzw_compress.md R135). -/
theorem StopsOnly.commit {e : Emit} {k : Lzwc → State → Res} (hk : ∀ w t, StopsOnly R (k w t)) :
    StopsOnly R (commit e s k) := by
  cases e with
  | ok w d => exact hk w _
  | bounds w d a => exact .next _

/-- A code its context admits acts on the registers of LZWD. -/
theorem StopsOnly.onCode {i : Instr} {k : Lzwd → Option PixelFormat → Res} {w : Lzwd} {b : Option PixelFormat}
    (hr : s.running = .lzwd w b) (ha : w.context.admits i = true) (hk : StopsOnly R (k w b)) :
    StopsOnly R (onCode i s k) := (onCode_of_admits hr ha).symm ▸ hk

end Rules

end Sys2Proof.Machine
end

section
/-! PROOF. No working step reaches outside a memory or reads an undefined entry (20_memory.md R67, 41_lzw_decompress.md R166). -/

namespace Sys2Proof.Machine

/-! ### LZWC -/

theorem lzwcStep_stops {w : Lzwc} {s : State} {cursor : Nat} (ok : w.Ok s.cfg s.regs.idxLen.toNat cursor) :
    UnitStops (lzwcStep w s) := by
  unfold lzwcStep
  simp only
  split
  · exact .readChecked (.inr rfl) (Nat.lt_of_lt_of_le ‹_› ok.len_fits) fun _ => .commit fun _ _ => .next _
  · exact .commit fun _ _ => .next _

theorem lzwcStart_stops {s : State} (hc : firstFailing (compressChecks s) = none) : UnitStops (lzwcStart s) := by
  obtain ⟨-, -, len1, fits⟩ := compressChecks_pass.mp hc
  unfold lzwcStart
  simp only
  split
  · exact .readChecked (.inr rfl) (Nat.lt_of_lt_of_le len1 fits) fun _ => .commit fun _ _ => .next _
  · exact .next _

/-! ### LZWD -/

/-- A data code has a sequence: its entry is built on older ones, down to a literal (41_lzw_decompress.md R160, R166). -/
theorem DTable.seqOf_defined {m : Nat} {tab : List DEntry} {next c : Nat} (h : DTable m tab next)
    (hc : DataCode m next c) : ∃ symbols, seqOf m tab c = some symbols := by
  induction tab generalizing next c with
  | nil =>
    have empty : next = firstCode m := h
    exact ⟨_, if_pos (hc.resolve_right fun ⟨first, below⟩ => by omega)⟩
  | cons e t ih =>
    obtain ⟨hn, older, -, ht⟩ := h
    by_cases lit : c < 2 ^ m
    · exact ⟨_, if_pos lit⟩
    · obtain ⟨first, below⟩ := hc.resolve_left lit
      by_cases here : e.code = c
      · obtain ⟨symbols, hs⟩ := ih ht older
        exact ⟨symbols ++ [e.byte], by simp [seqOf, lit, here, hs]⟩
      · obtain ⟨symbols, hs⟩ := ih ht (.inr ⟨first, by omega⟩)
        exact ⟨symbols, by simp [seqOf, lit, here, hs]⟩

/-- The zero fill lies inside IDX (41_lzw_decompress.md R177). -/
theorem lzwdFill_stops {w : Lzwd} {s : State} (b : Option PixelFormat) (hop : w.op ≤ w.n) (hn : w.n ≤ s.cfg.size .idx) :
    UnitStops (lzwdFill w b s) := by
  refine .writeChecked (by rw [List.length_replicate]; omega) fun t => ?_
  cases b with
  | none => exact .next _
  | some fmt => exact .next _

section Codes

variable {w : Lzwd} {b : Option PixelFormat} {s : State}

/-- The length check keeps the output inside IDX (41_lzw_decompress.md R165). -/
theorem dataCode_stops (ok : w.Ok s.cfg) (code : Nat) (symbols : List Byte) : UnitStops (dataCode w b code symbols s) := by
  unfold dataCode
  split
  · exact lzwdFill_stops (s := s.setStatus _) b ok.op_bound ok.n_fits
  · have fits := ok.n_fits
    exact .writeChecked (by omega) fun _ => .next _

/-- A code the context admits finds every entry it reads (41_lzw_decompress.md R166). -/
theorem execCode_stops {i : Instr} (hr : s.running = .lzwd w b) (ok : w.Ok s.cfg) (ha : w.context.admits i = true) :
    UnitStops (execCode i s) := by
  cases i with
  | compress | decompress | blitBgra | blitRgba | decblitBgra | decblitRgba | reset => cases ha
  | lit m symbol => exact .onCode hr ha (dataCode_stops ok _ _)
  | clear m => exact .onCode hr ha (.next _)
  | eoi m => exact .onCode hr ha (lzwdFill_stops (s := (s.setStatus _).setStatus _) b ok.op_bound ok.n_fits)
  | ref code =>
    obtain ⟨symbols, defined⟩ := ok.table.seqOf_defined (.inr ((w.admits_ref code).mp ha))
    refine .onCode hr ha ?_
    simp only [defined]
    exact dataCode_stops ok _ _
  | kwk code =>
    obtain ⟨-, -, hasPrev⟩ := (w.admits_kwk code).mp ha
    obtain ⟨prev, hp⟩ := Option.ne_none_iff_exists'.mp hasPrev
    obtain ⟨symbols, defined⟩ := ok.table.seqOf_defined (ok.prev_code prev hp)
    refine .onCode hr ha ?_
    simp only [hp, defined]
    exact dataCode_stops ok _ _
  | invalid code => exact .onCode hr ha (.next _)

end Codes

theorem lzwdStep_stops {w : Lzwd} (b : Option PixelFormat) {s : State} (ok : w.Ok s.cfg) :
    UnitStops (lzwdStep execCode w b s) := by
  have fetch := getCode_spec s ok.fed ok.nb_bound
  rcases lzwdStep_cases execCode w b s with ⟨w', c, e, k⟩ | ⟨w', e, k⟩ | ⟨w', a, -, k⟩ | ⟨a, -, k⟩ <;> rw [k]
  · rw [e] at fetch
    obtain ⟨fed, same, nb, -⟩ := fetch
    have ok' := ok.fetched same fed nb
    have admitted := admits_decodeCode (ctx := w'.context) ok'.next_range.1 ok'.m_range.2 c
    exact execCode_stops (s := s.setRunning (.lzwd w' b)) rfl ok' admitted
  · rw [e] at fetch
    have op : w'.op ≤ w'.n := by rw [fetch.op, fetch.n]; exact ok.op_bound
    exact lzwdFill_stops (s := s.setStatus _) b op (fetch.n ▸ ok.n_fits)
  · exact .next _
  · exact .unwritten a (.inl rfl)

theorem lzwdStart_stops (n : Nat) (b : Option PixelFormat) (s : State) : UnitStops (lzwdStart n b s) := by
  unfold lzwdStart
  simp only
  split
  · split <;> exact .next _
  · exact .next _
  · exact .unwritten _ (.inl rfl)

/-! ### BLIT -/

/-- An interlaced row lies inside the frame (42_blit.md R194). -/
theorem ilace_lt {srow h : Nat} (lt : srow < h) : ilace srow h < h := by
  unfold ilace
  simp only
  split
  · omega
  · split
    · omega
    · split <;> omega

theorem frameRow_lt (interlaced : Bool) {srow h : Nat} (lt : srow < h) : frameRow interlaced srow h < h := by
  cases interlaced with
  | false => exact lt
  | true => exact ilace_lt lt

/-- Every pixel of the frame lies inside PIX (42_blit.md R190, R197). -/
theorem FrameOk.pixel_fits {cfg : Config} {r : Regs} (frame : FrameOk cfg r) {i : Nat} (hi : i < frameSymbols r) :
    pixelAddress r i + 4 ≤ cfg.size .pix := by
  have col : i % r.frameSize.w.toNat < r.frameSize.w.toNat := Nat.mod_lt _ frame.frame_pos.1
  have row := frameRow_lt r.blitCtrl.interlaced (srow := i / r.frameSize.w.toNat) (Nat.div_lt_of_lt_mul hi)
  have right := frame.inside_x
  have bottom := frame.inside_y
  unfold pixelAddress
  simp only
  generalize frameRow r.blitCtrl.interlaced (i / r.frameSize.w.toNat) r.frameSize.h.toNat = drow at row ⊢
  calc 4 * ((r.framePos.y.toNat + drow) * r.canvas.w.toNat + (r.framePos.x.toNat + i % r.frameSize.w.toNat)) + 4
      ≤ 4 * ((r.framePos.y.toNat + drow) * r.canvas.w.toNat + r.canvas.w.toNat) := by omega
    _ = 4 * r.canvas.w.toNat * (r.framePos.y.toNat + drow + 1) := by ring
    _ ≤ 4 * r.canvas.w.toNat * r.canvas.h.toNat := Nat.mul_le_mul_left _ (by omega)
    _ ≤ cfg.size .pix := frame.pix_fits

/-- The palette's three bytes of a colour below PAL_SIZE lie inside SRC (42_blit.md R190, R201). -/
theorem readColour_stops {s : State} (frame : FrameOk s.cfg s.regs) {v : Byte} (hv : v.toNat < s.regs.palSize.toNat)
    {k : Byte → Byte → Byte → Res} (hk : ∀ r g b, UnitStops (k r g b)) : UnitStops (readColour s v k) := by
  have fits := frame.palette_fits
  exact .readChecked (.inl rfl) (by omega) fun r => .readChecked (.inl rfl) (by omega) fun g =>
    .readChecked (.inl rfl) (by omega) fun b => hk r g b

theorem blitStep_stops {w : Blit} {s : State} (frame : FrameOk s.cfg s.regs) : UnitStops (blitStep w s) := by
  unfold blitStep
  split
  · refine .readChecked (.inr rfl) (Nat.lt_of_lt_of_le ‹_› frame.idx_fits) fun v => ?_
    unfold blitSymbol
    split
    · exact .next _
    · split
      · exact .next _
      · refine readColour_stops frame (Nat.lt_of_not_le ‹_›) fun r g b => ?_
        exact .writeChecked (by rw [length_pixelBytes]; exact frame.pixel_fits ‹_›) fun _ => .next _
  · exact .next _

/-! ### The unit that runs -/

theorem unitStep_stops {s : State} (hu : s.unitOk) : UnitStops (unitStep s) := by
  unfold unitStep
  cases hr : s.running with
  | idle => exact .next s
  | lzwc w => exact lzwcStep_stops ((State.unitOk_lzwc hr).mp hu)
  | lzwd w b => exact lzwdStep_stops b ((State.unitOk_lzwd hr).mp hu).1
  | blit w => exact blitStep_stops ((State.unitOk_blit hr).mp hu).1

/-- A run stops as its working steps do, which keep the unit within its bounds. -/
theorem runToIdle_stops (fuel : Nat) {s : State} (hm : s.MemoriesOk) (hu : s.unitOk) : UnitStops (runToIdle fuel s) := by
  induction fuel generalizing s with
  | zero => exact .next s
  | succ fuel ih =>
    by_cases hi : s.running = .idle
    · exact runToIdle_of_idle _ hi ▸ .next s
    · rw [runToIdle_of_running fuel hi]
      refine .andThen (unitStep_stops hu) fun t ht => ?_
      obtain ⟨hm', hu'⟩ := unitStep_keeps_units hm hu hi ht
      exact ih hm' hu'

end Sys2Proof.Machine
end

section
/-! PROOF. A step stops, under the invariant, only at a byte never written or at an access the host port refuses. -/

namespace Sys2Proof.Machine

/-! ### The commands -/

theorem whenIdle_stops {s : State} (hi : s.running = .idle) {k : Res} (hk : UnitStops k) : UnitStops (whenIdle s k) := by
  rwa [whenIdle_of_idle k hi]

/-- A command stops where its start or its run does; the gate and a failing check go on (43_commands.md R220, R221). -/
theorem command_stops {opc : BitVec 4} {checks : State → List (Bool × FaultCode × Nat)} {start : State → Res} {s : State}
    (hm : s.MemoriesOk) (hi : s.running = .idle)
    (hstops : firstFailing (checks (take opc s)) = none → UnitStops (start (take opc s)))
    (hstart : ∀ u, firstFailing (checks (take opc s)) = none → start (take opc s) = .next u → Started (take opc s) u) :
    UnitStops (command opc checks start s) := by
  cases hf : s.regs.status.fault with
  | true => exact command_of_fault hi hf ▸ .next s
  | false =>
    cases hc : firstFailing (checks (take opc s)) with
    | some p => exact command_of_refused (c := p.1) (info := p.2) hi hf hc ▸ .next _
    | none =>
      rw [command_of_accepted hi hf hc]
      refine .andThen (hstops hc) fun u hu => ?_
      have taken : (take opc s).MemoriesOk := hm.same
      obtain ⟨hm', hu'⟩ := (hstart u hc hu).units taken
      exact runToIdle_stops _ hm' hu'

theorem exec_command_stops {i : Instr} {s : State} (hm : s.MemoriesOk) (hi : s.running = .idle) (hc : i.isCommand = true) :
    UnitStops (exec i s) := by
  cases i with
  | compress => exact command_stops hm hi lzwcStart_stops fun _ => .compress
  | decompress => exact command_stops hm hi (fun _ => lzwdStart_stops ..) fun _ => .decompress
  | blitBgra => exact command_stops hm hi (fun _ => .next _) fun _ hc e => .blit .bgra hc (by cases e; rfl)
  | blitRgba => exact command_stops hm hi (fun _ => .next _) fun _ hc e => .blit .rgba hc (by cases e; rfl)
  | decblitBgra => exact command_stops hm hi (fun _ => lzwdStart_stops ..) fun _ => .decblit .bgra
  | decblitRgba => exact command_stops hm hi (fun _ => lzwdStart_stops ..) fun _ => .decblit .rgba
  | reset => exact whenIdle_stops hi (.next _)
  | lit | clear | eoi | ref | kwk | invalid => cases hc

theorem commandOfOpc_isCommand {opc : Nat} {i : Instr} (h : commandOfOpc opc = some i) : i.isCommand = true := by
  unfold commandOfOpc at h
  split at h <;> cases h <;> rfl

theorem commandWrite_stops {s : State} (hm : s.MemoriesOk) (hi : s.running = .idle) (word : Word) :
    UnitStops (commandWrite word s) := by
  unfold commandWrite
  split
  · exact exec_command_stops hm hi (commandOfOpc_isCommand (decodeCommand_ok ‹_›).2)
  · refine whenIdle_stops hi ?_
    split <;> exact .next _

/-! ### The host -/

/-- The accesses the host port refuses (93_implementation_defined.md U9; log entries 12 and 24). -/
abbrev HostRefusal (e : Refusal) : Prop :=
  (∃ addr, e = .outsideInterface addr) ∨ (∃ space addr, e = .hostOutsideMemory space addr) ∨ ∃ size, e = .dstNotLarger size

section HostActions

variable {s : State}

theorem hostWriteReg_stops (hm : s.MemoriesOk) (hi : s.running = .idle) (addr : Nat) (size : AccessSize) (v : Word) :
    StopsOnly HostRefusal (hostWriteReg addr size v s) := by
  unfold hostWriteReg
  split
  · exact (commandWrite_stops hm hi v).mono nofun
  · exact .next _
  all_goals exact .refused (.inl ⟨addr, rfl⟩)

theorem hostReadReg_stops (addr : Nat) (size : AccessSize) : StopsOnly HostRefusal (hostReadReg addr size s) := by
  unfold hostReadReg
  split
  · exact .next _
  all_goals exact .refused (.inl ⟨addr, rfl⟩)

theorem hostWriteMem_stops (sp : Space) (x : Nat) (v : Byte) : StopsOnly HostRefusal (hostWriteMem sp x v s) := by
  unfold hostWriteMem
  split
  · exact .next _
  · exact .refused (.inr (.inl ⟨sp, x, rfl⟩))

theorem hostReadMem_stops (sp : Space) (x : Nat) : StopsOnly HostRefusal (hostReadMem sp x s) := by
  unfold hostReadMem
  split
  · exact .next _
  · exact .refused (.inr (.inl ⟨sp, x, rfl⟩))

theorem hostProvideDst_stops (size : Fin 4294967296) : StopsOnly HostRefusal (hostProvideDst size s) := by
  rcases hostProvideDst_cases size s with ⟨-, e⟩ | ⟨-, e⟩
  · exact e ▸ .next _
  · exact e ▸ .refused (.inr (.inr ⟨size.val, rfl⟩))

/-- A CMD write runs a command, which stops as a unit does; every other action answers or is refused. -/
theorem hostAct_stops (hm : s.MemoriesOk) (hi : s.running = .idle) (a : HostAction) :
    StopsOnly HostRefusal (hostAct a s) := by
  cases a with
  | writeReg addr size v => exact hostWriteReg_stops hm hi addr size v
  | readReg addr size => exact hostReadReg_stops addr size
  | writeMem sp x v => exact hostWriteMem_stops sp x v
  | readMem sp x => exact hostReadMem_stops sp x
  | provideDst size => exact hostProvideDst_stops size

end HostActions

/-! ### The step -/

/-- What a step can stop for: only an idle GLZ meets an access of the host. -/
theorem step_stops {s : State} (h : s.Inv) : StopsOnly (fun e => s.running = .idle ∧ HostRefusal e) (step s) := by
  by_cases hi : s.running = .idle
  · cases hs : s.script with
    | nil => exact step_of_idle hi hs ▸ .next s
    | cons a rest =>
      rw [step_of_action hi hs]
      have popped : State.MemoriesOk { s with script := rest } := h.memories.same
      exact (hostAct_stops popped hi a).mono fun _ refusal => ⟨hi, refusal⟩
  · rw [step_eq_unitStep hi]
    exact (unitStep_stops h.unit).mono nofun

/-- Settles O56: the unit's bounds put every access of a working step inside its memory, and every entry it reads in the
table. -/
theorem unitsStayInsideMemories : Obligations.UnitsStayInsideMemories := fun _ h => step_stops h

end Sys2Proof.Machine
end

section
/-! PROOF. The decoder and the encoder (30_encoding.md R91, R97): decoding answers an instruction exactly when the encoder writes
what was read and, for a code, the context admits it. -/

namespace Sys2Proof

open Machine (decodeCommand_ok admits_decodeCode)

/-! ### CMD words -/

/-- A word with no reserved bit is its opcode, zero-extended (30_encoding.md R90). -/
theorem eq_opcField_of_reservedField {word : Word} (h : reservedField word = 0) :
    word = BitVec.ofNat 32 (opcField word).toNat := by
  have high := congrArg BitVec.toNat h
  simp only [reservedField, BitVec.extractLsb'_toNat, Nat.shiftRight_eq_div_pow, BitVec.ofNat_eq_ofNat,
    BitVec.toNat_ofNat] at high
  have lt := word.isLt
  refine BitVec.eq_of_toNat_eq ?_
  simp only [opcField, BitVec.extractLsb'_toNat, Nat.shiftRight_eq_div_pow, BitVec.toNat_ofNat]
  omega

/-- The word of a command holds the opcode that selects it. -/
theorem encode_of_commandOfOpc {opc : Nat} {i : Instr} (h : commandOfOpc opc = some i) :
    encode i = .command (BitVec.ofNat 32 opc) := by
  unfold commandOfOpc at h
  split at h <;> cases h <;> rfl

theorem decodeCommand_of_encode {word : Word} {i : Instr} (h : encode i = .command word) :
    decodeCommand word = .ok i := by
  cases i with
  | compress | decompress | blitBgra | blitRgba | decblitBgra | decblitRgba | reset => cases h; rfl
  | lit | clear | eoi | ref | kwk | invalid => cases h

/-- A word decodes to the command whose word it is, and no other word decodes (30_encoding.md R91). -/
theorem decodeCommand_eq_ok_iff {word : Word} {i : Instr} :
    decodeCommand word = .ok i ↔ encode i = .command word := by
  refine ⟨fun h => ?_, decodeCommand_of_encode⟩
  obtain ⟨reserved, opc⟩ := decodeCommand_ok h
  rw [encode_of_commandOfOpc opc, ← eq_opcField_of_reservedField reserved]

theorem isCommand_of_encode_command {word : Word} {i : Instr} (h : encode i = .command word) : i.isCommand = true := by
  cases i with
  | compress | decompress | blitBgra | blitRgba | decblitBgra | decblitRgba | reset => rfl
  | lit | clear | eoi | ref | kwk | invalid => cases h

theorem isCommand_of_encode_code {c : BitVec 12} {i : Instr} (h : encode i = .code c) : i.isCommand = false := by
  cases i with
  | compress | decompress | blitBgra | blitRgba | decblitBgra | decblitRgba | reset => cases h
  | lit | clear | eoi | ref | kwk | invalid => rfl

/-! ### What encodes to a code -/

/-- A minimum code size is at most 8 (30_encoding.md R94): a LIT's value fits a byte, and CLEAR's and EOI's fit 12 bits. -/
theorem two_pow_le_256 {m : Nat} (hm : m ≤ 8) : 2 ^ m ≤ 256 := Nat.pow_le_pow_right (by decide) hm

theorem encode_lit_eq_code_iff {m : Nat} {symbol : Byte} {c : BitVec 12} :
    encode (.lit m symbol) = .code c ↔ c.toNat = symbol.toNat := by
  have lt := symbol.isLt
  have e : (symbol.setWidth 12).toNat = symbol.toNat := by rw [BitVec.toNat_setWidth]; omega
  simp only [encode, Encoded.code.injEq, ← BitVec.toNat_inj, e, eq_comm]

theorem encode_clear_eq_code_iff {m : Nat} {c : BitVec 12} (hm : m ≤ 8) :
    encode (.clear m) = .code c ↔ c.toNat = 2 ^ m := by
  have pow := two_pow_le_256 hm
  have e : (BitVec.ofNat 12 (2 ^ m)).toNat = 2 ^ m := (BitVec.toNat_ofNat ..).trans (Nat.mod_eq_of_lt (by omega))
  simp only [encode, Encoded.code.injEq, ← BitVec.toNat_inj, e, eq_comm]

theorem encode_eoi_eq_code_iff {m : Nat} {c : BitVec 12} (hm : m ≤ 8) :
    encode (.eoi m) = .code c ↔ c.toNat = 2 ^ m + 1 := by
  have pow := two_pow_le_256 hm
  have e : (BitVec.ofNat 12 (2 ^ m + 1)).toNat = 2 ^ m + 1 := (BitVec.toNat_ofNat ..).trans (Nat.mod_eq_of_lt (by omega))
  simp only [encode, Encoded.code.injEq, ← BitVec.toNat_inj, e, eq_comm]

/-! A table code is written as it stands (30_encoding.md R97). -/

@[simp] theorem encode_ref (c : BitVec 12) : encode (.ref c) = .code c := rfl
@[simp] theorem encode_kwk (c : BitVec 12) : encode (.kwk c) = .code c := rfl
@[simp] theorem encode_invalid (c : BitVec 12) : encode (.invalid c) = .code c := rfl

/-- A value below 2^m is one byte. -/
theorem toNat_setWidth_of_lt_two_pow {m : Nat} {c : BitVec 12} (hm : m ≤ 8) (h : c.toNat < 2 ^ m) :
    (c.setWidth 8).toNat = c.toNat := by
  have pow := two_pow_le_256 hm
  rw [BitVec.toNat_setWidth]
  omega

/-! ### The classes of a code (30_encoding.md R97) -/

section Admits
variable (ctx : CodeContext) (m : Nat) (symbol : Byte) (code : BitVec 12)

@[simp] theorem CodeContext.admits_lit : ctx.admits (.lit m symbol) = true ↔ m = ctx.m ∧ symbol.toNat < 2 ^ m := by
  simp [CodeContext.admits]

@[simp] theorem CodeContext.admits_clear : ctx.admits (.clear m) = true ↔ m = ctx.m := by
  simp [CodeContext.admits]

@[simp] theorem CodeContext.admits_eoi : ctx.admits (.eoi m) = true ↔ m = ctx.m := by
  simp [CodeContext.admits]

@[simp] theorem CodeContext.admits_ref :
    ctx.admits (.ref code) = true ↔ 2 ^ ctx.m + 2 ≤ code.toNat ∧ code.toNat < ctx.next := by
  simp [CodeContext.admits]

@[simp] theorem CodeContext.admits_kwk :
    ctx.admits (.kwk code) = true ↔ 2 ^ ctx.m + 2 ≤ code.toNat ∧ code.toNat = ctx.next ∧ ctx.hasPrev = true := by
  simp [CodeContext.admits, and_assoc]

@[simp] theorem CodeContext.admits_invalid :
    ctx.admits (.invalid code) = true ↔
      2 ^ ctx.m + 2 ≤ code.toNat ∧ (ctx.next < code.toNat ∨ (code.toNat = ctx.next ∧ ctx.hasPrev = false)) := by
  simp [CodeContext.admits]

end Admits

theorem wf_of_isCommand {i : Instr} (h : i.isCommand = true) : i.wf = true := by
  cases i with
  | compress | decompress | blitBgra | blitRgba | decblitBgra | decblitRgba | reset => rfl
  | lit | clear | eoi | ref | kwk | invalid => cases h

/-- What a well-formed context admits is well-formed: the first table code is at least 2^2 + 2 (30_encoding.md R98). -/
theorem wf_of_admits {ctx : CodeContext} (hm : 2 ≤ ctx.m ∧ ctx.m ≤ 8) {i : Instr} (h : ctx.admits i = true) :
    i.wf = true := by
  have size : minCodeOk ctx.m = true := by simpa [minCodeOk] using hm
  have pow : 2 ^ 2 ≤ 2 ^ ctx.m := Nat.pow_le_pow_right (by decide) hm.1
  have table {code : BitVec 12} (first : 2 ^ ctx.m + 2 ≤ code.toNat) : decide (6 ≤ code.toNat) = true :=
    decide_eq_true (by omega)
  cases i with
  | compress | decompress | blitBgra | blitRgba | decblitBgra | decblitRgba | reset => cases h
  | lit m symbol =>
    obtain ⟨rfl, lt⟩ := (ctx.admits_lit m symbol).mp h
    simp [Instr.wf, size, lt]
  | clear m | eoi m =>
    obtain rfl : m = ctx.m := by simpa using h
    exact size
  | ref code => exact table ((ctx.admits_ref code).mp h).1
  | kwk code => exact table ((ctx.admits_kwk code).mp h).1
  | invalid code => exact table ((ctx.admits_invalid code).mp h).1

/-- A code is encoded by the value it was read from. -/
theorem encode_decodeCode {ctx : CodeContext} (hm : ctx.m ≤ 8) (c : BitVec 12) :
    encode (decodeCode ctx c) = .code c := by
  unfold decodeCode
  split
  · exact (encode_clear_eq_code_iff hm).mpr ‹_›
  · split
    · exact (encode_eoi_eq_code_iff hm).mpr ‹_›
    · split
      · split
        · exact encode_lit_eq_code_iff.mpr (toNat_setWidth_of_lt_two_pow hm ‹_›).symm
        · rfl
      · split <;> rfl

/-- The class an admitted code is written from is the class its value decodes to: the value lies where only that class's test
holds. -/
theorem decodeCode_of_encode {ctx : CodeContext} (hm : ctx.m ≤ 8) (hn : 2 ^ ctx.m + 2 ≤ ctx.next) {c : BitVec 12} {i : Instr}
    (he : encode i = .code c) (ha : ctx.admits i = true) : decodeCode ctx c = i := by
  cases i with
  | compress | decompress | blitBgra | blitRgba | decblitBgra | decblitRgba | reset => cases he
  | clear m =>
    obtain rfl := (ctx.admits_clear m).mp ha
    exact if_pos ((encode_clear_eq_code_iff hm).mp he)
  | eoi m =>
    obtain rfl := (ctx.admits_eoi m).mp ha
    have value := (encode_eoi_eq_code_iff hm).mp he
    rw [decodeCode, if_neg (by omega), if_pos value]
  | lit m symbol =>
    obtain ⟨rfl, lt⟩ := (ctx.admits_lit m symbol).mp ha
    have value := encode_lit_eq_code_iff.mp he
    have same : c.setWidth 8 = symbol :=
      BitVec.eq_of_toNat_eq ((toNat_setWidth_of_lt_two_pow hm (value ▸ lt)).trans value)
    rw [decodeCode, if_neg (by omega), if_neg (by omega), if_pos (by omega), if_pos (by omega), same]
  | ref code =>
    cases he
    obtain ⟨first, below⟩ := (ctx.admits_ref c).mp ha
    rw [decodeCode, if_neg (by omega), if_neg (by omega), if_pos below, if_neg (by omega)]
  | kwk code =>
    cases he
    obtain ⟨first, atNext, prev⟩ := (ctx.admits_kwk c).mp ha
    rw [decodeCode, if_neg (by omega), if_neg (by omega), if_neg (by omega), if_pos ⟨atNext, prev⟩]
  | invalid code =>
    cases he
    obtain ⟨first, above⟩ := (ctx.admits_invalid c).mp ha
    have notKwk : ¬ (c.toNat = ctx.next ∧ ctx.hasPrev = true) := by
      rintro ⟨atNext, prev⟩
      rcases above with gt | ⟨-, noPrev⟩
      · omega
      · simp [prev] at noPrev
    rw [decodeCode, if_neg (by omega), if_neg (by omega), if_neg (by omega), if_neg notKwk]

/-- The class of a code is the one class written as its value that the context admits. -/
theorem decodeCode_eq_iff {ctx : CodeContext} (h : ctx.wf = true) {c : BitVec 12} {i : Instr} :
    decodeCode ctx c = i ↔ encode i = .code c ∧ ctx.admits i = true := by
  obtain ⟨⟨-, hm⟩, hn, -⟩ := ctx.wf_iff.mp h
  refine ⟨?_, fun ⟨he, ha⟩ => decodeCode_of_encode hm hn he ha⟩
  rintro rfl
  exact ⟨encode_decodeCode hm c, admits_decodeCode hn hm c⟩

/-! ### Both encodings -/

/-- Decoding inverts encoding, on exactly the instructions the context can offer. -/
theorem decode_eq_ok_iff {ctx : CodeContext} (h : ctx.wf = true) {e : Encoded} {i : Instr} :
    decode ctx e = .ok i ↔ encode i = e ∧ (i.isCommand = true ∨ ctx.admits i = true) := by
  cases e with
  | command word =>
    rw [decode, decodeCommand_eq_ok_iff]
    exact ⟨fun he => ⟨he, .inl (isCommand_of_encode_command he)⟩, And.left⟩
  | code c =>
    rw [decode, Except.ok.injEq, decodeCode_eq_iff h]
    refine and_congr_right fun he => ?_
    simp [isCommand_of_encode_code he]

/-- Settles O4: `decode_eq_ok_iff` read from right to left. -/
theorem decodeAfterEncode : Obligations.DecodeAfterEncode := fun _ _ hctx _ offered =>
  (decode_eq_ok_iff hctx).mpr ⟨rfl, offered⟩

/-- Settles O5: `decode_eq_ok_iff` read from left to right; an admitted code is well-formed. -/
theorem encodeAfterDecode : Obligations.EncodeAfterDecode := by
  intro ctx e i hctx hd
  obtain ⟨he, offered⟩ := (decode_eq_ok_iff hctx).mp hd
  obtain ⟨hm, -⟩ := ctx.wf_iff.mp hctx
  exact ⟨he, offered.elim wf_of_isCommand (wf_of_admits hm), offered⟩

/-- Settles O2: a word decodes exactly to the command whose word it is, for each of the thirteen instructions. -/
theorem sevenCommandWords : Obligations.SevenCommandWords := by
  intro word i
  rw [decodeCommand_eq_ok_iff]
  cases i with
  | compress | decompress | blitBgra | blitRgba | decblitBgra | decblitRgba | reset => simp [encode, eq_comm]
  | lit | clear | eoi | ref | kwk | invalid => simp [encode]

/-- Settles O3: each class by the value it is written as and what the context admits; a code at or above the next code is a
table code, since the next code is one. -/
theorem codeClassesByValueAndCounter : Obligations.CodeClassesByValueAndCounter := by
  intro ctx c hctx
  obtain ⟨⟨-, hm⟩, hn, -⟩ := ctx.wf_iff.mp hctx
  refine ⟨?clear, ?eoi, ?lit, ?ref, ?kwk, ?invalid⟩ <;> simp only [decodeCode_eq_iff hctx]
  case clear => simp [encode_clear_eq_code_iff hm]
  case eoi => simp [encode_eoi_eq_code_iff hm]
  case lit =>
    simp only [encode_lit_eq_code_iff, CodeContext.admits_lit, true_and]
    constructor
    · rintro ⟨symbol, same, -, lt⟩
      exact same ▸ lt
    · intro lt
      have same := toNat_setWidth_of_lt_two_pow hm lt
      exact ⟨c.setWidth 8, same, same.symm, same.symm ▸ lt⟩
  case ref => simp
  case kwk =>
    simp only [encode_kwk, CodeContext.admits_kwk, true_and]
    exact and_iff_right_of_imp fun ⟨atNext, _⟩ => atNext ▸ hn
  case invalid =>
    simp only [encode_invalid, CodeContext.admits_invalid, true_and]
    exact and_iff_right_of_imp fun above => by omega

/-- Settles O1: the ten words decoded, one by one. -/
theorem sampleWordsDecode : Obligations.SampleWordsDecode := by
  unfold Obligations.SampleWordsDecode
  decide

end Sys2Proof
end

section
/-! PROOF. The reference stream (30_encoding.md R93, 20_memory.md R64): the bits of its data bytes, and which byte stands at which
offset of its sub-blocks. -/

namespace Sys2Proof.Claims

/-! ### Bits and bytes -/

/-- A sum of distinct powers of two has the bits of its summands. -/
theorem testBit_sum_two_pow (f : Nat → Bool) (n i : Nat) :
    (((List.range n).map fun j => if f j then 2 ^ j else 0).sum).testBit i = (decide (i < n) && f i) := by
  induction n generalizing i with
  | zero => simp
  | succ n ih =>
    have below := Nat.lt_pow_two_of_testBit _ fun i (ge : n ≤ i) => by rw [ih, decide_eq_false (by omega), Bool.false_and]
    have split : (((List.range (n + 1)).map fun j => if f j then 2 ^ j else 0).sum) =
        2 ^ n * (f n).toNat + ((List.range n).map fun j => if f j then 2 ^ j else 0).sum := by
      rw [List.range_succ, List.map_append, List.sum_append, Nat.add_comm]
      cases h : f n <;> simp [h]
    rw [split, Nat.testBit_two_pow_mul_add _ below, ih]
    by_cases lt : i < n
    · simp [lt, Nat.lt_succ_of_lt lt]
    · by_cases eq : i = n
      · subst eq; cases f i <;> simp
      · have out : (f n).toNat.testBit (i - n) = false :=
          Nat.testBit_lt_two_pow (Nat.lt_of_lt_of_le (Bool.toNat_lt _) (Nat.pow_le_pow_right (n := 2) (by decide) (by omega : 1 ≤ i - n)))
        have far : ¬ i < n + 1 := by omega
        simp [lt, far, out]

/-- Bit j of data byte k is bit 8k + j of the stream (20_memory.md R64). -/
theorem getLsbD_dataByte (bits : List Bool) (k : Nat) {j : Nat} (h : j < 8) :
    (dataByte bits k).getLsbD j = bits.getD (8 * k + j) false := by
  rw [dataByte, BitVec.getLsbD_ofNat, testBit_sum_two_pow (fun j => bits.getD (8 * k + j) false)]
  simp [h]

/-- The low byte of an accumulator that holds the bits from 8k on is data byte k. -/
theorem ofNat_eq_dataByte {bits : List Bool} {k acc : Nat} (h : ∀ j < 8, acc.testBit j = bits.getD (8 * k + j) false) :
    BitVec.ofNat 8 acc = dataByte bits k := by
  refine BitVec.eq_of_getLsbD_eq fun j hj => ?_
  rw [getLsbD_dataByte bits k hj, BitVec.getLsbD_ofNat, h j hj]
  simp [hj]

@[simp] theorem length_packBits (bits : List Bool) : (packBits bits).length = (bits.length + 7) / 8 := by
  simp [packBits]

theorem packBits_getElem? {bits : List Bool} {k : Nat} (h : 8 * k < bits.length) :
    (packBits bits)[k]? = some (dataByte bits k) := by
  have lt : k < (bits.length + 7) / 8 := by omega
  simp [packBits, lt]

/-- The bits of one code (20_memory.md R64). -/
def codeBits (c width : Nat) : List Bool := (List.range width).map fun i => c.testBit i

@[simp] theorem length_codeBits (c width : Nat) : (codeBits c width).length = width := by simp [codeBits]

theorem codeBits_getElem? (c : Nat) {width i : Nat} (h : i < width) : (codeBits c width)[i]? = some (c.testBit i) := by
  simp [codeBits, h]

@[simp] theorem bitsOf_nil : bitsOf [] = [] := rfl

@[simp] theorem bitsOf_cons (c width : Nat) (codes : List (Nat × Nat)) :
    bitsOf ((c, width) :: codes) = codeBits c width ++ bitsOf codes := rfl

/-! ### Sub-blocks -/

/-- The first sub-block and the rest (30_encoding.md R93). -/
theorem subBlocks_of_ne_nil {data : List Byte} (h : data ≠ []) :
    subBlocks data = BitVec.ofNat 8 (min 255 data.length) :: data.take 255 ++ subBlocks (data.drop 255) := by
  have pos := List.length_pos_iff.mpr h
  have count : (data.length + 254) / 255 = (data.length - 255 + 254) / 255 + 1 := by omega
  unfold subBlocks
  rw [count, List.range_succ_eq_map, List.flatMap_cons, List.flatMap_map]
  have later (j : Nat) : 255 * (j + 1) = 255 + 255 * j := by omega
  simp [later, List.drop_drop]

/-- Sub-blocks of 255 bytes: induction over them. -/
theorem subBlocks_induction {P : List Byte → Prop} (nil : P []) (block : ∀ data, data ≠ [] → P (data.drop 255) → P data)
    (data : List Byte) : P data := by
  induction hn : data.length using Nat.strong_induction_on generalizing data with
  | _ n ih =>
    by_cases h : data = []
    · exact h ▸ nil
    · have pos := List.length_pos_iff.mpr h
      exact block data h (ih _ (by rw [← hn, List.length_drop]; omega) _ rfl)

theorem length_subBlocks (data : List Byte) :
    (subBlocks data).length = data.length + (data.length + 254) / 255 + 1 := by
  induction data using subBlocks_induction with
  | nil => rfl
  | block data h ih =>
    have pos := List.length_pos_iff.mpr h
    rw [subBlocks_of_ne_nil h, List.length_append, ih, List.length_cons, List.length_take, List.length_drop]
    omega

/-- Data byte k stands behind the length byte of its sub-block. -/
theorem subBlocks_data (data : List Byte) {k : Nat} (h : k < data.length) :
    (subBlocks data)[256 * (k / 255) + 1 + k % 255]? = data[k]? := by
  induction data using subBlocks_induction generalizing k with
  | nil => exact absurd h (Nat.not_lt_zero k)
  | block data ne ih =>
    rw [subBlocks_of_ne_nil ne]
    by_cases first : k < 255
    · have pos : 256 * (k / 255) + 1 + k % 255 = k + 1 := by omega
      rw [pos, List.getElem?_append_left (by simp; omega), List.getElem?_cons_succ, List.getElem?_take_of_lt first]
    · have len : (BitVec.ofNat 8 (min 255 data.length) :: data.take 255).length = 256 := by simp; omega
      have pos : 256 * (k / 255) + 1 + k % 255 - 256 = 256 * ((k - 255) / 255) + 1 + (k - 255) % 255 := by omega
      have back : 255 + (k - 255) = k := by omega
      rw [List.getElem?_append_right (by omega), len, pos, ih (by rw [List.length_drop]; omega), List.getElem?_drop, back]

/-- The length byte of sub-block j, or the terminator behind the last full one. -/
theorem subBlocks_length (data : List Byte) {j : Nat} (h : 255 * j ≤ data.length) :
    (subBlocks data)[256 * j]? = some (BitVec.ofNat 8 (min 255 (data.length - 255 * j))) := by
  induction data using subBlocks_induction generalizing j with
  | nil =>
    obtain rfl : j = 0 := by simpa using h
    rfl
  | block data ne ih =>
    rw [subBlocks_of_ne_nil ne]
    cases j with
    | zero => rfl
    | succ j =>
      have len : (BitVec.ofNat 8 (min 255 data.length) :: data.take 255).length = 256 := by simp; omega
      have pos : 256 * (j + 1) - 256 = 256 * j := by omega
      have left : data.length - 255 - 255 * j = data.length - 255 * (j + 1) := by omega
      rw [List.getElem?_append_right (by omega), len, pos, ih (by rw [List.length_drop]; omega), List.length_drop, left]

/-- The terminator is the last byte. -/
theorem subBlocks_last (data : List Byte) : (subBlocks data)[data.length + (data.length + 254) / 255]? = some 0 := by
  have last : (subBlocks data).getLast? = some 0 := by simp [subBlocks]
  rwa [List.getLast?_eq_getElem?, length_subBlocks] at last

end Sys2Proof.Claims
end

section
/-! PROOF. What emitting writes (40_lzw_compress.md R129 to R135), against the reference stream: every write is the stream's byte
at its address, and the first one not below DST_SIZE leaves the bytes that fit. -/

namespace Sys2Proof.Machine

open Sys2Proof.Claims

/-! ### The job of one COMPRESS -/

/-- What one COMPRESS has to write: the stream of minimum code size `m` with the code bits `bits`, from the cursor on, into a DST
of `size` bytes that held `dst`. -/
structure Job where
  size : Nat
  cursor : Nat
  m : Nat
  bits : List Bool
  dst : Memory
  starts : cursor < size

namespace Job

variable (J : Job)

/-- The data bytes of the sub-blocks. -/
def data : List Byte := packBits J.bits

/-- The whole stream (30_encoding.md R93). -/
def stream : List Byte := BitVec.ofNat 8 J.m :: subBlocks J.data

/-- The bytes of DST from the cursor on. -/
def room : Nat := J.size - J.cursor

/-- DST reads as the stream at the addresses in `S`, and elsewhere as before. -/
def Reads (d : Memory) (S : Nat → Prop) : Prop :=
  ∀ x, (S x → Memory.read d x = J.stream[x - J.cursor]?) ∧ (¬ S x → Memory.read d x = Memory.read J.dst x)

/-- What is written where the cursor is `p` and the length byte at `sb` is reserved (40_lzw_compress.md R130). -/
def below (p sb x : Nat) : Prop := J.cursor ≤ x ∧ x < p ∧ x ≠ sb

/-- The cursor registers and DST after `n` data bytes: everything below c_p is the stream's, but for the length byte reserved at
c_sb (40_lzw_compress.md R130). -/
structure At (n : Nat) (w : Lzwc) (d : Memory) : Prop where
  sb : w.sb = J.cursor + 1 + 256 * (n / 255)
  p : w.p = w.sb + 1 + n % 255
  sb_bound : w.sb ≤ J.size
  p_bound : w.p ≤ J.size ∨ w.p = w.sb + 1
  reads : J.Reads d (J.below w.p w.sb)

/-- What is written where DST is too small: the bytes that fit, but for the length byte of the sub-block that is open at the end
of DST, if more than the terminator does not fit (40_lzw_compress.md R135). -/
def fitting (x : Nat) : Prop :=
  J.cursor ≤ x ∧ x < J.size ∧ ¬ ((x - J.cursor) % 256 = 1 ∧ J.room < x - J.cursor + 256 ∧ J.room + 1 < J.stream.length)

/-- The stream did not fit: the cursor `p`, DST, and the address `a` of the first write not below its size
(40_lzw_compress.md R132, R135). -/
structure OutOfRoom (p : Nat) (d : Memory) (a : Nat) : Prop where
  short : J.size < J.cursor + J.stream.length
  cursor_eq : p = J.cursor + if J.room % 256 = 1 then J.room + 1 else J.room
  address : a = if J.room % 256 = 1 ∧ J.room + 1 < J.stream.length then J.size + 1 else J.size
  reads : J.Reads d J.fitting

/-- The whole stream is written, and ends below `p` (40_lzw_compress.md R133, R134). -/
structure Written (p : Nat) (d : Memory) : Prop where
  cursor_eq : p = J.cursor + J.stream.length
  fits : p ≤ J.size
  reads : J.Reads d fun x => J.cursor ≤ x ∧ x < p

/-! ### What DST holds at the end, by offsets from the cursor -/

section Ends

variable {J} {p a j x : Nat} {d : Memory}

theorem Written.read (h : J.Written p d) (hj : j < J.stream.length) : Memory.read d (J.cursor + j) = J.stream[j]? := by
  have cursor := h.cursor_eq
  rw [(h.reads _).1 (by omega), Nat.add_sub_cancel_left]

theorem Written.outside (h : J.Written p d) (hx : x < J.cursor ∨ J.cursor + J.stream.length ≤ x) :
    Memory.read d x = Memory.read J.dst x := by
  have cursor := h.cursor_eq
  exact (h.reads x).2 (by omega)

theorem OutOfRoom.read (h : J.OutOfRoom p d a) (hj : j < J.room) :
    Memory.read d (J.cursor + j) =
      if j % 256 = 1 ∧ J.room < j + 256 ∧ J.room + 1 < J.stream.length then Memory.read J.dst (J.cursor + j)
      else J.stream[j]? := by
  have offset : J.cursor + j - J.cursor = j := Nat.add_sub_cancel_left ..
  have inside : J.cursor + j < J.size := Nat.add_lt_of_lt_sub' hj
  split
  · exact (h.reads _).2 fun ⟨_, _, closed⟩ => closed (by rwa [offset])
  · rw [(h.reads _).1 ⟨Nat.le_add_right .., inside, by rwa [offset]⟩, offset]

theorem OutOfRoom.outside (h : J.OutOfRoom p d a) (hx : x < J.cursor ∨ J.cursor + J.room ≤ x) :
    Memory.read d x = Memory.read J.dst x := by
  have start := J.starts
  have room : J.room = J.size - J.cursor := rfl
  exact (h.reads x).2 fun ⟨above, below, _⟩ => by omega

end Ends

/-! ### The stream at its offsets -/

theorem length_stream : J.stream.length = J.data.length + (J.data.length + 254) / 255 + 2 := by
  rw [stream, List.length_cons, length_subBlocks]

theorem length_data : J.data.length = (J.bits.length + 7) / 8 := length_packBits J.bits

theorem data_getElem? {n : Nat} (h : 8 * n < J.bits.length) : J.data[n]? = some (dataByte J.bits n) := packBits_getElem? h

variable {J} {n : Nat} {w : Lzwc} {d : Memory}

theorem At.stream_data (h : J.At n w d) (lt : n < J.data.length) : J.stream[w.p - J.cursor]? = some J.data[n] := by
  have offset : w.p - J.cursor = 256 * (n / 255) + 1 + n % 255 + 1 := by have := h.sb; have := h.p; omega
  rw [offset, stream, List.getElem?_cons_succ, subBlocks_data _ lt, List.getElem?_eq_getElem lt]

theorem At.stream_length (h : J.At n w d) (le : n ≤ J.data.length) :
    J.stream[w.sb - J.cursor]? = some (BitVec.ofNat 8 (min 255 (J.data.length - 255 * (n / 255)))) := by
  have offset : w.sb - J.cursor = 256 * (n / 255) + 1 := by have := h.sb; omega
  rw [offset, stream, List.getElem?_cons_succ, subBlocks_length _ (by omega)]

theorem stream_last : J.stream[J.stream.length - 1]? = some 0 := by
  rw [length_stream, Nat.add_sub_assoc (by decide), stream, List.getElem?_cons_succ, subBlocks_last]

/-! ### Writing -/

/-- Writing the stream's byte at its address. -/
theorem Reads.write {S : Nat → Prop} (h : J.Reads d S) {a : Nat} {b : Byte} (hb : J.stream[a - J.cursor]? = some b) :
    J.Reads (Memory.write d a b) fun x => x = a ∨ S x := by
  intro x
  rw [Memory.read_write]
  constructor
  · intro hx
    split
    · rename_i e; rw [e, hb]
    · exact (h x).1 (hx.resolve_left ‹_›)
  · intro hx
    rw [if_neg fun e => hx (.inl e)]
    exact (h x).2 fun s => hx (.inr s)

theorem Reads.congr {S S' : Nat → Prop} (h : J.Reads d S) (hs : ∀ x, S x ↔ S' x) : J.Reads d S' :=
  fun x => ⟨fun s => (h x).1 ((hs x).mpr s), fun s => (h x).2 fun k => s ((hs x).mp k)⟩

/-- A data byte that is not below DST_SIZE. -/
theorem At.outOfRoom_data (h : J.At n w d) (lt : n < J.data.length) (out : J.size ≤ w.p) : J.OutOfRoom w.p d w.p := by
  obtain ⟨sb, p, sb_bound, p_bound, reads⟩ := h
  have len := J.length_stream
  have start := J.starts
  have room : J.room = J.size - J.cursor := rfl
  refine ⟨by omega, by split <;> omega, by split <;> omega, reads.congr fun x => ?_⟩
  simp only [below, fitting]; omega

/-- The result of emitting: registers and DST that satisfy `Q`, or the first write that is out of bounds. -/
def Follows (J : Job) (e : Emit) (Q : Lzwc → Memory → Prop) : Prop :=
  match e with
  | .ok w d => Q w d
  | .bounds w d a => J.OutOfRoom w.p d a

variable {e : Emit} {Q R : Lzwc → Memory → Prop}

theorem Follows.bind {k : Lzwc → Memory → Emit} (h : J.Follows e Q) (hk : ∀ w d, Q w d → J.Follows (k w d) R) :
    J.Follows (e.bind k) R := by
  cases e with
  | ok w d => exact hk w d h
  | bounds w d a => exact h

theorem Follows.mono (h : J.Follows e Q) (hq : ∀ w d, Q w d → R w d) : J.Follows e R := by
  cases e with
  | ok w d => exact hq w d h
  | bounds w d a => exact h

/-- A write below DST_SIZE goes on, any other is out of bounds (20_memory.md R66). -/
theorem follows_putAt {a : Nat} {b : Byte} (hlt : a < J.size → Q w (Memory.write d a b))
    (hge : J.size ≤ a → J.OutOfRoom w.p d a) : J.Follows (putAt J.size a b w d) Q := by
  unfold putAt
  split
  · exact hlt ‹_›
  · exact hge (Nat.not_lt.mp ‹_›)

/-- PutByte (40_lzw_compress.md R130) of the next data byte. -/
theorem At.putByte (h : J.At n w d) (lt : n < J.data.length) :
    J.Follows (putByte J.size J.data[n] w d) fun w' d' =>
      J.At (n + 1) w' d' ∧ w.Same w' ∧ w'.acc = w.acc ∧ w'.nb = w.nb := by
  have reads := h.reads.write (h.stream_data lt)
  have length := h.stream_length (Nat.le_of_lt lt)
  refine Follows.bind (Q := fun w' d' => w' = w ∧ w.p < J.size ∧ d' = Memory.write d w.p J.data[n])
    (follows_putAt (fun lt => ⟨rfl, lt, rfl⟩) (h.outOfRoom_data lt)) ?_
  rintro w' d' ⟨rfl, inside, rfl⟩
  obtain ⟨sb, p, sb_bound, p_bound, -⟩ := h
  unfold closeFull
  simp only
  split
  · rename_i full
    have whole : min 255 (J.data.length - 255 * (n / 255)) = 255 := by omega
    rw [whole] at length
    refine Follows.bind (Q := fun v d' => v = { w' with p := w'.p + 1 } ∧
      d' = Memory.write (Memory.write d w'.p J.data[n]) w'.sb 255) (follows_putAt (fun _ => ⟨rfl, rfl⟩) (by omega)) ?_
    rintro v d' ⟨rfl, rfl⟩
    refine ⟨⟨by simp only; omega, by simp only; omega, by simp only; omega, .inr rfl, (reads.write length).congr fun x => ?_⟩,
      ⟨rfl, rfl, rfl, rfl, rfl, rfl⟩, rfl, rfl⟩
    simp only [below]; omega
  · rename_i open'
    refine ⟨⟨by simp only; omega, by simp only; omega, sb_bound, .inl (by simp only; omega), reads.congr fun x => ?_⟩,
      ⟨rfl, rfl, rfl, rfl, rfl, rfl⟩, rfl, rfl⟩
    simp only [below]; omega

/-- Closing the stream behind the last data byte (40_lzw_compress.md R133). -/
theorem At.closeStream (h : J.At J.data.length w d) :
    J.Follows (closeStream J.size w d) fun w' d' => J.Written w'.p d' := by
  have length := h.stream_length (Nat.le_refl _)
  have last := J.stream_last
  have len := J.length_stream
  have start := J.starts
  have room : J.room = J.size - J.cursor := rfl
  obtain ⟨sb, p, sb_bound, p_bound, reads⟩ := h
  unfold Machine.closeStream
  split
  · rename_i empty
    have zero : min 255 (J.data.length - 255 * (J.data.length / 255)) = 0 := by omega
    rw [zero] at length
    refine follows_putAt (fun inside => ⟨by omega, by omega, (reads.write length).congr fun x => ?_⟩) fun out => ?_
    · simp only [below]; omega
    · refine ⟨by omega, by split <;> omega, by split <;> omega, reads.congr fun x => ?_⟩
      simp only [below, fitting]; omega
  · rename_i data
    have size : min 255 (J.data.length - 255 * (J.data.length / 255)) = w.p - w.sb - 1 := by omega
    rw [size] at length
    have terminator : J.stream[w.p - J.cursor]? = some 0 := by
      rw [← last]; congr 1; omega
    refine Follows.bind (Q := fun v d' => v = w ∧ d' = Memory.write d w.sb (BitVec.ofNat 8 (w.p - w.sb - 1)))
      (follows_putAt (fun _ => ⟨rfl, rfl⟩) (by omega)) ?_
    rintro v d' ⟨rfl, rfl⟩
    refine Follows.bind (Q := fun u d' => u = v ∧ v.p < J.size ∧
      d' = Memory.write (Memory.write d v.sb (BitVec.ofNat 8 (v.p - v.sb - 1))) v.p 0)
      (follows_putAt (fun inside => ⟨rfl, inside, rfl⟩) fun out => ?_) ?_
    · refine ⟨by omega, by split <;> omega, by split <;> omega, (reads.write length).congr fun x => ?_⟩
      simp only [below, fitting]; omega
    · rintro u d' ⟨rfl, inside, rfl⟩
      refine ⟨by simp only; omega, inside, ((reads.write length).write terminator).congr fun x => ?_⟩
      simp only [below]; omega

end Job
end Sys2Proof.Machine
end

section
/-! PROOF. LZWC emits the bits of the reference's codes (40_lzw_compress.md R123 to R131): what is left to emit is, between two
symbols, the reference's codes for the symbols that are left. -/

namespace Sys2Proof.Machine

open Sys2Proof.Claims

namespace Job

/-! ### The accumulator -/

/-- With `n` data bytes written and `codes` left to emit, c_acc and c_nb hold the bits in between (40_lzw_compress.md R129). -/
structure Packing (J : Job) (n : Nat) (codes : List (Nat × Nat)) (w : Lzwc) : Prop where
  total : 8 * n + w.nb + (bitsOf codes).length = J.bits.length
  rest : J.bits.drop (8 * n + w.nb) = bitsOf codes
  held : ∀ i, w.acc.testBit i = (decide (i < w.nb) && J.bits.getD (8 * n + i) false)

/-- Between two codes: fewer than eight bits are held, and `codes` are left to emit. -/
def Going (J : Job) (codes : List (Nat × Nat)) (w : Lzwc) (d : Memory) : Prop :=
  w.nb ≤ 7 ∧ ∃ n, J.At n w d ∧ J.Packing n codes w

variable {J : Job} {n : Nat} {w : Lzwc} {d : Memory} {codes : List (Nat × Nat)}

theorem At.of_registers {v : Lzwc} (h : J.At n w d) (hsb : v.sb = w.sb := by rfl) (hp : v.p = w.p := by rfl) : J.At n v d := by
  obtain ⟨sb, p, sb_bound, p_bound, reads⟩ := h
  constructor <;> simp only [hsb, hp] <;> assumption

/-- The low byte held is the next data byte, if it is a whole one or the last one (40_lzw_compress.md R131). -/
theorem Packing.byte (h : J.Packing n codes w) (some : 0 < w.nb) (whole : 8 ≤ w.nb ∨ codes = []) :
    ∃ lt : n < J.data.length, BitVec.ofNat 8 w.acc = J.data[n] := by
  have total := h.total
  have len := J.length_data
  have lt : n < J.data.length := by omega
  have byte : dataByte J.bits n = J.data[n] := by
    rw [← Option.some.injEq, ← J.data_getElem? (by omega), List.getElem?_eq_getElem]
  refine ⟨lt, ?_⟩
  refine (ofNat_eq_dataByte fun j hj => ?_).trans byte
  rw [h.held]
  by_cases held : j < w.nb
  · simp [held]
  · obtain rfl : codes = [] := whole.resolve_left (by omega)
    rw [bitsOf_nil, List.length_nil] at total
    rw [List.getD_eq_default _ _ (by omega)]
    simp [held]

/-- A code enters above the bits held. -/
theorem Packing.push {c width : Nat} (h : J.Packing n ((c, width) :: codes) w) (hc : c < 2 ^ width) :
    J.Packing n codes { w with acc := w.acc ||| (c <<< w.nb), nb := w.nb + width } := by
  obtain ⟨total, rest, held⟩ := h
  rw [bitsOf_cons] at total rest
  rw [List.length_append, length_codeBits] at total
  refine ⟨by simp only; omega, ?_, fun i => ?_⟩
  · have skip := congrArg (List.drop width) rest
    rw [List.drop_drop, List.drop_left' (length_codeBits c width)] at skip
    rw [← skip, Nat.add_assoc]
  · simp only [Nat.testBit_or, Nat.testBit_shiftLeft, held]
    by_cases low : i < w.nb
    · have inside : i < w.nb + width := by omega
      simp [low, inside]
    · by_cases inside : i < w.nb + width
      · have offset : 8 * n + i = 8 * n + w.nb + (i - w.nb) := by omega
        have small : i - w.nb < width := by omega
        have bit : J.bits[8 * n + i]? = some (c.testBit (i - w.nb)) := by
          rw [offset, ← List.getElem?_drop, rest, List.getElem?_append_left (by simpa using small), codeBits_getElem? c small]
        have ge : w.nb ≤ i := by omega
        simp [low, inside, ge, List.getD_eq_getElem?_getD, bit]
      · have above : c.testBit (i - w.nb) = false :=
          Nat.testBit_lt_two_pow (Nat.lt_of_lt_of_le hc (Nat.pow_le_pow_right (by decide) (by omega)))
        simp [low, inside, above]

/-- A byte leaves the accumulator. -/
theorem Packing.shift (h : J.Packing n codes w) (ge : 8 ≤ w.nb) :
    J.Packing (n + 1) codes { w with acc := w.acc >>> 8, nb := w.nb - 8 } := by
  obtain ⟨total, rest, held⟩ := h
  have same : 8 * (n + 1) + (w.nb - 8) = 8 * n + w.nb := by omega
  refine ⟨by simp only [same]; exact total, by simp only [same]; exact rest, fun i => ?_⟩
  have at' : 8 * (n + 1) + i = 8 * n + (8 + i) := by omega
  have lt : (i < w.nb - 8) ↔ (8 + i < w.nb) := by omega
  simp only [Nat.testBit_shiftRight, held, at', lt]

theorem Packing.of_registers {v : Lzwc} (h : J.Packing n codes w) (hacc : v.acc = w.acc) (hnb : v.nb = w.nb) :
    J.Packing n codes v := by
  obtain ⟨total, rest, held⟩ := h
  constructor <;> simp only [hacc, hnb] <;> assumption

/-! ### Emitting codes -/

/-- The loop of EmitCode (40_lzw_compress.md R129), given enough turns. -/
theorem follows_drain (fuel : Nat) (hf : w.nb ≤ fuel) (ha : J.At n w d) (hp : J.Packing n codes w) :
    J.Follows (drain J.size fuel w d) fun w' d' => w.Same w' ∧ J.Going codes w' d' := by
  induction fuel generalizing n w d with
  | zero => exact ⟨.refl w, by omega, n, ha, hp⟩
  | succ fuel ih =>
    unfold drain
    split
    · rename_i ge
      obtain ⟨lt, byte⟩ := hp.byte (by omega) (.inl ge)
      rw [byte]
      refine (ha.putByte lt).bind fun w' d' ⟨ha', same, acc, nb⟩ => ?_
      have packed := (hp.of_registers acc nb).shift (nb ▸ ge)
      refine (ih (by simp only; omega) ha'.of_registers packed).mono fun v d'' ⟨same', going⟩ => ⟨?_, going⟩
      exact same.trans ⟨same'.m, same'.width, same'.next, same'.pfx, same'.i, same'.tab⟩
    · exact ⟨.refl w, by omega, n, ha, hp⟩

/-- EmitCode (40_lzw_compress.md R129) of the next code, which fits the width. -/
theorem Going.emitCode {c : Nat} (h : J.Going ((c, w.width) :: codes) w d) (hc : c < 2 ^ w.width) :
    J.Follows (emitCode J.size c w d) fun w' d' => w.Same w' ∧ J.Going codes w' d' := by
  obtain ⟨-, n, ha, hp⟩ := h
  refine (follows_drain _ (Nat.le_refl _) ha.of_registers (hp.push hc)).mono fun v d' ⟨same, going⟩ => ⟨?_, going⟩
  exact ⟨same.m, same.width, same.next, same.pfx, same.i, same.tab⟩

/-- The final flush (40_lzw_compress.md R131) writes the last data byte. -/
theorem Going.flush (h : J.Going [] w d) : J.Follows (flush J.size w d) fun w' d' => J.At J.data.length w' d' := by
  obtain ⟨few, n, ha, hp⟩ := h
  have total := hp.total
  have len := J.length_data
  rw [bitsOf_nil, List.length_nil] at total
  unfold Machine.flush
  split
  · rename_i held
    obtain ⟨lt, byte⟩ := hp.byte held (.inr rfl)
    rw [byte]
    refine (ha.putByte lt).bind fun w' d' ⟨ha', _, _, _⟩ => ?_
    have all : n + 1 = J.data.length := by omega
    exact (all ▸ ha').of_registers
  · have all : n = J.data.length := by omega
    exact all ▸ ha

/-- Everything after the last symbol (40_lzw_compress.md R128). -/
theorem Going.emitFinish (h : J.Going [(w.pfx, w.width), (2 ^ w.m + 1, w.width)] w d) (hp : w.pfx < 2 ^ w.width)
    (he : eoiCode w.m < 2 ^ w.width) : J.Follows (emitFinish J.size w d) fun w' d' => J.Written w'.p d' := by
  refine (h.emitCode hp).bind fun w1 d1 ⟨same, going⟩ => ?_
  have eoi : J.Going [(eoiCode w1.m, w1.width)] w1 d1 := by rw [same.m, same.width]; exact going
  refine (eoi.emitCode (by rw [same.m, same.width]; exact he)).bind fun w2 d2 ⟨_, going⟩ => ?_
  exact going.flush.bind fun w3 d3 ha => ha.closeStream

end Job

/-! ### The codes of the symbols -/

/-- The table as the reference has it (10_state.md R47). -/
def pairs (tab : List CEntry) : List ((Nat × Nat) × Nat) := tab.map fun e => ((e.pfx, e.symbol), e.code)

theorem lookup_pairs (tab : List CEntry) (pfx symbol : Nat) : (pairs tab).lookup (pfx, symbol) = lookup tab pfx symbol := by
  induction tab with
  | nil => rfl
  | cons e t ih =>
    rw [pairs, List.map_cons, List.lookup_cons, lookup]
    by_cases h : e.pfx = pfx ∧ e.symbol = symbol
    · obtain ⟨rfl, rfl⟩ := h; simp
    · have : ((pfx, symbol) == (e.pfx, e.symbol)) = false := by
        rw [beq_eq_false_iff_ne]; rintro k; cases k; exact h ⟨rfl, rfl⟩
      rw [this, if_neg h]; exact ih

/-- The codes left to emit in the registers `w` when the symbols `ks` are left to read (40_lzw_compress.md R124 to R128). -/
def Lzwc.codesLeft (w : Lzwc) (ks : List Nat) : List (Nat × Nat) := codesAfter w.m w.next w.width w.pfx (pairs w.tab) ks

theorem Lzwc.codesLeft_congr {w w' : Lzwc} (h : w.Same w') (ks : List Nat) : w'.codesLeft ks = w.codesLeft ks := by
  unfold codesLeft; rw [h.m, h.next, h.width, h.pfx, h.tab]

theorem Lzwc.codesLeft_nil (w : Lzwc) : w.codesLeft [] = [(w.pfx, w.width), (2 ^ w.m + 1, w.width)] := by
  rw [codesLeft, codesAfter]

section Symbols

variable {w : Lzwc} {k : Nat} {ks : List Nat}

/-- A hit (40_lzw_compress.md R125). -/
theorem Lzwc.codesLeft_hit {code : Nat} (h : lookup w.tab w.pfx k = some code) :
    w.codesLeft (k :: ks) = (w.advance code).codesLeft ks := by
  rw [codesLeft, codesAfter, lookup_pairs, h]; rfl

/-- A miss with the table full (40_lzw_compress.md R127). -/
theorem Lzwc.codesLeft_full (h : lookup w.tab w.pfx k = none) (full : w.next = maxCodes) :
    w.codesLeft (k :: ks) = (w.pfx, w.width) :: (clearCode w.m, w.width) :: (w.resetTable.advance k).codesLeft ks := by
  rw [codesLeft, codesAfter, lookup_pairs, h]
  simp only [if_pos (show w.next = 4096 from full)]; rfl

/-- A miss that inserts (40_lzw_compress.md R126). -/
theorem Lzwc.codesLeft_miss (h : lookup w.tab w.pfx k = none) (room : w.next ≠ maxCodes) :
    w.codesLeft (k :: ks) = (w.pfx, w.width) :: ((w.insert w.pfx k).advance k).codesLeft ks := by
  rw [codesLeft, codesAfter, lookup_pairs, h]
  simp only [if_neg (show w.next ≠ 4096 from room)]; rfl

theorem Lzwc.insert_codesLeft_congr {w' : Lzwc} (h : w.Same w') :
    ((w'.insert w'.pfx k).advance k).codesLeft ks = ((w.insert w.pfx k).advance k).codesLeft ks := by
  obtain ⟨m, width, next, pfx, -, tab⟩ := h
  simp only [codesLeft, Lzwc.advance, Lzwc.insert, m, width, next, pfx, tab]

end Symbols

namespace Job

variable {J : Job} {w : Lzwc} {d : Memory}

/-- Registers that differ in the table, the counters and the pending code only. -/
theorem Going.of_registers {v : Lzwc} {codes : List (Nat × Nat)} (h : J.Going codes w d) (hsb : v.sb = w.sb := by rfl)
    (hp : v.p = w.p := by rfl) (hacc : v.acc = w.acc := by rfl) (hnb : v.nb = w.nb := by rfl) : J.Going codes v d := by
  obtain ⟨few, n, ha, hpack⟩ := h
  exact ⟨hnb ▸ few, n, ha.of_registers hsb hp, hpack.of_registers hacc hnb⟩

/-- One symbol (40_lzw_compress.md R124 to R127). -/
theorem Going.symbolStep {k : Nat} {ks : List Nat} (h : J.Going (w.codesLeft (k :: ks)) w d) (hp : w.pfx < 2 ^ w.width)
    (hc : clearCode w.m < 2 ^ w.width) :
    J.Follows (symbolStep J.size k w d) fun w' d' => J.Going (w'.codesLeft ks) w' d' ∧ w'.m = w.m ∧ w'.i = w.i + 1 := by
  unfold Machine.symbolStep
  split
  · rename_i code hit
    rw [Lzwc.codesLeft_hit hit] at h
    exact ⟨h.of_registers, rfl, rfl⟩
  · rename_i miss
    by_cases full : w.next = maxCodes
    · rw [Lzwc.codesLeft_full miss full] at h
      refine (h.emitCode hp).bind fun w1 d1 ⟨same, going⟩ => ?_
      rw [if_pos (same.next.trans full)]
      have clear : J.Going ((clearCode w1.m, w1.width) :: (w.resetTable.advance k).codesLeft ks) w1 d1 := by
        rw [same.m, same.width]; exact going
      refine (clear.emitCode (by rw [same.m, same.width]; exact hc)).bind fun w2 d2 ⟨same2, going2⟩ => ?_
      have both := same.trans same2
      have codes : (w2.resetTable.advance k).codesLeft ks = (w.resetTable.advance k).codesLeft ks := by
        simp only [Lzwc.codesLeft, Lzwc.advance, Lzwc.resetTable, both.m]
      exact ⟨(codes ▸ going2).of_registers, both.m, congrArg (· + 1) both.i⟩
    · rw [Lzwc.codesLeft_miss miss full] at h
      refine (h.emitCode hp).bind fun w1 d1 ⟨same, going⟩ => ?_
      rw [if_neg (same.next ▸ full)]
      rw [← Lzwc.insert_codesLeft_congr same] at going
      exact ⟨going.of_registers, same.m, congrArg (· + 1) same.i⟩

end Job
end Sys2Proof.Machine
end

section
/-! PROOF. A whole COMPRESS (40_lzw_compress.md R122 to R136) against the reference stream: it completes where the stream fits, and
latches DST_BOUNDS where it does not. -/

namespace Sys2Proof.Machine

open Sys2Proof.Claims

/-! ### The run of LZWC -/

/-- The state an emission that ends the command leaves: the write-back, or DST_BOUNDS (40_lzw_compress.md R134, R135). -/
def lzwcEnd (e : Emit) (s : State) : State :=
  match e with
  | .ok w d => lzwcDone w (s.setMemory .dst d)
  | .bounds w d a => lzwcFault w.p a d s

/-- The end of a command replaces DST and the unit's registers. -/
theorem lzwcEnd_setRunning (e : Emit) (s : State) (d : Memory) (r : Running) :
    lzwcEnd e ((s.setMemory .dst d).setRunning r) = lzwcEnd e s := by cases e <;> rfl

theorem lzwcEnd_setMemory (e : Emit) (s : State) (d : Memory) : lzwcEnd e (s.setMemory .dst d) = lzwcEnd e s := by
  cases e <;> rfl

theorem lzwcEnd_running (e : Emit) (s : State) : (lzwcEnd e s).running = .idle := by cases e <;> rfl

/-- The masked symbols `ks` stand in IDX from `a` on (30_encoding.md R105). -/
def State.masked (s : State) (m a : Nat) (ks : List Nat) : Prop :=
  ∀ j (h : j < ks.length), ∃ b, s.fetchByte .idx (a + j) = .value b ∧ maskSymbol m b = ks[j]

theorem State.masked_cons {s : State} {m a k : Nat} {ks : List Nat} (h : s.masked m a (k :: ks)) :
    (∃ b, s.fetchByte .idx a = .value b ∧ maskSymbol m b = k) ∧ s.masked m (a + 1) ks := by
  refine ⟨h 0 (by simp), fun j hj => ?_⟩
  rw [Nat.add_assoc, Nat.add_comm 1]
  exact h (j + 1) (by simpa using hj)

/-- LZWC reads only IDX, which it does not write. -/
theorem State.masked.of_idx {s t : State} {m a : Nat} {ks : List Nat} (h : s.masked m a ks) (hc : t.cfg = s.cfg := by rfl)
    (hi : t.idx = s.idx := by rfl) : t.masked m a ks := fun j hj => by
  rw [State.fetchByte_congr (sp := .idx) hc hi]; exact h j hj

/-- Going on with what was emitted: `next` is what runs after it, and leaves an idle GLZ as it is. -/
theorem run_commit {J : Job} {e : Emit} {Q : Lzwc → Memory → Prop} {s : State} {next : State → Res} (h : J.Follows e Q)
    (stop : ∀ t : State, t.running = .idle → next t = .next t)
    (go : ∀ w d, e = .ok w d → Q w d → ∃ e', J.Follows e' (fun w d => J.Written w.p d) ∧
      next ((s.setMemory .dst d).setRunning (.lzwc w)) = .next (lzwcEnd e' s)) :
    ∃ e', J.Follows e' (fun w d => J.Written w.p d) ∧
      andThen (commit e s fun w s => .next (s.setRunning (.lzwc w))) next = .next (lzwcEnd e' s) := by
  cases e with
  | ok w d => exact go w d rfl h
  | bounds w d a => exact ⟨.bounds w d a, h, stop _ rfl⟩

/-- The rest of a COMPRESS, from between two symbols. -/
theorem run_lzwc {J : Job} (ks : List Nat) {fuel : Nat} {s : State} {w : Lzwc} (hf : ks.length < fuel)
    (hr : s.running = .lzwc w) (ok : w.Ok s.cfg s.regs.idxLen.toNat s.regs.dstPtr.toNat) (size : J.size = s.cfg.size .dst)
    (going : J.Going (w.codesLeft ks) w s.dst) (len : w.i + ks.length = s.regs.idxLen.toNat) (symbols : s.masked w.m w.i ks) :
    ∃ e, J.Follows e (fun w d => J.Written w.p d) ∧ runToIdle fuel s = .next (lzwcEnd e s) := by
  induction ks generalizing fuel s w with
  | nil =>
    obtain ⟨fuel, rfl⟩ := Nat.exists_eq_succ_of_ne_zero (Nat.ne_of_gt hf)
    rw [w.codesLeft_nil] at going
    refine ⟨_, going.emitFinish ok.pfx_lt ok.eoi_lt, ?_⟩
    have step : unitStep s = .next (lzwcEnd (emitFinish J.size w s.dst) s) := by
      have last : ¬ w.i < s.regs.idxLen.toNat := by simp only [List.length_nil] at len; omega
      simp only [unitStep, hr, lzwcStep, last, if_false, size]
      cases emitFinish (s.cfg.size .dst) w s.dst <;> rfl
    rw [runToIdle_of_running fuel (by simp [hr]), step, andThen_next, runToIdle_of_idle _ (lzwcEnd_running _ s)]
  | cons k ks ih =>
    obtain ⟨fuel, rfl⟩ := Nat.exists_eq_succ_of_ne_zero (Nat.ne_of_gt (Nat.zero_lt_of_lt hf))
    rw [List.length_cons] at len hf
    have more : w.i < s.regs.idxLen.toNat := by omega
    obtain ⟨⟨b, hb, rfl⟩, later⟩ := State.masked_cons symbols
    have step : unitStep s = commit (symbolStep J.size (maskSymbol w.m b) w s.dst) s fun w s =>
        .next (s.setRunning (.lzwc w)) := by
      simp only [unitStep, hr, lzwcStep, more, if_true, State.readChecked_of_value _ hb, size]
    rw [runToIdle_of_running fuel (by simp [hr]), step]
    refine run_commit (going.symbolStep ok.pfx_lt ok.clear_lt) (fun _ => runToIdle_of_idle fuel) ?_
    rintro w' d e ⟨going', hm, hi⟩
    have meets := ok.symbolStep (maskSymbol_lt w.m b) more s.dst
    rw [← size, e] at meets
    obtain ⟨e', follows, run⟩ := ih (fuel := fuel) (s := (s.setMemory .dst d).setRunning (.lzwc w')) (by omega) rfl meets.1
      size going' (by simp only [hi]; simp; omega) (hm.symm ▸ hi.symm ▸ later.of_idx)
    exact ⟨e', follows, run.trans (by rw [lzwcEnd_setRunning])⟩

/-- A COMPRESS from its first code on, the CLEAR (40_lzw_compress.md R123). -/
theorem run_first_code {J : Job} {ks : List Nat} {s : State} {w : Lzwc}
    (ok : w.Ok s.cfg s.regs.idxLen.toNat s.regs.dstPtr.toNat) (size : J.size = s.cfg.size .dst)
    (going : J.Going ((clearCode w.m, w.width) :: w.codesLeft ks) w s.dst) (len : w.i + ks.length = s.regs.idxLen.toNat)
    (symbols : s.masked w.m w.i ks) :
    ∃ e, J.Follows e (fun w d => J.Written w.p d) ∧
      andThen (commit (emitCode J.size (clearCode w.m) w s.dst) s fun w s => .next (s.setRunning (.lzwc w))) run =
        .next (lzwcEnd e s) := by
  refine run_commit (going.emitCode ok.clear_lt) (fun _ => runToIdle_of_idle _) ?_
  rintro w' d e ⟨same, going'⟩
  have meets := ok.emitCode ok.clear_lt s.dst
  rw [← size, e] at meets
  rw [← w.codesLeft_congr same] at going'
  obtain ⟨e', follows, run⟩ := run_lzwc ks (fuel := s.regs.idxLen.toNat - w'.i + 1)
    (s := (s.setMemory .dst d).setRunning (.lzwc w')) (by rw [same.i]; omega) rfl meets.1.2 size going' (same.i.symm ▸ len)
    (same.m.symm ▸ same.i.symm ▸ symbols.of_idx)
  exact ⟨e', follows, run.trans (by rw [lzwcEnd_setRunning])⟩

/-! ### The start -/

/-- The registers and DST at the start: the first byte is written, the first length byte reserved (40_lzw_compress.md R122). -/
theorem start_going {J : Job} {k : Nat} {ks : List Nat} (bits : J.bits = bitsOf (codesOf J.m (k :: ks))) :
    J.Going ((clearCode J.m, J.m + 1) :: (Lzwc.start J.m J.cursor k).codesLeft ks) (Lzwc.start J.m J.cursor k)
      (Memory.write J.dst J.cursor (BitVec.ofNat 8 J.m)) := by
  have start := J.starts
  have codes : (clearCode J.m, J.m + 1) :: (Lzwc.start J.m J.cursor k).codesLeft ks = codesOf J.m (k :: ks) := rfl
  have none : J.Reads J.dst fun _ => False := fun x => ⟨False.elim, fun _ => rfl⟩
  have first : J.stream[J.cursor - J.cursor]? = some (BitVec.ofNat 8 J.m) := by rw [Nat.sub_self]; rfl
  refine ⟨Nat.zero_le _, 0, ⟨rfl, rfl, start, .inr rfl, (none.write first).congr fun x => ?_⟩, ?_, ?_, fun i => ?_⟩
  · simp only [Job.below, Lzwc.start, or_false]; omega
  · rw [codes, bits]; simp [Lzwc.start]
  · rw [codes, bits]; rfl
  · simp [Lzwc.start]

theorem lzwcStart_of_value {s : State} {b : Byte} (starts : s.regs.dstPtr.toNat < s.cfg.size .dst)
    (hb : s.fetchByte .idx 0 = .value b) :
    lzwcStart s = commit
      (emitCode (s.cfg.size .dst) (clearCode s.regs.minCode.toNat)
        (Lzwc.start s.regs.minCode.toNat s.regs.dstPtr.toNat (maskSymbol s.regs.minCode.toNat b))
        (Memory.write s.dst s.regs.dstPtr.toNat (BitVec.ofNat 8 s.regs.minCode.toNat)))
      (s.setMemory .dst (Memory.write s.dst s.regs.dstPtr.toNat (BitVec.ofNat 8 s.regs.minCode.toNat)))
      fun w s => .next (s.setRunning (.lzwc w)) := by
  have read := State.fetchByte_congr (s := s) (sp := .idx)
    (t := s.setMemory .dst (Memory.write s.dst s.regs.dstPtr.toNat (BitVec.ofNat 8 s.regs.minCode.toNat))) rfl rfl 0
  exact (if_pos starts).trans (State.readChecked_of_value _ (read.trans hb))

/-- DST_PTR is not below DST_SIZE: the first write is out of bounds (40_lzw_compress.md R122, R135). -/
theorem lzwcStart_of_outside {s : State} (out : s.cfg.size .dst ≤ s.regs.dstPtr.toNat) :
    lzwcStart s = .next (lzwcFault s.regs.dstPtr.toNat s.regs.dstPtr.toNat s.dst s) := if_neg (Nat.not_lt.mpr out)

/-! ### The whole command -/

/-- The symbols as COMPRESS masks them (30_encoding.md R105). -/
def masks (m : Nat) (symbols : List Byte) : List Nat := symbols.map fun b => b.toNat % 2 ^ m

/-- The stream COMPRESS has to write (40_lzw_compress.md R120). -/
def compressJob (s : State) (symbols : List Byte) (starts : s.regs.dstPtr.toNat < s.cfg.size .dst) : Job where
  size := s.cfg.size .dst
  cursor := s.regs.dstPtr.toNat
  m := s.regs.minCode.toNat
  bits := bitsOf (codesOf s.regs.minCode.toNat (masks s.regs.minCode.toNat symbols))
  dst := s.dst
  starts := starts

/-- COMPRESS will be taken, its checks pass, and its symbols are written (43_commands.md R223). -/
structure Compressible (s : State) (symbols : List Byte) : Prop where
  ready : s.ready
  m_range : 2 ≤ s.regs.minCode.toNat ∧ s.regs.minCode.toNat ≤ 8
  some_symbol : symbols ≠ []
  len : s.regs.idxLen.toNat = symbols.length
  len_fits : symbols.length ≤ s.cfg.size .idx
  written : s.holds .idx 0 symbols

section Command

variable {s : State} {symbols : List Byte}

theorem Compressible.exec_eq (h : Compressible s symbols) : exec .compress s = andThen (lzwcStart (take 1 s)) run := by
  obtain ⟨⟨idle, clear⟩, m, some, len, fits, -⟩ := h
  have one := List.length_pos_iff.mpr some
  exact command_of_accepted idle clear (compressChecks_pass.mpr ⟨m.1, m.2, len ▸ one, len ▸ fits⟩)

theorem Compressible.masked (h : Compressible s symbols) :
    (take 1 s).masked s.regs.minCode.toNat 0 (masks s.regs.minCode.toNat symbols) := by
  intro j hj
  rw [masks, List.length_map] at hj
  refine ⟨symbols[j], State.fetchByte_eq_value.mpr ⟨?_, h.written j hj⟩, ?_⟩
  · have := h.len_fits; show 0 + j < s.cfg.size .idx; omega
  · simp only [masks, List.getElem_map, maskSymbol_eq_mod]

/-- A COMPRESS whose cursor lies inside DST. -/
theorem Compressible.exec_of_starts (h : Compressible s symbols) (starts : s.regs.dstPtr.toNat < s.cfg.size .dst) :
    ∃ e, (compressJob s symbols starts).Follows e (fun w d => (compressJob s symbols starts).Written w.p d) ∧
      exec .compress s = .next (lzwcEnd e (take 1 s)) := by
  have masked := h.masked
  have len : (masks s.regs.minCode.toNat symbols).length = s.regs.idxLen.toNat := by rw [masks, List.length_map, h.len]
  have fits : s.regs.idxLen.toNat ≤ s.cfg.size .idx := h.len ▸ h.len_fits
  cases hk : masks s.regs.minCode.toNat symbols with
  | nil => exact absurd (List.map_eq_nil_iff.mp hk) h.some_symbol
  | cons k ks =>
    rw [hk] at masked len
    rw [List.length_cons] at len
    obtain ⟨⟨b, hb, rfl⟩, later⟩ := State.masked_cons masked
    have ok : (Lzwc.start s.regs.minCode.toNat s.regs.dstPtr.toNat (maskSymbol s.regs.minCode.toNat b)).Ok s.cfg
        s.regs.idxLen.toNat s.regs.dstPtr.toNat :=
      Lzwc.start_ok h.m_range (maskSymbol_lt _ b) (by omega) fits starts
    have going := start_going (J := compressJob s symbols starts) (congrArg (fun l => bitsOf (codesOf _ l)) hk)
    rw [h.exec_eq, lzwcStart_of_value (s := take 1 s) starts hb]
    obtain ⟨e, follows, run⟩ := run_first_code (J := compressJob s symbols starts)
      (s := (take 1 s).setMemory .dst (Memory.write s.dst s.regs.dstPtr.toNat (BitVec.ofNat 8 s.regs.minCode.toNat)))
      ok rfl going ((Nat.add_comm ..).trans len) later.of_idx
    exact ⟨e, follows, run.trans (by rw [lzwcEnd_setMemory])⟩

/-- The state after a COMPRESS that completed (40_lzw_compress.md R134). -/
def compressed (s : State) (d : Memory) (length : Nat) : State :=
  { s with
    dst := d
    regs := { s.regs with
      cmd := 1
      status := { done := true, fault := false, warnLong := false, warnShort := false, eoiSeen := false }
      dstPtr := BitVec.ofNat 32 (s.regs.dstPtr.toNat + length)
      outCount := BitVec.ofNat 32 length
      pixCount := 0 } }

/-- The state after a COMPRESS that DST was too small for: `a` is the first address not below its size, `count` the cursor's
advance (40_lzw_compress.md R135). -/
def outOfRoom (s : State) (d : Memory) (a count : Nat) : State :=
  { s with
    dst := d
    regs := { s.regs with
      cmd := 1
      status := { done := false, fault := true, warnLong := false, warnShort := false, eoiSeen := false }
      fault := 0x11
      faultInfo := BitVec.ofNat 32 a
      outCount := BitVec.ofNat 32 count
      pixCount := 0 } }

theorem lzwcDone_take (ready : s.ready) {w : Lzwc} {d : Memory} {length : Nat} (hp : w.p = s.regs.dstPtr.toNat + length)
    (lt : length < 4294967296) : lzwcDone w ((take 1 s).setMemory .dst d) = compressed s d length := by
  obtain ⟨idle, clear⟩ := ready
  have advance : w.p - ((take 1 s).setMemory .dst d).regs.dstPtr.toNat = length := Nat.sub_eq_of_eq_add (by rw [hp]; exact Nat.add_comm ..)
  rw [lzwcDone, advance, countWord_of_lt lt, hp]
  simp [complete, compressed, Status.complete, Status.taken, State.setMemory, State.setOutCount, State.setDstPtr, State.setPixCount, take, idle, clear]

theorem lzwcFault_take (ready : s.ready) {p a count : Nat} {d : Memory} (hp : p = s.regs.dstPtr.toNat + count)
    (lt : count < 4294967296) : lzwcFault p a d (take 1 s) = outOfRoom s d a count := by
  obtain ⟨idle, clear⟩ := ready
  have advance : p - (take 1 s).regs.dstPtr.toNat = count := Nat.sub_eq_of_eq_add (by rw [hp]; exact Nat.add_comm ..)
  rw [lzwcFault, advance, countWord_of_lt lt]
  simp [raise, outOfRoom, Regs.latch, Status.latch, FaultCode.code, Status.taken, State.setMemory, State.setOutCount, take, idle, clear]

/-- The reference stream for the symbols of COMPRESS (40_lzw_compress.md R120). -/
def compressStream (s : State) (symbols : List Byte) : List Byte :=
  streamOf s.regs.minCode.toNat (masks s.regs.minCode.toNat symbols)

theorem compressJob_stream (starts : s.regs.dstPtr.toNat < s.cfg.size .dst) :
    (compressJob s symbols starts).stream = compressStream s symbols := rfl

/-- A stream that fits in DST is written whole (40_lzw_compress.md R134). -/
theorem Compressible.completes (h : Compressible s symbols)
    (fits : s.regs.dstPtr.toNat + (compressStream s symbols).length ≤ s.cfg.size .dst) :
    ∃ d, exec .compress s = .next (compressed s d (compressStream s symbols).length) ∧
      (compressed s d (compressStream s symbols).length).holds .dst s.regs.dstPtr.toNat (compressStream s symbols) ∧
      keepsOutside .dst s.regs.dstPtr.toNat (compressStream s symbols).length s
        (compressed s d (compressStream s symbols).length) := by
  have size := s.cfg.dstSize.isLt
  have nonempty : 0 < (compressStream s symbols).length := Nat.succ_pos _
  obtain ⟨e, follows, exec⟩ := h.exec_of_starts (by omega)
  rw [exec]
  cases e with
  | bounds w d a =>
    have short := Job.OutOfRoom.short follows
    rw [compressJob_stream] at short
    exact absurd fits (Nat.not_le.mpr short)
  | ok w d =>
    have written : (compressJob s symbols _).Written w.p d := follows
    have count := Nat.lt_of_le_of_lt (Nat.le_trans (Nat.le_add_left ..) fits) size
    refine ⟨d, by rw [lzwcEnd, lzwcDone_take h.ready written.cursor_eq count]; rfl, fun j hj => ?_, fun x => written.outside⟩
    exact (written.read hj).trans (List.getElem?_eq_getElem hj)

/-- DST_PTR is not below DST_SIZE: nothing is written (40_lzw_compress.md R122, R135). -/
theorem Compressible.starts_outside (h : Compressible s symbols) (out : s.cfg.size .dst ≤ s.regs.dstPtr.toNat) :
    exec .compress s = .next (outOfRoom s s.dst s.regs.dstPtr.toNat 0) := by
  rw [h.exec_eq, lzwcStart_of_outside (s := take 1 s) out]
  exact (runToIdle_of_idle _ rfl).trans (congrArg _ (lzwcFault_take h.ready rfl (by decide)))

/-- A stream that does not fit in what is left of DST: what is written, the address and the count (40_lzw_compress.md R132,
R135). -/
theorem Compressible.runsOut (h : Compressible s symbols) (starts : s.regs.dstPtr.toNat < s.cfg.size .dst)
    (short : s.cfg.size .dst < s.regs.dstPtr.toNat + (compressStream s symbols).length) :
    let cursor := s.regs.dstPtr.toNat
    let size := s.cfg.size .dst
    let room := size - cursor
    let stream := compressStream s symbols
    ∃ d, exec .compress s = .next (outOfRoom s d (if room % 256 = 1 ∧ room + 1 < stream.length then size + 1 else size)
        (if room % 256 = 1 then room + 1 else room)) ∧
      (∀ j < room, Memory.read d (cursor + j) =
        if j % 256 = 1 ∧ room < j + 256 ∧ room + 1 < stream.length then Memory.read s.dst (cursor + j) else stream[j]?) ∧
      ∀ x, x < cursor ∨ cursor + room ≤ x → Memory.read d x = Memory.read s.dst x := by
  intro cursor size room stream
  have bound : size < 4294967296 := s.cfg.dstSize.isLt
  have room_eq : room = size - cursor := rfl
  obtain ⟨e, follows, exec⟩ := h.exec_of_starts starts
  rw [exec]
  cases e with
  | ok w d =>
    obtain ⟨p, fits, -⟩ := follows
    exact absurd (p ▸ fits) (Nat.not_le.mpr short)
  | bounds w d a =>
    have out : (compressJob s symbols starts).OutOfRoom w.p d a := follows
    have count : (if room % 256 = 1 then room + 1 else room) < 4294967296 := by split <;> omega
    refine ⟨d, by rw [lzwcEnd, lzwcFault_take h.ready out.cursor_eq count, out.address]; rfl, fun _ => out.read,
      fun _ => out.outside⟩

end Command

/-- Settles O12: the emission ended well, since the stream fits. -/
theorem compressAppendsReferenceStream : Obligations.CompressAppendsReferenceStream := by
  intro s symbols m cursor stream ready range some len fits written room
  obtain ⟨d, exec, holds, outside⟩ := Compressible.completes ⟨ready, range, some, len, fits, written⟩ room
  exact ⟨_, exec, holds, outside, rfl⟩

/-- Settles O57: the emission ended at a write not below DST_SIZE, the first one if the cursor is not. -/
theorem compressOutOfRoomKeepsItsPrefix : Obligations.CompressOutOfRoomKeepsItsPrefix := by
  intro s symbols m cursor size room stream ready range some len fits written short
  have h : Compressible s symbols := ⟨ready, range, some, len, fits, written⟩
  by_cases out : size ≤ cursor
  · have none : room = 0 := Nat.sub_eq_zero_of_le out
    rw [if_pos out, if_pos out]
    exact ⟨_, h.starts_outside out, fun j hj => by omega, fun _ _ => rfl, rfl⟩
  · rw [if_neg out, if_neg out]
    obtain ⟨d, exec, inside, outside⟩ := h.runsOut (Nat.lt_of_not_le out) short
    exact ⟨_, exec, inside, outside, rfl⟩

end Sys2Proof.Machine
end

section
/-! PROOF. What follows from the reference stream: how an accepted COMPRESS ends, and on what its output depends. -/

namespace Sys2Proof.Machine

open Sys2Proof.Claims

/-! ### The length of a stream -/

/-- After the first code at least the last pending code and EOI are emitted (40_lzw_compress.md R128). -/
theorem length_bitsOf_codesAfter (m : Nat) (ks : List Nat) {width : Nat} (h : m + 1 ≤ width) (next pfx : Nat)
    (tab : List ((Nat × Nat) × Nat)) : 2 * (m + 1) ≤ (bitsOf (codesAfter m next width pfx tab ks)).length := by
  induction ks generalizing next width pfx tab with
  | nil =>
    rw [codesAfter]
    simp only [bitsOf_cons, bitsOf_nil, List.length_append, length_codeBits, List.length_nil]
    omega
  | cons k ks ih =>
    rw [codesAfter]
    split
    · exact ih h ..
    · rw [bitsOf_cons, List.length_append]
      refine Nat.le_trans ?_ (Nat.le_add_left ..)
      split
      · rw [bitsOf_cons, List.length_append]
        exact Nat.le_trans (ih (Nat.le_refl _) ..) (Nat.le_add_left ..)
      · exact ih (by split <;> omega) ..

/-- The first byte, a length byte, two data bytes and the terminator (30_encoding.md R93). -/
theorem five_le_length_streamOf {m : Nat} {ks : List Nat} (hm : 2 ≤ m) (hk : ks ≠ []) : 5 ≤ (streamOf m ks).length := by
  obtain ⟨k, ks, rfl⟩ := List.exists_cons_of_ne_nil hk
  have bits : 9 ≤ (bitsOf (codesOf m (k :: ks))).length := by
    have rest := length_bitsOf_codesAfter m ks (Nat.le_refl (m + 1)) (2 ^ m + 2) k []
    rw [codesOf, bitsOf_cons, List.length_append, length_codeBits]
    omega
  rw [streamOf, List.length_cons, length_subBlocks, length_packBits]
  omega

/-! ### The symbols in IDX -/

/-- Bytes that are written are a list. -/
theorem exists_bytes {mem : Memory} {a n : Nat} (h : ∀ j < n, ∃ b, Memory.read mem (a + j) = some b) :
    ∃ bytes : List Byte, bytes.length = n ∧ ∀ j (hj : j < bytes.length), Memory.read mem (a + j) = some bytes[j] := by
  choose byte read using h
  refine ⟨List.ofFn fun j : Fin n => byte j j.2, List.length_ofFn, fun j hj => ?_⟩
  rw [List.getElem_ofFn]
  exact read j _

/-- COMPRESS whose checks pass and whose symbols are written. -/
theorem Compressible.of_written {s : State} (ready : s.ready) (range : 2 ≤ s.regs.minCode.toNat ∧ s.regs.minCode.toNat ≤ 8)
    (len : 1 ≤ s.regs.idxLen.toNat) (written : s.written .idx 0 s.regs.idxLen.toNat) :
    ∃ symbols, Compressible s symbols := by
  obtain ⟨fits, read⟩ := written
  obtain ⟨symbols, length, holds⟩ := exists_bytes read
  refine ⟨symbols, ready, range, ?_, length.symm, by omega, holds⟩
  rintro rfl
  rw [List.length_nil] at length
  omega

/-! ### How COMPRESS ends -/

/-- The length byte of the sub-block that is open at the end of DST, where only the terminator does not fit. -/
theorem stream_open_length {m j : Nat} {ks : List Nat} (hj : j % 256 = 1) (lt : j + 1 < (streamOf m ks).length)
    (last : (streamOf m ks).length ≤ j + 256) :
    (streamOf m ks)[j]? = some (BitVec.ofNat 8 ((streamOf m ks).length - j - 2)) := by
  unfold streamOf at lt last ⊢
  rw [List.length_cons, length_subBlocks] at lt last ⊢
  obtain ⟨q, rfl⟩ : ∃ q, j = 256 * q + 1 := ⟨j / 256, by omega⟩
  rw [List.getElem?_cons_succ, subBlocks_length _ (by omega)]
  congr 2
  omega

theorem toNat_ofNat_of_lt {n : Nat} (h : n < 4294967296) : (BitVec.ofNat 32 n).toNat = n :=
  (BitVec.toNat_ofNat ..).trans (Nat.mod_eq_of_lt h)

theorem keepsOperandsButDst_compressed (s : State) (d : Memory) (length : Nat) :
    keepsOperandsButDst s (compressed s d length) := ⟨rfl, rfl, rfl, rfl, rfl, rfl, rfl, rfl, rfl⟩

theorem keepsOperandsButDst_outOfRoom (s : State) (d : Memory) (a count : Nat) :
    keepsOperandsButDst s (outOfRoom s d a count) := ⟨rfl, rfl, rfl, rfl, rfl, rfl, rfl, rfl, rfl⟩

/-- Settles O13, from the three ways a COMPRESS ends: it completes, it runs out of DST, or it starts outside. -/
theorem compressEndsDoneOrDstBounds : Obligations.CompressEndsDoneOrDstBounds := by
  intro s ready range len written
  obtain ⟨symbols, h⟩ := Compressible.of_written ready range len written
  obtain ⟨idle, clear⟩ := ready
  have size : s.cfg.size .dst < 4294967296 := s.cfg.dstSize.isLt
  by_cases out : s.cfg.size .dst ≤ s.regs.dstPtr.toNat
  · exact ⟨_, h.starts_outside out, idle, rfl, rfl, rfl, ⟨rfl, rfl, rfl⟩, keepsOperandsButDst_outOfRoom .., rfl, rfl,
      .inr ⟨rfl, rfl, rfl, fun _ => ⟨BitVec.ofNat_toNat .., rfl, rfl⟩, fun lt => absurd out (Nat.not_le.mpr lt),
        fun _ _ => rfl⟩⟩
  by_cases fits : s.regs.dstPtr.toNat + (compressStream s symbols).length ≤ s.cfg.size .dst
  · obtain ⟨d, exec, holds, outside⟩ := h.completes fits
    have cursor := toNat_ofNat_of_lt (Nat.lt_of_le_of_lt fits size)
    have count := toNat_ofNat_of_lt (Nat.lt_of_le_of_lt (Nat.le_trans (Nat.le_add_left ..) fits) size)
    have five : 5 ≤ (compressStream s symbols).length :=
      five_le_length_streamOf range.1 (by simpa [masks] using h.some_symbol)
    refine ⟨_, exec, idle, rfl, rfl, rfl, ⟨rfl, rfl, rfl⟩, keepsOperandsButDst_compressed .., rfl, rfl,
      .inl ⟨rfl, ⟨clear.symm, rfl, rfl⟩, ?_⟩⟩
    simp only [compressed, cursor, count]
    exact ⟨Nat.add_le_add_left five _, fits, (Nat.add_sub_cancel_left ..).symm, ⟨fits, fun j hj => ⟨_, holds j hj⟩⟩, outside⟩
  · have starts := Nat.lt_of_not_le out
    obtain ⟨d, exec, inside, outside⟩ := h.runsOut starts (Nat.lt_of_not_le fits)
    refine ⟨_, exec, idle, rfl, rfl, rfl, ⟨rfl, rfl, rfl⟩, keepsOperandsButDst_outOfRoom .., rfl, rfl,
      .inr ⟨rfl, rfl, rfl, fun le => absurd le out, fun _ => ⟨?_, fun j hj => ?_⟩, outside⟩⟩
    · by_cases reserved : (s.cfg.size .dst - s.regs.dstPtr.toNat) % 256 = 1
      · refine .inr ⟨reserved, by simp [outOfRoom, reserved], ?_⟩
        simp only [outOfRoom, reserved, true_and]
        split
        · exact .inr rfl
        · exact .inl rfl
      · exact .inl ⟨reserved, by simp [outOfRoom, reserved], by simp [outOfRoom, reserved]⟩
    · have short : s.cfg.size .dst - s.regs.dstPtr.toNat + 1 ≤ (compressStream s symbols).length := by omega
      have byte := inside j hj
      intro before after
      split
      · rename_i open'
        by_cases more : s.cfg.size .dst - s.regs.dstPtr.toNat + 1 < (compressStream s symbols).length
        · exact .inl (byte.trans (if_pos ⟨open'.1, open'.2, more⟩))
        · rw [if_neg fun k => more k.2.2] at byte
          have last : (compressStream s symbols).length = s.cfg.size .dst - s.regs.dstPtr.toNat + 1 := by omega
          have length := stream_open_length (ks := masks s.regs.minCode.toNat symbols) open'.1
            (Nat.lt_of_lt_of_eq (by omega) last.symm) (last.le.trans (by omega))
          refine .inr ⟨by simp [outOfRoom, more], byte.trans (length.trans ?_)⟩
          rw [show (streamOf _ (masks s.regs.minCode.toNat symbols)).length = _ from last]
          congr 2; omega
      · rename_i closed
        rw [if_neg fun k => closed ⟨k.1, k.2.1⟩] at byte
        exact ⟨_, byte.trans (List.getElem?_eq_getElem (by omega))⟩

end Sys2Proof.Machine
end

section
/-! PROOF. A COMPRESS that completed: its checks passed, it read every symbol, and it wrote the reference stream. -/

namespace Sys2Proof.Machine

open Sys2Proof.Claims

/-! ### What emitting keeps, whatever the cursor registers hold -/

/-- Where emitting goes on, c_acc, c_nb, c_p and c_sb alone have changed since `w`. -/
def Emit.Keeps (e : Emit) (w : Lzwc) : Prop :=
  match e with
  | .ok w' _ => w.Same w'
  | .bounds _ _ _ => True

section Keeps

variable {size : Nat} {w : Lzwc}

theorem Emit.Keeps.bind {e : Emit} {k : Lzwc → Memory → Emit} (h : e.Keeps w)
    (hk : ∀ w' d, w.Same w' → (k w' d).Keeps w) : (e.bind k).Keeps w := by
  cases e with
  | ok w' d => exact hk w' d h
  | bounds w' d a => trivial

theorem putAt_keeps (a : Nat) (b : Byte) {w' : Lzwc} (d : Memory) (h : w.Same w') : (putAt size a b w' d).Keeps w := by
  unfold putAt
  split
  · exact h
  · trivial

theorem putByte_keeps (b : Byte) {w' : Lzwc} (d : Memory) (h : w.Same w') : (putByte size b w' d).Keeps w := by
  refine (putAt_keeps _ b d h).bind fun v d' hv => ?_
  have moved : w.Same { v with p := v.p + 1 } := hv.trans ⟨rfl, rfl, rfl, rfl, rfl, rfl⟩
  unfold closeFull
  split
  · exact (putAt_keeps _ 255 d' moved).bind fun u _ hu => hu.trans ⟨rfl, rfl, rfl, rfl, rfl, rfl⟩
  · exact moved

theorem drain_keeps (fuel : Nat) {w' : Lzwc} (d : Memory) (h : w.Same w') : (drain size fuel w' d).Keeps w := by
  induction fuel generalizing w' d with
  | zero => exact h
  | succ fuel ih =>
    unfold drain
    split
    · exact (putByte_keeps _ d h).bind fun v d' hv => ih d' (hv.trans ⟨rfl, rfl, rfl, rfl, rfl, rfl⟩)
    · exact h

theorem emitCode_keeps (c : Nat) {w' : Lzwc} (d : Memory) (h : w.Same w') : (emitCode size c w' d).Keeps w :=
  drain_keeps _ d (h.trans ⟨rfl, rfl, rfl, rfl, rfl, rfl⟩)

end Keeps

/-- One symbol is taken (40_lzw_compress.md R124). -/
theorem symbolStep_i {size k : Nat} {w w' : Lzwc} {d d' : Memory} (h : symbolStep size k w d = .ok w' d') : w'.i = w.i + 1 := by
  unfold symbolStep at h
  split at h
  · cases h; rfl
  · have first := emitCode_keeps (size := size) w.pfx d (.refl w)
    cases e : emitCode size w.pfx w d with
    | bounds v d₁ a => rw [e] at h; cases h
    | ok v d₁ =>
      rw [e] at h first
      simp only [Emit.bind] at h
      split at h
      · have second := emitCode_keeps (size := size) (clearCode v.m) d₁ first
        cases e' : emitCode size (clearCode v.m) v d₁ with
        | bounds u d₂ a => rw [e'] at h; cases h
        | ok u d₂ =>
          rw [e'] at h second
          cases h
          exact congrArg (· + 1) second.i
      · cases h
        exact congrArg (· + 1) first.i

/-! ### A COMPRESS that completed read every symbol -/

/-- During a COMPRESS from `s`: the symbols before c_i are written in IDX, and at the end all of them, if DONE is set. -/
inductive SymbolsRead (s u : State) : Prop where
  | going (w : Lzwc) : u.running = .lzwc w → u.regs.status.done = false → (∀ j < w.i, ∃ b, Memory.read s.idx j = some b) →
      SymbolsRead s u
  | ended : u.running = .idle →
      (u.regs.status.done = true → ∀ j < s.regs.idxLen.toNat, ∃ b, Memory.read s.idx j = some b) → SymbolsRead s u

/-- Latching a fault leaves DONE (60_exceptions.md R290). -/
theorem Regs.latch_done (r : Regs) (c : FaultCode) (info : Nat) : (r.latch c info).status.done = r.status.done := by
  unfold Regs.latch
  split <;> rfl

theorem SymbolsRead.fault {s u : State} (hd : u.regs.status.done = false) (p a : Nat) (d : Memory) :
    SymbolsRead s (lzwcFault p a d u) := by
  refine .ended rfl fun done => ?_
  have kept : (lzwcFault p a d u).regs.status.done = u.regs.status.done := Regs.latch_done ..
  rw [kept, hd] at done
  cases done

/-- IDX and IDX_LEN as `s` has them, and the symbols read so far. -/
structure CompressRead (s u : State) : Prop where
  idx : u.idx = s.idx
  len : u.regs.idxLen = s.regs.idxLen
  symbols : SymbolsRead s u

theorem CompressRead.fault {s u : State} (h : CompressRead s u) (hd : u.regs.status.done = false) (p a : Nat) (d : Memory) :
    CompressRead s (lzwcFault p a d u) := ⟨h.idx, (Regs.latch_idxLen ..).trans h.len, .fault hd p a d⟩

theorem CompressRead.step {s u v : State} (h : CompressRead s u) (hi : u.running ≠ .idle) (hs : unitStep u = .next v) :
    CompressRead s v := by
  cases h.symbols with
  | ended idle => exact absurd idle hi
  | going w hr hd read =>
    have step : lzwcStep w u = .next v := by rwa [unitStep, hr] at hs
    rcases lzwcStep_next step with ⟨-, b, hb, ⟨w', d, e, rfl⟩ | ⟨w', d, a, -, rfl⟩⟩ | ⟨le, ⟨w', d, -, rfl⟩ | ⟨w', d, a, -, rfl⟩⟩
    · refine ⟨h.idx, h.len, .going w' rfl hd fun j hj => ?_⟩
      rw [symbolStep_i e] at hj
      by_cases new : j = w.i
      · exact ⟨b, new ▸ h.idx ▸ (State.fetchByte_eq_value.mp hb).2⟩
      · exact read j (by omega)
    · exact h.fault hd ..
    · exact ⟨h.idx, h.len, .ended rfl fun _ j hj => read j (Nat.lt_of_lt_of_le (h.len ▸ hj) le)⟩
    · exact h.fault hd ..

/-- A start that goes on has read the first symbol (40_lzw_compress.md R123). -/
theorem lzwcStart_reads {s u : State} (starts : s.regs.dstPtr.toNat < s.cfg.size .dst) (h : lzwcStart s = .next u) :
    ∃ b, s.fetchByte .idx 0 = .value b := by
  unfold lzwcStart at h
  simp only [if_pos starts] at h
  obtain ⟨b, hb, -⟩ := State.readChecked_next h
  exact ⟨b, hb⟩

theorem CompressRead.start {s u : State} (hd : s.regs.status.done = false) (h : lzwcStart s = .next u) : CompressRead s u := by
  by_cases out : s.cfg.size .dst ≤ s.regs.dstPtr.toNat
  · rw [lzwcStart_of_outside out] at h
    cases h
    exact ⟨rfl, Regs.latch_idxLen .., .fault hd ..⟩
  · have starts := Nat.lt_of_not_le out
    obtain ⟨b, hb⟩ := lzwcStart_reads starts h
    rw [lzwcStart_of_value starts hb] at h
    rcases commit_next h with ⟨w, d, e, h⟩ | ⟨w, d, a, -, rfl⟩
    · cases h
      refine ⟨rfl, rfl, .going w rfl hd fun j hj => ⟨b, ?_⟩⟩
      have kept := emitCode_keeps (size := s.cfg.size .dst) (clearCode s.regs.minCode.toNat)
        (Memory.write s.dst s.regs.dstPtr.toNat (BitVec.ofNat 8 s.regs.minCode.toNat))
        (.refl (Lzwc.start s.regs.minCode.toNat s.regs.dstPtr.toNat (maskSymbol s.regs.minCode.toNat b)))
      rw [e] at kept
      have one : w.i = 1 := kept.i
      obtain rfl : j = 0 := by omega
      exact (State.fetchByte_eq_value.mp hb).2
    · exact ⟨rfl, Regs.latch_idxLen .., .fault hd ..⟩

/-! ### What a COMPRESS that completed did -/

/-- A COMPRESS that completed was accepted, and ran. -/
theorem compress_done {s t : State} (ready : s.ready) (h : exec .compress s = .next t) (done : t.regs.status.done = true) :
    firstFailing (compressChecks (take 1 s)) = none ∧ ∃ u, lzwcStart (take 1 s) = .next u ∧ run u = .next t := by
  obtain ⟨-, ⟨fault, -⟩ | ⟨-, ⟨c, info, -, rfl⟩ | ran⟩⟩ := command_next (show command 1 compressChecks lzwcStart s = .next t from h)
  · rw [ready.2] at fault; cases fault
  · have kept : (raise c info (take 1 s)).regs.status.done = (take 1 s).regs.status.done := Regs.latch_done ..
    rw [kept] at done
    cases done
  · exact ran

theorem compress_done_checks {s t : State} (ready : s.ready) (h : exec .compress s = .next t)
    (done : t.regs.status.done = true) :
    (2 ≤ s.regs.minCode.toNat ∧ s.regs.minCode.toNat ≤ 8) ∧ 1 ≤ s.regs.idxLen.toNat ∧ s.regs.idxLen.toNat ≤ s.cfg.size .idx := by
  obtain ⟨m2, m8, rest⟩ := compressChecks_pass.mp (compress_done ready h done).1
  exact ⟨⟨m2, m8⟩, rest⟩

/-- It read every symbol, so every symbol was written. -/
theorem compress_done_symbols {s t : State} (ready : s.ready) (h : exec .compress s = .next t)
    (done : t.regs.status.done = true) : ∃ symbols, Compressible s symbols := by
  obtain ⟨range, one, fits⟩ := compress_done_checks ready h done
  obtain ⟨-, u, start, ran⟩ := compress_done ready h done
  have started : CompressRead (take 1 s) u := .start rfl start
  have read : CompressRead (take 1 s) t := run_induction (fun _ _ => CompressRead.step) started ran
  refine Compressible.of_written ready range one ⟨by omega, fun j hj => ?_⟩
  rw [Nat.zero_add]
  cases read.symbols with
  | going w _ notDone => rw [done] at notDone; cases notDone
  | ended _ all => exact all done j hj

/-- It wrote the reference stream, counted in OUT_COUNT. -/
theorem Compressible.wrote_of_done {s t : State} {symbols : List Byte} (h : Compressible s symbols)
    (e : exec .compress s = .next t) (done : t.regs.status.done = true) :
    t.regs.outCount.toNat = (compressStream s symbols).length ∧
      t.holds .dst s.regs.dstPtr.toNat (compressStream s symbols) := by
  have size : s.cfg.size .dst < 4294967296 := s.cfg.dstSize.isLt
  by_cases out : s.cfg.size .dst ≤ s.regs.dstPtr.toNat
  · rw [h.starts_outside out] at e
    cases e; cases done
  by_cases fits : s.regs.dstPtr.toNat + (compressStream s symbols).length ≤ s.cfg.size .dst
  · obtain ⟨d, exec, holds, -⟩ := h.completes fits
    rw [exec] at e
    cases e
    exact ⟨toNat_ofNat_of_lt (by omega), holds⟩
  · obtain ⟨d, exec, -⟩ := h.runsOut (Nat.lt_of_not_le out) (Nat.lt_of_not_le fits)
    rw [exec] at e
    cases e; cases done

/-- Settles O14: both wrote the reference stream of the same masked symbols. -/
theorem compressOutputDependsOnSymbolsOnly : Obligations.CompressOutputDependsOnSymbolsOnly := by
  intro s₁ s₂ t₁ t₂ ready₁ ready₂ minCode idxLen same exec₁ exec₂ done₁ done₂
  obtain ⟨x, hx⟩ := compress_done_symbols ready₁ exec₁ done₁
  obtain ⟨y, hy⟩ := compress_done_symbols ready₂ exec₂ done₂
  have len : x.length = y.length := by rw [← hx.len, ← hy.len, idxLen]
  have masked : masks s₁.regs.minCode.toNat x = masks s₂.regs.minCode.toNat y := by
    refine List.ext_getElem (by simp [masks, len]) fun j hj hj' => ?_
    rw [masks, List.length_map] at hj hj'
    obtain ⟨a, b, ha, hb, eq⟩ := same j (hx.len ▸ hj)
    have hxj := hx.written j hj
    have hyj := hy.written j hj'
    rw [State.memory_idx, Nat.zero_add] at hxj hyj
    simp only [masks, List.getElem_map, ← Option.some.inj (ha.symm.trans hxj), ← Option.some.inj (hb.symm.trans hyj),
      ← minCode, eq]
  have stream : compressStream s₁ x = compressStream s₂ y := by rw [compressStream, compressStream, masked, minCode]
  obtain ⟨count₁, holds₁⟩ := hx.wrote_of_done exec₁ done₁
  obtain ⟨count₂, holds₂⟩ := hy.wrote_of_done exec₂ done₂
  rw [stream] at count₁ holds₁
  exact ⟨BitVec.eq_of_toNat_eq (count₁.trans count₂.symm), fun j hj =>
    (holds₁ j (count₁ ▸ hj)).trans (holds₂ j (count₁ ▸ hj)).symm⟩

/-- Settles O16: the lookup finds the entry. -/
theorem compressorHitEmitsNothing : Obligations.CompressorHitEmitsNothing := by
  intro s w b e hr hi hb mem pfx symbol one
  have hit : lookup w.tab w.pfx (maskSymbol w.m b) = some e.code := by
    rw [maskSymbol_eq_mod, ← pfx, ← symbol]
    exact lookup_of_mem mem one
  rw [step_eq_unitStep (by simp [hr])]
  simp only [unitStep, hr, lzwcStep, if_pos hi, State.readChecked_of_value _ hb, symbolStep, hit]
  rfl

end Sys2Proof.Machine
end

section
/-! PROOF. The reference decompressor undoes the reference compressor (40_lzw_compress.md R120, 41_lzw_decompress.md R178): between
two codes its table lags behind the compressor's by the entry whose last symbol it has not seen. -/

namespace Sys2Proof.Claims

open Sys2Proof.Machine (DataCode firstCode)

/-! ### The bits of packed data -/

theorem dataBits_map_dataByte (bits : List Bool) (n : Nat) :
    dataBits ((List.range n).map (dataByte bits)) = (List.range (8 * n)).map fun i => bits.getD i false := by
  induction n with
  | zero => rfl
  | succ n ih =>
    have byte : ((List.range 8).map fun j => (dataByte bits n).getLsbD j) =
        (List.range 8).map fun j => bits.getD (8 * n + j) false :=
      List.map_congr_left fun j hj => getLsbD_dataByte bits n (List.mem_range.mp hj)
    rw [List.range_succ, List.map_append, dataBits, List.flatMap_append, ← dataBits, ih, Nat.mul_succ, List.range_add,
      List.map_append, List.map_map]
    simpa using byte

/-- Packed bits come back, followed by fewer than eight pad bits, which are 0 (30_encoding.md R104). -/
theorem dataBits_packBits (bits : List Bool) : ∃ pad, dataBits (packBits bits) = bits ++ List.replicate pad false := by
  refine ⟨8 * ((bits.length + 7) / 8) - bits.length, ?_⟩
  rw [packBits, dataBits_map_dataByte]
  refine List.ext_getElem (by simp; omega) fun i hi _ => ?_
  rw [List.getElem_map, List.getElem_range, List.getElem_append]
  split
  · rw [List.getD_eq_getElem]
  · rw [List.getD_eq_default _ _ (by omega), List.getElem_replicate]

/-- The bits of a code are its value. -/
theorem bitsValue_codeBits {c width : Nat} (h : c < 2 ^ width) : bitsValue (codeBits c width) = c := by
  induction width generalizing c with
  | zero =>
    obtain rfl : c = 0 := by omega
    rfl
  | succ width ih =>
    have rest : codeBits c (width + 1) = c.testBit 0 :: codeBits (c / 2) width := by
      rw [codeBits, List.range_succ_eq_map, List.map_cons, List.map_map]
      exact congrArg _ (List.map_congr_left fun i _ => Nat.testBit_succ c i)
    have parity : (if c.testBit 0 = true then 1 else 0) = c % 2 := by
      rw [Nat.testBit_zero]
      rcases Nat.mod_two_eq_zero_or_one c with h | h <;> simp [h]
    rw [rest, bitsValue, ih (by omega), parity]
    omega

/-- A code followed by a 0 bit is the same code in one bit more (41_lzw_decompress.md R179). -/
theorem codeBits_append_false {c width : Nat} (h : c < 2 ^ width) : codeBits c width ++ [false] = codeBits c (width + 1) := by
  rw [codeBits, codeBits, List.range_succ, List.map_append, List.map_singleton, Nat.testBit_lt_two_pow h]

/-! ### One code of the reference decompressor -/

/-- The symbols of a data code (41_lzw_decompress.md R161 to R163). -/
def symbolsOf (m next : Nat) (prev : Option (List Byte)) (tab : List (Nat × List Byte)) (c : Nat) : Option (List Byte) :=
  if c < next then some (sequenceOf m tab c) else if c = next then prev.map fun s => s ++ [s.headD 0] else none

section Step

variable {m n fuel next width c : Nat} {prev : Option (List Byte)} {tab : List (Nat × List Byte)} {out s p : List Byte}
  {bits : List Bool}

/-- Fewer bits are left than a code has (41_lzw_decompress.md R154). -/
theorem decodeBits_of_short (short : bits.length < width) :
    decodeBits m n (fuel + 1) next width prev tab out bits = (out, .endOfData) := by
  rw [decodeBits]
  exact if_pos short

variable (enough : width ≤ bits.length) (value : bitsValue (bits.take width) = c)

include enough value

/-- CLEAR (41_lzw_decompress.md R157). -/
theorem decodeBits_of_clear (h : c = 2 ^ m) :
    decodeBits m n (fuel + 1) next width prev tab out bits =
      decodeBits m n fuel (2 ^ m + 2) (m + 1) none [] out (bits.drop width) := by
  rw [decodeBits, if_neg (Nat.not_lt.mpr enough), value]
  exact if_pos h

/-- EOI (41_lzw_decompress.md R158). -/
theorem decodeBits_of_eoi (h : c = 2 ^ m + 1) : decodeBits m n (fuel + 1) next width prev tab out bits = (out, .eoi) := by
  rw [decodeBits, if_neg (Nat.not_lt.mpr enough), value]
  exact (if_neg (by omega)).trans (if_pos h)

variable (notClear : c ≠ 2 ^ m) (notEoi : c ≠ 2 ^ m + 1)

include notClear notEoi

/-- INVALID (41_lzw_decompress.md R164). -/
theorem decodeBits_of_invalid (hs : symbolsOf m next prev tab c = none) :
    decodeBits m n (fuel + 1) next width prev tab out bits = (out, .invalid c) := by
  unfold symbolsOf at hs
  rw [decodeBits, if_neg (Nat.not_lt.mpr enough), value]
  simp only [if_neg notClear, if_neg notEoi, hs]

variable (hs : symbolsOf m next prev tab c = some s)

include hs

/-- A data code that does not fit (41_lzw_decompress.md R165). -/
theorem decodeBits_of_long (long : n < out.length + s.length) :
    decodeBits m n (fuel + 1) next width prev tab out bits = (out, .long) := by
  unfold symbolsOf at hs
  rw [decodeBits, if_neg (Nat.not_lt.mpr enough), value]
  simp only [if_neg notClear, if_neg notEoi, hs, if_pos long]

/-- A data code that makes no entry: the first one of a table, or one after the table is full (41_lzw_decompress.md R166). -/
theorem decodeBits_of_stay (fits : out.length + s.length ≤ n) (stay : prev = none ∨ 4096 ≤ next) :
    decodeBits m n (fuel + 1) next width prev tab out bits =
      decodeBits m n fuel next width (some s) tab (out ++ s) (bits.drop width) := by
  unfold symbolsOf at hs
  rw [decodeBits, if_neg (Nat.not_lt.mpr enough), value]
  simp only [if_neg notClear, if_neg notEoi, hs, if_neg (Nat.not_lt.mpr fits)]
  rcases stay with rfl | full
  · rfl
  · cases prev with
    | none => rfl
    | some p => exact if_neg (Nat.not_lt.mpr full)

/-- A data code with its insertion (41_lzw_decompress.md R166 to R168). -/
theorem decodeBits_of_insert (fits : out.length + s.length ≤ n) (hp : prev = some p) (room : next < 4096) :
    decodeBits m n (fuel + 1) next width prev tab out bits =
      decodeBits m n fuel (next + 1) (if 2 ^ width ≤ next + 1 ∧ width < 12 then width + 1 else width) (some s)
        ((next, p ++ [s.headD 0]) :: tab) (out ++ s) (bits.drop width) := by
  subst hp
  unfold symbolsOf at hs
  rw [decodeBits, if_neg (Nat.not_lt.mpr enough), value]
  simp only [if_neg notClear, if_neg notEoi, hs, if_neg (Nat.not_lt.mpr fits), if_pos room]

end Step

/-! ### A code at the head of the bits -/

section Head

variable {c width : Nat} {rest : List Bool}

theorem width_le_codeBits : width ≤ (codeBits c width ++ rest).length := by simp

theorem bitsValue_take_codeBits (h : c < 2 ^ width) : bitsValue ((codeBits c width ++ rest).take width) = c := by
  rw [List.take_left' (length_codeBits ..), bitsValue_codeBits h]

theorem drop_codeBits : (codeBits c width ++ rest).drop width = rest := List.drop_left' (length_codeBits ..)

end Head

/-! ### The compressor's table and its sequences -/

/-- The compressor's table with the sequence each of its codes stands for (41_lzw_decompress.md R160). -/
inductive Spells (m : Nat) : List ((Nat × Nat) × Nat) → List (Nat × List Byte) → Nat → Prop where
  | nil : Spells m [] [] (2 ^ m + 2)
  | cons {tab : List ((Nat × Nat) × Nat)} {seqs : List (Nat × List Byte)} {next pfx k : Nat} : Spells m tab seqs next →
      DataCode m next pfx →
      Spells m (((pfx, k), next) :: tab) ((next, sequenceOf m seqs pfx ++ [BitVec.ofNat 8 k]) :: seqs) (next + 1)

theorem sequenceOf_literal {m c : Nat} (tab : List (Nat × List Byte)) (h : c < 2 ^ m) :
    sequenceOf m tab c = [BitVec.ofNat 8 c] := if_pos h

theorem sequenceOf_cons_self {m c : Nat} (s : List Byte) (tab : List (Nat × List Byte)) (h : 2 ^ m ≤ c) :
    sequenceOf m ((c, s) :: tab) c = s := by
  simp [sequenceOf, Nat.not_lt.mpr h]

theorem sequenceOf_cons_of_ne {m c d : Nat} (s : List Byte) (tab : List (Nat × List Byte)) (h : d ≠ c) :
    sequenceOf m ((d, s) :: tab) c = sequenceOf m tab c := by
  simp [sequenceOf, h]

section Spelling

variable {m next pfx k c : Nat} {tab : List ((Nat × Nat) × Nat)} {seqs : List (Nat × List Byte)}

theorem Spells.first_le (h : Spells m tab seqs next) : 2 ^ m + 2 ≤ next := by
  induction h with
  | nil => exact Nat.le_refl _
  | cons _ _ ih => exact Nat.le_succ_of_le ih

/-- A data code is not the next code. -/
theorem Spells.ne_next (h : Spells m tab seqs next) (hc : DataCode m next c) : next ≠ c := by
  have := h.first_le
  rcases hc with lt | ⟨-, lt⟩ <;> omega

theorem Spells.sequenceOf_ne_nil (h : Spells m tab seqs next) (hc : DataCode m next c) : sequenceOf m seqs c ≠ [] := by
  by_cases lit : c < 2 ^ m
  · rw [sequenceOf_literal _ lit]; exact List.cons_ne_nil _ _
  · obtain ⟨first, below⟩ := hc.resolve_left lit
    induction h with
    | nil => exact absurd below (Nat.not_lt.mpr first)
    | @cons tab seqs next pfx k older hp ih =>
      by_cases new : next = c
      · rw [new, sequenceOf_cons_self _ _ (by omega)]; simp
      · rw [sequenceOf_cons_of_ne _ _ new]; exact ih (.inr ⟨first, by omega⟩) (by omega)

/-- A hit extends the pending code's sequence by the symbol (40_lzw_compress.md R125). -/
theorem Spells.hit (h : Spells m tab seqs next) (hl : tab.lookup (pfx, k) = some c) :
    DataCode m next pfx ∧ DataCode m next c ∧ sequenceOf m seqs c = sequenceOf m seqs pfx ++ [BitVec.ofNat 8 k] := by
  induction h with
  | nil => cases hl
  | @cons tab seqs next pfx' k' older hp ih =>
    have first := older.first_le
    rw [List.lookup_cons] at hl
    split at hl
    · rename_i key
      cases hl
      obtain ⟨rfl, rfl⟩ : pfx = pfx' ∧ k = k' := by simpa using key
      rw [sequenceOf_cons_self _ _ (by omega), sequenceOf_cons_of_ne _ _ (older.ne_next hp)]
      exact ⟨hp.mono (Nat.le_succ _), .inr ⟨first, Nat.lt_succ_self _⟩, rfl⟩
    · obtain ⟨hpfx, hc, seq⟩ := ih hl
      rw [sequenceOf_cons_of_ne _ _ (older.ne_next hc), sequenceOf_cons_of_ne _ _ (older.ne_next hpfx)]
      exact ⟨hpfx.mono (Nat.le_succ _), hc.mono (Nat.le_succ _), seq⟩

end Spelling

/-! ### The lag -/

/-- The decompressor before it reads the code `pfx`: nothing read since CLEAR, or one entry behind the compressor's table, the
entry of the previous sequence and the first symbol of `pfx`'s (41_lzw_decompress.md R166). -/
inductive Lags (m next pfx : Nat) (seqs : List (Nat × List Byte)) : Nat → Option (List Byte) → List (Nat × List Byte) → Prop where
  | fresh : next = 2 ^ m + 2 → seqs = [] → Lags m next pfx seqs next none []
  | behind {nextD : Nat} {p : List Byte} {tab : List (Nat × List Byte)} : next = nextD + 1 → 2 ^ m + 2 ≤ nextD → p ≠ [] →
      seqs = (nextD, p ++ [(sequenceOf m seqs pfx).headD 0]) :: tab → Lags m next pfx seqs nextD (some p) tab

section Lag

variable {m n fuel next nextD width pfx : Nat} {tab : List ((Nat × Nat) × Nat)} {seqs tabD : List (Nat × List Byte)}
  {prev : Option (List Byte)} {out : List Byte} {rest : List Bool}

/-- The lagging decompressor gives the pending code the sequence the compressor means, by REF, or by KWK if it is the entry it is
behind by (41_lzw_decompress.md R162, R163). -/
theorem Lags.symbolsOf (h : Lags m next pfx seqs nextD prev tabD) (hp : DataCode m next pfx) :
    symbolsOf m nextD prev tabD pfx = some (sequenceOf m seqs pfx) := by
  unfold Claims.symbolsOf
  cases h with
  | fresh hn hs =>
    have below : pfx < next := by rcases hp with lt | ⟨-, lt⟩ <;> omega
    rw [if_pos below, hs]
  | @behind nextD p tab hn first ne hs =>
    by_cases kwk : pfx = nextD
    · have seq : sequenceOf m seqs pfx = p ++ [(sequenceOf m seqs pfx).headD 0] := by
        rw (occs := [1]) [hs]
        rw [kwk, sequenceOf_cons_self _ _ (by omega)]
      obtain ⟨b, p, rfl⟩ := List.exists_cons_of_ne_nil ne
      have head : (sequenceOf m seqs pfx).headD 0 = b := by rw [seq]; rfl
      rw [if_neg (by omega), if_pos kwk, seq, head]
      rfl
    · have below : pfx < nextD := by rcases hp with lt | ⟨-, lt⟩ <;> omega
      rw [if_pos below, hs, sequenceOf_cons_of_ne _ _ (Ne.symm kwk)]

/-- A hit changes the pending code, but not the first symbol of its sequence (40_lzw_compress.md R125). -/
theorem Lags.hit {c k : Nat} (h : Lags m next pfx seqs nextD prev tabD) (spells : Spells m tab seqs next)
    (hl : tab.lookup (pfx, k) = some c) : Lags m next c seqs nextD prev tabD := by
  obtain ⟨hp, -, seq⟩ := spells.hit hl
  obtain ⟨b, s, hs⟩ := List.exists_cons_of_ne_nil (spells.sequenceOf_ne_nil hp)
  cases h with
  | fresh hn hs => exact .fresh hn hs
  | behind hn first ne eq =>
    refine .behind hn first ne (eq.trans ?_)
    rw [seq, hs]
    rfl

/-- The compressor's registers within the bounds of 10_state.md R46, with the symbols `ks` left. -/
structure Bounds (m next width pfx : Nat) (ks : List Nat) : Prop where
  m_range : 2 ≤ m
  next_full : next ≤ 4096
  next_width : next ≤ 2 ^ width
  width_range : m + 1 ≤ width ∧ width ≤ 12
  pfx_code : DataCode m next pfx
  symbols : ∀ k ∈ ks, k < 2 ^ m

section Bounded

variable {k : Nat} {ks : List Nat}

/-- CLEAR, EOI and the first table code fit every width (00_scope.md R12). -/
theorem Bounds.first_lt (b : Bounds m next width pfx ks) : 2 ^ m + 2 < 2 ^ width :=
  Nat.lt_of_lt_of_le (Machine.firstCode_lt_two_pow b.m_range) (Nat.pow_le_pow_right (by decide) b.width_range.1)

theorem Bounds.fresh (b : Bounds m next width pfx (k :: ks)) : Bounds m (2 ^ m + 2) (m + 1) k ks := by
  obtain ⟨narrow, wide⟩ := b.width_range
  obtain ⟨hk, symbols⟩ := List.forall_mem_cons.mp b.symbols
  have pow : 2 ^ m ≤ 2 ^ 11 := Nat.pow_le_pow_right (by decide) (by omega)
  exact ⟨b.m_range, by omega, Nat.le_of_lt (Machine.firstCode_lt_two_pow b.m_range), ⟨Nat.le_refl _, by omega⟩, .inl hk, symbols⟩

/-- The width grows only below its maximum (30_encoding.md R99). -/
theorem Bounds.width_lt (b : Bounds m next width pfx ks) (grows : 2 ^ width ≤ next) (room : next ≠ 4096) : width < 12 := by
  have full := b.next_full
  exact (Nat.pow_lt_pow_iff_right (a := 2) (by decide)).mp (show 2 ^ width < 4096 by omega)

theorem Bounds.insert (b : Bounds m next width pfx (k :: ks)) (room : next ≠ 4096) :
    Bounds m (next + 1) (if 2 ^ width ≤ next then width + 1 else width) k ks := by
  have grows := b.width_lt (room := room)
  obtain ⟨hm, full, fits, ⟨narrow, wide⟩, -, symbols⟩ := b
  obtain ⟨hk, symbols⟩ := List.forall_mem_cons.mp symbols
  have double : 2 ^ (width + 1) = 2 * 2 ^ width := Nat.pow_succ'
  have positive := Nat.two_pow_pos width
  refine ⟨hm, by omega, by split <;> omega, ?_, .inl hk, symbols⟩
  split
  · exact ⟨by omega, grows ‹_›⟩
  · exact ⟨narrow, wide⟩

end Bounded

/-- Reading the pending code the decompressor catches up. -/
theorem Lags.decode {ks : List Nat} (h : Lags m next pfx seqs nextD prev tabD) (b : Bounds m next width pfx ks)
    (fits : out.length + (sequenceOf m seqs pfx).length ≤ n) :
    decodeBits m n (fuel + 1) nextD width prev tabD out (codeBits pfx width ++ rest) =
      decodeBits m n fuel next (if 2 ^ width ≤ next ∧ width < 12 then width + 1 else width) (some (sequenceOf m seqs pfx)) seqs
        (out ++ sequenceOf m seqs pfx) rest := by
  have symbols := h.symbolsOf b.pfx_code
  have first_lt := b.first_lt
  have next_width := b.next_width
  have full := b.next_full
  have code : pfx < 2 ^ width ∧ pfx ≠ 2 ^ m ∧ pfx ≠ 2 ^ m + 1 := by
    rcases b.pfx_code with lt | ⟨ge, lt⟩
    · omega
    · unfold firstCode at ge; omega
  obtain ⟨below, notClear, notEoi⟩ := code
  cases h with
  | fresh hn hs =>
    rw [decodeBits_of_stay width_le_codeBits (bitsValue_take_codeBits below) notClear notEoi symbols fits (.inl rfl),
      drop_codeBits, if_neg (by omega), ← hs]
  | @behind nextD p tab hn first ne hs =>
    rw [decodeBits_of_insert width_le_codeBits (bitsValue_take_codeBits below) notClear notEoi symbols fits rfl (by omega),
      drop_codeBits, ← hn, ← hs]

/-- After the last pending code: EOI, in one bit more if the decompressor has raised its width, or the end of the data if that
bit is not there (41_lzw_decompress.md R179). -/
theorem decodeBits_end {prev : Option (List Byte)} {tab : List (Nat × List Byte)} {w' : Nat} (h : 2 ^ m + 1 < 2 ^ width)
    (hw : w' = width ∨ w' = width + 1) (pad : Nat) :
    ∃ e, decodeBits m n (fuel + 1) next w' prev tab out (codeBits (2 ^ m + 1) width ++ List.replicate pad false) = (out, e) ∧
      (e = .eoi ∨ e = .endOfData) := by
  rcases hw with rfl | rfl
  · exact ⟨.eoi, decodeBits_of_eoi width_le_codeBits (bitsValue_take_codeBits h) rfl, .inl rfl⟩
  · cases pad with
    | zero =>
      exact ⟨.endOfData, decodeBits_of_short (by simp), .inr rfl⟩
    | succ pad =>
      refine ⟨.eoi, ?_, .inl rfl⟩
      rw [List.replicate_succ, List.append_cons, codeBits_append_false h]
      have wider := Nat.lt_of_lt_of_le h (Nat.pow_le_pow_right (by decide) (Nat.le_succ width))
      exact decodeBits_of_eoi width_le_codeBits (bitsValue_take_codeBits wider) rfl

section Codes

variable {k : Nat} {ks : List Nat}

theorem codesAfter_hit {c : Nat} (h : tab.lookup (pfx, k) = some c) :
    codesAfter m next width pfx tab (k :: ks) = codesAfter m next width c tab ks := by
  rw [codesAfter, h]

theorem codesAfter_full (h : tab.lookup (pfx, k) = none) :
    codesAfter m 4096 width pfx tab (k :: ks) =
      (pfx, width) :: (2 ^ m, width) :: codesAfter m (2 ^ m + 2) (m + 1) k [] ks := by
  rw [codesAfter, h]
  rfl

theorem codesAfter_miss (h : tab.lookup (pfx, k) = none) (room : next ≠ 4096) :
    codesAfter m next width pfx tab (k :: ks) =
      (pfx, width) :: codesAfter m (next + 1) (if 2 ^ width ≤ next then width + 1 else width) k (((pfx, k), next) :: tab) ks := by
  rw [codesAfter, h]
  exact congrArg _ (if_neg room)

end Codes

/-- The reference decompressor reads back, from the codes for `pfx` and the symbols `ks`, the sequence of `pfx` and `ks`. -/
theorem decodeBits_codesAfter {ks : List Nat} (pad : Nat) (h : Lags m next pfx seqs nextD prev tabD)
    (spells : Spells m tab seqs next) (b : Bounds m next width pfx ks)
    (len : out.length + (sequenceOf m seqs pfx).length + ks.length ≤ n)
    (hf : (bitsOf (codesAfter m next width pfx tab ks)).length ≤ fuel) :
    ∃ e, decodeBits m n fuel nextD width prev tabD out
        (bitsOf (codesAfter m next width pfx tab ks) ++ List.replicate pad false) =
          (out ++ sequenceOf m seqs pfx ++ ks.map (BitVec.ofNat 8), e) ∧ (e = .eoi ∨ e = .endOfData) := by
  induction ks generalizing next pfx seqs nextD prev tabD tab width out fuel with
  | nil =>
    have narrow := b.width_range.1
    rw [codesAfter] at hf ⊢
    simp only [bitsOf_cons, bitsOf_nil, List.append_nil, List.length_append, length_codeBits, List.append_assoc] at hf ⊢
    obtain ⟨fuel, rfl⟩ : ∃ f, fuel = f + 2 := ⟨fuel - 2, by omega⟩
    rw [h.decode b (by omega), List.map_nil, List.append_nil]
    exact decodeBits_end (Nat.lt_of_succ_lt b.first_lt) (by split <;> simp) pad
  | cons k ks ih =>
    have narrow := b.width_range.1
    have hk := b.symbols k List.mem_cons_self
    rw [List.length_cons] at len
    cases hl : tab.lookup (pfx, k) with
    | some c =>
      obtain ⟨-, hc, seq⟩ := spells.hit hl
      rw [codesAfter_hit hl] at hf ⊢
      have bounds : Bounds m next width c ks :=
        { b with pfx_code := hc, symbols := fun x hx => b.symbols x (List.mem_cons_of_mem _ hx) }
      obtain ⟨e, run, he⟩ := ih (out := out) (h.hit spells hl) spells bounds (by rw [seq, List.length_append]; simp; omega) hf
      exact ⟨e, by rw [run, seq]; simp, he⟩
    | none =>
      have literal (seqs : List (Nat × List Byte)) : sequenceOf m seqs k = [BitVec.ofNat 8 k] := sequenceOf_literal seqs hk
      by_cases room : next = 4096
      · subst room
        have wide : ¬ width < 12 := fun lt => by
          have fits : 2 ^ 12 ≤ 2 ^ width := b.next_width
          have := (Nat.pow_le_pow_iff_right (by decide)).mp fits
          omega
        have clear : 2 ^ m < 2 ^ width := Nat.lt_of_succ_lt (Nat.lt_of_succ_lt b.first_lt)
        rw [codesAfter_full hl] at hf ⊢
        simp only [bitsOf_cons, List.length_append, length_codeBits, List.append_assoc] at hf ⊢
        obtain ⟨fuel, rfl⟩ : ∃ f, fuel = f + 2 := ⟨fuel - 2, by omega⟩
        rw [h.decode b (by omega), if_neg fun k => wide k.2,
          decodeBits_of_clear width_le_codeBits (bitsValue_take_codeBits clear) rfl, drop_codeBits]
        obtain ⟨e, run, he⟩ := ih (out := out ++ sequenceOf m seqs pfx) (fuel := fuel) (.fresh rfl rfl) .nil b.fresh
          (by rw [literal, List.length_append, List.length_singleton]; omega) (by omega)
        exact ⟨e, by rw [run, literal]; simp, he⟩
      · rw [codesAfter_miss hl room] at hf ⊢
        simp only [bitsOf_cons, List.length_append, length_codeBits, List.append_assoc] at hf ⊢
        obtain ⟨fuel, rfl⟩ : ∃ f, fuel = f + 1 := ⟨fuel - 1, by omega⟩
        have same : (2 ^ width ≤ next ∧ width < 12) ↔ 2 ^ width ≤ next := and_iff_left_of_imp fun ge => b.width_lt ge room
        rw [h.decode b (by omega)]
        simp only [same]
        obtain ⟨e, run, he⟩ := ih (out := out ++ sequenceOf m seqs pfx) (fuel := fuel)
          (.behind rfl spells.first_le (spells.sequenceOf_ne_nil b.pfx_code) (by rw [literal]; rfl)) (spells.cons b.pfx_code)
          (b.insert room) (by rw [literal, List.length_append, List.length_singleton]; omega) (by omega)
        exact ⟨e, by rw [run, literal]; simp, he⟩

end Lag

/-- The reference decompressor undoes the reference compressor, with EOI_SEEN left open (41_lzw_decompress.md R179). -/
theorem decoded_packBits {m : Nat} {ks : List Nat} (hm : 2 ≤ m ∧ m ≤ 8) (ne : ks ≠ []) (symbols : ∀ k ∈ ks, k < 2 ^ m) :
    ∃ e, decoded m ks.length (packBits (bitsOf (codesOf m ks))) = (ks.map (BitVec.ofNat 8), e) ∧
      (e = .eoi ∨ e = .endOfData) := by
  obtain ⟨k, ks, rfl⟩ := List.exists_cons_of_ne_nil ne
  obtain ⟨hk, symbols⟩ := List.forall_mem_cons.mp symbols
  obtain ⟨pad, data⟩ := dataBits_packBits (bitsOf (codesOf m (k :: ks)))
  have pow : 2 ^ m ≤ 2 ^ 8 := Nat.pow_le_pow_right (by decide) hm.2
  have first := Machine.firstCode_lt_two_pow hm.1
  have bounds : Bounds m (2 ^ m + 2) (m + 1) k ks :=
    ⟨hm.1, by omega, Nat.le_of_lt first, ⟨Nat.le_refl _, by omega⟩, .inl hk, symbols⟩
  have literal : sequenceOf m [] k = [BitVec.ofNat 8 k] := sequenceOf_literal [] hk
  rw [decoded, data, codesOf, bitsOf_cons, List.append_assoc, List.length_append, length_codeBits, List.length_append,
    Nat.add_comm, ← Nat.add_assoc, decodeBits_of_clear width_le_codeBits
      (bitsValue_take_codeBits (Nat.lt_of_succ_lt (Nat.lt_of_succ_lt first))) rfl, drop_codeBits]
  obtain ⟨e, run, he⟩ := decodeBits_codesAfter (n := (k :: ks).length) (out := [])
    (fuel := (bitsOf (codesAfter m (2 ^ m + 2) (m + 1) k [] ks)).length + (List.replicate pad false).length + m) pad
    (.fresh rfl rfl) .nil bounds (by rw [literal]; simp; omega) (by omega)
  exact ⟨e, by rw [run, literal]; simp, he⟩

end Sys2Proof.Claims
end

section
/-! PROOF. What LZWD fetches (41_lzw_decompress.md R153, R154), against the bits of the stream: a code is the next d_width bits,
and the data ends where fewer are left. -/

namespace Sys2Proof.Machine

open Sys2Proof.Claims

/-! ### The accumulator as bits -/

theorem codeBits_mod (c width : Nat) : codeBits (c % 2 ^ width) width = codeBits c width :=
  List.map_congr_left fun i hi => by rw [Nat.testBit_mod_two_pow, decide_eq_true (List.mem_range.mp hi), Bool.true_and]

/-- Bits that enter above those held. -/
theorem codeBits_push {acc nb : Nat} (c k : Nat) (h : acc < 2 ^ nb) :
    codeBits (acc ||| (c <<< nb)) (nb + k) = codeBits acc nb ++ codeBits c k := by
  rw [codeBits, List.range_add, List.map_append, List.map_map]
  congr 1
  · refine List.map_congr_left fun i hi => ?_
    have low : ¬ nb ≤ i := Nat.not_le.mpr (List.mem_range.mp hi)
    simp [Nat.testBit_or, Nat.testBit_shiftLeft, low]
  · refine List.map_congr_left fun i _ => ?_
    have high : acc.testBit (nb + i) = false :=
      Nat.testBit_lt_two_pow (Nat.lt_of_lt_of_le h (Nat.pow_le_pow_right (by decide) (Nat.le_add_right ..)))
    simp [Nat.testBit_or, Nat.testBit_shiftLeft, high]

/-- The low bits and the rest. -/
theorem codeBits_split (acc : Nat) {width nb : Nat} (h : width ≤ nb) :
    codeBits acc nb = codeBits acc width ++ codeBits (acc >>> width) (nb - width) := by
  obtain ⟨k, rfl⟩ := Nat.exists_eq_add_of_le h
  rw [Nat.add_sub_cancel_left, codeBits, List.range_add, List.map_append, List.map_map]
  congr 1
  exact List.map_congr_left fun i _ => (Nat.testBit_shiftRight ..).symm

theorem dataBits_cons (b : Byte) (data : List Byte) : dataBits (b :: data) = codeBits b.toNat 8 ++ dataBits data := rfl

/-! ### The bits still to come -/

/-- The bytes of SRC from `a` on can be read, and are these. -/
def State.fetches (s : State) (a : Nat) (bytes : List Byte) : Prop :=
  ∀ j (h : j < bytes.length), s.fetchByte .src (a + j) = .value bytes[j]

theorem State.fetches_cons {s : State} {a : Nat} {b : Byte} {bytes : List Byte} :
    s.fetches a (b :: bytes) ↔ s.fetchByte .src a = .value b ∧ s.fetches (a + 1) bytes := by
  constructor
  · refine fun h => ⟨h 0 (by simp), fun j hj => ?_⟩
    rw [Nat.add_assoc, Nat.add_comm 1]
    exact h (j + 1) (by simpa using hj)
  · rintro ⟨first, rest⟩ j hj
    cases j with
    | zero => exact first
    | succ j =>
      have shift : a + (j + 1) = a + 1 + j := by omega
      rw [List.getElem_cons_succ, shift]
      exact rest j (by simpa using hj)

/-- Sub-blocks as they stand in a stream, with the terminator (30_encoding.md R93). -/
def blockBytes (blocks : List (List Byte)) : List Byte := (blocks.flatMap fun b => BitVec.ofNat 8 b.length :: b) ++ [0]

/-- The sub-blocks a stream can have (30_encoding.md R93). -/
def BlocksOk (blocks : List (List Byte)) : Prop := ∀ b ∈ blocks, 1 ≤ b.length ∧ b.length ≤ 255

/-- The bits LZWD has still to read: those held in d_acc, and then the data bytes up to the terminator. -/
inductive Lzwd.Sees (s : State) (w : Lzwd) : List Bool → Prop where
  | ended : w.acc < 2 ^ w.nb → w.ended = true → Sees s w (codeBits w.acc w.nb)
  | data (block : List Byte) (blocks : List (List Byte)) : w.acc < 2 ^ w.nb → w.ended = false → w.sbrem = block.length →
      BlocksOk blocks → s.fetches w.p (block ++ blockBytes blocks) →
      Sees s w (codeBits w.acc w.nb ++ dataBits (block ++ blocks.flatten))

section Fetch

variable {s : State} {w : Lzwd} {bits : List Bool}

/-- Reading a data byte (41_lzw_decompress.md R153). -/
theorem refillData_sees {b : Byte} {block : List Byte} {blocks : List (List Byte)} (hacc : w.acc < 2 ^ w.nb)
    (he : w.ended = false) (hs : w.sbrem = (b :: block).length) (ok : BlocksOk blocks)
    (hf : s.fetches w.p (b :: block ++ blockBytes blocks)) :
    refillData s w = .ready (w.takeByte b) ∧
      (w.takeByte b).Sees s (codeBits w.acc w.nb ++ dataBits (b :: block ++ blocks.flatten)) := by
  obtain ⟨first, rest⟩ := State.fetches_cons.mp hf
  refine ⟨by rw [refillData, first], ?_⟩
  rw [List.cons_append, dataBits_cons, ← List.append_assoc, ← codeBits_push _ 8 hacc]
  exact .data block blocks (acc_takeByte_lt b hacc) he (by simp [Lzwd.takeByte, hs]) ok rest

/-- One turn of the refill loop keeps the bits to come; it adds eight to those held, or finds the terminator. -/
theorem refillTurn_sees (h : w.Sees s bits) (he : w.ended = false) :
    ∃ w', refillTurn s w = .ready w' ∧ w'.Sees s bits ∧ w.Same w' ∧
      ((w'.nb = w.nb + 8 ∧ w'.ended = false) ∨ w'.ended = true) := by
  cases h with
  | ended _ e => rw [he] at e; cases e
  | data block blocks hacc _ hs ok hf =>
    unfold refillTurn
    cases block with
    | cons b block =>
      obtain ⟨run, sees⟩ := refillData_sees hacc he hs ok hf
      rw [if_neg (by simp [hs])]
      exact ⟨_, run, sees, ⟨rfl, rfl, rfl, rfl, rfl, rfl, rfl⟩, .inl ⟨rfl, he⟩⟩
    | nil =>
      rw [if_pos (by simpa using hs)]
      cases blocks with
      | nil =>
        obtain ⟨zero, -⟩ := State.fetches_cons.mp hf
        refine ⟨w.takeLength 0, by simp only [zero, if_true], ?_, ⟨rfl, rfl, rfl, rfl, rfl, rfl, rfl⟩, .inr rfl⟩
        rw [List.nil_append, List.flatten_nil, show dataBits [] = [] from rfl, List.append_nil]
        exact .ended (w := w.takeLength 0) hacc rfl
      | cons block blocks =>
        obtain ⟨⟨one, most⟩, later⟩ := List.forall_mem_cons.mp ok
        obtain ⟨b, block, rfl⟩ := List.exists_cons_of_ne_nil (List.length_pos_iff.mp one)
        have split : blockBytes ((b :: block) :: blocks) =
            BitVec.ofNat 8 (b :: block).length :: (b :: block ++ blockBytes blocks) := by simp [blockBytes]
        rw [List.nil_append, split] at hf
        obtain ⟨length, rest⟩ := State.fetches_cons.mp hf
        have value : (BitVec.ofNat 8 (b :: block).length).toNat = (b :: block).length :=
          (BitVec.toNat_ofNat ..).trans (Nat.mod_eq_of_lt (by omega))
        have nonzero : BitVec.ofNat 8 (b :: block).length ≠ 0 := fun z => by
          rw [z] at value; simp at value
        have taken : w.takeLength (BitVec.ofNat 8 (b :: block).length) = { w with p := w.p + 1, sbrem := (b :: block).length } := by
          rw [Lzwd.takeLength, if_neg nonzero, value]
        obtain ⟨run, sees⟩ := refillData_sees (w := { w with p := w.p + 1, sbrem := (b :: block).length })
          (block := block) (blocks := blocks) hacc he rfl later rest
        simp only [length, if_neg nonzero, taken]
        exact ⟨_, run, sees, ⟨rfl, rfl, rfl, rfl, rfl, rfl, rfl⟩, .inl ⟨rfl, he⟩⟩

/-- The refill loop, given enough turns, keeps the bits to come; it holds enough of them, or the data has ended. -/
theorem refill_sees (fuel : Nat) (h : w.Sees s bits) (hf : w.width ≤ w.nb + fuel) :
    ∃ w', refill s fuel w = .ready w' ∧ w'.Sees s bits ∧ w.Same w' ∧ (w.width ≤ w'.nb ∨ w'.ended = true) := by
  induction fuel generalizing w with
  | zero => exact ⟨w, rfl, h, .refl w, .inl hf⟩
  | succ fuel ih =>
    unfold refill
    split
    · rename_i need
      obtain ⟨v, run, sees, same, more⟩ := refillTurn_sees h need.2
      rw [run]
      rcases more with ⟨nb, -⟩ | ended
      · obtain ⟨u, run, sees, same', enough⟩ := ih sees (by rw [same.width]; omega)
        exact ⟨u, run, sees, same.trans same', same.width ▸ enough⟩
      · have stop : refill s fuel v = .ready v := by
          cases fuel with
          | zero => rfl
          | succ f => simp [refill, ended]
        exact ⟨v, stop, sees, same, .inr ended⟩
    · rename_i enough
      refine ⟨w, rfl, h, .refl w, ?_⟩
      cases e : w.ended with
      | true => exact .inr rfl
      | false => exact .inl (Nat.not_lt.mp fun lt => enough ⟨lt, e⟩)

theorem Lzwd.Sees.held (h : w.Sees s bits) (ht : w.ended = true) : bits = codeBits w.acc w.nb := by
  cases h with
  | ended => rfl
  | data _ _ _ e => rw [ht] at e; cases e

/-- Taking a code out of the bits held (41_lzw_decompress.md R153). -/
theorem Lzwd.Sees.dropCode (h : w.Sees s bits) (enough : w.width ≤ w.nb) :
    bits.take w.width = codeBits w.acc w.width ∧ w.dropCode.Sees s (bits.drop w.width) := by
  have small (hacc : w.acc < 2 ^ w.nb) : w.acc >>> w.width < 2 ^ (w.nb - w.width) := by
    rw [Nat.shiftRight_eq_div_pow, Nat.div_lt_iff_lt_mul (Nat.two_pow_pos _), ← Nat.pow_add, Nat.sub_add_cancel enough]
    exact hacc
  cases h with
  | ended hacc he =>
    rw [codeBits_split _ enough, List.take_left' (length_codeBits ..), List.drop_left' (length_codeBits ..)]
    exact ⟨rfl, .ended (w := w.dropCode) (small hacc) he⟩
  | data block blocks hacc he hs ok hf =>
    rw [codeBits_split _ enough, List.append_assoc, List.take_left' (length_codeBits ..), List.drop_left' (length_codeBits ..)]
    exact ⟨rfl, .data (w := w.dropCode) block blocks (small hacc) he hs ok hf⟩

/-- GetCode where a whole code is left. -/
theorem getCode_of_le (h : w.Sees s bits) (hw : w.width ≤ 12) (le : w.width ≤ bits.length) :
    ∃ w' c, getCode s w = .code w' c ∧ w.Same w' ∧ w'.Sees s (bits.drop w.width) ∧ c.toNat = bitsValue (bits.take w.width) := by
  obtain ⟨v, run, sees, same, enough⟩ := refill_sees w.width h (Nat.le_add_left ..)
  have held : v.width ≤ v.nb := by
    rw [same.width]
    refine enough.elim id fun ended => ?_
    rwa [sees.held ended, length_codeBits] at le
  obtain ⟨low, rest⟩ := sees.dropCode held
  refine ⟨v.dropCode, BitVec.ofNat 12 (v.acc &&& (2 ^ v.width - 1)), ?_, same.trans ⟨rfl, rfl, rfl, rfl, rfl, rfl, rfl⟩,
    same.width ▸ rest, ?_⟩
  · rw [getCode, run]
    exact if_neg (Nat.not_lt.mpr held)
  · have lt := Nat.mod_lt v.acc (Nat.two_pow_pos v.width)
    have fits : v.acc % 2 ^ v.width < 2 ^ 12 := Nat.lt_of_lt_of_le lt (Nat.pow_le_pow_right (by decide) (same.width ▸ hw))
    rw [← same.width, low, ← codeBits_mod, bitsValue_codeBits lt, Nat.and_two_pow_sub_one_eq_mod, BitVec.toNat_ofNat,
      Nat.mod_eq_of_lt fits]

/-- GetCode where fewer bits are left than a code has (41_lzw_decompress.md R154). -/
theorem getCode_of_lt (h : w.Sees s bits) (lt : bits.length < w.width) :
    ∃ w', getCode s w = .endOfData w' ∧ w.Same w' := by
  obtain ⟨v, run, sees, same, -⟩ := refill_sees w.width h (Nat.le_add_left ..)
  refine ⟨v, ?_, same⟩
  have short : v.nb < v.width := by
    have most : v.nb ≤ bits.length := by cases sees <;> simp
    rw [same.width]; omega
  rw [getCode, run]
  exact if_pos short

end Fetch

end Sys2Proof.Machine
end

section
/-! PROOF. LZWD computes the reference decompressor (41_lzw_decompress.md R150, R156 to R178): before each code its table, its
previous code and its output are the reference's. -/

namespace Sys2Proof.Machine

open Sys2Proof.Claims

/-! ### The registers and the reference -/

/-- The registers of LZWD hold what the reference has: `prev` the previous sequence, `tab` the sequences, `out` the output. -/
structure Lzwd.Holds (w : Lzwd) (prev : Option (List Byte)) (tab : List (Nat × List Byte)) (out : List Byte) : Prop where
  op : w.op = out.length
  prev : prev = w.prev.map (sequenceOf w.m tab)
  tab : ∀ c, DataCode w.m w.next c → seqOf w.m w.tab c = some (sequenceOf w.m tab c)

section Codes

variable {cfg : Config} {w : Lzwd} {prev : Option (List Byte)} {tab : List (Nat × List Byte)} {out symbols : List Byte}

theorem Lzwd.Holds.of_registers {w' : Lzwd} (h : w.Holds prev tab out) (same : w.Same w') : w'.Holds prev tab out := by
  obtain ⟨op, hp, ht⟩ := h
  constructor <;> simp only [same.op, same.m, same.prev, same.next, same.tab] <;> assumption

/-- After CLEAR, and at the start (41_lzw_decompress.md R152, R157). -/
theorem Lzwd.Holds.of_empty (hop : w.op = out.length) (hprev : w.prev = none) (htab : w.tab = []) (hn : w.next = firstCode w.m) :
    w.Holds none [] out := by
  refine ⟨hop, by rw [hprev]; rfl, fun c hc => ?_⟩
  have lit : c < 2 ^ w.m := hc.resolve_right fun ⟨ge, lt⟩ => by omega
  rw [htab, sequenceOf_literal _ lit]
  exact if_pos lit

/-- The new entry, and the older ones (41_lzw_decompress.md R160, R166). -/
theorem seqOf_insert {m next pfx : Nat} {t : List DEntry} {p : List Byte} (b : Byte) (first : firstCode m ≤ next)
    (ht : ∀ c, DataCode m next c → seqOf m t c = some (sequenceOf m tab c)) (hp : DataCode m next pfx)
    (seq : sequenceOf m tab pfx = p) {c : Nat} (hc : DataCode m (next + 1) c) :
    seqOf m ({ code := next, pfx := pfx, byte := b } :: t) c = some (sequenceOf m ((next, p ++ [b]) :: tab) c) := by
  have above : 2 ^ m ≤ next := Nat.le_of_lt (Nat.lt_of_succ_lt first)
  by_cases lit : c < 2 ^ m
  · rw [sequenceOf_literal _ lit]
    exact if_pos lit
  · rw [seqOf, if_neg lit]
    by_cases new : next = c
    · rw [if_pos new, ht _ hp, seq, ← new, sequenceOf_cons_self _ _ above]
      rfl
    · rw [if_neg new, sequenceOf_cons_of_ne _ _ new]
      obtain ⟨ge, lt⟩ := hc.resolve_left lit
      exact ht c (.inr ⟨ge, by omega⟩)

/-- The code just read stands for the symbols it gave, in the table with its insertion (41_lzw_decompress.md R162, R163). -/
theorem sequenceOf_read {m next c : Nat} {p : List Byte} (first : firstCode m ≤ next)
    (hs : symbolsOf m next (some p) tab c = some symbols) :
    sequenceOf m ((next, p ++ [symbols.headD 0]) :: tab) c = symbols := by
  unfold symbolsOf at hs
  split at hs
  · rename_i lt
    rw [sequenceOf_cons_of_ne _ _ (by omega)]
    exact Option.some.inj hs
  · split at hs
    · rename_i eq
      obtain rfl := Option.some.inj hs
      rw [eq, sequenceOf_cons_self _ _ (Nat.le_of_lt (Nat.lt_of_succ_lt first))]
      cases p <;> rfl
    · cases hs

theorem symbolsOf_of_stay {m next c : Nat} (stay : prev = none ∨ c < next)
    (hs : symbolsOf m next prev tab c = some symbols) : sequenceOf m tab c = symbols := by
  unfold symbolsOf at hs
  split at hs
  · exact Option.some.inj hs
  · rename_i ge
    obtain rfl := stay.resolve_right ge
    split at hs <;> cases hs

/-- A code with symbols can be the previous one (41_lzw_decompress.md R168). -/
theorem Lzwd.Holds.canLearn (h : w.Holds prev tab out) (ok : w.Ok cfg) {c : Nat} (hc : c < 4096) (notClear : c ≠ 2 ^ w.m)
    (notEoi : c ≠ 2 ^ w.m + 1) (hs : symbolsOf w.m w.next prev tab c = some symbols) : w.CanLearn c := by
  have first := ok.next_range.1
  unfold firstCode at first
  unfold symbolsOf at hs
  split at hs
  · rename_i lt
    refine .inl ?_
    by_cases lit : c < 2 ^ w.m
    · exact .inl lit
    · exact .inr ⟨by unfold firstCode; omega, lt⟩
  · split at hs
    · rename_i eq
      refine .inr ⟨by unfold firstCode; omega, eq, fun none => ?_, eq ▸ hc⟩
      rw [h.prev, none] at hs
      cases hs
    · cases hs

/-- The symbols of a code have `m` bits (41_lzw_decompress.md R160). -/
theorem Lzwd.Holds.symbols_below (h : w.Holds prev tab out) (ok : w.Ok cfg) {c : Nat} (notClear : c ≠ 2 ^ w.m)
    (notEoi : c ≠ 2 ^ w.m + 1) (hs : symbolsOf w.m w.next prev tab c = some symbols) : SymbolsBelow w.m symbols := by
  unfold symbolsOf at hs
  split at hs
  · rename_i lt
    obtain rfl := Option.some.inj hs
    have code : DataCode w.m w.next c := by
      unfold DataCode firstCode; omega
    exact ok.table.seqOf_below (h.tab c code)
  · split at hs
    · rw [h.prev] at hs
      obtain ⟨p, hp, rfl⟩ := Option.map_eq_some_iff.mp hs
      obtain ⟨code, hcode, rfl⟩ := Option.map_eq_some_iff.mp hp
      have below := ok.table.seqOf_below (h.tab _ (ok.prev_code _ hcode))
      exact below.append (.singleton below.headD)
    · cases hs

/-- The output of a data code that fits and its insertion (41_lzw_decompress.md R165 to R168): the reference goes on from the
registers as they are then. -/
theorem Lzwd.Holds.learn (h : w.Holds prev tab out) (ok : w.Ok cfg) {c : Nat} (hc : c < 4096) (notClear : c ≠ 2 ^ w.m)
    (notEoi : c ≠ 2 ^ w.m + 1) (hs : symbolsOf w.m w.next prev tab c = some symbols) (fits : out.length + symbols.length ≤ w.n)
    {v : Lzwd} (hv : v = Lzwd.learn { w with op := w.op + symbols.length } c (symbols.headD 0)) {bits : List Bool} {fuel : Nat}
    (enough : w.width ≤ bits.length) (value : bitsValue (bits.take w.width) = c) :
    ∃ tab', v.Holds (some symbols) tab' (out ++ symbols) ∧
      decodeBits w.m w.n (fuel + 1) w.next w.width prev tab out bits =
        decodeBits v.m v.n fuel v.next v.width (some symbols) tab' (out ++ symbols) (bits.drop w.width) := by
  subst hv
  have length : w.op + symbols.length = (out ++ symbols).length := by rw [h.op, List.length_append]
  have first := ok.next_range.1
  rcases Lzwd.learn_spec { w with op := w.op + symbols.length } c (symbols.headD 0) with ⟨p, hp, room, e⟩ | ⟨stay, e⟩ <;> rw [e]
  · have seq : prev = some (sequenceOf w.m tab p) := by rw [h.prev, show w.prev = some p from hp]; rfl
    subst seq
    refine ⟨(w.next, sequenceOf w.m tab p ++ [symbols.headD 0]) :: tab, ⟨length, ?_, fun d hd => ?_⟩, ?_⟩
    · exact congrArg some (sequenceOf_read first hs).symm
    · exact seqOf_insert _ first h.tab (ok.prev_code p hp) rfl hd
    · exact decodeBits_of_insert enough value notClear notEoi hs fits rfl room
  · have stays : prev = none ∨ 4096 ≤ w.next := stay.imp_left fun (hp : w.prev = none) => by rw [h.prev, hp]; rfl
    refine ⟨tab, ⟨length, ?_, h.tab⟩, decodeBits_of_stay enough value notClear notEoi hs fits stays⟩
    have seq := symbolsOf_of_stay (stays.imp_right fun full => Nat.lt_of_lt_of_le hc full) hs
    exact congrArg some seq.symm

/-! ### The codes -/

section Exec

variable {s : State} {b : Option PixelFormat} {c : BitVec 12}

/-- A code of the class `i` acts as `i` does. -/
theorem execCode_of_class (ok : w.Ok s.cfg) {i : Instr} (he : encode i = .code c) (ha : w.context.admits i = true) :
    execCode (decodeCode w.context c) s = execCode i s := by
  rw [(decodeCode_eq_iff (w.context.wf_iff.mpr ⟨ok.m_range, ok.next_range⟩)).mpr ⟨he, ha⟩]

/-- A data code does what its symbols say, as LIT, REF or KWK (41_lzw_decompress.md R161 to R163). -/
theorem Lzwd.Holds.execCode_data (h : w.Holds prev tab out) (ok : w.Ok s.cfg) (hr : s.running = .lzwd w b)
    (notClear : c.toNat ≠ 2 ^ w.m) (notEoi : c.toNat ≠ 2 ^ w.m + 1)
    (hs : symbolsOf w.m w.next prev tab c.toNat = some symbols) :
    execCode (decodeCode w.context c) s = dataCode w b c.toNat symbols s := by
  have first := ok.next_range.1
  unfold firstCode at first
  unfold symbolsOf at hs
  by_cases lt : c.toNat < w.next
  · rw [if_pos lt] at hs
    cases hs
    by_cases lit : c.toNat < 2 ^ w.m
    · have value := toNat_setWidth_of_lt_two_pow ok.m_range.2 lit
      have ha := (w.admits_lit w.m (c.setWidth 8)).mpr ⟨rfl, value ▸ lit⟩
      rw [execCode_of_class ok (encode_lit_eq_code_iff.mpr value.symm) ha, execCode, execLit, onCode_of_admits hr ha, value,
        sequenceOf_literal _ lit, ← value, BitVec.ofNat_toNat, BitVec.setWidth_eq]
    · have entry : firstCode w.m ≤ c.toNat := by unfold firstCode; omega
      have ha := (w.admits_ref c).mpr ⟨entry, lt⟩
      rw [execCode_of_class ok (encode_ref c) ha, execCode, execRef, onCode_of_admits hr ha, h.tab _ (.inr ⟨entry, lt⟩)]
  · rw [if_neg lt] at hs
    by_cases eq : c.toNat = w.next
    · rw [if_pos eq, h.prev] at hs
      obtain ⟨p, hp, rfl⟩ := Option.map_eq_some_iff.mp hs
      obtain ⟨code, hcode, rfl⟩ := Option.map_eq_some_iff.mp hp
      have ha := (w.admits_kwk c).mpr ⟨eq ▸ first, eq, by rw [hcode]; exact Option.some_ne_none code⟩
      rw [execCode_of_class ok (encode_kwk c) ha]
      simp only [execCode, execKwk, onCode_of_admits hr ha, hcode, h.tab _ (ok.prev_code _ hcode)]
    · rw [if_neg eq] at hs
      cases hs

/-- A code without symbols is INVALID (41_lzw_decompress.md R164). -/
theorem Lzwd.Holds.execCode_invalid (h : w.Holds prev tab out) (ok : w.Ok s.cfg) (hr : s.running = .lzwd w b)
    (hs : symbolsOf w.m w.next prev tab c.toNat = none) :
    execCode (decodeCode w.context c) s = .next (lzwdFault .invalidCode c.toNat w s) := by
  have first := ok.next_range.1
  unfold symbolsOf at hs
  split at hs
  · cases hs
  · rename_i ge
    have above : w.next < c.toNat ∨ (c.toNat = w.next ∧ w.prev = none) := by
      by_cases eq : c.toNat = w.next
      · rw [if_pos eq, h.prev, Option.map_map, Option.map_eq_none_iff] at hs
        exact .inr ⟨eq, hs⟩
      · exact .inl (by omega)
    have ha := (w.admits_invalid c).mpr ⟨by omega, above⟩
    rw [execCode_of_class ok (encode_invalid c) ha, execCode, execInvalid, onCode_of_admits hr ha]

/-- CLEAR (41_lzw_decompress.md R157). -/
theorem execCode_clear (ok : w.Ok s.cfg) (hr : s.running = .lzwd w b) (hc : c.toNat = 2 ^ w.m) :
    execCode (decodeCode w.context c) s =
      .next (s.setRunning (.lzwd { w with next := firstCode w.m, width := w.m + 1, prev := none, tab := [] } b)) := by
  have ha := (w.admits_clear w.m).mpr rfl
  rw [execCode_of_class ok ((encode_clear_eq_code_iff ok.m_range.2).mpr hc) ha, execCode, execClear, onCode_of_admits hr ha]

/-- EOI (41_lzw_decompress.md R158). -/
theorem execCode_eoi (ok : w.Ok s.cfg) (hr : s.running = .lzwd w b) (hc : c.toNat = 2 ^ w.m + 1) :
    execCode (decodeCode w.context c) s = lzwdEnd w b (s.setStatus s.regs.status.sawEoi) := by
  have ha := (w.admits_eoi w.m).mpr rfl
  rw [execCode_of_class ok ((encode_eoi_eq_code_iff ok.m_range.2).mpr hc) ha, execCode, execEoi, onCode_of_admits hr ha]

end Exec

end Codes

/-! ### The run of LZWD -/

/-- How a DECOMPRESS ends whose reference ends in `ending` (41_lzw_decompress.md R176, R181). -/
def lzwdEnding (ending : Ending) (w : Lzwd) (s : State) : Res :=
  match ending with
  | .eoi => lzwdEnd w none (s.setStatus s.regs.status.sawEoi)
  | .endOfData => lzwdEnd w none s
  | .long => lzwdLong w none s
  | .invalid code => .next (lzwdFault .invalidCode code w s)

/-- What ends a DECOMPRESS leaves GLZ idle, or is a fault of the model. -/
theorem andThen_lzwdFill (w : Lzwd) (s : State) (fuel : Nat) :
    andThen (lzwdFill w none s) (runToIdle fuel) = lzwdFill w none s := by
  unfold lzwdFill State.writeChecked
  split
  · exact runToIdle_of_idle fuel rfl
  · rfl

theorem andThen_lzwdEnding (ending : Ending) (w : Lzwd) (s : State) (fuel : Nat) :
    andThen (lzwdEnding ending w s) (runToIdle fuel) = lzwdEnding ending w s := by
  cases ending with
  | eoi | endOfData | long => exact andThen_lzwdFill ..
  | invalid code => exact runToIdle_of_idle fuel rfl

theorem lzwdEnding_setRunning (ending : Ending) (w : Lzwd) (s : State) (r : Running) :
    lzwdEnding ending w (s.setRunning r) = lzwdEnding ending w s := by
  cases ending <;> rfl

/-- The bits to come do not depend on the table and the output. -/
theorem Lzwd.Sees.of_registers {s t : State} {w v : Lzwd} {bits : List Bool} (h : w.Sees s bits) (hc : t.cfg = s.cfg := by rfl)
    (hsrc : t.src = s.src := by rfl) (hacc : v.acc = w.acc := by rfl) (hnb : v.nb = w.nb := by rfl) (hp : v.p = w.p := by rfl)
    (hs : v.sbrem = w.sbrem := by rfl) (he : v.ended = w.ended := by rfl) : v.Sees t bits := by
  cases h with
  | ended acc ended =>
    rw [← hacc, ← hnb] at acc ⊢
    exact .ended acc (he.trans ended)
  | data block blocks acc ended sbrem ok fetches =>
    rw [← hacc, ← hnb] at acc ⊢
    refine .data block blocks acc (he.trans ended) (hs.trans sbrem) ok fun j hj => ?_
    rw [State.fetchByte_congr (sp := .src) hc hsrc, hp]
    exact fetches j hj

theorem Lzwd.Sees.learn {s t : State} {w : Lzwd} {bits : List Bool} (h : w.Sees s bits) (op code : Nat) (first : Byte)
    (hc : t.cfg = s.cfg := by rfl) (hsrc : t.src = s.src := by rfl) : (Lzwd.learn { w with op := op } code first).Sees t bits := by
  rcases Lzwd.learn_spec { w with op := op } code first with ⟨prev, -, -, e⟩ | ⟨-, e⟩ <;> rw [e]
  · exact h.of_registers hc hsrc
  · exact h.of_registers hc hsrc

section Run

variable {bound fuel : Nat} {s : State} {w : Lzwd} {prev : Option (List Byte)} {tab : List (Nat × List Byte)}
  {out : List Byte} {bits : List Bool} {idx : Memory}

/-- LZWD in registers `w` at `s`, with `fuel` steps left, ends as `result` says, its output written to `idx`. -/
def EndsAs (result : List Byte × Ending) (fuel : Nat) (idx : Memory) (w : Lzwd) (s : State) : Prop :=
  ∃ v : Lzwd, v.op = result.1.length ∧ v.n = w.n ∧
    runToIdle fuel s = lzwdEnding result.2 v (s.setMemory .idx (Memory.writeList idx 0 result.1))

/-- The working step that ends the run. -/
theorem EndsAs.of_ending {v : Lzwd} {ending : Ending} (hr : s.running ≠ .idle) (hidx : s.idx = Memory.writeList idx 0 out)
    (hop : v.op = out.length) (hn : v.n = w.n) (step : unitStep s = lzwdEnding ending v s) :
    EndsAs (out, ending) (fuel + 1) idx w s := by
  refine ⟨v, hop, hn, ?_⟩
  rw [runToIdle_of_running fuel hr, step, andThen_lzwdEnding, ← hidx]
  rfl

/-- A working step that goes on, in registers `v`, with DST, SRC and the registers as they were. -/
theorem EndsAs.of_step {result : List Byte × Ending} {v : Lzwd} {mem : Memory} (hr : s.running ≠ .idle) (hn : v.n = w.n)
    (step : unitStep s = .next ((s.setMemory .idx mem).setRunning (.lzwd v none)))
    (h : EndsAs result fuel idx v ((s.setMemory .idx mem).setRunning (.lzwd v none))) :
    EndsAs result (fuel + 1) idx w s := by
  obtain ⟨u, hop, hn', run⟩ := h
  refine ⟨u, hop, hn'.trans hn, ?_⟩
  rw [runToIdle_of_running fuel hr, step, andThen_next, run]
  exact lzwdEnding_setRunning _ _ (s.setMemory .idx (Memory.writeList idx 0 result.1)) _

/-- Where fewer bits are left than a code has. -/
theorem EndsAs.of_short (hr : s.running = .lzwd w none) (sees : w.Sees s bits) (hop : w.op = out.length)
    (hidx : s.idx = Memory.writeList idx 0 out) (short : bits.length < w.width) :
    EndsAs (out, .endOfData) (fuel + 1) idx w s := by
  obtain ⟨v, fetch, same⟩ := getCode_of_lt sees short
  refine .of_ending (v := v) (by simp [hr]) hidx (same.op.trans hop) same.n ?_
  simp only [unitStep, hr, lzwdStep, fetch]
  rfl

/-- From registers that hold what the reference has, LZWD writes the reference's output and ends as the reference does
(41_lzw_decompress.md R156, R178). -/
theorem run_lzwd (hr : s.running = .lzwd w none) (ok : w.Ok s.cfg) (sees : w.Sees s bits) (holds : w.Holds prev tab out)
    (hidx : s.idx = Memory.writeList idx 0 out) (hb : bits.length ≤ bound) (hf : bits.length < fuel) :
    EndsAs (decodeBits w.m w.n bound w.next w.width prev tab out bits) fuel idx w s := by
  induction bound generalizing fuel s w prev tab out bits with
  | zero =>
    obtain ⟨fuel, rfl⟩ := Nat.exists_eq_succ_of_ne_zero (Nat.ne_of_gt (Nat.zero_lt_of_lt hf))
    have narrow := ok.width_range.1
    exact .of_short hr sees holds.op hidx (by omega)
  | succ bound ih =>
    obtain ⟨fuel, rfl⟩ := Nat.exists_eq_succ_of_ne_zero (Nat.ne_of_gt (Nat.zero_lt_of_lt hf))
    by_cases short : bits.length < w.width
    · rw [decodeBits_of_short short]
      exact .of_short hr sees holds.op hidx short
    have running : s.running ≠ .idle := by simp [hr]
    have narrow := ok.width_range.1
    have enough := Nat.not_lt.mp short
    have fetched := getCode_spec s ok.fed ok.nb_bound
    obtain ⟨v, c, fetch, same, rest, value⟩ := getCode_of_le sees ok.width_range.2 enough
    rw [fetch] at fetched
    obtain ⟨fed, -, few, -⟩ := fetched
    have ok' : v.Ok s.cfg := ok.fetched same fed few
    have holds' := holds.of_registers same
    have step : unitStep s = execCode (decodeCode v.context c) (s.setRunning (.lzwd v none)) := by
      simp only [unitStep, hr, lzwdStep, fetch]
    have dropped : (bits.drop w.width).length ≤ bound ∧ (bits.drop w.width).length < fuel := by
      rw [List.length_drop]; omega
    rw [← same.width] at enough value rest dropped
    rw [← same.m, ← same.n, ← same.next, ← same.width]
    by_cases clear : c.toNat = 2 ^ v.m
    · rw [execCode_clear (s := s.setRunning (.lzwd v none)) ok' rfl clear] at step
      rw [decodeBits_of_clear enough value.symm clear]
      refine .of_step (v := { v with next := firstCode v.m, width := v.m + 1, prev := none, tab := [] }) (mem := s.idx)
        running same.n step ?_
      exact ih (s := s.setRunning _) rfl ok'.clear rest.of_registers (.of_empty holds'.op rfl rfl rfl) hidx dropped.1 dropped.2
    by_cases eoi : c.toNat = 2 ^ v.m + 1
    · rw [execCode_eoi (s := s.setRunning (.lzwd v none)) ok' rfl eoi] at step
      rw [decodeBits_of_eoi enough value.symm eoi]
      exact .of_ending running hidx holds'.op same.n step
    cases hs : symbolsOf v.m v.next prev tab c.toNat with
    | none =>
      rw [holds'.execCode_invalid (s := s.setRunning (.lzwd v none)) ok' rfl hs] at step
      rw [decodeBits_of_invalid enough value.symm clear eoi hs]
      exact .of_ending running hidx holds'.op same.n step
    | some symbols =>
      rw [holds'.execCode_data (s := s.setRunning (.lzwd v none)) ok' rfl clear eoi hs] at step
      by_cases long : v.n < out.length + symbols.length
      · rw [decodeBits_of_long enough value.symm clear eoi hs long]
        rw [dataCode, if_pos (holds'.op ▸ long)] at step
        exact .of_ending running hidx holds'.op same.n step
      · have fits : v.op + symbols.length ≤ v.n := holds'.op ▸ Nat.not_lt.mp long
        have learn := ok'.output fits
        have canLearn : Lzwd.CanLearn { v with op := v.op + symbols.length } c.toNat :=
          holds'.canLearn ok' c.isLt clear eoi hs
        have next := learn.learn canLearn (holds'.symbols_below ok' clear eoi hs).headD
        obtain ⟨tab', holds'', decode⟩ := holds'.learn ok' c.isLt clear eoi hs (Nat.not_lt.mp long) rfl enough value.symm
          (fuel := bound)
        rw [dataCode, if_neg (Nat.not_lt.mpr fits),
          State.writeChecked_of_fits (s := s.setRunning (.lzwd v none)) _ (Nat.le_trans fits ok'.n_fits)] at step
        rw [decode]
        refine .of_step (v := Lzwd.learn { v with op := v.op + symbols.length } c.toNat (symbols.headD 0))
          (mem := Memory.writeList s.idx v.op symbols) running ((Lzwd.learn_n ..).trans same.n) step ?_
        refine ih rfl next (rest.learn ..) holds'' ?_ dropped.1 dropped.2
        show Memory.writeList s.idx v.op symbols = Memory.writeList idx 0 (out ++ symbols)
        rw [Memory.writeList_append, Nat.zero_add, ← hidx, holds'.op]

end Run

end Sys2Proof.Machine
end

section
/-! PROOF. DECOMPRESS of a stream runs the reference decompressor over its data (41_lzw_decompress.md R150, R176), so it gives back
the symbols of a stream that COMPRESS wrote (40_lzw_compress.md R120). -/

namespace Sys2Proof.Machine

open Sys2Proof.Claims

/-! ### The whole command -/

section Command

variable {u : State} {m : Nat} {blocks : List (List Byte)}

theorem State.holds.fetches {s : State} {a : Nat} {bytes : List Byte} (h : s.holds .src a bytes)
    (inside : a + bytes.length ≤ s.cfg.size .src) : s.fetches a bytes :=
  fun j hj => State.fetchByte_eq_value.mpr ⟨by omega, h j hj⟩

theorem length_flatten_le_blockBytes (blocks : List (List Byte)) : blocks.flatten.length ≤ (blockBytes blocks).length := by
  induction blocks with
  | nil => exact Nat.zero_le _
  | cons b blocks ih =>
    simp only [blockBytes, List.length_append, List.flatten_cons, List.flatMap_cons, List.length_cons] at ih ⊢
    omega

theorem length_dataBits (data : List Byte) : (dataBits data).length = 8 * data.length := by
  induction data with
  | nil => rfl
  | cons b data ih =>
    rw [dataBits_cons, List.length_append, ih, length_codeBits, List.length_cons]
    omega

/-- The first working registers of LZWD have the whole data to read. -/
theorem Lzwd.start_sees {s : State} {n p : Nat} (ok : BlocksOk blocks) (h : s.fetches p (blockBytes blocks)) :
    (Lzwd.start m p n).Sees s (dataBits blocks.flatten) :=
  .data (w := Lzwd.start m p n) [] blocks (Nat.zero_lt_one) rfl rfl ok h

/-- DECOMPRESS of a whole stream writes the reference's output and ends as the reference does (41_lzw_decompress.md R150). -/
theorem exec_decompress_stream (ready : u.ready) (hm : 2 ≤ m ∧ m ≤ 8) (ok : BlocksOk blocks)
    (room : u.regs.idxLen.toNat ≤ u.cfg.size .idx)
    (inside : u.regs.srcPtr.toNat + (streamBytes m blocks).length ≤ u.cfg.size .src)
    (holds : u.holds .src u.regs.srcPtr.toNat (streamBytes m blocks)) :
    ∃ v : Lzwd, v.op = (decoded m u.regs.idxLen.toNat blocks.flatten).1.length ∧ v.n = u.regs.idxLen.toNat ∧
      exec .decompress u = lzwdEnding (decoded m u.regs.idxLen.toNat blocks.flatten).2 v
        ((take 2 u).setMemory .idx (Memory.writeList u.idx 0 (decoded m u.regs.idxLen.toNat blocks.flatten).1)) := by
  obtain ⟨idle, clear⟩ := ready
  obtain ⟨first, rest⟩ := State.fetches_cons.mp (holds.fetches inside)
  have value : (BitVec.ofNat 8 m).toNat = m := (BitVec.toNat_ofNat ..).trans (Nat.mod_eq_of_lt (by omega))
  have inside' : u.regs.srcPtr.toNat + 1 + (blockBytes blocks).length ≤ u.cfg.size .src := by
    rw [Nat.add_assoc, Nat.add_comm 1]; exact inside
  have start : lzwdStart u.regs.idxLen.toNat none (take 2 u) =
      .next ((take 2 u).setRunning (.lzwd (Lzwd.start m (u.regs.srcPtr.toNat + 1) u.regs.idxLen.toNat) none)) := by
    have byte : (take 2 u).fetchByte .src (take 2 u).regs.srcPtr.toNat = .value (BitVec.ofNat 8 m) := first
    have accepts : minCodeOk m = true := by simpa [minCodeOk] using hm
    simp only [lzwdStart, byte, value, if_pos accepts]
    rfl
  have exec : exec .decompress u = andThen (lzwdStart u.regs.idxLen.toNat none (take 2 u)) run :=
    command_of_accepted idle clear (decompressChecks_pass.mpr room)
  have bits := length_dataBits blocks.flatten
  have data := length_flatten_le_blockBytes blocks
  obtain ⟨v, hop, hn, ran⟩ := run_lzwd (fuel := 8 * u.cfg.size .src + 1) (bound := (dataBits blocks.flatten).length)
    (s := (take 2 u).setRunning (.lzwd (Lzwd.start m (u.regs.srcPtr.toNat + 1) u.regs.idxLen.toNat) none)) (idx := u.idx) rfl
    (Lzwd.start_ok hm (by show _ ≤ u.cfg.size .src; omega) room) (Lzwd.start_sees ok rest) (.of_empty (out := []) rfl rfl rfl rfl)
    rfl (Nat.le_refl _) (by omega)
  refine ⟨v, hop, hn, ?_⟩
  rw [exec, start, andThen_next]
  exact ran.trans (lzwdEnding_setRunning _ _ ((take 2 u).setMemory .idx _) _)

end Command

/-- An output of the whole length is neither filled up nor reported short (41_lzw_decompress.md R176). -/
theorem lzwdEnd_of_full {w : Lzwd} {s : State} (full : w.op = w.n) (room : w.n ≤ s.cfg.size .idx) :
    lzwdEnd w none s = .next (complete (s.setOutCount (countWord w.n))) := by
  have enough : s.regs.status.shortTest w.n w.n = s.regs.status := by simp [Status.shortTest]
  have nothing : List.replicate (w.n - w.n) (0 : Byte) = [] := by rw [Nat.sub_self]; rfl
  rw [lzwdEnd, lzwdFill, full, enough, nothing, State.writeChecked_of_fits _ room]
  rfl

/-! ### The stream of a COMPRESS -/

/-- The data bytes in sub-blocks of 255 (30_encoding.md R95). -/
def chunks (data : List Byte) : List (List Byte) :=
  (List.range ((data.length + 254) / 255)).map fun j => (data.drop (255 * j)).take 255

theorem streamOf_eq_streamBytes (m : Nat) (ks : List Nat) :
    streamOf m ks = streamBytes m (chunks (packBits (bitsOf (codesOf m ks)))) := by
  rw [streamOf, subBlocks, streamBytes, chunks, List.flatMap_map]
  rfl

theorem chunks_of_ne_nil {data : List Byte} (h : data ≠ []) : chunks data = data.take 255 :: chunks (data.drop 255) := by
  have pos := List.length_pos_iff.mpr h
  have count : (data.length + 254) / 255 = (data.length - 255 + 254) / 255 + 1 := by omega
  have later (j : Nat) : 255 * (j + 1) = 255 + 255 * j := by omega
  rw [chunks, count, List.range_succ_eq_map, List.map_cons, List.map_map, chunks, List.length_drop]
  simp [Function.comp_def, later, List.drop_drop]

theorem flatten_chunks (data : List Byte) : (chunks data).flatten = data := by
  induction data using subBlocks_induction with
  | nil => rfl
  | block data h ih => rw [chunks_of_ne_nil h, List.flatten_cons, ih, List.take_append_drop]

theorem chunks_ok (data : List Byte) : BlocksOk (chunks data) := by
  induction data using subBlocks_induction with
  | nil => exact nofun
  | block data h ih =>
    have pos := List.length_pos_iff.mpr h
    rw [chunks_of_ne_nil h]
    exact List.forall_mem_cons.mpr ⟨by rw [List.length_take]; omega, ih⟩

/-- DECOMPRESS of the stream of a COMPRESS completes, with its masked symbols in IDX. -/
theorem exec_decompress_streamOf {u : State} {m : Nat} {ks : List Nat} (ready : u.ready) (hm : 2 ≤ m ∧ m ≤ 8) (ne : ks ≠ [])
    (below : ∀ k ∈ ks, k < 2 ^ m) (len : u.regs.idxLen.toNat = ks.length) (room : u.regs.idxLen.toNat ≤ u.cfg.size .idx)
    (inside : u.regs.srcPtr.toNat + (streamOf m ks).length ≤ u.cfg.size .src)
    (holds : u.holds .src u.regs.srcPtr.toNat (streamOf m ks)) :
    ∃ f : Status, f.fault = false ∧ f.warnLong = false ∧ f.warnShort = false ∧ exec .decompress u =
      .next (complete ((((take 2 u).setMemory .idx (Memory.writeList u.idx 0 (ks.map (BitVec.ofNat 8)))).setStatus f).setOutCount
        (countWord u.regs.idxLen.toNat))) := by
  rw [streamOf_eq_streamBytes] at inside holds
  obtain ⟨v, hop, hn, exec⟩ := exec_decompress_stream ready hm (chunks_ok _) room inside holds
  obtain ⟨e, decode, ending⟩ := decoded_packBits hm ne below
  rw [flatten_chunks, len, decode] at exec hop
  have full : v.op = v.n := by rw [hn, len, hop, List.length_map]
  have ends (f : Status) : lzwdEnd v none (((take 2 u).setMemory .idx (Memory.writeList u.idx 0
      (ks.map (BitVec.ofNat 8)))).setStatus f) = _ := lzwdEnd_of_full full (hn ▸ room)
  rw [hn] at ends
  rcases ending with rfl | rfl
  · exact ⟨(take 2 u).regs.status.sawEoi, ready.2, rfl, rfl, exec.trans (ends _)⟩
  · exact ⟨(take 2 u).regs.status, ready.2, rfl, rfl, exec.trans (ends _)⟩

end Sys2Proof.Machine
end

section
/-! PROOF. The round trip (40_lzw_compress.md R120). -/

namespace Sys2Proof.Machine

open Sys2Proof.Claims

theorem masks_below (m : Nat) (symbols : List Byte) : ∀ k ∈ masks m symbols, k < 2 ^ m := by
  intro k hk
  obtain ⟨b, -, rfl⟩ := List.mem_map.mp hk
  exact Nat.mod_lt _ (Nat.two_pow_pos m)

/-- Settles O15: the stream in SRC is the reference stream of the masked symbols, and the reference decompressor undoes it. -/
theorem compressThenDecompressReturnsSymbols : Obligations.CompressThenDecompressReturnsSymbols := by
  intro s t u ready run done uReady sameLen room inSrc copied
  obtain ⟨symbols, h⟩ := compress_done_symbols ready run done
  obtain ⟨count, wrote⟩ := h.wrote_of_done run done
  rw [count] at inSrc copied
  have holds : u.holds .src u.regs.srcPtr.toNat (compressStream s symbols) := fun j hj => (copied j hj).trans (wrote j hj)
  have len : u.regs.idxLen.toNat = symbols.length := by rw [sameLen, h.len]
  obtain ⟨f, fault, long, short, exec⟩ := exec_decompress_streamOf uReady h.m_range (by simpa [masks] using h.some_symbol)
    (masks_below _ _) (by rw [len, masks, List.length_map]) room inSrc holds
  refine ⟨_, exec, rfl, rfl, fault, long, short, ?_, fun j hj => ?_⟩
  · exact (countWord_of_lt u.regs.idxLen.isLt).trans (BitVec.ofNat_toNat ..)
  · rw [len] at hj
    have before := h.written j hj
    rw [Nat.zero_add] at before
    have after := Memory.read_writeList_inside u.idx 0
      ((masks s.regs.minCode.toNat symbols).map (BitVec.ofNat 8)) j (by simpa [masks] using hj)
    rw [Nat.zero_add] at after
    refine ⟨_, _, before, after, ?_⟩
    have small : symbols[j].toNat % 2 ^ s.regs.minCode.toNat < 2 ^ 8 := Nat.lt_of_le_of_lt (Nat.mod_le _ _) symbols[j].isLt
    simp only [masks, List.getElem_map, BitVec.toNat_ofNat, Nat.mod_eq_of_lt small]

end Sys2Proof.Machine
end

section
/-! PROOF. How a decompression ends without fault, and with one (41_lzw_decompress.md R158, R164, R176, R177, R181), and what a step
of a running LZWD does with what it fetched (R156). -/

namespace Sys2Proof.Machine

open Sys2Proof.Claims

/-! ### Bytes written in one piece -/

theorem holds_writeList {t : State} {sp : Space} {mem : Memory} {a : Nat} {bytes : List Byte}
    (h : t.memory sp = Memory.writeList mem a bytes) : t.holds sp a bytes := fun j hj => by
  rw [h, Memory.read_writeList_inside]

theorem keepsOutside_writeList {s t : State} {sp : Space} {a : Nat} {bytes : List Byte}
    (h : t.memory sp = Memory.writeList (s.memory sp) a bytes) : keepsOutside sp a bytes.length s t := fun x hx => by
  rw [h, Memory.read_writeList_outside _ _ _ hx]

/-! ### The end of a decompression -/

@[simp] theorem State.setStatus_self (s : State) : s.setStatus s.regs.status = s := rfl

section Ends

variable {s : State} {w : Lzwd} {f : Status}

/-- The zero fill, OUT_COUNT, and the end with the flags of `f` (41_lzw_decompress.md R177, 43_commands.md R229). -/
theorem lzwdFill_ended (k : Option PixelFormat) (done : f.done = s.regs.status.done) (fault : f.fault = s.regs.status.fault)
    (inRange : w.op ≤ w.n) (room : w.n ≤ s.cfg.size .idx) (count : w.op < 4294967296) :
    ∃ t, lzwdFill w k (s.setStatus f) = .next t ∧
      DecompressEnded s t k w.op w.n f.warnLong f.warnShort f.eoiSeen := by
  have fits : w.op + (List.replicate (w.n - w.op) (0 : Byte)).length ≤ (s.setStatus f).cfg.size .idx := by
    rw [List.length_replicate, Nat.add_sub_cancel' inRange]; exact room
  have outside (t : State) (h : t.idx = Memory.writeList s.idx w.op (List.replicate (w.n - w.op) 0)) :
      keepsOutside .idx w.op (w.n - w.op) s t := by
    simpa using keepsOutside_writeList (sp := .idx) h
  obtain ⟨_, _, long, short, eoi⟩ := f
  cases done
  cases fault
  rw [lzwdFill, State.writeChecked_of_fits _ fits]
  cases k with
  | none =>
    refine ⟨_, rfl, holds_writeList (mem := s.idx) rfl, outside _ rfl, ?_⟩
    rw [countWord_of_lt count]
    rfl
  | some fmt =>
    refine ⟨_, rfl, holds_writeList (mem := s.idx) rfl, outside _ rfl, ?_⟩
    rw [countWord_of_lt count]
    rfl

/-- The end by EOI or by the end of the data: WARN_SHORT if the output is short (41_lzw_decompress.md R176 a, b). -/
theorem lzwdEnd_ended (k : Option PixelFormat) (done : f.done = s.regs.status.done) (fault : f.fault = s.regs.status.fault)
    (inRange : w.op ≤ w.n) (room : w.n ≤ s.cfg.size .idx) (count : w.op < 4294967296) :
    ∃ t, lzwdEnd w k (s.setStatus f) = .next t ∧
      DecompressEnded s t k w.op w.n f.warnLong (f.warnShort || decide (w.op ≠ w.n)) f.eoiSeen := by
  have short : (f.shortTest w.op w.n).warnShort = (f.warnShort || decide (w.op ≠ w.n)) := by
    by_cases h : w.op = w.n <;> simp [h]
  rw [← short]
  exact lzwdFill_ended (f := f.shortTest w.op w.n) k done fault inRange room count

/-- The LONG exit (41_lzw_decompress.md R176 c). -/
theorem lzwdLong_ended (k : Option PixelFormat) (inRange : w.op ≤ w.n) (room : w.n ≤ s.cfg.size .idx)
    (count : w.op < 4294967296) :
    ∃ t, lzwdLong w k s = .next t ∧
      DecompressEnded s t k w.op w.n true s.regs.status.warnShort s.regs.status.eoiSeen :=
  lzwdFill_ended (f := s.regs.status.endLong) k rfl rfl inRange room count

/-- A fault of LZWD: the first one, with OUT_COUNT (41_lzw_decompress.md R181, 60_exceptions.md R290). -/
theorem lzwdFault_of_clear (c : FaultCode) (info : Nat) (count : w.op < 4294967296) (clear : s.regs.status.fault = false) :
    lzwdFault c info w s = { s with
      running := .idle
      regs := { s.regs with
        status := { s.regs.status with fault := true }
        fault := c.code
        faultInfo := BitVec.ofNat 32 info
        outCount := BitVec.ofNat 32 w.op } } := by
  rw [lzwdFault, raise, Regs.latch_of_clear _ _ _ (show (s.setOutCount (countWord w.op)).regs.status.fault = false from clear),
    countWord_of_lt count]
  rfl

end Ends

/-! ### The codes that write no symbol -/

/-- Settles O21: CLEAR is admitted in every state of its minimum code size. -/
theorem clearResetsTableAndWidth : Obligations.ClearResetsTableAndWidth := by
  rintro s w k m running rfl
  exact onCode_of_admits running ((w.admits_clear w.m).mpr rfl)

theorem exec_eoi {s : State} {w : Lzwd} {k : Option PixelFormat} (running : s.running = .lzwd w k) :
    exec (.eoi w.m) s = lzwdEnd w k (s.setStatus s.regs.status.sawEoi) :=
  onCode_of_admits running ((w.admits_eoi w.m).mpr rfl)

/-- Settles O22: EOI_SEEN, then the end of the decompression. -/
theorem eoiEndsDecompress : Obligations.EoiEndsDecompress := by
  rintro s w m running rfl inRange room count long short
  rw [exec_eoi running]
  simpa only [Status.sawEoi_warnLong, Status.sawEoi_warnShort, Status.sawEoi_eoiSeen, long, short, Bool.false_or] using
    lzwdEnd_ended (f := s.regs.status.sawEoi) none rfl rfl inRange room count

/-- Settles O23: the same end, with BLIT to follow. -/
theorem eoiStartsBlitInDecblit : Obligations.EoiStartsBlitInDecblit := by
  rintro s w fmt m running rfl inRange room count
  rw [exec_eoi running]
  obtain ⟨t, ended, zeros, outside, rest⟩ :=
    lzwdEnd_ended (f := s.regs.status.sawEoi) (some fmt) rfl rfl inRange room count
  exact ⟨t, ended, zeros, outside, rest⟩

/-- Settles O24: INVALID is the fault of LZWD with that code. -/
theorem invalidCodeFaults : Obligations.InvalidCodeFaults := by
  intro s w k code running first above count clear
  have admitted := (w.admits_invalid code).mpr ⟨first, above⟩
  have fault : exec (.invalid code) s = .next (lzwdFault .invalidCode code.toNat w s) := onCode_of_admits running admitted
  rw [fault, lzwdFault_of_clear .invalidCode code.toNat count clear, BitVec.ofNat_toNat]
  rfl

/-! ### The step -/

/-- Settles O28, one case for each answer of GetCode. -/
theorem stepRunsTheFetchedCode : Obligations.StepRunsTheFetchedCode := by
  intro s w k running
  have step : step s = lzwdStep exec w k s := by simp only [step, running]
  refine ⟨fun w' c fetch => ?_, fun w' fetch inRange room count long short eoi => ?_, fun w' a fetch count clear => ?_,
    fun a fetch => ?_⟩ <;> simp only [step, lzwdStep, fetch]
  · rfl
  · simpa only [State.setStatus_self, long, short, eoi, Bool.false_or] using
      lzwdEnd_ended (s := s) (f := s.regs.status) k rfl rfl inRange room count
  · rw [lzwdFault_of_clear .srcBounds a count clear]
    rfl

end Sys2Proof.Machine
end

section
/-! PROOF. The sequences of the codes (41_lzw_decompress.md R160, R166), and what the codes that write symbols do (R161 to R168). -/

namespace Sys2Proof.Machine

open Sys2Proof.Claims

/-! ### The entries of a table -/

section Tables

variable {m next c : Nat} {tab : List DEntry} {e : DEntry} {symbols : List Byte}

/-- The entries have the codes from FIRST(m) on, below the next code, one each (41_lzw_decompress.md R166). -/
theorem DTable.next_eq (h : DTable m tab next) : next = firstCode m + tab.length := by
  induction tab generalizing next with
  | nil => exact h
  | cons e t ih =>
    obtain ⟨hn, -, -, ht⟩ := h
    rw [← hn, ih ht, List.length_cons, Nat.add_assoc]

theorem DTable.code_range (h : DTable m tab next) (he : e ∈ tab) : firstCode m ≤ e.code ∧ e.code < next := by
  induction tab generalizing next with
  | nil => cases he
  | cons d t ih =>
    obtain ⟨hn, -, -, ht⟩ := h
    rcases List.mem_cons.mp he with rfl | older
    · exact ⟨by rw [ht.next_eq]; exact Nat.le_add_right .., by omega⟩
    · obtain ⟨first, below⟩ := ih ht older
      exact ⟨first, by omega⟩

theorem seqOf_literal (tab : List DEntry) (h : c < 2 ^ m) : seqOf m tab c = some [BitVec.ofNat 8 c] := by
  cases tab <;> exact if_pos h

theorem seqOf_cons_of_ne (tab : List DEntry) (h : e.code ≠ c) : seqOf m (e :: tab) c = seqOf m tab c := by
  by_cases lit : c < 2 ^ m
  · rw [seqOf_literal _ lit, seqOf_literal _ lit]
  · rw [seqOf, if_neg lit, if_neg h]

/-- An entry stands for the sequence of the code before it and its byte, in the whole table as in the older part of it, since that
code is an older one (41_lzw_decompress.md R160, R166). -/
theorem DTable.seqOf_entry (h : DTable m tab next) (he : e ∈ tab) :
    DataCode m e.code e.pfx ∧ seqOf m tab e.code = (seqOf m tab e.pfx).map (· ++ [e.byte]) := by
  induction tab generalizing next with
  | nil => cases he
  | cons d t ih =>
    have newest := h.code_range (e := d) List.mem_cons_self
    obtain ⟨hn, older, -, ht⟩ := h
    unfold firstCode at newest
    rcases List.mem_cons.mp he with rfl | he
    · have ne : e.code ≠ e.pfx := by rcases older with lt | ⟨-, lt⟩ <;> omega
      exact ⟨older, by rw [seqOf_cons_of_ne _ ne, seqOf, if_neg (by omega), if_pos rfl]⟩
    · obtain ⟨pfx, seq⟩ := ih ht he
      have below := (ht.code_range he).2
      have ne : d.code ≠ e.pfx := by rcases pfx with lt | ⟨-, lt⟩ <;> omega
      exact ⟨pfx, by rw [seqOf_cons_of_ne _ (by omega), seqOf_cons_of_ne _ ne, seq]⟩

/-! ### The sequence of a code -/

/-- A sequence stays one when the table grows. -/
theorem isSeq_cons (e : DEntry) (h : IsSeq m tab c symbols) : IsSeq m (e :: tab) c symbols := by
  induction h with
  | lit c lt => exact .lit c lt
  | entry d bytes hd above _ ih => exact .entry d bytes (List.mem_cons_of_mem _ hd) above ih

/-- The walk of the table finds every sequence a code has (41_lzw_decompress.md R160). -/
theorem DTable.seqOf_of_isSeq (h : DTable m tab next) (hs : IsSeq m tab c symbols) : seqOf m tab c = some symbols := by
  induction hs with
  | lit c lt => exact seqOf_literal _ lt
  | entry e bytes he _ _ ih => rw [(h.seqOf_entry he).2, ih]; rfl

theorem DTable.isSeq_of_seqOf (h : DTable m tab next) (hs : seqOf m tab c = some symbols) : IsSeq m tab c symbols := by
  induction tab generalizing next c symbols with
  | nil =>
    unfold seqOf at hs
    split at hs
    · cases hs; exact .lit c ‹_›
    · cases hs
  | cons e t ih =>
    have newest := (h.code_range (e := e) List.mem_cons_self).1
    obtain ⟨-, -, -, ht⟩ := h
    unfold firstCode at newest
    by_cases here : e.code = c
    · subst here
      rw [seqOf, if_neg (by omega), if_pos rfl] at hs
      obtain ⟨bytes, older, rfl⟩ := Option.map_eq_some_iff.mp hs
      exact .entry e bytes List.mem_cons_self (by omega) (isSeq_cons e (ih ht older))
    · rw [seqOf_cons_of_ne _ here] at hs
      exact isSeq_cons e (ih ht hs)

/-- A sequence has one symbol for its root, and at most one for each entry. -/
theorem length_seqOf (hs : seqOf m tab c = some symbols) : 1 ≤ symbols.length ∧ symbols.length ≤ tab.length + 1 := by
  induction tab generalizing c symbols with
  | nil =>
    unfold seqOf at hs
    split at hs <;> cases hs
    exact ⟨Nat.le_refl _, Nat.le_refl _⟩
  | cons e t ih =>
    by_cases lit : c < 2 ^ m
    · rw [seqOf_literal _ lit] at hs
      cases hs
      exact ⟨Nat.le_refl _, Nat.le_add_left ..⟩
    · rw [seqOf, if_neg lit] at hs
      rw [List.length_cons]
      split at hs
      · obtain ⟨bytes, older, rfl⟩ := Option.map_eq_some_iff.mp hs
        have := ih older
        rw [List.length_append, List.length_singleton]
        omega
      · have := ih hs
        omega

end Tables

/-- Settles O20: the walk of the table ends, finds what the entries say, and passes each entry at most once. -/
theorem everyDefinedCodeHasOneSequence : Obligations.EveryDefinedCodeHasOneSequence := by
  intro cfg w c ok code
  obtain ⟨symbols, defined⟩ := ok.table.seqOf_defined code
  obtain ⟨some_symbol, bound⟩ := length_seqOf defined
  have full := ok.next_range.2
  rw [ok.table.next_eq, firstCode, maxCodes] at full
  exact ⟨symbols, List.length_pos_iff.mp some_symbol, by omega, ok.table.isSeq_of_seqOf defined,
    fun other h => Option.some.inj ((ok.table.seqOf_of_isSeq h).symm.trans defined)⟩

/-! ### Data codes -/

section DataCodes

variable {s : State} {w : Lzwd} {symbols : List Byte}

/-- A data code that fits is written, with the insertion after it (41_lzw_decompress.md R165 to R168). -/
theorem dataCode_done (k : Option PixelFormat) (code : Nat) (fits : w.op + symbols.length ≤ w.n) (room : w.n ≤ s.cfg.size .idx)
    (full : w.next ≤ 4096) :
    ∃ t, dataCode w k code symbols s = .next t ∧ DataCodeDone s t w k code symbols ∧
      t.running = .lzwd (Lzwd.learn { w with op := w.op + symbols.length } code (symbols.headD 0)) k := by
  refine ⟨_, ?_, ⟨holds_writeList (mem := s.idx) (t := (s.setMemory .idx _).setRunning _) rfl, keepsOutside_writeList rfl,
    Lzwd.learn { w with op := w.op + symbols.length } code (symbols.headD 0), rfl, ?_⟩, rfl⟩
  · rw [dataCode, if_neg (Nat.not_lt.mpr fits), State.writeChecked_of_fits _ (Nat.le_trans fits room)]
    rfl
  · rcases Lzwd.learn_spec { w with op := w.op + symbols.length } code (symbols.headD 0) with
      ⟨prev, hp, notFull, e⟩ | ⟨stay, e⟩ <;> rw [e]
    · have hp : w.prev = some prev := hp
      have notFull : w.next < 4096 := notFull
      refine ⟨rfl, rfl, fun no => ?_, fun p h _ => ?_, rfl, rfl, rfl, rfl, rfl, rfl, rfl⟩
      · exact absurd no (by rw [hp]; simp; omega)
      · cases hp.symm.trans h
        exact ⟨rfl, rfl, rfl⟩
    · have stay : w.prev = none ∨ 4096 ≤ w.next := stay
      refine ⟨rfl, rfl, fun _ => ⟨rfl, rfl, rfl⟩, fun p h notFull => ?_, rfl, rfl, rfl, rfl, rfl, rfl, rfl⟩
      exact absurd stay (by rw [h]; simp; omega)

/-- A data code that does not fit takes the LONG exit (41_lzw_decompress.md R165, R176 c). -/
theorem dataCode_long (k : Option PixelFormat) (code : Nat) (long : w.n < w.op + symbols.length) :
    dataCode w k code symbols s = lzwdLong w k s := if_pos long

variable {k : Option PixelFormat} (running : s.running = .lzwd w k)

include running

/-- LIT (41_lzw_decompress.md R161). -/
theorem exec_lit {symbol : Byte} (below : symbol.toNat < 2 ^ w.m) :
    exec (.lit w.m symbol) s = dataCode w k symbol.toNat [symbol] s :=
  onCode_of_admits running ((w.admits_lit w.m symbol).mpr ⟨rfl, below⟩)

/-- REF (41_lzw_decompress.md R162). -/
theorem exec_ref {code : BitVec 12} (ok : w.Ok s.cfg) (entry : firstCode w.m ≤ code.toNat ∧ code.toNat < w.next)
    (seq : IsSeq w.m w.tab code.toNat symbols) : exec (.ref code) s = dataCode w k code.toNat symbols s := by
  rw [exec, execRef, onCode_of_admits running ((w.admits_ref code).mpr entry), ok.table.seqOf_of_isSeq seq]

/-- KWK (41_lzw_decompress.md R163). -/
theorem exec_kwk {code : BitVec 12} {prev : Nat} (ok : w.Ok s.cfg) (next : code.toNat = w.next) (hp : w.prev = some prev)
    (seq : IsSeq w.m w.tab prev symbols) :
    exec (.kwk code) s = dataCode w k code.toNat (symbols ++ [symbols.headD 0]) s := by
  have admitted := (w.admits_kwk code).mpr ⟨next ▸ ok.next_range.1, next, by rw [hp]; exact Option.some_ne_none prev⟩
  rw [exec, execKwk, onCode_of_admits running admitted]
  simp only [hp, ok.table.seqOf_of_isSeq seq]

end DataCodes

/-- Settles O17: a literal is a data code of one symbol. -/
theorem litWritesItsSymbol : Obligations.LitWritesItsSymbol := by
  rintro s w k m symbol running rfl below fits room full
  obtain ⟨t, run, done, -⟩ := dataCode_done k symbol.toNat (symbols := [symbol]) fits room full
  exact ⟨t, (exec_lit running below).trans run, done⟩

/-- Settles O18: the entry's sequence is the one the walk of the table finds. -/
theorem refWritesItsSequence : Obligations.RefWritesItsSequence := by
  intro s w k code symbols running ok first below seq fits
  obtain ⟨t, run, done, -⟩ := dataCode_done k code.toNat fits ok.n_fits ok.next_range.2
  exact ⟨t, (exec_ref running ok ⟨first, below⟩ seq).trans run, done⟩

/-- Settles O19: there is a previous code and the table is not full, so the insertion is made, of the entry the code names. -/
theorem kwkRepeatsTheFirstSymbol : Obligations.KwkRepeatsTheFirstSymbol := by
  intro s w k code prev first rest running ok next hp seq fits
  obtain ⟨t, run, done, after⟩ := dataCode_done k code.toNat (symbols := (first :: rest) ++ [first])
    (by simpa using fits) ok.n_fits ok.next_range.2
  refine ⟨t, _, (exec_kwk running ok next hp seq).trans run, done, after, ?_⟩
  have room : w.next < maxCodes := next ▸ code.isLt
  have above : 2 ^ w.m ≤ w.next := Nat.le_of_lt (Nat.lt_of_succ_lt ok.next_range.1)
  simp only [Lzwd.learn, hp, if_pos room, next]
  exact .entry _ _ List.mem_cons_self above (isSeq_cons _ seq)

/-- Settles O25: LIT, REF and KWK alike come to the length check with their symbols. -/
theorem codeThatDoesNotFitIsDroppedWhole : Obligations.CodeThatDoesNotFitIsDroppedWhole := by
  intro s w k i symbols running ok count short eoi admitted symbolsOf long
  have exits : exec i s = lzwdLong w k s := by
    rcases symbolsOf with ⟨symbol, rfl, rfl⟩ | ⟨code, rfl, seq⟩ | ⟨code, prev, first, rest, rfl, hp, seq, rfl⟩
    · rw [exec_lit running ((w.admits_lit w.m symbol).mp admitted).2, dataCode_long k _ long]
    · rw [exec_ref running ok ((w.admits_ref code).mp admitted) seq, dataCode_long k _ long]
    · obtain ⟨-, next, -⟩ := (w.admits_kwk code).mp admitted
      rw [exec_kwk running ok next hp seq]
      exact dataCode_long k _ long
  have ended := lzwdLong_ended k ok.op_bound ok.n_fits count
  rw [short, eoi, ← exits] at ended
  exact ended

end Sys2Proof.Machine
end

section
/-! PROOF. GetCode (41_lzw_decompress.md R153, R154) byte by byte: reading a byte leaves the code that is being fetched the same, so
what it answers is settled where enough bits are held, or where the next byte cannot be had. -/

namespace Sys2Proof.Machine

open Sys2Proof.Claims

section Fetch

variable {s : State} {w w₁ : Lzwd} {a : Nat}

/-! ### One turn of the refill loop -/

/-- A data byte enters by addition (41_lzw_decompress.md R153). -/
theorem takeByte_eq (b : Byte) (hacc : w.acc < 2 ^ w.nb) :
    w.takeByte b = { w with acc := w.acc + b.toNat * 2 ^ w.nb, nb := w.nb + 8, p := w.p + 1, sbrem := w.sbrem - 1 } := by
  rw [Lzwd.takeByte, or_shift_eq_add _ hacc]

theorem refillTurn_of_feeds (hacc : w.acc < 2 ^ w.nb) (h : feeds s w w₁) : refillTurn s w = .ready w₁ := by
  obtain ⟨b, ⟨inBlock, data, rfl⟩ | ⟨used, l, nonzero, length, data, rfl⟩⟩ := h
  · rw [refillTurn, if_neg (by omega), refillData, data]
    exact congrArg _ (takeByte_eq b hacc)
  · simp only [refillTurn, if_pos used, length, if_neg nonzero, Lzwd.takeLength, refillData, data]
    exact congrArg _ (takeByte_eq b hacc)

theorem refillTurn_of_endsData (h : endsData s w w₁) : refillTurn s w = .ready w₁ := by
  obtain ⟨used, zero, rfl⟩ := h
  simp only [refillTurn, if_pos used, zero, if_true, Lzwd.takeLength]

/-- The byte that cannot be had is a length byte, a data byte of the open sub-block, or the first one of the next. -/
theorem refillTurn_of_outside (h : lacks s w a .outside) : ∃ v, refillTurn s w = .bounds v a ∧ w.Same v := by
  obtain ⟨outside, rfl | ⟨rfl, used, l, nonzero, length⟩⟩ := h
  · refine ⟨w, ?_, .refl w⟩
    by_cases used : w.sbrem = 0 <;> simp [refillTurn, refillData, used, outside]
  · refine ⟨{ w with p := w.p + 1, sbrem := l.toNat }, ?_, ⟨rfl, rfl, rfl, rfl, rfl, rfl, rfl⟩⟩
    simp only [refillTurn, if_pos used, length, if_neg nonzero, Lzwd.takeLength, refillData, outside]

theorem refillTurn_of_unwritten (h : lacks s w a .unwritten) : refillTurn s w = .unwritten a := by
  obtain ⟨unwritten, rfl | ⟨rfl, used, l, nonzero, length⟩⟩ := h
  · by_cases used : w.sbrem = 0 <;> simp [refillTurn, refillData, used, unwritten]
  · simp only [refillTurn, if_pos used, length, if_neg nonzero, Lzwd.takeLength, refillData, unwritten]

/-- A turn that goes on has fed a byte or found the terminator. -/
theorem feeds_or_endsData (hacc : w.acc < 2 ^ w.nb) (h : refillTurn s w = .ready w₁) : feeds s w w₁ ∨ endsData s w w₁ := by
  unfold refillTurn refillData at h
  split at h
  · rename_i used
    split at h
    · rename_i l length
      split at h
      · rename_i zero
        subst zero
        cases h
        exact .inr ⟨used, length, rfl⟩
      · rename_i nonzero
        have taken : w.takeLength l = { w with p := w.p + 1, sbrem := l.toNat } := if_neg nonzero
        rw [taken] at h
        split at h
        · rename_i b data
          cases h
          exact .inl ⟨b, .inr ⟨used, l, nonzero, length, data, takeByte_eq b hacc⟩⟩
        · cases h
        · cases h
    · cases h
    · cases h
  · rename_i inBlock
    split at h
    · rename_i b data
      cases h
      exact .inl ⟨b, .inl ⟨by omega, data, takeByte_eq b hacc⟩⟩
    · cases h
    · cases h

theorem feeds_same (h : feeds s w w₁) : w.Same w₁ ∧ w₁.nb = w.nb + 8 ∧ w₁.ended = w.ended := by
  obtain ⟨b, ⟨-, -, rfl⟩ | ⟨-, l, -, -, -, rfl⟩⟩ := h <;> exact ⟨⟨rfl, rfl, rfl, rfl, rfl, rfl, rfl⟩, rfl, rfl⟩

theorem feeds_acc_lt (hacc : w.acc < 2 ^ w.nb) (h : feeds s w w₁) : w₁.acc < 2 ^ w₁.nb := by
  obtain ⟨b, ⟨-, -, rfl⟩ | ⟨-, l, -, -, -, rfl⟩⟩ := h <;> exact or_shift_eq_add b.toNat hacc ▸ acc_takeByte_lt b hacc

/-! ### The refill loop -/

theorem refill_of_enough (fuel : Nat) (h : w.width ≤ w.nb ∨ w.ended = true) : refill s fuel w = .ready w := by
  cases fuel with
  | zero => rfl
  | succ fuel =>
    refine if_neg fun ⟨short, more⟩ => ?_
    rcases h with enough | ended
    · omega
    · rw [more] at ended; cases ended

section Short

variable {fuel : Nat} (short : w.nb < w.width) (more : w.ended = false)

include short more

theorem refill_of_ready {v : Lzwd} (h : refillTurn s w = .ready v) : refill s (fuel + 1) w = refill s fuel v := by
  rw [refill, if_pos ⟨short, more⟩, h]

theorem refill_of_bounds {v : Lzwd} (h : refillTurn s w = .bounds v a) : refill s (fuel + 1) w = .bounds v a := by
  rw [refill, if_pos ⟨short, more⟩, h]

theorem refill_of_unwritten (h : refillTurn s w = .unwritten a) : refill s (fuel + 1) w = .unwritten a := by
  rw [refill, if_pos ⟨short, more⟩, h]

end Short

/-- As many turns as bits are missing are enough. -/
theorem refill_succ (fuel : Nat) (hacc : w.acc < 2 ^ w.nb) (h : w.width ≤ w.nb + fuel) :
    refill s (fuel + 1) w = refill s fuel w := by
  induction fuel generalizing w with
  | zero => exact refill_of_enough 1 (.inl h)
  | succ fuel ih =>
    by_cases enough : w.width ≤ w.nb ∨ w.ended = true
    · rw [refill_of_enough _ enough, refill_of_enough _ enough]
    obtain ⟨short, more⟩ := not_or.mp enough
    have short := Nat.not_le.mp short
    have more := Bool.eq_false_of_not_eq_true more
    cases turn : refillTurn s w with
    | bounds v a => rw [refill_of_bounds short more turn, refill_of_bounds short more turn]
    | unwritten a => rw [refill_of_unwritten short more turn, refill_of_unwritten short more turn]
    | ready v =>
      rw [refill_of_ready short more turn, refill_of_ready short more turn]
      rcases feeds_or_endsData hacc turn with fed | ⟨-, -, rfl⟩
      · obtain ⟨same, nb, -⟩ := feeds_same fed
        have width := same.width
        exact ih (feeds_acc_lt hacc fed) (by omega)
      · rw [refill_of_enough _ (.inr rfl), refill_of_enough _ (.inr rfl)]

/-! ### GetCode -/

theorem getCode_of_enough (enough : w.width ≤ w.nb) : getCode s w = codeTaken w := by
  rw [getCode, refill_of_enough _ (.inl enough)]
  simp only [if_neg (Nat.not_lt.mpr enough), Nat.and_two_pow_sub_one_eq_mod, Lzwd.dropCode, Nat.shiftRight_eq_div_pow]
  rfl

variable (short : w.nb < w.width)

include short

theorem getCode_of_ended (ended : w.ended = true) : getCode s w = .endOfData w := by
  rw [getCode, refill_of_enough _ (.inr ended)]
  exact if_pos short

variable (more : w.ended = false)

include more

/-- Reading a byte leaves the code to come as it is. -/
theorem getCode_of_feeds (hacc : w.acc < 2 ^ w.nb) (h : feeds s w w₁) : getCode s w = getCode s w₁ := by
  obtain ⟨same, nb, -⟩ := feeds_same h
  obtain ⟨k, hk⟩ := Nat.exists_eq_add_one.mpr (Nat.zero_lt_of_lt short)
  have turns : refill s w.width w = refill s w₁.width w₁ := by
    rw [same.width, hk, refill_of_ready short more (refillTurn_of_feeds hacc h)]
    exact (refill_succ k (feeds_acc_lt hacc h) (by rw [same.width]; omega)).symm
  rw [getCode, getCode, turns]

/-- Where the next byte ends the data or cannot be had. -/
theorem stopsFetch_of_short : stopsFetch s w w := by
  obtain ⟨k, hk⟩ := Nat.exists_eq_add_one.mpr (Nat.zero_lt_of_lt short)
  refine ⟨fun v h => ?_, fun a h => ?_, fun a h => ?_⟩
  · have ended : v.nb < v.width ∧ v.ended = true := by
      obtain ⟨-, -, rfl⟩ := h
      exact ⟨short, rfl⟩
    have turns : refill s w.width w = .ready v := by
      rw [hk, refill_of_ready short more (refillTurn_of_endsData h), refill_of_enough _ (.inr ended.2)]
    rw [getCode, turns]
    exact if_pos ended.1
  · obtain ⟨v, turn, same⟩ := refillTurn_of_outside h
    exact ⟨v, by rw [getCode, hk, refill_of_bounds short more turn], same.op⟩
  · rw [getCode, hk, refill_of_unwritten short more (refillTurn_of_unwritten h)]

end Fetch

/-- Settles O27: each byte read leaves the code to come as it is, and two are enough. -/
theorem getCodeTakesTheLowBits : Obligations.GetCodeTakesTheLowBits := by
  intro s w _ wide hacc
  refine ⟨getCode_of_enough, getCode_of_ended, fun short more => ⟨stopsFetch_of_short short more, fun w₁ fed => ?_⟩⟩
  obtain ⟨same, nb, more₁⟩ := feeds_same fed
  have hacc₁ := feeds_acc_lt hacc fed
  have width := same.width
  rw [getCode_of_feeds short more hacc fed]
  refine ⟨fun enough => getCode_of_enough (by omega), fun short₁ => ?_⟩
  have short₁ : w₁.nb < w₁.width := by omega
  have more₁ := more₁.trans more
  refine ⟨?_, fun w₂ fed₂ => ?_⟩
  · have stops := stopsFetch_of_short (s := s) short₁ more₁
    rwa [stopsFetch, ← getCode_of_feeds short more hacc fed, same.op] at stops
  · obtain ⟨same₂, nb₂, -⟩ := feeds_same fed₂
    rw [getCode_of_feeds short₁ more₁ hacc₁ fed₂]
    exact getCode_of_enough (by rw [same₂.width]; omega)

end Sys2Proof.Machine
end

section
/-! PROOF. DECOMPRESS against the reference decompressor (41_lzw_decompress.md R150 to R178): what its end says of IDX, OUT_COUNT and
the flags, and the streams that give LZWD no code. -/

namespace Sys2Proof.Claims

/-- The reference never decodes more symbols than are expected (41_lzw_decompress.md R165). -/
theorem length_decodeBits_le {m n : Nat} (fuel : Nat) {next width : Nat} {prev : Option (List Byte)}
    {tab : List (Nat × List Byte)} {out : List Byte} {bits : List Bool} (h : out.length ≤ n) :
    (decodeBits m n fuel next width prev tab out bits).1.length ≤ n := by
  induction fuel generalizing next width prev tab out bits with
  | zero => exact h
  | succ fuel ih =>
    by_cases short : bits.length < width
    · rw [decodeBits_of_short short]; exact h
    have enough := Nat.not_lt.mp short
    generalize value : bitsValue (bits.take width) = c
    by_cases clear : c = 2 ^ m
    · rw [decodeBits_of_clear enough value clear]; exact ih h
    by_cases eoi : c = 2 ^ m + 1
    · rw [decodeBits_of_eoi enough value eoi]; exact h
    cases hs : symbolsOf m next prev tab c with
    | none => rw [decodeBits_of_invalid enough value clear eoi hs]; exact h
    | some s =>
      by_cases long : n < out.length + s.length
      · rw [decodeBits_of_long enough value clear eoi hs long]; exact h
      have fits := Nat.not_lt.mp long
      have longer : (out ++ s).length ≤ n := by rw [List.length_append]; exact fits
      by_cases stay : prev = none ∨ 4096 ≤ next
      · rw [decodeBits_of_stay enough value clear eoi hs fits stay]; exact ih longer
      · obtain ⟨hasPrev, room⟩ := not_or.mp stay
        obtain ⟨p, hp⟩ := Option.ne_none_iff_exists'.mp hasPrev
        rw [decodeBits_of_insert enough value clear eoi hs fits hp (Nat.not_le.mp room)]; exact ih longer

theorem length_decoded_le (m n : Nat) (data : List Byte) : (decoded m n data).1.length ≤ n :=
  length_decodeBits_le _ (Nat.zero_le n)

end Sys2Proof.Claims

namespace Sys2Proof.Machine

open Sys2Proof.Claims

/-! ### The start -/

theorem exec_decompress_of_room {s : State} (ready : s.ready) (room : s.regs.idxLen.toNat ≤ s.cfg.size .idx) :
    exec .decompress s = andThen (lzwdStart s.regs.idxLen.toNat none (take 2 s)) run :=
  command_of_accepted ready.1 ready.2 (decompressChecks_pass.mpr room)

/-! Where LZWD does not start (41_lzw_decompress.md R152, R181). -/

section Start

variable {s : State} {n : Nat} {k : Option PixelFormat}

theorem lzwdStart_of_outside (h : s.fetchByte .src s.regs.srcPtr.toNat = .outside) :
    lzwdStart n k s = .next (raise .srcBounds s.regs.srcPtr.toNat s) := by
  simp only [lzwdStart, h]

theorem lzwdStart_of_unwritten (h : s.fetchByte .src s.regs.srcPtr.toNat = .unwritten) :
    lzwdStart n k s = .fault (.unwrittenRead .src s.regs.srcPtr.toNat) := by
  simp only [lzwdStart, h]

theorem lzwdStart_of_badMinCode {b : Byte} (h : s.fetchByte .src s.regs.srcPtr.toNat = .value b)
    (bad : minCodeOk b.toNat = false) : lzwdStart n k s = .next (raise .badMinCode b.toNat s) := by
  simp [lzwdStart, h, bad]

theorem lzwdStart_of_minCode {b : Byte} (h : s.fetchByte .src s.regs.srcPtr.toNat = .value b)
    (good : minCodeOk b.toNat = true) :
    lzwdStart n k s = .next (s.setRunning (.lzwd (Lzwd.start b.toNat (s.regs.srcPtr.toNat + 1) n) k)) := by
  simp [lzwdStart, h, good]

end Start

/-! ### What a DECOMPRESS leaves -/

/-- A DECOMPRESS that has written `out` and not yet ended. -/
def decompressing (s : State) (out : List Byte) : State := (take 2 s).setMemory .idx (Memory.writeList s.idx 0 out)

section Leaves

variable {s t : State} {w : Lzwd} {out : List Byte} {n : Nat}

@[simp] theorem decompressing_status (s : State) (out : List Byte) :
    (decompressing s out).regs.status = s.regs.status.taken := rfl

theorem decompressing_holds (s : State) (out : List Byte) : (decompressing s out).holds .idx 0 out :=
  holds_writeList (mem := s.idx) rfl

theorem decompressing_keepsOutside (s : State) (out : List Byte) :
    keepsOutside .idx 0 out.length s (decompressing s out) :=
  keepsOutside_writeList rfl

/-- A fault of LZWD ends the DECOMPRESS with what it has written (41_lzw_decompress.md R181). -/
theorem decompressFaulted_of_lzwdFault (ready : s.ready) (c : FaultCode) (info : Nat) (hop : w.op = out.length)
    (count : out.length < 4294967296) (ht : t = lzwdFault c info w (decompressing s out)) :
    DecompressReturned s t ∧ DecompressFaulted s t out c.code info := by
  rw [lzwdFault_of_clear c info (hop ▸ count) (s := decompressing s out) ready.2] at ht
  subst ht
  refine ⟨⟨rfl, rfl, rfl, rfl, ⟨rfl, rfl, rfl⟩, ⟨⟨rfl, rfl, rfl, rfl, rfl, rfl, rfl, rfl, rfl⟩, rfl⟩, rfl, rfl⟩,
    decompressing_holds s out, decompressing_keepsOutside s out, ?_, rfl, rfl, rfl⟩
  show (BitVec.ofNat 32 w.op).toNat = out.length
  rw [BitVec.toNat_ofNat, hop, Nat.mod_eq_of_lt count]

/-- A DECOMPRESS that ends without fault has its output and then zeros in IDX (41_lzw_decompress.md R176, R177). -/
theorem decompressCompleted_of_ended {ending : Ending} (ready : s.ready) (inRange : out.length ≤ n)
    (count : out.length < 4294967296)
    (h : DecompressEnded (decompressing s out) t none out.length n (decide (ending = .long))
      (decide (ending ≠ .long ∧ out.length ≠ n)) (decide (ending = .eoi))) :
    DecompressReturned s t ∧ DecompressCompleted s t n out ending := by
  obtain ⟨zeros, outside, rest⟩ := h
  have symbols : t.holds .idx 0 (out ++ List.replicate (n - out.length) 0) := by
    intro j hj
    rw [List.getElem_append]
    split
    · rename_i lt
      rw [outside _ (by omega)]
      exact decompressing_holds s out j lt
    · rename_i ge
      have filled := zeros (j - out.length) (by rw [List.length_append] at hj; omega)
      rwa [show out.length + (j - out.length) = 0 + j by omega] at filled
  have before : keepsOutside .idx 0 n s t := fun x hx =>
    (outside x (by omega)).trans (decompressing_keepsOutside s out x (by omega))
  have clear : (decompressing s out).regs.status.fault = false := ready.2
  rw [clear] at rest
  rw [rest] at symbols before ⊢
  refine ⟨⟨rfl, rfl, rfl, rfl, ⟨rfl, rfl, rfl⟩, ⟨⟨rfl, rfl, rfl, rfl, rfl, rfl, rfl, rfl, rfl⟩, rfl⟩, rfl, rfl⟩,
    symbols, before, ?_, ⟨ready.2.symm, rfl, rfl⟩, rfl⟩
  exact (BitVec.toNat_ofNat ..).trans (Nat.mod_eq_of_lt count)

/-- The end of a DECOMPRESS without fault, as the reference's ending says (41_lzw_decompress.md R176). -/
theorem lzwdEnding_ended {ending : Ending} (noFault : ∀ code, ending ≠ .invalid code) (hop : w.op = out.length) (hn : w.n = n)
    (inRange : out.length ≤ n) (room : n ≤ s.cfg.size .idx) (count : out.length < 4294967296) :
    ∃ t, lzwdEnding ending w (decompressing s out) = .next t ∧
      DecompressEnded (decompressing s out) t none out.length n (decide (ending = .long))
        (decide (ending ≠ .long ∧ out.length ≠ n)) (decide (ending = .eoi)) := by
  subst hn
  rw [← hop] at inRange count ⊢
  cases ending with
  | invalid code => exact absurd rfl (noFault code)
  | long => simpa [lzwdEnding] using lzwdLong_ended (s := decompressing s out) none inRange room count
  | eoi =>
    simpa [lzwdEnding] using lzwdEnd_ended (s := decompressing s out) (f := s.regs.status.taken.sawEoi) none rfl rfl inRange
      room count
  | endOfData =>
    have flags : (decompressing s out).setStatus s.regs.status.taken = decompressing s out := rfl
    simpa [lzwdEnding, flags] using lzwdEnd_ended (s := decompressing s out) (f := s.regs.status.taken) none rfl rfl inRange
      room count

theorem lzwdEnding_completes {ending : Ending} (ready : s.ready) (noFault : ∀ code, ending ≠ .invalid code)
    (hop : w.op = out.length) (hn : w.n = n) (inRange : out.length ≤ n) (room : n ≤ s.cfg.size .idx)
    (count : out.length < 4294967296) :
    ∃ t, lzwdEnding ending w (decompressing s out) = .next t ∧ DecompressReturned s t ∧
      DecompressCompleted s t n out ending := by
  obtain ⟨t, ends, ended⟩ := lzwdEnding_ended (s := s) noFault hop hn inRange room count
  exact ⟨t, ends, decompressCompleted_of_ended ready inRange count ended⟩

end Leaves

/-- Settles O31: the run of LZWD writes the reference's output and ends as the reference does. -/
theorem decompressComputesReference : Obligations.DecompressComputesReference := by
  intro s m blocks n stream ready hm ok room inside holds
  obtain ⟨v, hop, hn, run⟩ := exec_decompress_stream ready hm ok room inside holds
  have inRange := length_decoded_le m n blocks.flatten
  have count : (decoded m n blocks.flatten).1.length < 4294967296 := Nat.lt_of_le_of_lt inRange s.regs.idxLen.isLt
  change exec .decompress s = lzwdEnding _ v (decompressing s _) at run
  rw [run]
  generalize decoded m n blocks.flatten = result at hop inRange count ⊢
  obtain ⟨out, ending⟩ := result
  cases ending with
  | invalid code =>
    exact ⟨_, rfl, decompressFaulted_of_lzwdFault ready .invalidCode code hop count rfl⟩
  | eoi | endOfData | long => exact lzwdEnding_completes ready (fun _ => nofun) hop hn inRange room count

/-- Settles O33: where LZWD does not start. -/
theorem decompressFirstByte : Obligations.DecompressFirstByte := by
  intro s ready room
  have refused (c : FaultCode) (info : Nat) :
      raise c info (take 2 s) = refusedState s 2 c.code (BitVec.ofNat 32 info) := by
    rw [refusedState, ← refused_regs 2 c info ready.2, raise, ← ready.1]
    rfl
  have stops (c : FaultCode) (info : Nat) :
      andThen (.next (raise c info (take 2 s))) run = .next (refusedState s 2 c.code (BitVec.ofNat 32 info)) :=
    (runToIdle_of_idle _ rfl).trans (congrArg _ (refused c info))
  refine ⟨fun outside => ?_, fun b value bad => ?_, fun inside unwritten => ?_⟩ <;>
    rw [exec_decompress_of_room ready room]
  · rw [lzwdStart_of_outside (s := take 2 s) (State.fetchByte_eq_outside.mpr outside), stops]
    simp only [take_regs, BitVec.ofNat_toNat, BitVec.setWidth_eq]
    rfl
  · rw [lzwdStart_of_badMinCode (s := take 2 s) (b := b) value (by simp [minCodeOk]; omega), stops, BitVec.ofNat_toNat]
    rfl
  · rw [lzwdStart_of_unwritten (s := take 2 s) (State.fetchByte_eq_unwritten.mpr ⟨inside, unwritten⟩)]
    rfl

/-- Settles O32: the reference decodes no data to nothing. -/
theorem decompressOfEmptyStreamFillsZeros : Obligations.DecompressOfEmptyStreamFillsZeros := by
  intro s m ready hm room first second
  obtain ⟨-, first⟩ := State.fetchByte_eq_value.mp first
  obtain ⟨inside, second⟩ := State.fetchByte_eq_value.mp second
  have holds : s.holds .src s.regs.srcPtr.toNat (streamBytes m.toNat []) := by
    rw [streamBytes, BitVec.ofNat_toNat, BitVec.setWidth_eq]
    intro j hj
    rcases j with _ | _ | j
    · exact first
    · exact second
    · exact absurd hj (by simp)
  obtain ⟨v, hop, hn, run⟩ := exec_decompress_stream ready hm (blocks := []) nofun room inside holds
  obtain ⟨t, ends, zeros, outside, rest⟩ := lzwdEnding_ended (s := s) (out := []) (ending := .endOfData) nofun hop hn
    (Nat.zero_le _) room (by decide)
  have short : decide (Ending.endOfData ≠ .long ∧ ([] : List Byte).length ≠ s.regs.idxLen.toNat) =
      decide (s.regs.idxLen ≠ 0) := by
    rw [decide_eq_decide, List.length_nil, Ne, Ne, Ne, ← BitVec.toNat_inj]
    simp [eq_comm (a := 0)]
  refine ⟨t, run.trans ends, zeros, outside, ?_⟩
  have clear : (decompressing s []).regs.status.fault = false := ready.2
  rw [short, clear] at rest
  rw [ready.1]
  exact rest

end Sys2Proof.Machine
end

section
/-! PROOF. A stream that SRC ends in the middle of (41_lzw_decompress.md R153, R181, 20_memory.md R65): LZWD fetches the codes whose
bytes SRC holds, and then SRC_BOUNDS. -/

namespace Sys2Proof.Machine

open Sys2Proof.Claims

/-! ### The data bytes SRC still holds -/

/-- Reading from `p` on, with so many bytes left of the open sub-block, LZWD meets these data bytes, and then the end of SRC: where
a byte of a sub-block is due, where a length byte is, or after a length byte. -/
inductive Cut (s : State) : Nat → Nat → List Byte → Prop where
  | ends (left : Nat) : Cut s (s.cfg.size .src) left []
  | endsAfterLength {p : Nat} (l : Byte) : l ≠ 0 → s.fetchByte .src p = .value l → p + 1 = s.cfg.size .src → Cut s p 0 []
  | data {p left : Nat} {b : Byte} {rest : List Byte} : s.fetchByte .src p = .value b → Cut s (p + 1) left rest →
      Cut s p (left + 1) (b :: rest)
  | block {p left : Nat} {b : Byte} {rest : List Byte} (l : Byte) : l.toNat = left + 1 → s.fetchByte .src p = .value l →
      s.fetchByte .src (p + 1) = .value b → Cut s (p + 2) left rest → Cut s p 0 (b :: rest)

theorem Cut.congr {s t : State} {p left : Nat} {data : List Byte} (h : Cut s p left data) (hc : t.cfg = s.cfg)
    (hsrc : t.src = s.src) : Cut t p left data := by
  have same := State.fetchByte_congr (sp := .src) hc hsrc
  induction h with
  | ends left => rw [← hc]; exact .ends left
  | endsAfterLength l nonzero length last => exact .endsAfterLength l nonzero ((same _).trans length) (by rw [hc]; exact last)
  | data byte _ ih => exact .data ((same _).trans byte) ih
  | block l opens length byte _ ih => exact .block l opens ((same _).trans length) ((same _).trans byte) ih

@[simp] theorem dataWithin_zero (blocks : List (List Byte)) : dataWithin blocks 0 = [] := by
  induction blocks with
  | nil => rfl
  | cons b blocks ih => simp [dataWithin, ih]

theorem length_dataWithin_le (blocks : List (List Byte)) (k : Nat) : (dataWithin blocks k).length ≤ k := by
  induction blocks generalizing k with
  | nil => exact Nat.zero_le k
  | cons b blocks ih =>
    have := ih (k - (b.length + 1))
    rw [dataWithin, List.length_append, List.length_take]
    omega

/-- The last `k` bytes of SRC, if they are the first ones of what is left of a sub-block and of further ones. -/
theorem cut_of_fetches {s : State} (k : Nat) {p : Nat} {block : List Byte} {blocks : List (List Byte)} (ok : BlocksOk blocks)
    (inside : k < (block ++ blockBytes blocks).length) (last : p + k = s.cfg.size .src)
    (h : s.fetches p ((block ++ blockBytes blocks).take k)) :
    Cut s p block.length (block.take k ++ dataWithin blocks (k - block.length)) := by
  induction k using Nat.strong_induction_on generalizing p block blocks with
  | _ k ih =>
    cases k with
    | zero =>
      obtain rfl : p = s.cfg.size .src := last
      simpa using Cut.ends (s := s) block.length
    | succ k =>
      cases block with
      | cons b block =>
        obtain ⟨byte, rest⟩ := State.fetches_cons.mp h
        have later := ih k (Nat.lt_succ_self k) (p := p + 1) ok (by simpa using inside) (by omega) rest
        simpa using Cut.data byte later
      | nil =>
        cases blocks with
        | nil => simp [blockBytes] at inside
        | cons block blocks =>
          obtain ⟨⟨one, most⟩, later⟩ := List.forall_mem_cons.mp ok
          obtain ⟨b, block, rfl⟩ := List.exists_cons_of_ne_nil (List.length_pos_iff.mp one)
          have value : (BitVec.ofNat 8 (b :: block).length).toNat = (b :: block).length :=
            (BitVec.toNat_ofNat ..).trans (Nat.mod_eq_of_lt (by omega))
          have split : [] ++ blockBytes ((b :: block) :: blocks) =
              BitVec.ofNat 8 (b :: block).length :: b :: (block ++ blockBytes blocks) := by simp [blockBytes]
          rw [split] at h inside
          obtain ⟨length, rest⟩ := State.fetches_cons.mp h
          cases k with
          | zero =>
            have nonzero : BitVec.ofNat 8 (b :: block).length ≠ 0 := by rw [Ne, ← BitVec.toNat_inj, value]; simp
            simpa [dataWithin] using Cut.endsAfterLength _ nonzero length last
          | succ k =>
            obtain ⟨byte, rest⟩ := State.fetches_cons.mp rest
            have later := ih k (by omega) (p := p + 2) later (by simpa using inside) (by omega) rest
            simpa [dataWithin] using Cut.block _ value length byte later

/-! ### Fetching -/

section Fetch

variable {s : State} {w : Lzwd} {data : List Byte}

/-- At the end of SRC the next byte cannot be had. -/
theorem Cut.lacks (h : Cut s w.p w.sbrem []) : lacks s w (s.cfg.size .src) .outside := by
  refine ⟨State.fetchByte_eq_outside.mpr (Nat.le_refl _), ?_⟩
  generalize hp : w.p = p at h
  generalize hs : w.sbrem = left at h
  cases h with
  | ends => exact .inl rfl
  | endsAfterLength l nonzero length last => exact .inr ⟨last.symm, rfl, l, nonzero, length⟩

/-- Before it, the next data byte is fed. -/
theorem Cut.feeds {b : Byte} (h : Cut s w.p w.sbrem (b :: data)) (hacc : w.acc < 2 ^ w.nb) :
    ∃ w₁, feeds s w w₁ ∧ Cut s w₁.p w₁.sbrem data ∧
      codeBits w₁.acc w₁.nb ++ dataBits data = codeBits w.acc w.nb ++ dataBits (b :: data) := by
  have bits : codeBits (w.acc + b.toNat * 2 ^ w.nb) (w.nb + 8) ++ dataBits data =
      codeBits w.acc w.nb ++ dataBits (b :: data) := by
    rw [← or_shift_eq_add _ hacc, codeBits_push _ 8 hacc, List.append_assoc, dataBits_cons]
  generalize hp : w.p = p at h
  generalize hs : w.sbrem = left at h
  cases h with
  | data byte rest =>
    exact ⟨_, ⟨b, .inl ⟨by omega, hp ▸ byte, rfl⟩⟩, by simpa [hp, hs] using rest, bits⟩
  | block l opens length byte rest =>
    have nonzero : l ≠ 0 := by rw [Ne, ← BitVec.toNat_inj, opens]; simp
    exact ⟨_, ⟨b, .inr ⟨hs, l, nonzero, hp ▸ length, hp ▸ byte, rfl⟩⟩, by simpa [hp, opens] using rest, bits⟩

/-- The bits LZWD has still to read before the end of SRC: those held in d_acc, and then the data bytes SRC holds. -/
inductive Lzwd.SeesCut (s : State) (w : Lzwd) : List Bool → Prop where
  | mk (data : List Byte) : w.acc < 2 ^ w.nb → w.ended = false → Cut s w.p w.sbrem data →
      SeesCut s w (codeBits w.acc w.nb ++ dataBits data)

/-- GetCode where the bits of a whole code are held. -/
theorem getCode_cut_of_enough (hacc : w.acc < 2 ^ w.nb) (more : w.ended = false) (cut : Cut s w.p w.sbrem data)
    (hw : w.width ≤ 12) (enough : w.width ≤ w.nb) :
    ∃ w' c, getCode s w = .code w' c ∧ w.Same w' ∧
      w'.SeesCut s ((codeBits w.acc w.nb ++ dataBits data).drop w.width) ∧
      c.toNat = bitsValue ((codeBits w.acc w.nb ++ dataBits data).take w.width) := by
  have rest : w.acc / 2 ^ w.width < 2 ^ (w.nb - w.width) := by
    rw [Nat.div_lt_iff_lt_mul (Nat.two_pow_pos _), ← Nat.pow_add, Nat.sub_add_cancel enough]
    exact hacc
  have lt := Nat.mod_lt w.acc (Nat.two_pow_pos w.width)
  have fits : w.acc % 2 ^ w.width < 2 ^ 12 := Nat.lt_of_lt_of_le lt (Nat.pow_le_pow_right (by decide) hw)
  rw [codeBits_split _ enough, List.append_assoc, List.take_left' (length_codeBits ..), List.drop_left' (length_codeBits ..),
    Nat.shiftRight_eq_div_pow]
  refine ⟨_, _, getCode_of_enough enough, ⟨rfl, rfl, rfl, rfl, rfl, rfl, rfl⟩, .mk data rest more cut, ?_⟩
  rw [← codeBits_mod, bitsValue_codeBits lt, BitVec.toNat_ofNat, Nat.mod_eq_of_lt fits]

/-- GetCode where SRC holds a whole code. -/
theorem getCode_cut_of_le {bits : List Bool} (h : w.SeesCut s bits) (hw : w.width ≤ 12) (le : w.width ≤ bits.length) :
    ∃ w' c, getCode s w = .code w' c ∧ w.Same w' ∧ w'.SeesCut s (bits.drop w.width) ∧ c.toNat = bitsValue (bits.take w.width) := by
  obtain ⟨data, hacc, more, cut⟩ := h
  induction data generalizing w with
  | nil => exact getCode_cut_of_enough hacc more cut hw (by simpa [dataBits] using le)
  | cons b data ih =>
    by_cases enough : w.width ≤ w.nb
    · exact getCode_cut_of_enough hacc more cut hw enough
    obtain ⟨w₁, fed, cut₁, bits⟩ := cut.feeds hacc
    obtain ⟨same, -, more₁⟩ := feeds_same fed
    rw [getCode_of_feeds (Nat.not_le.mp enough) more hacc fed, ← bits, ← same.width]
    obtain ⟨w', c, fetch, same', found⟩ := ih (same.width ▸ hw) (feeds_acc_lt hacc fed) (more₁.trans more) cut₁
      (by rw [bits, same.width]; exact le)
    exact ⟨w', c, fetch, same.trans same', found⟩

/-- GetCode where it does not. -/
theorem getCode_cut_of_lt {bits : List Bool} (h : w.SeesCut s bits) (lt : bits.length < w.width) :
    ∃ w', getCode s w = .bounds w' (s.cfg.size .src) ∧ w'.op = w.op := by
  obtain ⟨data, hacc, more, cut⟩ := h
  rw [List.length_append, length_codeBits, length_dataBits] at lt
  induction data generalizing w with
  | nil => exact (stopsFetch_of_short (by omega) more).2.1 _ cut.lacks
  | cons b data ih =>
    obtain ⟨w₁, fed, cut₁, -⟩ := cut.feeds hacc
    obtain ⟨same, nb, more₁⟩ := feeds_same fed
    rw [List.length_cons] at lt
    rw [getCode_of_feeds (by omega) more hacc fed, ← same.op]
    exact ih (feeds_acc_lt hacc fed) (more₁.trans more) cut₁ (by rw [same.width]; omega)

end Fetch

end Sys2Proof.Machine
end

section
/-! PROOF. DECOMPRESS of a stream that SRC ends in the middle of, against the reference decompressor on the data SRC holds
(41_lzw_decompress.md R178, R181). -/

namespace Sys2Proof.Machine

open Sys2Proof.Claims

/-! ### One code -/

/-- The code stream stands at the same place: d_acc, d_nb, d_p, d_sbrem and d_ended. -/
structure Lzwd.SameCursor (w v : Lzwd) : Prop where
  acc : v.acc = w.acc
  nb : v.nb = w.nb
  p : v.p = w.p
  sbrem : v.sbrem = w.sbrem
  ended : v.ended = w.ended

theorem Lzwd.learn_sameCursor (w : Lzwd) (op code : Nat) (first : Byte) :
    w.SameCursor (Lzwd.learn { w with op := op } code first) := by
  rcases Lzwd.learn_spec { w with op := op } code first with ⟨prev, -, -, e⟩ | ⟨-, e⟩ <;> rw [e] <;>
    exact ⟨rfl, rfl, rfl, rfl, rfl⟩

/-- What the code `i` does at `s` in registers `w`, where the reference, which has decoded `out`, comes to `result`: it ends the
decompression as the reference ends, or goes on in registers from which the reference comes to `result` on `bits`. -/
inductive CodeStep (s : State) (idx : Memory) (w : Lzwd) (i : Instr) (result : List Byte × Ending) (out : List Byte) (bound : Nat)
    (bits : List Bool) : Prop where
  | ends (ending : Ending) : ending ≠ .endOfData → result = (out, ending) → execCode i s = lzwdEnding ending w s →
      CodeStep s idx w i result out bound bits
  | goesOn (v : Lzwd) (prev : Option (List Byte)) (tab : List (Nat × List Byte)) (out' : List Byte) : v.Ok s.cfg →
      v.Holds prev tab out' → w.SameCursor v → v.n = w.n →
      result = decodeBits v.m v.n bound v.next v.width prev tab out' bits →
      execCode i s = .next ((s.setMemory .idx (Memory.writeList idx 0 out')).setRunning (.lzwd v none)) →
      CodeStep s idx w i result out bound bits

section Code

variable {s : State} {w : Lzwd} {prev : Option (List Byte)} {tab : List (Nat × List Byte)} {out : List Byte} {bits : List Bool}
  {idx : Memory}

/-- A code of whole width does what the reference says of it (41_lzw_decompress.md R156 to R168). -/
theorem Lzwd.Holds.codeStep (holds : w.Holds prev tab out) (ok : w.Ok s.cfg) (hr : s.running = .lzwd w none)
    (hidx : s.idx = Memory.writeList idx 0 out) {c : BitVec 12} (enough : w.width ≤ bits.length)
    (value : bitsValue (bits.take w.width) = c.toNat) (bound : Nat) :
    CodeStep s idx w (decodeCode w.context c) (decodeBits w.m w.n (bound + 1) w.next w.width prev tab out bits) out bound
      (bits.drop w.width) := by
  by_cases clear : c.toNat = 2 ^ w.m
  · refine .goesOn { w with next := firstCode w.m, width := w.m + 1, prev := none, tab := [] } none [] out ok.clear
      (.of_empty holds.op rfl rfl rfl) ⟨rfl, rfl, rfl, rfl, rfl⟩ rfl (decodeBits_of_clear enough value clear) ?_
    rw [execCode_clear ok hr clear, ← hidx]
    rfl
  by_cases eoi : c.toNat = 2 ^ w.m + 1
  · exact .ends .eoi nofun (decodeBits_of_eoi enough value eoi) (execCode_eoi ok hr eoi)
  cases hs : symbolsOf w.m w.next prev tab c.toNat with
  | none =>
    exact .ends (.invalid c.toNat) nofun (decodeBits_of_invalid enough value clear eoi hs) (holds.execCode_invalid ok hr hs)
  | some symbols =>
    have run := holds.execCode_data ok hr clear eoi hs
    by_cases long : w.n < out.length + symbols.length
    · refine .ends .long nofun (decodeBits_of_long enough value clear eoi hs long) (run.trans ?_)
      exact dataCode_long none _ (holds.op ▸ long)
    · have fits : w.op + symbols.length ≤ w.n := holds.op ▸ Nat.not_lt.mp long
      have canLearn : Lzwd.CanLearn { w with op := w.op + symbols.length } c.toNat := holds.canLearn ok c.isLt clear eoi hs
      obtain ⟨tab', holds', decode⟩ := holds.learn ok c.isLt clear eoi hs (Nat.not_lt.mp long) rfl enough value (fuel := bound)
      refine .goesOn _ _ _ _ ((ok.output fits).learn canLearn (holds.symbols_below ok clear eoi hs).headD) holds'
        (w.learn_sameCursor ..) (Lzwd.learn_n ..) decode ?_
      rw [run, dataCode, if_neg (Nat.not_lt.mpr fits), State.writeChecked_of_fits _ (Nat.le_trans fits ok.n_fits),
        Memory.writeList_append, Nat.zero_add, ← hidx, holds.op]
      rfl

end Code

/-! ### The run of LZWD -/

/-- How a DECOMPRESS ends where SRC ends in the middle of its stream: where the reference meets the end of its data, SRC_BOUNDS at
the first address outside SRC (41_lzw_decompress.md R181). -/
def cutEnding (ending : Ending) (w : Lzwd) (s : State) : Res :=
  match ending with
  | .endOfData => .next (lzwdFault .srcBounds (s.cfg.size .src) w s)
  | ending => lzwdEnding ending w s

theorem cutEnding_of_ne {ending : Ending} (h : ending ≠ .endOfData) (w : Lzwd) (s : State) :
    cutEnding ending w s = lzwdEnding ending w s := by
  cases ending with
  | endOfData => exact absurd rfl h
  | eoi | long | invalid code => rfl

theorem cutEnding_setRunning (ending : Ending) (w : Lzwd) (s : State) (r : Running) :
    cutEnding ending w (s.setRunning r) = cutEnding ending w s := by
  cases ending <;> rfl

section Run

variable {s : State} {w : Lzwd} {prev : Option (List Byte)} {tab : List (Nat × List Byte)} {out : List Byte} {bits : List Bool}
  {idx : Memory}

theorem Lzwd.SeesCut.of_sameCursor {t : State} {v : Lzwd} (h : w.SeesCut s bits) (same : w.SameCursor v) (hc : t.cfg = s.cfg)
    (hsrc : t.src = s.src) : v.SeesCut t bits := by
  obtain ⟨data, hacc, more, cut⟩ := h
  obtain ⟨acc, nb, p, sbrem, ended⟩ := same
  rw [← acc, ← nb] at hacc ⊢
  exact .mk data hacc (ended.trans more) (by rw [p, sbrem]; exact cut.congr hc hsrc)

/-- Where SRC holds fewer bits than a code has. -/
theorem runToIdle_cut_of_short (fuel : Nat) (hr : s.running = .lzwd w none) (ok : w.Ok s.cfg) (sees : w.SeesCut s bits)
    (hop : w.op = out.length) (hidx : s.idx = Memory.writeList idx 0 out) (short : bits.length < w.width) :
    ∃ v : Lzwd, v.op = out.length ∧ v.n = w.n ∧
      runToIdle (fuel + 1) s = cutEnding .endOfData v (s.setMemory .idx (Memory.writeList idx 0 out)) := by
  obtain ⟨v, fetch, -⟩ := getCode_cut_of_lt sees short
  have fetched := getCode_spec s ok.fed ok.nb_bound
  rw [fetch] at fetched
  obtain ⟨same, -⟩ := fetched
  have step : unitStep s = .next (lzwdFault .srcBounds (s.cfg.size .src) v s) := by
    simp only [unitStep, hr, lzwdStep, fetch]
  refine ⟨v, same.op.trans hop, same.n, ?_⟩
  rw [runToIdle_of_running fuel (by simp [hr]), step, andThen_next, runToIdle_of_idle fuel rfl, ← hidx]
  rfl

/-- From registers that hold what the reference has, LZWD writes the reference's output of the data SRC holds, and ends as the
reference does or with SRC_BOUNDS (41_lzw_decompress.md R178, R181). -/
theorem runToIdle_cut (bound : Nat) {fuel : Nat} (hr : s.running = .lzwd w none) (ok : w.Ok s.cfg) (sees : w.SeesCut s bits)
    (holds : w.Holds prev tab out) (hidx : s.idx = Memory.writeList idx 0 out) (hb : bits.length ≤ bound)
    (hf : bits.length < fuel) {result : List Byte × Ending}
    (hresult : result = decodeBits w.m w.n bound w.next w.width prev tab out bits) :
    ∃ v : Lzwd, v.op = result.1.length ∧ v.n = w.n ∧
      runToIdle fuel s = cutEnding result.2 v (s.setMemory .idx (Memory.writeList idx 0 result.1)) := by
  have narrow := ok.width_range.1
  induction bound generalizing fuel s w prev tab out bits with
  | zero =>
    obtain ⟨fuel, rfl⟩ := Nat.exists_eq_succ_of_ne_zero (Nat.ne_of_gt (Nat.zero_lt_of_lt hf))
    subst hresult
    exact runToIdle_cut_of_short fuel hr ok sees holds.op hidx (by omega)
  | succ bound ih =>
    obtain ⟨fuel, rfl⟩ := Nat.exists_eq_succ_of_ne_zero (Nat.ne_of_gt (Nat.zero_lt_of_lt hf))
    by_cases short : bits.length < w.width
    · rw [decodeBits_of_short short] at hresult
      subst hresult
      exact runToIdle_cut_of_short fuel hr ok sees holds.op hidx short
    have enough := Nat.not_lt.mp short
    obtain ⟨w', c, fetch, same, rest, value⟩ := getCode_cut_of_le sees ok.width_range.2 enough
    have fetched := getCode_spec s ok.fed ok.nb_bound
    rw [fetch] at fetched
    obtain ⟨fed, -, few, -⟩ := fetched
    have step : unitStep s = execCode (decodeCode w'.context c) (s.setRunning (.lzwd w' none)) := by
      simp only [unitStep, hr, lzwdStep, fetch]
    have left : (bits.drop w.width).length ≤ bound ∧ (bits.drop w.width).length < fuel := by
      rw [List.length_drop]; omega
    rw [← same.m, ← same.n, ← same.next, ← same.width] at hresult
    rw [← same.width] at enough value rest left
    rw [runToIdle_of_running fuel (by simp [hr]), step, ← same.n]
    cases (holds.of_registers same).codeStep (s := s.setRunning (.lzwd w' none)) (ok.fetched same fed few) rfl hidx enough
      value.symm bound with
    | ends ending goes decode run =>
      obtain rfl := hresult.trans decode
      exact ⟨w', (holds.of_registers same).op, rfl, by
        rw [run, andThen_lzwdEnding, cutEnding_of_ne goes, lzwdEnding_setRunning, ← hidx]; rfl⟩
    | goesOn v prev' tab' out' ok' holds' cursor hn decode run =>
      obtain ⟨u, hop, hn', ran⟩ := ih (s := (s.setMemory .idx (Memory.writeList idx 0 out')).setRunning (.lzwd v none)) rfl ok'
        (rest.of_sameCursor cursor rfl rfl) holds' rfl left.1 left.2 (hresult.trans decode) ok'.width_range.1
      refine ⟨u, hop, hn'.trans hn, ?_⟩
      rw [run, andThen_next]
      exact ran.trans (cutEnding_setRunning _ _ (s.setMemory .idx (Memory.writeList idx 0 result.1)) _)

end Run

/-! ### The whole command -/

/-- DECOMPRESS of the `k` bytes of a stream before the end of SRC writes the reference's output of the data bytes among them. -/
theorem exec_decompress_cut {s : State} {m k : Nat} {blocks : List (List Byte)} (ready : s.ready) (hm : 2 ≤ m ∧ m ≤ 8)
    (ok : BlocksOk blocks) (room : s.regs.idxLen.toNat ≤ s.cfg.size .idx) (short : k + 1 < (streamBytes m blocks).length)
    (last : s.regs.srcPtr.toNat + (k + 1) = s.cfg.size .src)
    (holds : s.holds .src s.regs.srcPtr.toNat ((streamBytes m blocks).take (k + 1))) {result : List Byte × Ending}
    (hresult : result = decoded m s.regs.idxLen.toNat (dataWithin blocks k)) :
    ∃ v : Lzwd, v.op = result.1.length ∧ v.n = s.regs.idxLen.toNat ∧
      exec .decompress s = cutEnding result.2 v (decompressing s result.1) := by
  have inside : s.regs.srcPtr.toNat + ((streamBytes m blocks).take (k + 1)).length ≤ s.cfg.size .src := by
    rw [List.length_take]; omega
  obtain ⟨first, rest⟩ := State.fetches_cons.mp (holds.fetches inside)
  have value : (BitVec.ofNat 8 m).toNat = m := (BitVec.toNat_ofNat ..).trans (Nat.mod_eq_of_lt (by omega))
  have start := lzwdStart_of_minCode (s := take 2 s) (n := s.regs.idxLen.toNat) (k := none) first
    (by rw [value]; simpa [minCodeOk] using hm)
  rw [value] at start
  have length : (streamBytes m blocks).length = (blockBytes blocks).length + 1 := rfl
  have cut : Cut s (s.regs.srcPtr.toNat + 1) 0 (dataWithin blocks k) := by
    simpa using cut_of_fetches k (block := []) ok (by rw [List.nil_append]; omega) (by omega) rest
  have held := length_dataWithin_le blocks k
  have bits := length_dataBits (dataWithin blocks k)
  obtain ⟨v, hop, hn, ran⟩ := runToIdle_cut (fuel := 8 * s.cfg.size .src + 1) (idx := s.idx)
    (s := (take 2 s).setRunning (.lzwd (Lzwd.start m (s.regs.srcPtr.toNat + 1) s.regs.idxLen.toNat) none)) (out := [])
    (dataBits (dataWithin blocks k)).length rfl (Lzwd.start_ok hm (by show _ ≤ s.cfg.size .src; omega) room)
    (.mk (w := Lzwd.start ..) _ Nat.zero_lt_one rfl (cut.congr rfl rfl)) (.of_empty rfl rfl rfl rfl) rfl (Nat.le_refl _)
    (by show (dataBits _).length < _; omega) hresult
  refine ⟨v, hop, hn, ?_⟩
  rw [exec_decompress_of_room ready room, start, andThen_next]
  exact ran.trans (cutEnding_setRunning _ _ (decompressing s result.1) _)

/-- Settles O58: the reference runs on the data bytes SRC holds, and the end of its data is SRC_BOUNDS. -/
theorem decompressStopsAtTheEndOfSrc : Obligations.DecompressStopsAtTheEndOfSrc := by
  intro s m k blocks n stream ready hm ok room some_byte short last holds
  obtain ⟨k, rfl⟩ := Nat.exists_eq_add_one.mpr some_byte
  have inRange := length_decoded_le m n (dataWithin blocks k)
  have count : (decoded m n (dataWithin blocks k)).1.length < 4294967296 := Nat.lt_of_le_of_lt inRange s.regs.idxLen.isLt
  rw [Nat.add_sub_cancel]
  generalize hresult : decoded m n (dataWithin blocks k) = result at inRange count ⊢
  obtain ⟨v, hop, hn, run⟩ := exec_decompress_cut ready hm ok room short last holds hresult.symm
  rw [run]
  obtain ⟨out, ending⟩ := result
  cases ending with
  | invalid code => exact ⟨_, rfl, decompressFaulted_of_lzwdFault ready .invalidCode code hop count rfl⟩
  | endOfData => exact ⟨_, rfl, decompressFaulted_of_lzwdFault ready .srcBounds (s.cfg.size .src) hop count rfl⟩
  | eoi => exact lzwdEnding_completes (ending := .eoi) ready nofun hop hn inRange room count
  | long => exact lzwdEnding_completes (ending := .long) ready nofun hop hn inRange room count

end Sys2Proof.Machine
end

section
/-! PROOF. Where BLIT's symbols land: the interlace map (42_blit.md R194) lists each row once, so the destination addresses (R192
to R197) list each pixel of the frame once. -/

namespace Sys2Proof.Machine

open Sys2Proof.Claims

/-! ### The interlace map -/

/-- The rows of one pass: `first`, `first + step` and so on, `n` of them below `h`. -/
theorem filter_range_eq_pass {step first n h : Nat} (lt : first < step) (count : ∀ k, k < n ↔ step * k + first < h) :
    (List.range h).filter (fun r => r % step = first) = (List.range n).map (fun k => step * k + first) := by
  have rising : ∀ {a b : Nat}, a < b → step * a + first < step * b + first := fun ab =>
    Nat.add_lt_add_right (Nat.mul_lt_mul_of_pos_left ab (by omega)) _
  refine List.Pairwise.eq_of_mem_iff (r := (· < ·)) (List.pairwise_lt_range.filter _)
    (List.pairwise_map.mpr (List.pairwise_lt_range.imp rising)) fun r => ?_
  simp only [List.mem_filter, List.mem_range, decide_eq_true_eq, List.mem_map, count]
  constructor
  · rintro ⟨inside, rfl⟩
    exact ⟨r / step, by rwa [Nat.div_add_mod], Nat.div_add_mod r step⟩
  · rintro ⟨k, inside, rfl⟩
    exact ⟨inside, by rw [Nat.mul_add_mod, Nat.mod_eq_of_lt lt]⟩

/-- The four passes, each a run of the map (42_blit.md R194). -/
theorem map_ilace_range (h : Nat) : (List.range h).map (fun s => ilace s h) = passRows h := by
  have lengths : h = (h + 7) / 8 + (h + 3) / 8 + (h + 1) / 4 + h / 2 := by omega
  rw [passRows, filter_range_eq_pass (n := (h + 7) / 8) (by decide) (by omega),
    filter_range_eq_pass (n := (h + 3) / 8) (by decide) (by omega),
    filter_range_eq_pass (n := (h + 1) / 4) (by decide) (by omega),
    filter_range_eq_pass (n := h / 2) (by decide) (by omega)]
  conv_lhs => rw [lengths]
  simp only [List.range_add, List.map_append, List.map_map]
  refine congrArg₂ _ (congrArg₂ _ (congrArg₂ _ ?_ ?_) ?_) ?_
  all_goals
    refine List.map_congr_left fun k hk => ?_
    have lt := List.mem_range.mp hk
    simp only [Function.comp_apply, ilace]
    split_ifs <;> omega

/-- Each row is in one pass, once. -/
theorem passRows_perm (h : Nat) : (passRows h).Perm (List.range h) := by
  have nodup : (passRows h).Nodup := by
    simp only [passRows, List.nodup_append, List.mem_append, List.mem_filter, decide_eq_true_eq]
    exact ⟨⟨⟨List.nodup_range.filter _, List.nodup_range.filter _, by omega⟩, List.nodup_range.filter _, by omega⟩,
      List.nodup_range.filter _, by omega⟩
  refine (List.perm_ext_iff_of_nodup nodup List.nodup_range).mpr fun r => ?_
  simp only [passRows, List.mem_append, List.mem_filter, decide_eq_true_eq, List.mem_range]
  omega

/-- Settles O40: the passes follow each other in the map. -/
theorem interlaceListsTheFourPasses : Obligations.InterlaceListsTheFourPasses := fun h =>
  ⟨map_ilace_range h, map_ilace_range h ▸ passRows_perm h⟩

theorem getElem?_passRows {srow h : Nat} (lt : srow < h) : (passRows h)[srow]? = some (ilace srow h) := by
  rw [← map_ilace_range, List.getElem?_map, List.getElem?_range lt, Option.map_some]

theorem ilace_inj {a b h : Nat} (ha : a < h) (hb : b < h) (e : ilace a h = ilace b h) : a = b :=
  List.inj_on_of_nodup_map (map_ilace_range h ▸ (passRows_perm h).nodup_iff.mpr List.nodup_range)
    (List.mem_range.mpr ha) (List.mem_range.mpr hb) e

theorem exists_ilace_eq {row h : Nat} (lt : row < h) : ∃ srow < h, ilace srow h = row := by
  have mem := (passRows_perm h).mem_iff.mpr (List.mem_range.mpr lt)
  rw [← map_ilace_range] at mem
  obtain ⟨srow, hs, e⟩ := List.mem_map.mp mem
  exact ⟨srow, List.mem_range.mp hs, e⟩

theorem frameRow_inj {interlaced : Bool} {a b h : Nat} (ha : a < h) (hb : b < h)
    (e : frameRow interlaced a h = frameRow interlaced b h) : a = b := by
  cases interlaced with
  | false => exact e
  | true => exact ilace_inj ha hb e

theorem exists_frameRow_eq (interlaced : Bool) {row h : Nat} (lt : row < h) : ∃ srow < h, frameRow interlaced srow h = row := by
  cases interlaced with
  | false => exact ⟨row, lt, rfl⟩
  | true => exact exists_ilace_eq lt

/-! ### The destination addresses -/

/-- Two positions in lines of `w` are equal if line and column are. -/
theorem line_col_inj {w a b c d : Nat} (hb : b < w) (hd : d < w) (e : a * w + b = c * w + d) : a = c ∧ b = d := by
  have pos : 0 < w := by omega
  have line := congrArg (· / w) e
  have col := congrArg (· % w) e
  simp only [Nat.mul_comm _ w, Nat.mul_add_div pos, Nat.div_eq_of_lt hb, Nat.div_eq_of_lt hd,
    Nat.mul_add_mod, Nat.mod_eq_of_lt hb, Nat.mod_eq_of_lt hd, Nat.add_zero] at line col
  exact ⟨line, col⟩

/-- The PIX address of the pixel in a row and a column of the frame (42_blit.md R197). -/
def framePixel (r : Regs) (row col : Nat) : Nat :=
  4 * ((r.framePos.y.toNat + row) * r.canvas.w.toNat + (r.framePos.x.toNat + col))

theorem pixelAddress_eq_framePixel (r : Regs) (i : Nat) :
    pixelAddress r i =
      framePixel r (frameRow r.blitCtrl.interlaced (i / r.frameSize.w.toNat) r.frameSize.h.toNat) (i % r.frameSize.w.toNat) := rfl

section Frame

variable {cfg : Config} {r : Regs} {i j : Nat}

/-- A symbol's stored row (42_blit.md R193). -/
theorem storedRow_lt (hi : i < frameSymbols r) : i / r.frameSize.w.toNat < r.frameSize.h.toNat := Nat.div_lt_of_lt_mul hi

/-- A symbol's column (42_blit.md R192). -/
theorem FrameOk.col_lt (frame : FrameOk cfg r) (i : Nat) : i % r.frameSize.w.toNat < r.frameSize.w.toNat :=
  Nat.mod_lt _ frame.frame_pos.1

theorem FrameOk.pixelAddress_inj (frame : FrameOk cfg r) (hi : i < frameSymbols r) (hj : j < frameSymbols r)
    (e : pixelAddress r i = pixelAddress r j) : i = j := by
  have right := frame.inside_x
  have ci := frame.col_lt i
  have cj := frame.col_lt j
  obtain ⟨line, col⟩ := line_col_inj (by omega) (by omega) (Nat.eq_of_mul_eq_mul_left (by decide) e)
  have row := frameRow_inj (storedRow_lt hi) (storedRow_lt hj) (Nat.add_left_cancel line)
  rw [← Nat.div_add_mod i r.frameSize.w.toNat, ← Nat.div_add_mod j r.frameSize.w.toNat, row, Nat.add_left_cancel col]

/-- The pixels of two symbols do not overlap. -/
theorem FrameOk.pixels_apart (frame : FrameOk cfg r) (hi : i < frameSymbols r) (hj : j < frameSymbols r) (ne : i ≠ j) :
    pixelAddress r i + 4 ≤ pixelAddress r j ∨ pixelAddress r j + 4 ≤ pixelAddress r i := by
  have apart : pixelAddress r i ≠ pixelAddress r j := fun e => ne (frame.pixelAddress_inj hi hj e)
  simp only [pixelAddress_eq_framePixel, framePixel] at apart ⊢
  omega

/-- Every pixel of the frame is a symbol's. -/
theorem FrameOk.exists_pixelAddress (frame : FrameOk cfg r) {row col : Nat} (hr : row < r.frameSize.h.toNat)
    (hc : col < r.frameSize.w.toNat) : ∃ i < frameSymbols r, pixelAddress r i = framePixel r row col := by
  obtain ⟨srow, hs, rfl⟩ := exists_frameRow_eq r.blitCtrl.interlaced hr
  refine ⟨r.frameSize.w.toNat * srow + col, ?_, ?_⟩
  · calc r.frameSize.w.toNat * srow + col < r.frameSize.w.toNat * (srow + 1) := by rw [Nat.mul_succ]; omega
      _ ≤ frameSymbols r := Nat.mul_le_mul_left _ hs
  · rw [pixelAddress_eq_framePixel, Nat.mul_add_div frame.frame_pos.1, Nat.div_eq_of_lt hc, Nat.mul_add_mod,
      Nat.mod_eq_of_lt hc, Nat.add_zero]

/-- Every pixel lies inside the canvas: PIX may be no larger than the canvas. -/
theorem FrameOk.pixel_in_canvas (frame : FrameOk cfg r) (hi : i < frameSymbols r) :
    pixelAddress r i + 4 ≤ 4 * r.canvas.w.toNat * r.canvas.h.toNat :=
  FrameOk.pixel_fits (cfg := { cfg with pixSize := ⟨_, Nat.lt_of_le_of_lt frame.pix_fits cfg.pixSize.isLt⟩ })
    { frame with pix_fits := Nat.le_refl _ } hi

end Frame

/-- Settles O41: the interlace map is a permutation of the rows, and a position splits into its row and column in one way. -/
theorem pixelAddressesCoverTheFrameOnce : Obligations.PixelAddressesCoverTheFrameOnce := by
  intro cfg r frame
  refine ⟨fun i hi => ⟨_, ?_, pixelAddress_eq_framePixel r i⟩, fun i hi => frame.pixel_in_canvas hi,
    fun i hi j hj => frame.pixels_apart hi hj, fun col row hc hr => frame.exists_pixelAddress hr hc⟩
  cases e : r.blitCtrl.interlaced with
  | false => rfl
  | true => exact getElem?_passRows (storedRow_lt hi)

end Sys2Proof.Machine
end

section
/-! PROOF. The run of BLIT: what it has drawn after each symbol (42_blit.md R198 to R202), and how it ends (R204,
R205). -/

namespace Sys2Proof.Machine

open Sys2Proof.Claims

/-! ### Symbols and colours -/

theorem isTransparent_iff (c : BlitCtrl) (v : Byte) : isTransparent c v = true ↔ c.transEn = true ∧ v = c.transIndex := by
  rw [isTransparent, Bool.and_eq_true, beq_iff_eq]

theorem opaqueCount_concat (c : BlitCtrl) (symbols : List Byte) (v : Byte) :
    opaqueCount c (symbols ++ [v]) = if isTransparent c v then opaqueCount c symbols else opaqueCount c symbols + 1 := by
  rw [opaqueCount, List.countP_append, List.countP_singleton]
  change opaqueCount c symbols + (if (!isTransparent c v) = true then 1 else 0) = _
  cases isTransparent c v <;> rfl

theorem opaqueCount_le_length (c : BlitCtrl) (symbols : List Byte) : opaqueCount c symbols ≤ symbols.length :=
  List.countP_le_length

/-- A frame has fewer than 2^32 symbols, so that PIX_COUNT holds their number. -/
theorem frameSymbols_lt (r : Regs) : frameSymbols r < 4294967296 :=
  Nat.lt_of_le_of_lt (Nat.mul_le_mul (Nat.le_of_lt_succ r.frameSize.w.isLt) (Nat.le_of_lt_succ r.frameSize.h.isLt)) (by decide)

/-- The palette's three bytes of a colour (42_blit.md R201). -/
structure State.HasColour (s : State) (v r g b : Byte) : Prop where
  red : s.fetchByte .src (s.regs.palPtr.toNat + 3 * v.toNat) = .value r
  green : s.fetchByte .src (s.regs.palPtr.toNat + 3 * v.toNat + 1) = .value g
  blue : s.fetchByte .src (s.regs.palPtr.toNat + 3 * v.toNat + 2) = .value b

/-- BLIT goes on past the symbol: it is transparent, or its colour is in the palette and written. -/
def State.draws (s : State) (v : Byte) : Prop :=
  (s.regs.blitCtrl.transEn = true ∧ v = s.regs.blitCtrl.transIndex) ∨
    (v.toNat < s.regs.palSize.toNat ∧ s.written .src (s.regs.palPtr.toNat + 3 * v.toNat) 3)

theorem State.written_three_iff {s : State} {a : Nat} :
    s.written .src a 3 ↔ ∃ r g b, s.fetchByte .src a = .value r ∧ s.fetchByte .src (a + 1) = .value g ∧
      s.fetchByte .src (a + 2) = .value b := by
  simp only [State.fetchByte_eq_value]
  constructor
  · rintro ⟨inside, read⟩
    obtain ⟨r, hr⟩ := read 0 (by decide)
    obtain ⟨g, hg⟩ := read 1 (by decide)
    obtain ⟨b, hb⟩ := read 2 (by decide)
    exact ⟨r, g, b, ⟨by omega, hr⟩, ⟨by omega, hg⟩, by omega, hb⟩
  · rintro ⟨r, g, b, ⟨-, hr⟩, ⟨-, hg⟩, lt, hb⟩
    refine ⟨lt, fun j hj => ?_⟩
    match j, hj with
    | 0, _ => exact ⟨r, hr⟩
    | 1, _ => exact ⟨g, hg⟩
    | 2, _ => exact ⟨b, hb⟩

theorem State.hasColour_of_written {s : State} {v : Byte} (h : s.written .src (s.regs.palPtr.toNat + 3 * v.toNat) 3) :
    ∃ r g b, s.HasColour v r g b := by
  obtain ⟨r, g, b, hr, hg, hb⟩ := State.written_three_iff.mp h
  exact ⟨r, g, b, hr, hg, hb⟩

theorem State.HasColour.written {s : State} {v r g b : Byte} (h : s.HasColour v r g b) :
    s.written .src (s.regs.palPtr.toNat + 3 * v.toNat) 3 := State.written_three_iff.mpr ⟨r, g, b, h.red, h.green, h.blue⟩

/-! ### One working step -/

section Step

variable {s : State} {w : Blit} {v : Byte}

theorem blitStep_of_end (h : frameSymbols s.regs ≤ w.i) : blitStep w s = .next (complete (s.setPixCount (countWord w.cnt))) :=
  if_neg (Nat.not_lt.mpr h)

theorem blitStep_of_symbol (lt : w.i < frameSymbols s.regs) (hv : s.fetchByte .idx w.i = .value v) :
    blitStep w s = blitSymbol w v s := by
  rw [blitStep, if_pos lt, State.readChecked_of_value _ hv]

theorem blitSymbol_of_transparent (h : isTransparent s.regs.blitCtrl v = true) :
    blitSymbol w v s = .next (s.setRunning (.blit { w with i := w.i + 1 })) := if_pos h

theorem blitSymbol_of_beyond (h : isTransparent s.regs.blitCtrl v = false) (le : s.regs.palSize.toNat ≤ v.toNat) :
    blitSymbol w v s = .next (blitFault w s) := by
  rw [blitSymbol, h, if_neg Bool.false_ne_true, if_pos le]

theorem blitSymbol_of_colour {r g b : Byte} (h : isTransparent s.regs.blitCtrl v = false)
    (lt : v.toNat < s.regs.palSize.toNat) (colour : s.HasColour v r g b) (fits : pixelAddress s.regs w.i + 4 ≤ s.cfg.size .pix) :
    blitSymbol w v s =
      .next ((s.setMemory .pix (Memory.writeList s.pix (pixelAddress s.regs w.i) (pixelBytes w.fmt r g b))).setRunning
        (.blit { w with i := w.i + 1, cnt := w.cnt + 1 })) := by
  rw [blitSymbol, h, if_neg Bool.false_ne_true, if_neg (Nat.not_le.mpr lt), readColour,
    State.readChecked_of_value _ colour.red, State.readChecked_of_value _ colour.green,
    State.readChecked_of_value _ colour.blue, State.writeChecked_of_fits _ (by rwa [length_pixelBytes])]
  rfl

end Step

/-! ### What has been drawn -/

/-- BLIT, started at `s`, has taken the symbols and `pix` is its canvas: one constructor for each way a symbol can be taken
(42_blit.md R199, R201). -/
inductive Blitted (s : State) (fmt : PixelFormat) : List Byte → Memory → Prop where
  | start : Blitted s fmt [] s.pix
  | skip {symbols : List Byte} {pix : Memory} {v : Byte} : Blitted s fmt symbols pix →
      symbols.length < frameSymbols s.regs → s.fetchByte .idx symbols.length = .value v →
      isTransparent s.regs.blitCtrl v = true → Blitted s fmt (symbols ++ [v]) pix
  | draw {symbols : List Byte} {pix : Memory} {v r g b : Byte} : Blitted s fmt symbols pix →
      symbols.length < frameSymbols s.regs → s.fetchByte .idx symbols.length = .value v →
      isTransparent s.regs.blitCtrl v = false → v.toNat < s.regs.palSize.toNat → s.HasColour v r g b →
      Blitted s fmt (symbols ++ [v]) (Memory.writeList pix (pixelAddress s.regs symbols.length) (pixelBytes fmt r g b))

/-- BLIT, started at `s`, between two symbols. -/
def blitting (s : State) (fmt : PixelFormat) (symbols : List Byte) (pix : Memory) : State :=
  (s.setMemory .pix pix).setRunning
    (.blit { i := symbols.length, fmt := fmt, cnt := opaqueCount s.regs.blitCtrl symbols })

theorem runToIdle_blitting (s : State) (fmt : PixelFormat) (symbols : List Byte) (pix : Memory) (fuel : Nat) :
    runToIdle (fuel + 1) (blitting s fmt symbols pix) = andThen (unitStep (blitting s fmt symbols pix)) (runToIdle fuel) :=
  runToIdle_of_running fuel nofun

section Run

variable {s : State} {fmt : PixelFormat} {symbols : List Byte} {pix : Memory} {v r g b : Byte}

/-- BLIT's working step at the next symbol. -/
theorem unitStep_blitting_of_symbol (lt : symbols.length < frameSymbols s.regs)
    (hv : s.fetchByte .idx symbols.length = .value v) :
    unitStep (blitting s fmt symbols pix) =
      blitSymbol { i := symbols.length, fmt := fmt, cnt := opaqueCount s.regs.blitCtrl symbols } v
        (blitting s fmt symbols pix) := blitStep_of_symbol (s := blitting s fmt symbols pix) lt hv

/-- A transparent symbol leaves the canvas and the count. -/
theorem unitStep_blitting_skip (lt : symbols.length < frameSymbols s.regs)
    (hv : s.fetchByte .idx symbols.length = .value v) (transparent : isTransparent s.regs.blitCtrl v = true) :
    unitStep (blitting s fmt symbols pix) = .next (blitting s fmt (symbols ++ [v]) pix) := by
  rw [unitStep_blitting_of_symbol lt hv, blitting, blitting, opaqueCount_concat, if_pos transparent, List.length_append]
  exact blitSymbol_of_transparent transparent

/-- Any other symbol of the palette is drawn and counted. -/
theorem unitStep_blitting_draw (frame : FrameOk s.cfg s.regs) (lt : symbols.length < frameSymbols s.regs)
    (hv : s.fetchByte .idx symbols.length = .value v) (visible : isTransparent s.regs.blitCtrl v = false)
    (below : v.toNat < s.regs.palSize.toNat) (colour : s.HasColour v r g b) :
    unitStep (blitting s fmt symbols pix) =
      .next (blitting s fmt (symbols ++ [v])
        (Memory.writeList pix (pixelAddress s.regs symbols.length) (pixelBytes fmt r g b))) := by
  rw [unitStep_blitting_of_symbol lt hv, blitting, blitting, opaqueCount_concat, visible, if_neg Bool.false_ne_true,
    List.length_append]
  exact blitSymbol_of_colour (s := blitting s fmt symbols pix) visible below ⟨colour.red, colour.green, colour.blue⟩
    (frame.pixel_fits lt)

/-! ### The run -/

theorem Blitted.length_le (h : Blitted s fmt symbols pix) : symbols.length ≤ frameSymbols s.regs := by
  cases h with
  | start => exact Nat.zero_le _
  | skip _ lt _ _ | draw _ lt _ _ _ _ => rw [List.length_append]; exact lt

/-- One more working step of a run that has come as far as `symbols`. -/
theorem runToIdle_blitting_concat {pix' : Memory}
    (reached : ∀ fuel, runToIdle (fuel + symbols.length) (blitStart fmt s) = runToIdle fuel (blitting s fmt symbols pix))
    (step : unitStep (blitting s fmt symbols pix) = .next (blitting s fmt (symbols ++ [v]) pix')) (fuel : Nat) :
    runToIdle (fuel + (symbols ++ [v]).length) (blitStart fmt s) = runToIdle fuel (blitting s fmt (symbols ++ [v]) pix') := by
  rw [List.length_append, List.length_singleton, Nat.add_comm _ 1, ← Nat.add_assoc, reached, runToIdle_blitting, step,
    andThen_next]

/-- The run comes to what has been drawn, one working step for each symbol. -/
theorem Blitted.runToIdle_eq (h : Blitted s fmt symbols pix) (frame : FrameOk s.cfg s.regs) (fuel : Nat) :
    runToIdle (fuel + symbols.length) (blitStart fmt s) = runToIdle fuel (blitting s fmt symbols pix) := by
  induction h generalizing fuel with
  | start => rfl
  | skip _ lt hv transparent ih => exact runToIdle_blitting_concat ih (unitStep_blitting_skip lt hv transparent) fuel
  | draw _ lt hv visible below colour ih =>
    exact runToIdle_blitting_concat ih (unitStep_blitting_draw frame lt hv visible below colour) fuel

theorem Blitted.run_of_last (h : Blitted s fmt symbols pix) (frame : FrameOk s.cfg s.regs) {t : State}
    (last : unitStep (blitting s fmt symbols pix) = .next t) (idle : t.running = .idle) : run (blitStart fmt s) = .next t := by
  have le := h.length_le
  have steps : stepsLeft (blitStart fmt s) = frameSymbols s.regs - symbols.length + 1 + symbols.length := by
    change frameSymbols s.regs - 0 + 1 = _
    omega
  rw [run, steps, h.runToIdle_eq frame, runToIdle_blitting, last, andThen_next, runToIdle_of_idle _ idle]

/-- BLIT, started at `s`, completed (42_blit.md R204). -/
def blitDone (s : State) (symbols : List Byte) (pix : Memory) : State :=
  complete ((s.setMemory .pix pix).setPixCount (countWord (opaqueCount s.regs.blitCtrl symbols)))

/-- BLIT, started at `s`, faulted at the symbol after `symbols` (42_blit.md R200, R205). -/
def blitStopped (s : State) (symbols : List Byte) (pix : Memory) : State :=
  raise .paletteIndex symbols.length ((s.setMemory .pix pix).setPixCount (countWord (opaqueCount s.regs.blitCtrl symbols)))

theorem unitStep_blitting_end (all : symbols.length = frameSymbols s.regs) :
    unitStep (blitting s fmt symbols pix) = .next (blitDone s symbols pix) :=
  blitStep_of_end (s := blitting s fmt symbols pix) (Nat.le_of_eq all.symm)

theorem unitStep_blitting_beyond (lt : symbols.length < frameSymbols s.regs)
    (hv : s.fetchByte .idx symbols.length = .value v) (visible : isTransparent s.regs.blitCtrl v = false)
    (beyond : s.regs.palSize.toNat ≤ v.toNat) :
    unitStep (blitting s fmt symbols pix) = .next (blitStopped s symbols pix) := by
  rw [unitStep_blitting_of_symbol lt hv]
  exact blitSymbol_of_beyond (s := blitting s fmt symbols pix) visible beyond

/-- How a run of BLIT started at `s` ends: with the last symbol of the frame, or at one that is not in the palette. -/
def BlitEnds (s : State) (fmt : PixelFormat) (t : State) : Prop :=
  ∃ symbols pix, Blitted s fmt symbols pix ∧
    ((symbols.length = frameSymbols s.regs ∧ t = blitDone s symbols pix) ∨ t = blitStopped s symbols pix)

/-- The rest of a run that answers a next state. -/
theorem Blitted.runToIdle_next (frame : FrameOk s.cfg s.regs) (fuel : Nat) {t : State} (h : Blitted s fmt symbols pix)
    (enough : frameSymbols s.regs - symbols.length < fuel) (ran : runToIdle fuel (blitting s fmt symbols pix) = .next t) :
    BlitEnds s fmt t := by
  induction fuel generalizing symbols pix with
  | zero => exact absurd enough (Nat.not_lt_zero _)
  | succ fuel ih =>
    have fewer : ∀ v : Byte, symbols.length < frameSymbols s.regs → frameSymbols s.regs - (symbols ++ [v]).length < fuel :=
      fun v lt => by rw [List.length_append, List.length_singleton]; omega
    rw [runToIdle_blitting] at ran
    obtain ⟨u, step, ran⟩ := andThen_eq_next ran
    rcases blitStep_next step with ⟨le, rfl⟩ | ⟨lt, v, hv, ⟨transparent, -⟩ | ⟨visible, beyond, rfl⟩ |
      ⟨visible, below, r, g, b, hr, hg, hb, -, -⟩⟩
    · rw [runToIdle_of_idle _ rfl] at ran
      cases ran
      exact ⟨symbols, pix, h, .inl ⟨Nat.le_antisymm h.length_le le, rfl⟩⟩
    · rw [unitStep_blitting_skip (s := s) lt hv transparent] at step
      cases step
      exact ih (h.skip lt hv transparent) (fewer v lt) ran
    · rw [runToIdle_of_idle _ rfl] at ran
      cases ran
      exact ⟨symbols, pix, h, .inr rfl⟩
    · have colour : s.HasColour v r g b := ⟨hr, hg, hb⟩
      rw [unitStep_blitting_draw frame lt hv visible below colour] at step
      cases step
      exact ih (h.draw lt hv visible below colour) (fewer v lt) ran

/-- Everything the run of a started BLIT that answers a next state can have done. -/
theorem run_blitStart_next (frame : FrameOk s.cfg s.regs) {t : State} (ran : run (blitStart fmt s) = .next t) :
    BlitEnds s fmt t := Blitted.start.runToIdle_next frame _ (Nat.lt_succ_self _) ran

end Run

end Sys2Proof.Machine
end

section
/-! PROOF. BLIT takes every symbol it can draw, and draws exactly the pixels of the symbols it takes (42_blit.md R197 to R202). -/

namespace Sys2Proof.Machine

open Sys2Proof.Claims

/-! ### What BLIT can draw -/

section Symbols

variable {s : State} {fmt : PixelFormat} {symbols : List Byte} {pix : Memory}

theorem getElem?_concat_eq_some_iff {bytes : List Byte} {last v : Byte} {i : Nat} :
    (bytes ++ [last])[i]? = some v ↔ bytes[i]? = some v ∨ (i = bytes.length ∧ last = v) := by
  by_cases lt : i < bytes.length
  · simp [List.getElem?_append_left lt, Nat.ne_of_lt lt]
  · have none : bytes[i]? = none := List.getElem?_eq_none (Nat.le_of_not_lt lt)
    rw [List.getElem?_append_right (Nat.le_of_not_lt lt), List.getElem?_singleton, none]
    by_cases new : i = bytes.length
    · simp [new]
    · simp [new, show i - bytes.length ≠ 0 by omega]

/-- A list read as a list and one byte more. -/
theorem State.holds_concat {sp : Space} {bytes : List Byte} {b : Byte} :
    s.holds sp 0 (bytes ++ [b]) ↔ s.holds sp 0 bytes ∧ Memory.read (s.memory sp) bytes.length = some b := by
  constructor
  · intro h
    refine ⟨fun j hj => ?_, ?_⟩
    · rw [h j (by rw [List.length_append]; omega), List.getElem_append_left hj]
    · simpa using h bytes.length (by simp)
  · rintro ⟨h, hb⟩ j hj
    rw [List.length_append, List.length_singleton] at hj
    by_cases last : j = bytes.length
    · subst last
      simpa using hb
    · rw [List.getElem_append_left (by omega)]
      exact h j (by omega)

/-- BLIT takes every list of symbols in IDX that it can draw. -/
theorem exists_blitted (fmt : PixelFormat) (frame : FrameOk s.cfg s.regs) (le : symbols.length ≤ frameSymbols s.regs)
    (holds : s.holds .idx 0 symbols) (drawn : ∀ v ∈ symbols, s.draws v) : ∃ pix, Blitted s fmt symbols pix := by
  induction symbols using List.reverseRecOn with
  | nil => exact ⟨s.pix, .start⟩
  | append_singleton symbols v ih =>
    obtain ⟨before, last⟩ := State.holds_concat.mp holds
    rw [List.length_append] at le
    obtain ⟨pix, h⟩ := ih (Nat.le_of_lt le) before fun u hu => drawn u (List.mem_append_left _ hu)
    have hv : s.fetchByte .idx symbols.length = .value v :=
      State.fetchByte_eq_value.mpr ⟨Nat.lt_of_lt_of_le le frame.idx_fits, last⟩
    cases transparent : isTransparent s.regs.blitCtrl v with
    | true => exact ⟨_, h.skip le hv transparent⟩
    | false =>
      rcases drawn v (List.mem_append_right _ (List.mem_singleton_self v)) with skipped | ⟨below, written⟩
      · rw [(isTransparent_iff ..).mpr skipped] at transparent
        cases transparent
      · obtain ⟨r, g, b, colour⟩ := State.hasColour_of_written written
        exact ⟨_, h.draw le hv transparent below colour⟩

theorem Blitted.holds (h : Blitted s fmt symbols pix) : s.holds .idx 0 symbols := by
  induction h with
  | start => exact nofun
  | skip _ _ hv _ ih | draw _ _ hv _ _ _ ih => exact State.holds_concat.mpr ⟨ih, (State.fetchByte_eq_value.mp hv).2⟩

theorem Blitted.draws (h : Blitted s fmt symbols pix) : ∀ v ∈ symbols, s.draws v := by
  induction h with
  | start => exact nofun
  | skip _ _ _ transparent ih =>
    exact List.forall_mem_append.mpr ⟨ih, List.forall_mem_singleton.mpr (.inl ((isTransparent_iff ..).mp transparent))⟩
  | draw _ _ _ _ below colour ih =>
    exact List.forall_mem_append.mpr ⟨ih, List.forall_mem_singleton.mpr (.inr ⟨below, colour.written⟩)⟩

end Symbols

/-! ### The canvas -/

section Canvas

variable {s t u : State} {fmt : PixelFormat} {symbols : List Byte} {pix : Memory} {i : Nat} {v : Byte}

theorem pixelDrawn_of_transparent (h : isTransparent s.regs.blitCtrl v = true) :
    pixelDrawn s t fmt i v ↔
      ∀ j < 4, Memory.read t.pix (pixelAddress s.regs i + j) = Memory.read s.pix (pixelAddress s.regs i + j) := by
  rw [pixelDrawn, if_pos ((isTransparent_iff ..).mp h)]

theorem pixelDrawn_of_visible (h : isTransparent s.regs.blitCtrl v = false) :
    pixelDrawn s t fmt i v ↔ ∃ r g b,
      Memory.read s.src (s.regs.palPtr.toNat + 3 * v.toNat) = some r ∧
      Memory.read s.src (s.regs.palPtr.toNat + 3 * v.toNat + 1) = some g ∧
      Memory.read s.src (s.regs.palPtr.toNat + 3 * v.toNat + 2) = some b ∧
      t.holds .pix (pixelAddress s.regs i) (pixelBytes fmt r g b) := by
  rw [pixelDrawn, if_neg fun skipped => by rw [(isTransparent_iff ..).mpr skipped] at h; cases h]
  cases fmt <;> rfl

/-- Whether a pixel is drawn is a matter of its four bytes. -/
theorem pixelDrawn_congr (h : pixelDrawn s t fmt i v)
    (same : ∀ j < 4, Memory.read u.pix (pixelAddress s.regs i + j) = Memory.read t.pix (pixelAddress s.regs i + j)) :
    pixelDrawn s u fmt i v := by
  cases transparent : isTransparent s.regs.blitCtrl v with
  | true =>
    exact (pixelDrawn_of_transparent transparent).mpr fun j hj =>
      (same j hj).trans ((pixelDrawn_of_transparent transparent).mp h j hj)
  | false =>
    obtain ⟨r, g, b, hr, hg, hb, holds⟩ := (pixelDrawn_of_visible transparent).mp h
    exact (pixelDrawn_of_visible transparent).mpr ⟨r, g, b, hr, hg, hb, fun j hj =>
      (same j (length_pixelBytes .. ▸ hj)).trans (holds j hj)⟩

/-- Outside the pixels of the symbols taken, nothing has changed. -/
theorem Blitted.read_outside (h : Blitted s fmt symbols pix) {x : Nat}
    (out : ¬ ∃ i < symbols.length, pixelAddress s.regs i ≤ x ∧ x < pixelAddress s.regs i + 4) :
    Memory.read pix x = Memory.read s.pix x := by
  induction h with
  | start => rfl
  | skip _ _ _ _ ih =>
    refine ih fun ⟨i, hi, at_i⟩ => out ⟨i, ?_, at_i⟩
    rw [List.length_append]; omega
  | draw _ _ _ _ _ _ ih =>
    rw [List.length_append, List.length_singleton] at out
    rw [Memory.read_writeList_outside, ih fun ⟨i, hi, at_i⟩ => out ⟨i, by omega, at_i⟩]
    rw [length_pixelBytes]
    by_contra inside
    exact out ⟨_, Nat.lt_succ_self _, by omega, by omega⟩

/-- The pixel of a symbol not yet taken is as it was. -/
theorem Blitted.read_later (h : Blitted s fmt symbols pix) (frame : FrameOk s.cfg s.regs) (later : symbols.length ≤ i)
    (hi : i < frameSymbols s.regs) {j : Nat} (hj : j < 4) :
    Memory.read pix (pixelAddress s.regs i + j) = Memory.read s.pix (pixelAddress s.regs i + j) := by
  refine h.read_outside fun ⟨k, hk, at_k⟩ => ?_
  have apart := frame.pixels_apart hi (Nat.lt_of_lt_of_le hk h.length_le) (by omega)
  omega

/-- Writing the pixel of another symbol leaves a pixel as it was. -/
theorem FrameOk.read_writeList_pixel (frame : FrameOk s.cfg s.regs) {k : Nat} (hi : i < frameSymbols s.regs)
    (hk : k < frameSymbols s.regs) (ne : i ≠ k) (r g b : Byte) {j : Nat} (hj : j < 4) :
    Memory.read (Memory.writeList pix (pixelAddress s.regs k) (pixelBytes fmt r g b)) (pixelAddress s.regs i + j) =
      Memory.read pix (pixelAddress s.regs i + j) := by
  have apart := frame.pixels_apart hi hk ne
  exact Memory.read_writeList_outside _ _ _ (by rw [length_pixelBytes]; omega)

/-- The pixel of each symbol taken has been drawn. -/
theorem Blitted.pixel (h : Blitted s fmt symbols pix) (frame : FrameOk s.cfg s.regs) (hv : symbols[i]? = some v) :
    pixelDrawn s (s.setMemory .pix pix) fmt i v := by
  induction h with
  | start => cases hv
  | skip h lt _ transparent ih =>
    rcases getElem?_concat_eq_some_iff.mp hv with old | ⟨rfl, rfl⟩
    · exact ih old
    · exact (pixelDrawn_of_transparent transparent).mpr fun j hj => h.read_later frame (Nat.le_refl _) lt hj
  | draw h lt _ visible _ colour ih =>
    rcases getElem?_concat_eq_some_iff.mp hv with old | ⟨rfl, rfl⟩
    · have earlier : i < _ := (List.getElem?_eq_some_iff.mp old).1
      exact pixelDrawn_congr (ih old) fun j hj =>
        frame.read_writeList_pixel (Nat.lt_trans earlier lt) lt (Nat.ne_of_lt earlier) _ _ _ hj
    · exact (pixelDrawn_of_visible visible).mpr ⟨_, _, _, (State.fetchByte_eq_value.mp colour.red).2,
        (State.fetchByte_eq_value.mp colour.green).2, (State.fetchByte_eq_value.mp colour.blue).2, holds_writeList rfl⟩

end Canvas

end Sys2Proof.Machine
end

section
/-! PROOF. What BLIT_BGRA and BLIT_RGBA do (43_commands.md R226): the frame drawn (42_blit.md R204), or the symbols before one that
is not in the palette (R205). -/

namespace Sys2Proof.Machine

open Sys2Proof.Claims

/-- The two commands that run BLIT alone, with opcode and format (43_commands.md R226). -/
def blitForms : List (Instr × BitVec 4 × PixelFormat) := [(.blitBgra, 3, .bgra), (.blitRgba, 4, .rgba)]

section Command

variable {s : State} {i : Instr} {opc : BitVec 4} {fmt : PixelFormat}

theorem exec_blitForm (form : (i, opc, fmt) ∈ blitForms) (s : State) :
    exec i s = command opc blitChecks (fun s => .next (blitStart fmt s)) s := by
  simp only [blitForms, List.mem_cons, List.not_mem_nil, or_false, Prod.mk.injEq] at form
  obtain ⟨rfl, rfl, rfl⟩ | ⟨rfl, rfl, rfl⟩ := form <;> rfl

theorem exec_blit (form : (i, opc, fmt) ∈ blitForms) (ready : s.ready) (frame : FrameOk s.cfg s.regs) :
    exec i s = run (blitStart fmt (take opc s)) := by
  rw [exec_blitForm form, command_of_accepted ready.1 ready.2 (blitChecks_pass.mpr ((take_frameOk opc s).mpr frame)),
    andThen_next]

/-- PIX_COUNT holds the count of a frame's symbols. -/
theorem countWord_opaqueCount {symbols : List Byte} (le : symbols.length ≤ frameSymbols s.regs) :
    countWord (opaqueCount s.regs.blitCtrl symbols) = BitVec.ofNat 32 (opaqueCount s.regs.blitCtrl symbols) :=
  countWord_of_lt (Nat.lt_of_le_of_lt (Nat.le_trans (opaqueCount_le_length ..) le) (frameSymbols_lt s.regs))

/-- The state after a blit command that completed (42_blit.md R204). -/
def blitted (s : State) (opc : BitVec 4) (pix : Memory) (count : Nat) : State :=
  { s with
    pix := pix
    regs := { s.regs with
      cmd := opc
      status := { done := true, fault := false, warnLong := false, warnShort := false, eoiSeen := false }
      outCount := 0
      pixCount := BitVec.ofNat 32 count } }

/-- The state after a blit command that met a colour outside the palette at a position (42_blit.md R205). -/
def paletteFaulted (s : State) (opc : BitVec 4) (pix : Memory) (count position : Nat) : State :=
  { s with
    pix := pix
    regs := { s.regs with
      cmd := opc
      status := { done := false, fault := true, warnLong := false, warnShort := false, eoiSeen := false }
      fault := 0x13
      faultInfo := BitVec.ofNat 32 position
      outCount := 0
      pixCount := BitVec.ofNat 32 count } }

theorem blitDone_take {symbols : List Byte} {pix : Memory} (ready : s.ready) (le : symbols.length ≤ frameSymbols s.regs) :
    blitDone (take opc s) symbols pix = blitted s opc pix (opaqueCount s.regs.blitCtrl symbols) := by
  obtain ⟨idle, clear⟩ := ready
  rw [blitDone, countWord_opaqueCount (s := take opc s) le]
  simp [complete, blitted, Status.complete, Status.taken, State.setMemory, State.setPixCount, take, idle, clear]

theorem blitStopped_take {symbols : List Byte} {pix : Memory} (ready : s.ready) (le : symbols.length ≤ frameSymbols s.regs) :
    blitStopped (take opc s) symbols pix = paletteFaulted s opc pix (opaqueCount s.regs.blitCtrl symbols) symbols.length := by
  obtain ⟨idle, clear⟩ := ready
  rw [blitStopped, countWord_opaqueCount (s := take opc s) le]
  simp [raise, paletteFaulted, Regs.latch, Status.latch, FaultCode.code, Status.taken, State.setMemory, State.setPixCount, take,
    idle, clear]

/-- A blit command whose symbols BLIT takes to the last completes. -/
theorem Blitted.exec_completes {symbols : List Byte} {pix : Memory} (h : Blitted (take opc s) fmt symbols pix)
    (form : (i, opc, fmt) ∈ blitForms) (ready : s.ready) (frame : FrameOk s.cfg s.regs)
    (all : symbols.length = frameSymbols s.regs) :
    exec i s = .next (blitted s opc pix (opaqueCount s.regs.blitCtrl symbols)) := by
  rw [exec_blit form ready frame, h.run_of_last ((take_frameOk opc s).mpr frame) (unitStep_blitting_end all) rfl,
    blitDone_take ready (Nat.le_of_eq all)]

/-- A blit command that meets a colour outside the palette faults there. -/
theorem Blitted.exec_faults {symbols : List Byte} {pix : Memory} {v : Byte} (h : Blitted (take opc s) fmt symbols pix)
    (form : (i, opc, fmt) ∈ blitForms) (ready : s.ready) (frame : FrameOk s.cfg s.regs)
    (lt : symbols.length < frameSymbols s.regs) (hv : Memory.read s.idx symbols.length = some v)
    (visible : isTransparent s.regs.blitCtrl v = false) (beyond : s.regs.palSize.toNat ≤ v.toNat) :
    exec i s = .next (paletteFaulted s opc pix (opaqueCount s.regs.blitCtrl symbols) symbols.length) := by
  have fetched : (take opc s).fetchByte .idx symbols.length = .value v :=
    State.fetchByte_eq_value.mpr ⟨Nat.lt_of_lt_of_le lt frame.idx_fits, hv⟩
  rw [exec_blit form ready frame, h.run_of_last ((take_frameOk opc s).mpr frame)
    (unitStep_blitting_beyond lt fetched visible beyond) rfl, blitStopped_take ready (Nat.le_of_lt lt)]

/-- A frame of transparent symbols is taken without a byte of the palette (42_blit.md R209 d). -/
theorem blitted_replicate_transparent (fmt : PixelFormat) (frame : FrameOk s.cfg s.regs) (enabled : s.regs.blitCtrl.transEn = true)
    {n : Nat} (le : n ≤ frameSymbols s.regs) (read : ∀ k < n, Memory.read s.idx k = some s.regs.blitCtrl.transIndex) :
    Blitted s fmt (List.replicate n s.regs.blitCtrl.transIndex) s.pix := by
  induction n with
  | zero => exact .start
  | succ n ih =>
    have before := ih (Nat.le_of_succ_le le) fun k hk => read k (Nat.lt_succ_of_lt hk)
    rw [List.replicate_succ']
    refine before.skip ?_ ?_ ((isTransparent_iff ..).mpr ⟨enabled, rfl⟩) <;> rw [List.length_replicate]
    · exact le
    · exact State.fetchByte_eq_value.mpr ⟨Nat.lt_of_lt_of_le le frame.idx_fits, read n (Nat.lt_succ_self n)⟩

end Command

/-- Settles O37: BLIT takes every symbol, and its canvas is the frame drawn. -/
theorem blitDrawsTheFrame : Obligations.BlitDrawsTheFrame := by
  rintro s symbols ⟨i, opc, fmt⟩ form ready frame all holds drawn
  obtain ⟨pix, h⟩ := exists_blitted (s := take opc s) fmt ((take_frameOk opc s).mpr frame) (Nat.le_of_eq all) holds drawn
  refine ⟨_, h.exec_completes form ready frame all, fun k v hv => h.pixel ((take_frameOk opc s).mpr frame) hv,
    fun x out => h.read_outside (all ▸ out), rfl⟩

/-- Settles O39: BLIT takes every symbol before the offending one. -/
theorem paletteIndexFaultIsPrecise : Obligations.PaletteIndexFaultIsPrecise := by
  rintro s before bad ⟨i, opc, fmt⟩ form ready frame lt holds drawn visible beyond
  obtain ⟨earlier, last⟩ := State.holds_concat.mp holds
  obtain ⟨pix, h⟩ := exists_blitted (s := take opc s) fmt ((take_frameOk opc s).mpr frame) (Nat.le_of_lt lt) earlier drawn
  have visible : isTransparent s.regs.blitCtrl bad = false :=
    Bool.eq_false_iff.mpr fun transparent => visible ((isTransparent_iff ..).mp transparent)
  exact ⟨_, h.exec_faults form ready frame lt last visible beyond, fun k v hv => h.pixel ((take_frameOk opc s).mpr frame) hv,
    fun x out => h.read_outside out, rfl⟩

/-- Settles O38: BLIT skips every symbol. -/
theorem transparentFrameLeavesCanvas : Obligations.TransparentFrameLeavesCanvas := by
  intro s c member ready frame enabled read
  obtain ⟨⟨i, opc, fmt⟩, form, rfl⟩ := List.mem_map.mp (show c ∈ blitForms.map (fun f => (f.1, f.2.1)) from member)
  have h := blitted_replicate_transparent (s := take opc s) fmt ((take_frameOk opc s).mpr frame) enabled (Nat.le_refl _) read
  have none : opaqueCount s.regs.blitCtrl (List.replicate (frameSymbols s.regs) s.regs.blitCtrl.transIndex) = 0 := by
    simp [opaqueCount, enabled]
  calc exec i s
      = .next (blitted s opc s.pix
          (opaqueCount s.regs.blitCtrl (List.replicate (frameSymbols s.regs) s.regs.blitCtrl.transIndex))) :=
        h.exec_completes form ready frame List.length_replicate
    _ = _ := by rw [none]; rfl

end Sys2Proof.Machine
end

section
/-! PROOF. Interlace correctness (42_blit.md R208): the interlaced frame's symbols are those of the ordered frame at other
positions, and land on the same pixels. -/

namespace Sys2Proof.Machine

open Sys2Proof.Claims

/-- The registers with BLIT_CTRL.INTERLACED set. -/
def Regs.interlace (r : Regs) : Regs := { r with blitCtrl := { r.blitCtrl with interlaced := true } }

/-- Where the symbol stored at a position of the interlaced frame stands in the ordered one (42_blit.md R194). -/
def orderedPosition (r : Regs) (i : Nat) : Nat :=
  ilace (i / r.frameSize.w.toNat) r.frameSize.h.toNat * r.frameSize.w.toNat + i % r.frameSize.w.toNat

section Frame

variable {cfg : Config} {r : Regs} {i : Nat}

theorem FrameOk.orderedPosition_lt (frame : FrameOk cfg r) (hi : i < frameSymbols r) : orderedPosition r i < frameSymbols r := by
  have col := frame.col_lt i
  calc orderedPosition r i < (ilace (i / r.frameSize.w.toNat) r.frameSize.h.toNat + 1) * r.frameSize.w.toNat := by
        rw [orderedPosition, Nat.succ_mul]; omega
    _ ≤ r.frameSize.h.toNat * r.frameSize.w.toNat := Nat.mul_le_mul_right _ (ilace_lt (storedRow_lt hi))
    _ = frameSymbols r := Nat.mul_comm ..

/-- Interlaced, a symbol lands where its place in the ordered frame puts it. -/
theorem FrameOk.pixelAddress_interlace (frame : FrameOk cfg r) (straight : r.blitCtrl.interlaced = false) (i : Nat) :
    pixelAddress r.interlace i = pixelAddress r (orderedPosition r i) := by
  have col := frame.col_lt i
  rw [pixelAddress_eq_framePixel r, straight, orderedPosition, Nat.mul_comm, Nat.mul_add_div frame.frame_pos.1,
    Nat.div_eq_of_lt col, Nat.mul_add_mod, Nat.mod_eq_of_lt col]
  rfl

/-- The positions are permuted. -/
theorem FrameOk.orderedPosition_perm (frame : FrameOk cfg r) (straight : r.blitCtrl.interlaced = false) :
    ((List.range (frameSymbols r)).map (orderedPosition r)).Perm (List.range (frameSymbols r)) := by
  have interlaced : FrameOk cfg r.interlace := frame.of_eq
  have nodup : ((List.range (frameSymbols r)).map (orderedPosition r)).Nodup :=
    List.nodup_range.map_on fun i hi j hj e =>
      interlaced.pixelAddress_inj (List.mem_range.mp hi) (List.mem_range.mp hj)
        (by rw [frame.pixelAddress_interlace straight, frame.pixelAddress_interlace straight, e])
  refine (List.subperm_of_subset nodup fun k hk => ?_).perm_of_length_le (by rw [List.length_map])
  obtain ⟨i, hi, rfl⟩ := List.mem_map.mp hk
  exact List.mem_range.mpr (frame.orderedPosition_lt (List.mem_range.mp hi))

theorem FrameOk.exists_orderedPosition (frame : FrameOk cfg r) (straight : r.blitCtrl.interlaced = false)
    (hi : i < frameSymbols r) : ∃ k < frameSymbols r, orderedPosition r k = i := by
  obtain ⟨k, hk, e⟩ := List.mem_map.mp ((frame.orderedPosition_perm straight).mem_iff.mpr (List.mem_range.mpr hi))
  exact ⟨k, List.mem_range.mp hk, e⟩

end Frame

/-! ### The same symbols, stored interlaced -/

/-- The symbols of an ordered frame as they are stored interlaced. -/
def interlaceSymbols (r : Regs) (symbols : List Byte) : List Byte :=
  (List.range (frameSymbols r)).map fun i => symbols.getD (orderedPosition r i) 0

/-- The state with IDX replaced and INTERLACED set. -/
def State.interlace (s : State) (idx : Memory) : State := { s with idx := idx, regs := s.regs.interlace }

section Symbols

variable {s t u : State} {fmt : PixelFormat} {symbols : List Byte} {idx pix pix' : Memory} {i : Nat} {v : Byte}

@[simp] theorem length_interlaceSymbols (r : Regs) (symbols : List Byte) :
    (interlaceSymbols r symbols).length = frameSymbols r := by
  rw [interlaceSymbols, List.length_map, List.length_range]

theorem interlaceSymbols_perm (frame : FrameOk s.cfg s.regs) (straight : s.regs.blitCtrl.interlaced = false)
    (all : symbols.length = frameSymbols s.regs) : (interlaceSymbols s.regs symbols).Perm symbols := by
  have listed : (List.range (frameSymbols s.regs)).map (fun i => symbols.getD i 0) = symbols := by
    refine List.ext_getElem (by simp [all]) fun i _ hi => ?_
    simp [hi]
  have perm := (frame.orderedPosition_perm straight).map fun i => symbols.getD i 0
  rw [listed, List.map_map] at perm
  exact perm

theorem interlaceSymbols_getElem? (frame : FrameOk s.cfg s.regs) (all : symbols.length = frameSymbols s.regs)
    (hi : i < frameSymbols s.regs) : (interlaceSymbols s.regs symbols)[i]? = symbols[orderedPosition s.regs i]? := by
  have lt := frame.orderedPosition_lt hi
  rw [interlaceSymbols, List.getElem?_map, List.getElem?_range hi, Option.map_some,
    List.getD_eq_getElem _ _ (all ▸ lt), List.getElem?_eq_getElem (all ▸ lt)]

/-- IDX holds the symbols interlaced if its rows are the ordered ones, in the order of the four passes. -/
theorem holds_interlaceSymbols (frame : FrameOk s.cfg s.regs) (all : symbols.length = frameSymbols s.regs)
    (holds : s.holds .idx 0 symbols)
    (rows : ∀ row < s.regs.frameSize.h.toNat, ∀ col < s.regs.frameSize.w.toNat,
      Memory.read idx (row * s.regs.frameSize.w.toNat + col) =
        Memory.read s.idx (ilace row s.regs.frameSize.h.toNat * s.regs.frameSize.w.toNat + col)) :
    (s.interlace idx).holds .idx 0 (interlaceSymbols s.regs symbols) := by
  intro i hi
  have inside : i < frameSymbols s.regs := length_interlaceSymbols .. ▸ hi
  have stored := rows _ (storedRow_lt inside) _ (frame.col_lt i)
  have lt : orderedPosition s.regs i < symbols.length := all ▸ frame.orderedPosition_lt inside
  have ordered := holds _ lt
  rw [Nat.div_add_mod'] at stored
  rw [Nat.zero_add] at ordered ⊢
  rw [← List.getElem?_eq_getElem, interlaceSymbols_getElem? frame all inside, List.getElem?_eq_getElem lt]
  exact stored.trans ordered

/-- A pixel drawn from either frame in the same symbol reads the same. -/
theorem pixelDrawn_interlace_read (frame : FrameOk s.cfg s.regs) (straight : s.regs.blitCtrl.interlaced = false)
    (drawn : pixelDrawn s t fmt (orderedPosition s.regs i) v) (drawn' : pixelDrawn (s.interlace idx) u fmt i v) {j : Nat}
    (hj : j < 4) :
    Memory.read u.pix (pixelAddress s.regs (orderedPosition s.regs i) + j) =
      Memory.read t.pix (pixelAddress s.regs (orderedPosition s.regs i) + j) := by
  have address : pixelAddress (s.interlace idx).regs i = pixelAddress s.regs (orderedPosition s.regs i) :=
    frame.pixelAddress_interlace straight i
  cases transparent : isTransparent s.regs.blitCtrl v with
  | true =>
    have kept := (pixelDrawn_of_transparent transparent).mp drawn j hj
    have kept' := (pixelDrawn_of_transparent (s := s.interlace idx) transparent).mp drawn' j hj
    rw [address] at kept'
    exact kept'.trans kept.symm
  | false =>
    obtain ⟨r, g, b, hr, hg, hb, holds⟩ := (pixelDrawn_of_visible transparent).mp drawn
    obtain ⟨r', g', b', hr', hg', hb', holds'⟩ := (pixelDrawn_of_visible (s := s.interlace idx) transparent).mp drawn'
    obtain rfl : r = r' := Option.some.inj (hr.symm.trans hr')
    obtain rfl : g = g' := Option.some.inj (hg.symm.trans hg')
    obtain rfl : b = b' := Option.some.inj (hb.symm.trans hb')
    rw [address] at holds'
    have inside : j < (pixelBytes fmt r g b).length := length_pixelBytes .. ▸ hj
    exact (holds' j inside).trans (holds j inside).symm

/-- The two canvases are the same. -/
theorem Blitted.interlace_read (h : Blitted s fmt symbols pix)
    (h' : Blitted (s.interlace idx) fmt (interlaceSymbols s.regs symbols) pix') (frame : FrameOk s.cfg s.regs)
    (straight : s.regs.blitCtrl.interlaced = false) (all : symbols.length = frameSymbols s.regs) (x : Nat) :
    Memory.read pix' x = Memory.read pix x := by
  have address : ∀ i, pixelAddress (s.interlace idx).regs i = pixelAddress s.regs (orderedPosition s.regs i) :=
    frame.pixelAddress_interlace straight
  by_cases inside : ∃ i < frameSymbols s.regs,
      pixelAddress s.regs (orderedPosition s.regs i) ≤ x ∧ x < pixelAddress s.regs (orderedPosition s.regs i) + 4
  · obtain ⟨i, hi, le, lt⟩ := inside
    obtain ⟨j, rfl⟩ := Nat.exists_eq_add_of_le le
    have hv := List.getElem?_eq_getElem (all ▸ frame.orderedPosition_lt hi)
    exact pixelDrawn_interlace_read frame straight (h.pixel frame hv)
      (h'.pixel frame.of_eq ((interlaceSymbols_getElem? frame all hi).trans hv)) (by omega)
  · rw [h'.read_outside, h.read_outside]
    · rfl
    · rintro ⟨k, hk, at_k⟩
      obtain ⟨i, hi, rfl⟩ := frame.exists_orderedPosition straight (all ▸ hk)
      exact inside ⟨i, hi, at_k⟩
    · rintro ⟨i, hi, at_i⟩
      rw [address] at at_i
      exact inside ⟨i, length_interlaceSymbols .. ▸ hi, at_i⟩

end Symbols

/-! ### The commands -/

/-- A blit command that completed took every symbol of the frame. -/
theorem blit_done {s t : State} {i : Instr} {opc : BitVec 4} {fmt : PixelFormat} (form : (i, opc, fmt) ∈ blitForms)
    (ready : s.ready) (ran : exec i s = .next t) (done : t.regs.status.done = true) :
    FrameOk s.cfg s.regs ∧ ∃ symbols pix, Blitted (take opc s) fmt symbols pix ∧ symbols.length = frameSymbols s.regs ∧
      t = blitted s opc pix (opaqueCount s.regs.blitCtrl symbols) := by
  rw [exec_blitForm form] at ran
  obtain ⟨-, ⟨fault, -⟩ | ⟨-, ⟨c, info, -, rfl⟩ | ⟨checks, u, start, ran⟩⟩⟩ := command_next ran
  · rw [ready.2] at fault; cases fault
  · rw [raise_regs, Regs.latch_done] at done; cases done
  · cases start
    have frame := blitChecks_pass.mp checks
    obtain ⟨symbols, pix, h, ⟨all, rfl⟩ | rfl⟩ := run_blitStart_next frame ran
    · exact ⟨(take_frameOk opc s).mp frame, symbols, pix, h, all, blitDone_take ready (Nat.le_of_eq all)⟩
    · rw [blitStopped, raise_regs, Regs.latch_done] at done; cases done

/-- Settles O42: the ordered frame was drawn whole, so the interlaced one is, from the same symbols on the same pixels. -/
theorem interlacedBlitEqualsOrderedBlit : Obligations.InterlacedBlitEqualsOrderedBlit := by
  intro s u t v i member ready ready' same straight rows ran ran' done
  obtain ⟨⟨i, opc, fmt⟩, form, rfl⟩ := List.mem_map.mp (show i ∈ blitForms.map (fun f => f.1) from member)
  obtain ⟨frame, symbols, pix, h, all, rfl⟩ := blit_done form ready ran done
  obtain ⟨idx, rfl⟩ : ∃ idx, u = s.interlace idx := ⟨u.idx, same⟩
  have taken : FrameOk (take opc s).cfg (take opc s).regs := (take_frameOk opc s).mpr frame
  have perm : (interlaceSymbols s.regs symbols).Perm symbols := interlaceSymbols_perm frame straight all
  have holds : (s.interlace idx).holds .idx 0 (interlaceSymbols s.regs symbols) :=
    holds_interlaceSymbols frame all h.holds rows
  obtain ⟨pix', h'⟩ := exists_blitted (s := (take opc s).interlace idx) fmt taken.of_eq
    (Nat.le_of_eq (length_interlaceSymbols s.regs symbols)) holds fun v hv => h.draws v (perm.mem_iff.mp hv)
  rw [h'.exec_completes (s := s.interlace idx) form ready' frame.of_eq (length_interlaceSymbols ..)] at ran'
  cases ran'
  exact ⟨rfl, congrArg (BitVec.ofNat 32) (perm.countP_eq _), h.interlace_read h' taken straight all⟩

end Sys2Proof.Machine
end

section
/-! PROOF. Where a command goes no further than the common stages (43_commands.md R220 to R225): RESET, a failing check, the word
the host writes. -/

namespace Sys2Proof.Machine

open Sys2Proof.Claims

/-- A taken command that a check refused: the whole state (43_commands.md R221 c). -/
theorem raise_take {s : State} (ready : s.ready) (opc : BitVec 4) (c : FaultCode) (info : Nat) :
    raise c info (take opc s) = refusedState s opc c.code (BitVec.ofNat 32 info) := by
  rw [refusedState, ← refused_regs opc c info ready.2, raise, ← ready.1]
  rfl

/-- The first failing check refuses the command (60_exceptions.md R293). -/
theorem command_refuses {s : State} (ready : s.ready) {opc : BitVec 4} {checks : State → List (Bool × FaultCode × Nat)}
    (c : FaultCode) (info : Nat) (failing : firstFailing (checks (take opc s)) = some (c, info)) (start : State → Res) :
    command opc checks start s = .next (refusedState s opc c.code (BitVec.ofNat 32 info)) := by
  rw [command_of_refused ready.1 ready.2 failing, raise_take ready]

/-- Settles O8: RESET is taken in every idle state. -/
theorem resetClearsStatusAndCounts : Obligations.ResetClearsStatusAndCounts := fun _ idle => whenIdle_of_idle _ idle

/-- Settles O10: the one check fails. -/
theorem decompressLengthCheck : Obligations.DecompressLengthCheck := fun _ ready long =>
  command_refuses ready .bufferTooSmall 1 (by simp [decompressChecks, firstFailing_cons, long]) _

/-- Settles O29: the write to CMD is the host's first action, and its word decodes. -/
theorem stepRunsTheWrittenCommand : Obligations.StepRunsTheWrittenCommand := by
  intro s word i rest idle script decodes
  rw [step_of_action idle script, hostAct, hostWriteReg_cmd { s with script := rest }, commandWrite, decodes]

/-- The checks of COMPRESS in their order (43_commands.md R223). -/
theorem firstFailing_compressChecks (s : State) : firstFailing (compressChecks s) =
    if s.regs.minCode.toNat < 2 ∨ 8 < s.regs.minCode.toNat then some (.badMinCode, s.regs.minCode.toNat)
    else if s.regs.idxLen.toNat = 0 then some (.emptyInput, 0)
    else if s.cfg.size .idx < s.regs.idxLen.toNat then some (.bufferTooSmall, 1)
    else none := by
  simp only [compressChecks, firstFailing_cons, firstFailing_nil, Bool.or_eq_true, decide_eq_true_iff, beq_iff_eq]

/-- The blit checks in their order (43_commands.md R225). -/
theorem firstFailing_blitChecks (s : State) : firstFailing (blitChecks s) =
    if s.regs.canvas.w.toNat = 0 ∨ s.regs.canvas.h.toNat = 0 then some (.badDimensions, 0)
    else if s.regs.frameSize.w.toNat = 0 ∨ s.regs.frameSize.h.toNat = 0 then some (.badDimensions, 1)
    else if s.regs.canvas.w.toNat < s.regs.framePos.x.toNat + s.regs.frameSize.w.toNat then some (.frameOutsideCanvas, 0)
    else if s.regs.canvas.h.toNat < s.regs.framePos.y.toNat + s.regs.frameSize.h.toNat then some (.frameOutsideCanvas, 1)
    else if s.regs.palSize.toNat ∉ [2, 4, 8, 16, 32, 64, 128, 256] then some (.badPaletteSize, s.regs.palSize.toNat)
    else if s.cfg.size .idx < s.regs.frameSize.w.toNat * s.regs.frameSize.h.toNat then some (.bufferTooSmall, 1)
    else if s.cfg.size .pix < 4 * s.regs.canvas.w.toNat * s.regs.canvas.h.toNat then some (.bufferTooSmall, 2)
    else if s.cfg.size .src < s.regs.palPtr.toNat + 3 * s.regs.palSize.toNat then some (.bufferTooSmall, 3)
    else none := by
  simp only [blitChecks, firstFailing_cons, firstFailing_nil, Bool.or_eq_true, decide_eq_true_iff, beq_iff_eq, Bool.not_eq_true',
    ← Bool.not_eq_true, paletteSizeOk_iff]

/-- Settles O9: each check fails where those before it pass. -/
theorem compressChecksInOrder : Obligations.CompressChecksInOrder := by
  intro s ready
  have refuses (c : FaultCode) (info : Nat) (h : firstFailing (compressChecks s) = some (c, info)) :
      exec .compress s = .next (refusedState s 1 c.code (BitVec.ofNat 32 info)) := command_refuses ready c info h _
  have chain := firstFailing_compressChecks s
  refine ⟨fun bad => ?_, fun good empty => ?_, fun good nonempty long => ?_⟩
  · rw [if_pos bad] at chain
    exact refuses .badMinCode _ chain
  · rw [if_neg (by omega), if_pos empty] at chain
    exact refuses .emptyInput 0 chain
  · rw [if_neg (by omega), if_neg (Nat.ne_of_gt nonempty), if_pos long] at chain
    exact refuses .bufferTooSmall 1 chain

/-- The four blit commands make the blit checks (43_commands.md R225). -/
theorem exec_blitCommand {c : Instr × BitVec 4} (h : c ∈ blitCommands) :
    ∃ start, ∀ s, exec c.1 s = command c.2 blitChecks start s := by
  simp only [blitCommands, List.mem_cons, List.not_mem_nil, or_false] at h
  obtain rfl | rfl | rfl | rfl := h <;> exact ⟨_, fun _ => rfl⟩

/-- Settles O11: the model's chain of checks is the statement's, one check at a time. -/
theorem blitChecksInOrder : Obligations.BlitChecksInOrder := by
  intro s c ready member
  obtain ⟨start, run⟩ := exec_blitCommand member
  have refuses (f : FaultCode) (info : Nat) (h : firstFailing (blitChecks s) = some (f, info)) :
      exec c.1 s = .next (refusedState s c.2 f.code (BitVec.ofNat 32 info)) :=
    (run s).trans (command_refuses ready f info h start)
  have chain := firstFailing_blitChecks s
  dsimp only
  split_ifs at chain ⊢ with canvas frame right bottom palette idx pix src
  · exact refuses .badDimensions 0 chain
  · exact refuses .badDimensions 1 chain
  · exact refuses .frameOutsideCanvas 0 chain
  · exact refuses .frameOutsideCanvas 1 chain
  · exact refuses .bufferTooSmall 1 chain
  · exact refuses .bufferTooSmall 2 chain
  · exact fun _ => refuses .bufferTooSmall 3 chain
  · exact fun outside => absurd outside src
  · exact refuses .badPaletteSize _ chain

end Sys2Proof.Machine
end

section
/-! PROOF. What each instruction can write (43_commands.md R234, R236): a unit writes its own memory, and the units of a command are
known from its start. -/

namespace Sys2Proof

/-- The memories an instruction may write (43_commands.md R236). -/
def Instr.mayWrite : Instr → Space → Prop
  | .compress, sp => sp = .dst
  | .decompress, sp => sp = .idx
  | .blitBgra, sp | .blitRgba, sp => sp = .pix
  | .decblitBgra, sp | .decblitRgba, sp => sp = .idx ∨ sp = .pix
  | .reset, _ => False
  | .lit _ _, sp | .clear _, sp | .eoi _, sp | .ref _, sp | .kwk _, sp | .invalid _, sp => sp = .idx

theorem Instr.not_mayWrite_dst {i : Instr} (h : i ≠ .compress) : ¬ i.mayWrite .dst := by
  cases i with
  | compress => exact absurd rfl h
  | decompress | blitBgra | blitRgba | decblitBgra | decblitRgba | reset | lit | clear | eoi | ref | kwk | invalid =>
    simp [Instr.mayWrite]

theorem Instr.not_mayWrite_src (i : Instr) : ¬ i.mayWrite .src := by
  cases i <;> simp [Instr.mayWrite]

theorem Instr.not_mayWrite_pix_of_code {i : Instr} (h : i.isCommand = false) : ¬ i.mayWrite .pix := by
  cases i with
  | compress | decompress | blitBgra | blitRgba | decblitBgra | decblitRgba | reset => cases h
  | lit | clear | eoi | ref | kwk | invalid => simp [Instr.mayWrite]

end Sys2Proof

namespace Sys2Proof.Machine

/-! ### What an instruction is, and what it can do -/

/-- A command acts only while no unit runs (20_memory.md R72). -/
theorem exec_command_eq_whenIdle {i : Instr} (hc : i.isCommand = true) (s : State) : ∃ k, exec i s = whenIdle s k := by
  cases i with
  | compress | decompress | blitBgra | blitRgba | decblitBgra | decblitRgba | reset => exact ⟨_, rfl⟩
  | lit | clear | eoi | ref | kwk | invalid => cases hc

/-- Everything a code that answers a next state can do. -/
theorem exec_code_change {i : Instr} {s t : State} (hc : i.isCommand = false) (h : exec i s = .next t) :
    ∃ w b, s.running = .lzwd w b ∧ UnitChange s t := by
  obtain ⟨k, hk, -⟩ := exec_eq_onCode hc s
  obtain ⟨w, b, running, -⟩ := onCode_next (hk ▸ h)
  exact ⟨w, b, running, execCode_change (u := s) running (by rw [← running]; rfl) (exec_eq_execCode hc s ▸ h)⟩

/-- Everything an instruction that answers a next state can do: a command from idle, or one turn of LZWD. -/
theorem exec_next {i : Instr} {s t : State} (h : exec i s = .next t) :
    (s.running = .idle ∧ CommandChange i s t) ∨ UnitChange s t := by
  cases hc : i.isCommand with
  | false =>
    obtain ⟨-, -, -, change⟩ := exec_code_change hc h
    exact .inr change
  | true =>
    obtain ⟨k, hk⟩ := exec_command_eq_whenIdle hc s
    have idle := (whenIdle_next (hk ▸ h)).1
    exact .inl ⟨idle, exec_change idle h⟩

/-! ### Memories -/

/-- The memory a unit writes (10_state.md R42 to R44). -/
def Running.writes : Running → Space → Prop
  | .idle, _ => False
  | .lzwc _, sp => sp = .dst
  | .lzwd _ _, sp => sp = .idx
  | .blit _, sp => sp = .pix

/-- The memories written until GLZ is idle: BLIT may follow LZWD (43_commands.md R229). -/
def Running.mayWrite : Running → Space → Prop
  | .lzwd _ (some _), sp => sp = .idx ∨ sp = .pix
  | r, sp => r.writes sp

/-- A memory is the same, and for DST its cursor DST_PTR too. -/
structure Untouched (sp : Space) (s t : State) : Prop where
  memory : t.memory sp = s.memory sp
  cursor : sp = .dst → t.regs.dstPtr = s.regs.dstPtr

theorem Untouched.refl (sp : Space) (s : State) : Untouched sp s s := ⟨rfl, fun _ => rfl⟩

theorem Untouched.trans {sp : Space} {s t u : State} (h : Untouched sp s t) (h' : Untouched sp t u) : Untouched sp s u :=
  ⟨h'.memory.trans h.memory, fun e => (h'.cursor e).trans (h.cursor e)⟩

/-- A unit writes no memory but its own. -/
theorem UnitChange.untouched {sp : Space} {s t : State} (h : UnitChange s t) (other : ¬ s.running.writes sp) :
    Untouched sp s t := by
  cases h with
  | lzwcGo w w' dst e ht =>
    rw [e] at other; subst ht; exact ⟨State.setMemory_memory_of_ne s dst other, fun _ => rfl⟩
  | lzwcEnd w w' dst e ht =>
    rw [e] at other; subst ht
    exact ⟨by simp [lzwcDone, State.setMemory_memory_of_ne s dst other], fun dst => absurd dst other⟩
  | lzwcFault w p a dst e ht =>
    rw [e] at other; subst ht
    exact ⟨by simp [Machine.lzwcFault, State.setMemory_memory_of_ne s dst other], fun _ => by simp [Machine.lzwcFault]⟩
  | lzwdGo w w' b idx e ht =>
    rw [e] at other; subst ht; exact ⟨State.setMemory_memory_of_ne s idx other, fun _ => rfl⟩
  | lzwdEnd w f idx count e _ ht =>
    rw [e] at other; subst ht
    exact ⟨by simp [State.setMemory_memory_of_ne (s.setStatus f) idx other], fun _ => rfl⟩
  | lzwdBlit w f fmt idx count e _ ht =>
    rw [e] at other; subst ht
    exact ⟨by simp [blitStart, State.setMemory_memory_of_ne (s.setStatus f) idx other], fun _ => rfl⟩
  | lzwdFault w w' b c info e ht => subst ht; exact ⟨by simp [Machine.lzwdFault], fun _ => by simp [Machine.lzwdFault]⟩
  | blitGo w w' pix e ht =>
    rw [e] at other; subst ht; exact ⟨State.setMemory_memory_of_ne s pix other, fun _ => rfl⟩
  | blitEnd w count e ht => subst ht; exact ⟨by simp, fun _ => rfl⟩
  | blitFault w e ht => subst ht; exact ⟨by simp [Machine.blitFault], fun _ => by simp [Machine.blitFault]⟩

theorem Running.mayWrite_of_writes {r : Running} {sp : Space} (h : r.writes sp) : r.mayWrite sp := by
  cases r with
  | idle | lzwc w | blit w => exact h
  | lzwd w b =>
    cases b with
    | none => exact h
    | some fmt => exact .inl h

/-- The units that may follow write no further memory. -/
theorem UnitChange.not_mayWrite {sp : Space} {s t : State} (h : UnitChange s t) (other : ¬ s.running.mayWrite sp) :
    ¬ t.running.mayWrite sp := by
  cases h with
  | lzwcGo w w' m e ht => subst ht; rw [e] at other; exact other
  | blitGo w w' m e ht => subst ht; rw [e] at other; exact other
  | lzwdGo w w' b m e ht => subst ht; rw [e] at other; cases b <;> exact other
  | lzwdBlit w f fmt m count e _ ht => subst ht; rw [e] at other; exact fun pix => other (.inr pix)
  | lzwcEnd _ _ _ _ ht | lzwdEnd _ _ _ _ _ _ ht | lzwcFault _ _ _ _ _ ht | lzwdFault _ _ _ _ _ _ ht | blitEnd _ _ _ ht
  | blitFault _ _ ht =>
    have idle : t.running = .idle := by rw [ht]; rfl
    rw [idle]; exact id

/-- A started unit that may not write a memory, and has not yet. -/
structure Spared (sp : Space) (s u : State) : Prop where
  untouched : Untouched sp s u
  later : ¬ u.running.mayWrite sp

theorem Spared.run {sp : Space} {s u t : State} (h : Spared sp s u) (ran : Machine.run u = .next t) : Untouched sp s t :=
  (run_induction (P := Spared sp s) (fun _ _ h hi hs =>
    have change := unitStep_change hi hs
    ⟨h.untouched.trans (change.untouched fun w => h.later (Running.mayWrite_of_writes w)), change.not_mayWrite h.later⟩)
    h ran).untouched

theorem lzwcStart_spares {sp : Space} {s u : State} (other : sp ≠ .dst) (h : lzwcStart s = .next u) : Spared sp s u := by
  rcases lzwcStart_next h with ⟨-, rfl⟩ | ⟨-, b, ⟨w, d, -, rfl⟩ | ⟨w, d, a, -, rfl⟩⟩
  · exact ⟨⟨State.setMemory_memory_of_ne s _ other, fun _ => Regs.latch_dstPtr ..⟩, id⟩
  · exact ⟨⟨State.setMemory_memory_of_ne s _ other, fun _ => rfl⟩, other⟩
  · exact ⟨⟨State.setMemory_memory_of_ne s _ other, fun _ => Regs.latch_dstPtr ..⟩, id⟩

theorem lzwdStart_spares {sp : Space} {n : Nat} {b : Option PixelFormat} {s u : State}
    (other : ∀ w, ¬ (Running.lzwd w b).mayWrite sp) (h : lzwdStart n b s = .next u) : Spared sp s u := by
  rcases lzwdStart_next h with ⟨m, -, -, -, rfl⟩ | ⟨c, info, rfl⟩
  · exact ⟨⟨rfl, fun _ => rfl⟩, other _⟩
  · exact ⟨⟨rfl, fun _ => Regs.latch_dstPtr ..⟩, id⟩

theorem blitStart_spares {sp : Space} {fmt : PixelFormat} {s u : State} (other : sp ≠ .pix)
    (h : (.next (blitStart fmt s) : Res) = .next u) : Spared sp s u := by
  cases h; exact ⟨⟨rfl, fun _ => rfl⟩, other⟩

/-- The gate, the take and a failing check touch no memory (43_commands.md R221, 60_exceptions.md R292). -/
theorem command_untouched {sp : Space} {opc : BitVec 4} {checks : State → List (Bool × FaultCode × Nat)}
    {start : State → Res} {s t : State} (hstart : ∀ s u, start s = .next u → Spared sp s u)
    (h : command opc checks start s = .next t) : Untouched sp s t := by
  have taken : Untouched sp s (take opc s) := ⟨rfl, fun _ => rfl⟩
  obtain ⟨-, ⟨-, rfl⟩ | ⟨-, ⟨c, info, -, rfl⟩ | ⟨-, u, started, ran⟩⟩⟩ := command_next h
  · exact .refl sp _
  · exact ⟨rfl, fun _ => Regs.latch_dstPtr ..⟩
  · exact taken.trans ((hstart _ u started).run ran)

theorem exec_untouched {i : Instr} {sp : Space} {s t : State} (other : ¬ i.mayWrite sp) (h : exec i s = .next t) :
    Untouched sp s t := by
  cases i with
  | compress => exact command_untouched (fun _ _ => lzwcStart_spares other) h
  | decompress => exact command_untouched (fun _ _ => lzwdStart_spares (b := none) fun _ => other) h
  | blitBgra | blitRgba => exact command_untouched (fun _ _ => blitStart_spares other) h
  | decblitBgra => exact command_untouched (fun _ _ => lzwdStart_spares (b := some .bgra) fun _ => other) h
  | decblitRgba => exact command_untouched (fun _ _ => lzwdStart_spares (b := some .rgba) fun _ => other) h
  | reset =>
    obtain ⟨-, cleared⟩ := whenIdle_next h
    cases cleared; exact ⟨rfl, fun _ => rfl⟩
  | lit | clear | eoi | ref | kwk | invalid =>
    obtain ⟨w, b, running, change⟩ := exec_code_change rfl h
    exact change.untouched (by rw [running]; exact other)

/-- Settles O43: each memory is untouched by the instructions that may not write it. -/
theorem memoriesEachInstructionMayWrite : Obligations.MemoriesEachInstructionMayWrite := by
  intro i s t h
  have kept (sp : Space) (other : ¬ i.mayWrite sp) : t.memory sp = s.memory sp := (exec_untouched other h).memory
  refine ⟨kept .src ?_, fun notCompress => kept .dst ?_, fun member => kept .idx ?_, fun member => kept .pix ?_⟩
  · exact Instr.not_mayWrite_src i
  · exact Instr.not_mayWrite_dst notCompress
  · simp only [List.mem_cons, List.not_mem_nil, or_false] at member
    obtain rfl | rfl | rfl | rfl := member <;> simp [Instr.mayWrite]
  · rcases member with command | code
    · simp only [List.mem_cons, List.not_mem_nil, or_false] at command
      obtain rfl | rfl | rfl := command <;> simp [Instr.mayWrite]
    · exact Instr.not_mayWrite_pix_of_code code

/-! ### Operand registers -/

/-- The state with everything blanked that some instruction changes: the memories, what runs, the control and count registers, and
DST_PTR, which a completing COMPRESS advances (43_commands.md R234). -/
def State.fixedPart (s : State) : State :=
  { s with
    src := [], dst := [], idx := [], pix := [], running := .idle
    regs := { s.regs with
      cmd := 0, status := Status.clear, fault := 0, faultInfo := 0, outCount := 0, pixCount := 0, dstPtr := 0 } }

theorem keepsOperandsButDst_of_fixedPart {s t : State} (h : t.fixedPart = s.fixedPart) : keepsOperandsButDst s t where
  srcPtr := congrArg (fun u => u.regs.srcPtr) h
  idxLen := congrArg (fun u => u.regs.idxLen) h
  minCode := congrArg (fun u => u.regs.minCode) h
  canvas := congrArg (fun u => u.regs.canvas) h
  framePos := congrArg (fun u => u.regs.framePos) h
  frameSize := congrArg (fun u => u.regs.frameSize) h
  palPtr := congrArg (fun u => u.regs.palPtr) h
  palSize := congrArg (fun u => u.regs.palSize) h
  blitCtrl := congrArg (fun u => u.regs.blitCtrl) h

theorem keepsHost_of_fixedPart {s t : State} (h : t.fixedPart = s.fixedPart) : keepsHost s t where
  cfg := congrArg (fun u => u.cfg) h
  script := congrArg (fun u => u.script) h
  readData := congrArg (fun u => u.readData) h

@[simp] theorem setMemory_fixedPart (s : State) (sp : Space) (m : Memory) :
    (s.setMemory sp m).fixedPart = s.fixedPart := by cases sp <;> rfl
@[simp] theorem setRunning_fixedPart (s : State) (r : Running) : (s.setRunning r).fixedPart = s.fixedPart := rfl
@[simp] theorem setStatus_fixedPart (s : State) (f : Status) : (s.setStatus f).fixedPart = s.fixedPart := rfl
@[simp] theorem setOutCount_fixedPart (s : State) (w : Word) : (s.setOutCount w).fixedPart = s.fixedPart := rfl
@[simp] theorem setPixCount_fixedPart (s : State) (w : Word) : (s.setPixCount w).fixedPart = s.fixedPart := rfl
@[simp] theorem setDstPtr_fixedPart (s : State) (w : Word) : (s.setDstPtr w).fixedPart = s.fixedPart := rfl
@[simp] theorem take_fixedPart (opc : BitVec 4) (s : State) : (take opc s).fixedPart = s.fixedPart := rfl
@[simp] theorem clearFault_fixedPart (s : State) : (clearFault s).fixedPart = s.fixedPart := rfl
@[simp] theorem complete_fixedPart (s : State) : (complete s).fixedPart = s.fixedPart := rfl
@[simp] theorem raise_fixedPart (c : FaultCode) (info : Nat) (s : State) : (raise c info s).fixedPart = s.fixedPart := by
  simp [State.fixedPart]

/-- What an instruction that started at `s` has kept: the fixed part, and DST_PTR but where a COMPRESS has completed. -/
structure Kept (s t : State) : Prop where
  fixed : t.fixedPart = s.fixedPart
  cursor : t.regs.dstPtr = s.regs.dstPtr ∨ (t.regs.status.done = true ∧ t.running = .idle)

theorem UnitChange.kept {s t : State} (h : UnitChange s t) : Kept s t := by
  cases h with
  | lzwcGo _ _ _ _ ht | lzwdGo _ _ _ _ _ ht | blitGo _ _ _ _ ht => subst ht; exact ⟨by simp, .inl rfl⟩
  | lzwdEnd _ _ _ _ _ _ ht | blitEnd _ _ _ ht => subst ht; exact ⟨by simp, .inl rfl⟩
  | lzwdBlit _ _ _ _ _ _ _ ht => subst ht; exact ⟨by simp [blitStart], .inl rfl⟩
  | lzwcEnd _ _ _ _ ht => subst ht; exact ⟨by simp [lzwcDone], .inr ⟨rfl, rfl⟩⟩
  | lzwcFault _ _ _ _ _ ht => subst ht; exact ⟨by simp [Machine.lzwcFault], .inl (by simp [Machine.lzwcFault])⟩
  | lzwdFault _ _ _ _ _ _ ht => subst ht; exact ⟨by simp [Machine.lzwdFault], .inl (by simp [Machine.lzwdFault])⟩
  | blitFault _ _ ht => subst ht; exact ⟨by simp [Machine.blitFault], .inl (by simp [Machine.blitFault])⟩

theorem Kept.step {s t u : State} (h : Kept s t) (hi : t.running ≠ .idle) (hs : unitStep t = .next u) : Kept s u := by
  have change := (unitStep_change hi hs).kept
  have cursor := h.cursor.resolve_right fun done => hi done.2
  exact ⟨change.fixed.trans h.fixed, change.cursor.imp_left fun same => same.trans cursor⟩

theorem Started.kept {s u : State} (h : Started s u) : Kept s u := by
  cases h with
  | compress _ e =>
    rcases lzwcStart_next e with ⟨-, rfl⟩ | ⟨-, b, ⟨w, d, -, rfl⟩ | ⟨w, d, a, -, rfl⟩⟩
    · exact ⟨raise_fixedPart .., .inl (Regs.latch_dstPtr ..)⟩
    · exact ⟨rfl, .inl rfl⟩
    · exact ⟨raise_fixedPart .., .inl (Regs.latch_dstPtr ..)⟩
  | decompress _ e | decblit _ _ e =>
    rcases lzwdStart_next e with ⟨m, -, -, -, rfl⟩ | ⟨c, info, rfl⟩
    · exact ⟨rfl, .inl rfl⟩
    · exact ⟨raise_fixedPart .., .inl (Regs.latch_dstPtr ..)⟩
  | blit fmt _ e => subst e; exact ⟨rfl, .inl rfl⟩

theorem CommandChange.kept {i : Instr} {s t : State} (h : CommandChange i s t) : Kept s t := by
  cases h with
  | reset _ e => subst e; exact ⟨rfl, .inl rfl⟩
  | gated _ e => subst e; exact ⟨rfl, .inl rfl⟩
  | refused opc c info _ _ e => subst e; exact ⟨raise_fixedPart .., .inl (Regs.latch_dstPtr ..)⟩
  | ran opc u _ _ started ran =>
    exact run_induction (P := Kept s) (fun _ _ => Kept.step) ⟨started.kept.fixed, started.kept.cursor⟩ ran

/-- Settles O44: the fixed part is kept by every way an instruction goes, and DST_PTR is DST's cursor. -/
theorem operandRegistersAreKept : Obligations.OperandRegistersAreKept := by
  intro i s t h
  have kept : Kept s t := (exec_next h).elim (fun ⟨_, change⟩ => change.kept) UnitChange.kept
  refine ⟨keepsOperandsButDst_of_fixedPart kept.fixed, keepsHost_of_fixedPart kept.fixed, fun side => ?_⟩
  rcases side with notCompress | notDone
  · exact (exec_untouched (Instr.not_mayWrite_dst notCompress) h).cursor rfl
  · exact kept.cursor.resolve_right fun done => by simp [done.1] at notDone

end Sys2Proof.Machine
end

section
/-! PROOF. What LZWD does depends on its registers and on SRC, and not on IDX, CMD, IDX_LEN or what follows it (41_lzw_decompress.md
R150, R156): a decompression that ends can be made again from another state, to the same output. -/

namespace Sys2Proof.Machine

/-! ### Fetching -/

/-- What LZWD meets is the same: the parameters, SRC, where the stream begins, STATUS and OUT_COUNT. -/
structure SameStream (s t : State) : Prop where
  cfg : t.cfg = s.cfg
  src : t.src = s.src
  srcPtr : t.regs.srcPtr = s.regs.srcPtr
  status : t.regs.status = s.regs.status
  outCount : t.regs.outCount = s.regs.outCount

section Fetch

variable {s t : State}

theorem SameStream.fetchByte (h : SameStream s t) (a : Nat) : t.fetchByte .src a = s.fetchByte .src a :=
  State.fetchByte_congr (sp := .src) h.cfg h.src a

theorem SameStream.setRunning (h : SameStream s t) (r : Running) : SameStream s (t.setRunning r) :=
  ⟨h.cfg, h.src, h.srcPtr, h.status, h.outCount⟩

theorem SameStream.refillTurn (h : SameStream s t) (w : Lzwd) : refillTurn t w = refillTurn s w := by
  simp only [Machine.refillTurn, refillData, h.fetchByte]

theorem SameStream.refill (h : SameStream s t) (fuel : Nat) (w : Lzwd) : refill t fuel w = refill s fuel w := by
  induction fuel generalizing w with
  | zero => rfl
  | succ fuel ih => simp only [Machine.refill, h.refillTurn, ih]

theorem SameStream.getCode (h : SameStream s t) (w : Lzwd) : getCode t w = getCode s w := by
  simp only [Machine.getCode, h.refill]

/-- Whatever its registers hold, a refill changes none but d_acc, d_nb, d_p, d_sbrem and d_ended. -/
def Refill.Keeps (r : Refill) (w : Lzwd) : Prop :=
  match r with
  | .ready v | .bounds v _ => w.Same v
  | .unwritten _ => True

theorem Refill.Keeps.of_same {r : Refill} {w v : Lzwd} (h : r.Keeps v) (same : w.Same v) : r.Keeps w := by
  cases r with
  | ready u | bounds u a => exact same.trans h
  | unwritten a => trivial

theorem Lzwd.takeLength_same (w : Lzwd) (l : Byte) : w.Same (w.takeLength l) := by
  unfold Lzwd.takeLength
  split <;> exact ⟨rfl, rfl, rfl, rfl, rfl, rfl, rfl⟩

theorem refillData_keeps (s : State) (w : Lzwd) : (refillData s w).Keeps w := by
  unfold refillData
  split
  · exact ⟨rfl, rfl, rfl, rfl, rfl, rfl, rfl⟩
  · exact .refl w
  · trivial

theorem refillTurn_keeps (s : State) (w : Lzwd) : (refillTurn s w).Keeps w := by
  unfold refillTurn
  split
  · split
    · split
      · exact w.takeLength_same _
      · exact (refillData_keeps s _).of_same (w.takeLength_same _)
    · exact .refl w
    · trivial
  · exact refillData_keeps s w

theorem refill_keeps (s : State) (fuel : Nat) (w : Lzwd) : (refill s fuel w).Keeps w := by
  induction fuel generalizing w with
  | zero => exact .refl w
  | succ fuel ih =>
    unfold refill
    split
    · have turn := refillTurn_keeps s w
      split <;> rename_i e <;> rw [e] at turn
      · exact (ih _).of_same turn
      · exact turn
      · trivial
    · exact .refl w

/-- So does GetCode (41_lzw_decompress.md R153). -/
theorem getCode_keeps (s : State) (w : Lzwd) :
    match getCode s w with
    | .code v _ | .endOfData v | .bounds v _ => w.Same v
    | .unwritten _ => True := by
  have filled := refill_keeps s w.width w
  unfold getCode
  cases e : refill s w.width w with
  | ready v =>
    rw [e] at filled
    by_cases short : v.nb < v.width
    · simp only [if_pos short]; exact filled
    · simp only [if_neg short]; exact filled.trans ⟨rfl, rfl, rfl, rfl, rfl, rfl, rfl⟩
  | bounds v a => rw [e] at filled; exact filled
  | unwritten a => trivial

end Fetch

/-! ### One working step -/

theorem Lzwd.learn_op (w : Lzwd) (code : Nat) (first : Byte) : (w.learn code first).op = w.op := by
  rcases w.learn_spec code first with ⟨prev, -, -, e⟩ | ⟨-, e⟩ <;> rw [e]

/-- The state after the zero fill with STATUS as given: DECOMPRESS complete, or BLIT begun (41_lzw_decompress.md R177,
43_commands.md R229). -/
def lzwdFilled (w : Lzwd) (f : Status) (b : Option PixelFormat) (s : State) : State :=
  let filled := ((s.setMemory .idx (Memory.writeList s.idx w.op (List.replicate (w.n - w.op) 0))).setStatus f).setOutCount
    (countWord w.op)
  match b with
  | none => complete filled
  | some fmt => blitStart fmt filled

theorem lzwdFill_of_fits {w : Lzwd} {s : State} (f : Status) (b : Option PixelFormat) (r : Running)
    (fits : w.op + (w.n - w.op) ≤ s.cfg.size .idx) :
    lzwdFill w b ((s.setRunning r).setStatus f) = .next (lzwdFilled w f b s) := by
  rw [lzwdFill, State.writeChecked_of_fits (s := (s.setRunning r).setStatus f) _ (by rwa [List.length_replicate])]
  cases b <;> rfl

/-- The three flags of a decompression as given, DONE and FAULT as they are. -/
def Status.decompressed (f : Status) (long short eoi : Bool) : Status :=
  { done := f.done, fault := f.fault, warnLong := long, warnShort := short, eoiSeen := eoi }

theorem execCode_of_not_admits {i : Instr} {s : State} {w : Lzwd} {b : Option PixelFormat} (hr : s.running = .lzwd w b)
    (ha : w.context.admits i = false) : execCode i s = .refused .codeOutOfContext := by
  cases hc : i.isCommand with
  | true =>
    cases i with
    | compress | decompress | blitBgra | blitRgba | decblitBgra | decblitRgba | reset => rfl
    | lit | clear | eoi | ref | kwk | invalid => cases hc
  | false =>
    obtain ⟨k, hk, -⟩ := exec_eq_onCode hc s
    rw [← exec_eq_execCode hc, hk, onCode_of_not_admits k hr ha]

/-- How a decompression ends: with its flags, or with a fault (41_lzw_decompress.md R176, R181). -/
inductive Closing where
  | ended (long short eoi : Bool)
  | faulted (c : FaultCode) (info : Nat)

/-- The state such an end leaves. -/
def Closing.state (e : Closing) (w : Lzwd) (b : Option PixelFormat) (s : State) : State :=
  match e with
  | .ended long short eoi => lzwdFilled w (s.regs.status.decompressed long short eoi) b s
  | .faulted c info => lzwdFault c info w s

/-- What `act`, LZWD in registers `w`, does on every state with the stream of `s`, whatever follows it. -/
inductive Turn (s : State) (w : Lzwd) (act : State → Option PixelFormat → Res) : Prop where
  | goesOn (v : Lzwd) (symbols : List Byte) : v.op = w.op + symbols.length → v.n = w.n →
      (∀ t b, SameStream s t →
        act t b = .next ((t.setMemory .idx (Memory.writeList t.idx w.op symbols)).setRunning (.lzwd v b))) → Turn s w act
  | ends (v : Lzwd) (e : Closing) : v.op = w.op → v.n = w.n →
      (∀ t b, SameStream s t → act t b = .next (e.state v b t)) → Turn s w act
  | stops : (∀ t b, SameStream s t → ∀ u, act t b ≠ .next u) → Turn s w act

section Turn

variable {s : State} {w : Lzwd} {act : State → Option PixelFormat → Res}

theorem Turn.congr {act' : State → Option PixelFormat → Res} (h : Turn s w act)
    (same : ∀ t b, SameStream s t → act' t b = act t b) : Turn s w act' := by
  cases h with
  | goesOn v symbols hop hn run => exact .goesOn v symbols hop hn fun t b stream => (same t b stream).trans (run t b stream)
  | ends v e hop hn run => exact .ends v e hop hn fun t b stream => (same t b stream).trans (run t b stream)
  | stops run => exact .stops fun t b stream u next => run t b stream u (same t b stream ▸ next)

/-- The zero fill, with flags that leave DONE and FAULT. -/
theorem Turn.of_fill {v : Lzwd} (same : w.Same v) (f : Status) (done : f.done = s.regs.status.done)
    (fault : f.fault = s.regs.status.fault)
    (h : ∀ t b, SameStream s t → ∃ r, act t b = lzwdFill v b ((t.setRunning r).setStatus f)) : Turn s w act := by
  by_cases fits : v.op + (v.n - v.op) ≤ s.cfg.size .idx
  · refine .ends v (.ended f.warnLong f.warnShort f.eoiSeen) same.op same.n fun t b stream => ?_
    obtain ⟨r, e⟩ := h t b stream
    have flags : f = t.regs.status.decompressed f.warnLong f.warnShort f.eoiSeen := by
      rw [Status.decompressed, stream.status, ← done, ← fault]
    rw [e, lzwdFill_of_fits f b r (stream.cfg ▸ fits), Closing.state, ← flags]
  · refine .stops fun t b stream u next => fits ?_
    obtain ⟨r, e⟩ := h t b stream
    have := (lzwdFill_next (e ▸ next)).1
    rwa [← stream.cfg]

/-- A data code: the LONG exit, or its symbols (41_lzw_decompress.md R165 to R168). -/
theorem Turn.of_dataCode {v : Lzwd} (same : w.Same v) (code : Nat) (symbols : List Byte)
    (h : ∀ t b, SameStream s t → ∃ r, act t b = dataCode v b code symbols (t.setRunning r)) : Turn s w act := by
  by_cases long : v.n < v.op + symbols.length
  · refine .of_fill same s.regs.status.endLong rfl rfl fun t b stream => ?_
    obtain ⟨r, e⟩ := h t b stream
    exact ⟨r, by rw [e, dataCode, if_pos long, lzwdLong, ← stream.status]; rfl⟩
  by_cases fits : v.op + symbols.length ≤ s.cfg.size .idx
  · refine .goesOn (Lzwd.learn { v with op := v.op + symbols.length } code (symbols.headD 0)) symbols ?_ ?_ fun t b stream => ?_
    · exact (Lzwd.learn_op ..).trans (congrArg (· + symbols.length) same.op)
    · exact (Lzwd.learn_n ..).trans same.n
    · obtain ⟨r, e⟩ := h t b stream
      rw [e, dataCode, if_neg long, State.writeChecked_of_fits (s := t.setRunning r) _ (stream.cfg ▸ fits), ← same.op]
      rfl
  · refine .stops fun t b stream u next => fits ?_
    obtain ⟨r, e⟩ := h t b stream
    rw [e, dataCode, if_neg long] at next
    have := (State.writeChecked_next next).1
    rwa [← stream.cfg]

/-- A code in registers `v`. -/
theorem Turn.of_code {v : Lzwd} (same : w.Same v) (i : Instr) :
    Turn s w fun t b => execCode i (t.setRunning (.lzwd v b)) := by
  cases admitted : v.context.admits i with
  | false =>
    refine .stops fun t b _ u next => ?_
    rw [execCode_of_not_admits rfl admitted] at next
    cases next
  | true =>
    have runs (t : State) (b : Option PixelFormat) (k : Lzwd → Option PixelFormat → Res) :
        onCode i (t.setRunning (.lzwd v b)) k = k v b := onCode_of_admits rfl admitted
    cases i with
    | compress | decompress | blitBgra | blitRgba | decblitBgra | decblitRgba | reset => cases admitted
    | lit m symbol => exact .of_dataCode same symbol.toNat [symbol] fun t b _ => ⟨.lzwd v b, by rw [execCode, execLit, runs]⟩
    | clear m =>
      exact .goesOn { v with next := firstCode v.m, width := v.m + 1, prev := none, tab := [] } [] same.op same.n
        fun t b _ => by rw [execCode, execClear, runs]; rfl
    | eoi m =>
      refine .of_fill same (s.regs.status.sawEoi.shortTest v.op v.n) rfl rfl fun t b stream => ⟨.lzwd v b, ?_⟩
      rw [execCode, execEoi, runs, lzwdEnd, ← stream.status]; rfl
    | ref code =>
      cases seq : seqOf v.m v.tab code.toNat with
      | some symbols =>
        exact .of_dataCode same code.toNat symbols fun t b _ => ⟨.lzwd v b, by simp only [execCode, execRef, runs, seq]⟩
      | none => exact .stops fun t b _ u next => by simp only [execCode, execRef, runs, seq] at next; cases next
    | kwk code =>
      obtain ⟨-, -, hasPrev⟩ := (v.admits_kwk code).mp admitted
      obtain ⟨prev, hprev⟩ := Option.ne_none_iff_exists'.mp hasPrev
      cases seq : seqOf v.m v.tab prev with
      | some symbols =>
        exact .of_dataCode same code.toNat (symbols ++ [symbols.headD 0]) fun t b _ =>
          ⟨.lzwd v b, by simp only [execCode, execKwk, runs, hprev, seq]⟩
      | none => exact .stops fun t b _ u next => by simp only [execCode, execKwk, runs, hprev, seq] at next; cases next
    | invalid code =>
      exact .ends v (.faulted .invalidCode code.toNat) same.op same.n fun t b _ => by rw [execCode, execInvalid, runs]; rfl

/-- A working step of LZWD (41_lzw_decompress.md R156). -/
theorem turn_lzwdStep (s : State) (w : Lzwd) : Turn s w fun t b => lzwdStep execCode w b (t.setRunning (.lzwd w b)) := by
  have steps {t : State} (b : Option PixelFormat) (stream : SameStream s t) :
      getCode (t.setRunning (.lzwd w b)) w = getCode s w := (stream.setRunning (.lzwd w b)).getCode w
  have fetched := getCode_keeps s w
  cases fetch : getCode s w with
  | code v c =>
    rw [fetch] at fetched
    refine (Turn.of_code fetched (decodeCode v.context c)).congr fun t b stream => ?_
    rw [lzwdStep, steps b stream, fetch]
    rfl
  | endOfData v =>
    rw [fetch] at fetched
    refine .of_fill fetched (s.regs.status.shortTest v.op v.n) rfl rfl fun t b stream => ⟨.lzwd w b, ?_⟩
    rw [lzwdStep, steps b stream, fetch, ← stream.status]
    rfl
  | bounds v a =>
    rw [fetch] at fetched
    refine .ends v (.faulted .srcBounds a) fetched.op fetched.n fun t b stream => ?_
    rw [lzwdStep, steps b stream, fetch]
    rfl
  | unwritten a =>
    refine .stops fun t b stream u next => ?_
    rw [lzwdStep, steps b stream, fetch] at next
    cases next

end Turn

/-! ### The run -/

theorem SameStream.setMemory_idx {s t : State} (h : SameStream s t) (m m' : Memory) :
    SameStream (s.setMemory .idx m) (t.setMemory .idx m') := ⟨h.cfg, h.src, h.srcPtr, h.status, h.outCount⟩

/-- LZWD in registers `w` comes to its end `e` in registers `v` after `k` more steps, having written `out`: from `s`, and so from
every state with its stream, whatever follows. -/
structure Decodes (s : State) (w : Lzwd) (k : Nat) (out : List Byte) (v : Lzwd) (e : Closing) : Prop where
  op : v.op = w.op + out.length
  n : v.n = w.n
  run : ∀ t b, SameStream s t → ∀ fuel, runToIdle (fuel + (k + 1)) (t.setRunning (.lzwd w b)) =
    runToIdle fuel (e.state v b (t.setMemory .idx (Memory.writeList t.idx w.op out)))

/-- A run of LZWD that comes to an idle state is such a decompression. -/
theorem exists_decodes (fuel : Nat) {s u : State} {w : Lzwd} {b : Option PixelFormat} (idle : u.running = .idle)
    (ran : runToIdle fuel (s.setRunning (.lzwd w b)) = .next u) :
    ∃ k out v e, k < fuel ∧ Decodes s w k out v e := by
  induction fuel generalizing s w with
  | zero => cases ran; cases idle
  | succ fuel ih =>
    have step (t : State) (b : Option PixelFormat) (fuel : Nat) : runToIdle (fuel + 1) (t.setRunning (.lzwd w b)) =
        andThen (lzwdStep execCode w b (t.setRunning (.lzwd w b))) (runToIdle fuel) := runToIdle_of_running fuel nofun
    have self : SameStream s s := ⟨rfl, rfl, rfl, rfl, rfl⟩
    rw [step] at ran
    cases turn_lzwdStep s w with
    | goesOn v symbols hop hn turn =>
      rw [turn s b self, andThen_next] at ran
      obtain ⟨k, out, v', e, lt, hop', hn', run⟩ := ih ran
      refine ⟨k + 1, symbols ++ out, v', e, Nat.succ_lt_succ lt, ?_, hn'.trans hn, fun t b stream fuel => ?_⟩
      · rw [hop', hop, List.length_append, Nat.add_assoc]
      · rw [← Nat.add_assoc, step, turn t b stream, andThen_next, run _ b (stream.setMemory_idx _ _), hop,
          Memory.writeList_append]
        rfl
    | ends v e hop hn turn =>
      exact ⟨0, [], v, e, Nat.succ_pos _, hop, hn, fun t b stream fuel => by
        rw [step, turn t b stream, andThen_next]; rfl⟩
    | stops turn =>
      obtain ⟨t, next, -⟩ := andThen_eq_next ran
      exact absurd next (turn s b self t)

/-! ### The start and the run -/

/-- The working steps a decompression is given, with those of BLIT if it follows (70_reset_and_hazards.md R329). -/
def decodeSteps (s : State) (b : Option PixelFormat) : Nat :=
  match b with
  | none => 8 * s.cfg.size .src + 1
  | some _ => 8 * s.cfg.size .src + 1 + (frameSymbols s.regs + 1)

theorem stepsLeft_lzwd (s : State) (w : Lzwd) (b : Option PixelFormat) :
    stepsLeft (s.setRunning (.lzwd w b)) = decodeSteps s b := by cases b <;> rfl

/-- LZWD, started for `n` symbols, comes to its end `e` in registers `v` with `k` steps before the last, having written `out`: from
`s`, and so from every state with its stream, whatever follows. -/
structure Decompresses (s : State) (n k : Nat) (out : List Byte) (v : Lzwd) (e : Closing) : Prop where
  op : v.op = out.length
  expects : v.n = n
  run : ∀ t b fuel, SameStream s t → decodeSteps t b = fuel + (k + 1) → andThen (lzwdStart n b t) run =
    runToIdle fuel (e.state v b (t.setMemory .idx (Memory.writeList t.idx 0 out)))

section Start

variable {s u : State} {n : Nat} {b : Option PixelFormat}

/-- A fault where LZWD starts (41_lzw_decompress.md R152) is an end like a later one, without output. -/
theorem decompresses_of_fault (count : s.regs.outCount = 0) {c : FaultCode} {info : Nat}
    (start : ∀ t b, SameStream s t → lzwdStart n b t = .next (raise c info t)) :
    Decompresses s n 0 [] (Lzwd.start 0 0 n) (.faulted c info) where
  op := rfl
  expects := rfl
  run t b fuel stream _ := by
    have none_yet : countWord 0 = t.regs.outCount := (countWord_of_lt (by decide)).trans (stream.outCount.trans count).symm
    have zero : t.setOutCount (countWord 0) = t := by rw [none_yet]; rfl
    have same : Closing.state (.faulted c info) (Lzwd.start 0 0 n) b (t.setMemory .idx (Memory.writeList t.idx 0 [])) =
        raise c info t := congrArg (raise c info) zero
    rw [start t b stream, andThen_next, same, run, runToIdle_of_idle _ rfl, runToIdle_of_idle _ rfl]

/-- A start and a run that come to an idle state. -/
theorem exists_decompresses (count : s.regs.outCount = 0) (idle : u.running = .idle)
    (ran : andThen (lzwdStart n b s) run = .next u) :
    ∃ k out v e, k < decodeSteps s b ∧ Decompresses s n k out v e := by
  have some_step : 0 < decodeSteps s b := by cases b <;> exact Nat.succ_pos _
  have fetched {t : State} (stream : SameStream s t) :
      t.fetchByte .src t.regs.srcPtr.toNat = s.fetchByte .src s.regs.srcPtr.toNat := by
    rw [stream.fetchByte, stream.srcPtr]
  cases first : s.fetchByte .src s.regs.srcPtr.toNat with
  | unwritten => rw [lzwdStart_of_unwritten first] at ran; cases ran
  | outside =>
    exact ⟨0, [], _, _, some_step, decompresses_of_fault count fun t b stream => by
      rw [lzwdStart_of_outside ((fetched stream).trans first), stream.srcPtr]⟩
  | value m =>
    cases good : minCodeOk m.toNat with
    | false =>
      exact ⟨0, [], _, _, some_step, decompresses_of_fault count fun t b stream =>
        lzwdStart_of_badMinCode ((fetched stream).trans first) good⟩
    | true =>
      rw [lzwdStart_of_minCode first good, andThen_next, run, stepsLeft_lzwd] at ran
      obtain ⟨k, out, v, e, lt, decodes⟩ := exists_decodes _ idle ran
      refine ⟨k, out, v, e, lt, ⟨decodes.op.trans (Nat.zero_add _), decodes.n, fun t b fuel stream steps => ?_⟩⟩
      rw [lzwdStart_of_minCode ((fetched stream).trans first) good, andThen_next, run, stepsLeft_lzwd, steps, stream.srcPtr,
        decodes.run t b stream]
      rfl

end Start

end Sys2Proof.Machine
end

section
/-! PROOF. DECBLIT against DECOMPRESS and then BLIT (43_commands.md R229, R230). -/

namespace Sys2Proof.Machine

open Sys2Proof.Claims

/-! ### Where a command has ended -/

/-- While a unit runs no fault is latched and DONE is 0 (43_commands.md R221). -/
def State.clearWhileRunning (s : State) : Prop :=
  s.running ≠ .idle → s.regs.status.fault = false ∧ s.regs.status.done = false

theorem State.clearWhileRunning_of_idle {s : State} (h : s.running = .idle) : s.clearWhileRunning := fun n => absurd h n

theorem UnitChange.clearWhileRunning {s t : State} (h : UnitChange s t) (clear : s.clearWhileRunning)
    (running : s.running ≠ .idle) : t.clearWhileRunning := by
  obtain ⟨fault, done⟩ := clear running
  cases h with
  | lzwcGo _ _ _ _ ht | lzwdGo _ _ _ _ _ ht | blitGo _ _ _ _ ht => subst ht; exact fun _ => ⟨fault, done⟩
  | lzwdBlit _ _ _ _ _ _ flags ht => subst ht; cases flags <;> exact fun _ => ⟨fault, done⟩
  | lzwcEnd _ _ _ _ ht | lzwdEnd _ _ _ _ _ _ ht | lzwcFault _ _ _ _ _ ht | lzwdFault _ _ _ _ _ _ ht | blitEnd _ _ _ ht
  | blitFault _ _ ht => exact State.clearWhileRunning_of_idle (by rw [ht]; rfl)

/-- A command that has set DONE or FAULT has ended. -/
theorem exec_idle {i : Instr} {s t : State} (idle : s.running = .idle) (h : exec i s = .next t)
    (flag : t.regs.status.fault = true ∨ t.regs.status.done = true) : t.running = .idle := by
  have clear : t.clearWhileRunning := by
    cases exec_change idle h with
    | reset _ e => subst e; exact State.clearWhileRunning_of_idle idle
    | gated _ e => subst e; exact State.clearWhileRunning_of_idle idle
    | refused _ _ _ _ _ e => subst e; exact State.clearWhileRunning_of_idle rfl
    | ran opc u fault _ started ran =>
      refine run_induction (fun _ _ h hi hs => (unitStep_change hi hs).clearWhileRunning h hi) ?_ ran
      rcases started.control with kept | ⟨c, info, v, rfl, -, -⟩
      · exact fun _ => by rw [kept.status]; exact ⟨fault, rfl⟩
      · exact State.clearWhileRunning_of_idle rfl
  by_contra running
  obtain ⟨fault, done⟩ := clear running
  simp [fault, done] at flag

/-- The frame stands in operand registers, which no instruction changes. -/
theorem FrameOk.exec {i : Instr} {s t : State} (frame : FrameOk s.cfg s.regs) (ran : Machine.exec i s = .next t) :
    FrameOk t.cfg t.regs := by
  obtain ⟨operands, host, -⟩ := operandRegistersAreKept i s t ran
  rw [host.cfg]
  exact frame.of_eq operands.canvas operands.framePos operands.frameSize operands.palSize operands.palPtr

/-- Further working steps change nothing once GLZ is idle. -/
theorem runToIdle_of_le {f g : Nat} (le : f ≤ g) {s t : State} (idle : t.running = .idle) (ran : runToIdle f s = .next t) :
    runToIdle g s = .next t := by
  induction f generalizing g s with
  | zero => cases ran; exact runToIdle_of_idle g idle
  | succ f ih =>
    by_cases now : s.running = .idle
    · rwa [runToIdle_of_idle _ now] at ran ⊢
    · obtain ⟨g, rfl⟩ : ∃ g', g = g' + 1 := Nat.exists_eq_succ_of_ne_zero (by omega)
      rw [runToIdle_of_running f now] at ran
      obtain ⟨u, step, ran⟩ := andThen_eq_next ran
      rw [runToIdle_of_running g now, step, andThen_next]
      exact ih (Nat.le_of_succ_le_succ le) ran

/-! ### BLIT does not read CMD, IDX_LEN, OUT_COUNT and the flags of the decompression -/

/-- The state with CMD, IDX_LEN and OUT_COUNT as given, and the flags of the decompression as in `f`. -/
def recast (opc : BitVec 4) (len count : Word) (f : Status) (s : State) : State :=
  { s with
    regs := { s.regs with
      cmd := opc
      idxLen := len
      outCount := count
      status := { s.regs.status with warnLong := f.warnLong, warnShort := f.warnShort, eoiSeen := f.eoiSeen } } }

section Recast

variable {opc : BitVec 4} {len count : Word} {f : Status} {s : State}

theorem blitFault_recast (w : Blit) : blitFault w (recast opc len count f s) = recast opc len count f (blitFault w s) := by
  cases h : s.regs.status.fault with
  | false =>
    rw [blitFault, raise, Regs.latch_of_clear _ _ _ (by exact h), blitFault, raise, Regs.latch_of_clear _ _ _ (by exact h)]
    rfl
  | true =>
    rw [blitFault, raise, Regs.latch_of_fault _ _ _ (by exact h), blitFault, raise, Regs.latch_of_fault _ _ _ (by exact h)]
    rfl

theorem blitStep_recast {w : Blit} {u : State} (h : blitStep w s = .next u) :
    blitStep w (recast opc len count f s) = .next (recast opc len count f u) := by
  rcases blitStep_next h with ⟨last, rfl⟩ | ⟨lt, v, hv, ⟨transparent, rfl⟩ | ⟨visible, beyond, rfl⟩ |
    ⟨visible, below, r, g, b, hr, hg, hb, fits, rfl⟩⟩
  · exact blitStep_of_end (s := recast opc len count f s) last
  · exact (blitStep_of_symbol (s := recast opc len count f s) lt hv).trans
      (blitSymbol_of_transparent (s := recast opc len count f s) transparent)
  · rw [blitStep_of_symbol (s := recast opc len count f s) lt hv,
      blitSymbol_of_beyond (s := recast opc len count f s) visible beyond, blitFault_recast]
  · exact (blitStep_of_symbol (s := recast opc len count f s) lt hv).trans
      (blitSymbol_of_colour (s := recast opc len count f s) visible below ⟨hr, hg, hb⟩ fits)

/-- BLIT, or GLZ idle. -/
def State.blitsOrIdle (s : State) : Prop := s.running = .idle ∨ ∃ w, s.running = .blit w

theorem blitStep_blitsOrIdle {w : Blit} {u : State} (h : blitStep w s = .next u) : u.blitsOrIdle := by
  rcases blitStep_next h with ⟨-, rfl⟩ | ⟨-, v, -, ⟨-, rfl⟩ | ⟨-, -, rfl⟩ | ⟨-, -, r, g, b, -, -, -, -, rfl⟩⟩
  · exact .inl rfl
  · exact .inr ⟨_, rfl⟩
  · exact .inl rfl
  · exact .inr ⟨_, rfl⟩

theorem runToIdle_recast {fuel : Nat} {t : State} (blits : s.blitsOrIdle) (ran : runToIdle fuel s = .next t) :
    runToIdle fuel (recast opc len count f s) = .next (recast opc len count f t) := by
  induction fuel generalizing s with
  | zero => cases ran; rfl
  | succ fuel ih =>
    rcases blits with idle | ⟨w, running⟩
    · rw [runToIdle_of_idle _ idle] at ran
      cases ran
      exact runToIdle_of_idle _ idle
    · have unit {s : State} (running : s.running = .blit w) : unitStep s = blitStep w s := by rw [unitStep, running]
      rw [runToIdle_of_running fuel (by rw [running]; nofun), unit running] at ran
      obtain ⟨u, step, ran⟩ := andThen_eq_next ran
      have again : (recast opc len count f s).running = .blit w := running
      rw [runToIdle_of_running fuel (by rw [again]; nofun), unit again, blitStep_recast step, andThen_next]
      exact ih (blitStep_blitsOrIdle step) ran

end Recast

/-! ### The two commands -/

/-- The commands that run LZWD and then BLIT, with opcode and format (43_commands.md R229). -/
def decblitForms : List (Instr × BitVec 4 × PixelFormat) := [(.decblitBgra, 5, .bgra), (.decblitRgba, 6, .rgba)]

/-- The state with IDX_LEN set to the number of the frame's symbols. -/
def State.forFrame (s : State) : State :=
  { s with regs := { s.regs with idxLen := BitVec.ofNat 32 (frameSymbols s.regs) } }

/-- An end of a decompression that nothing follows leaves GLZ idle. -/
theorem Closing.state_running (e : Closing) (w : Lzwd) (s : State) : (e.state w none s).running = .idle := by cases e <;> rfl

section Commands

variable {s u : State} {i : Instr} {opc : BitVec 4} {fmt : PixelFormat}

theorem exec_decblitForm (form : (i, opc, fmt) ∈ decblitForms) (s : State) :
    exec i s = command opc blitChecks (fun s => lzwdStart (frameSymbols s.regs) (some fmt) s) s := by
  simp only [decblitForms, List.mem_cons, List.not_mem_nil, or_false, Prod.mk.injEq] at form
  obtain ⟨rfl, rfl, rfl⟩ | ⟨rfl, rfl, rfl⟩ := form <;> rfl

theorem exec_decblit (form : (i, opc, fmt) ∈ decblitForms) (ready : s.ready) (frame : FrameOk s.cfg s.regs) :
    exec i s = andThen (lzwdStart (frameSymbols s.regs) (some fmt) (take opc s)) run := by
  rw [exec_decblitForm form, command_of_accepted ready.1 ready.2 (blitChecks_pass.mpr ((take_frameOk opc s).mpr frame))]
  rfl

theorem forFrame_idxLen (s : State) : s.forFrame.regs.idxLen.toNat = frameSymbols s.regs :=
  toNat_ofNat_of_lt (frameSymbols_lt s.regs)

theorem exec_decompress_forFrame (ready : s.ready) (frame : FrameOk s.cfg s.regs) :
    exec .decompress s.forFrame = andThen (lzwdStart (frameSymbols s.regs) none (take 2 s.forFrame)) run := by
  have room : s.forFrame.regs.idxLen.toNat ≤ s.cfg.size .idx := forFrame_idxLen s ▸ frame.idx_fits
  rw [exec_decompress_of_room (s := s.forFrame) ready room, forFrame_idxLen]

/-- DECBLIT decompresses as DECOMPRESS does, and has its steps of BLIT still to take (43_commands.md R229). -/
theorem exec_decblit_of_decompress (form : (i, opc, fmt) ∈ decblitForms) (ready : s.ready) (frame : FrameOk s.cfg s.regs)
    (ran : exec .decompress s.forFrame = .next u) (idle : u.running = .idle) :
    ∃ v m e fuel, u = Closing.state e v none ((take 2 s.forFrame).setMemory .idx m) ∧
      exec i s = runToIdle (fuel + (frameSymbols s.regs + 1)) (e.state v (some fmt) ((take opc s).setMemory .idx m)) := by
  rw [exec_decompress_forFrame ready frame] at ran
  obtain ⟨k, out, v, e, lt, decompresses⟩ := exists_decompresses rfl idle ran
  obtain ⟨fuel, steps⟩ := Nat.exists_eq_add_of_lt lt
  have steps : decodeSteps (take 2 s.forFrame) none = fuel + (k + 1) := by rw [steps]; omega
  refine ⟨v, Memory.writeList s.idx 0 out, e, fuel, ?_, ?_⟩
  · rw [decompresses.run _ none fuel ⟨rfl, rfl, rfl, rfl, rfl⟩ steps, runToIdle_of_idle _ (e.state_running v _)] at ran
    cases ran
    rfl
  · have more : decodeSteps (take opc s) (some fmt) = fuel + (frameSymbols s.regs + 1) + (k + 1) := by
      change decodeSteps (take 2 s.forFrame) none + (frameSymbols s.regs + 1) = _
      rw [steps]; omega
    rw [exec_decblit form ready frame, decompresses.run (take opc s) (some fmt) _ ⟨rfl, rfl, rfl, rfl, rfl⟩ more]
    rfl

/-- A decompression that faults ends DECBLIT (43_commands.md R230). -/
theorem exec_decblit_of_fault (form : (i, opc, fmt) ∈ decblitForms) (ready : s.ready) (frame : FrameOk s.cfg s.regs)
    (ran : exec .decompress s.forFrame = .next u) (fault : u.regs.status.fault = true) :
    exec i s = .next { u with regs := { u.regs with cmd := opc, idxLen := s.regs.idxLen } } := by
  obtain ⟨v, m, e, fuel, rfl, fused⟩ := exec_decblit_of_decompress form ready frame ran
    (exec_idle (s := s.forFrame) ready.1 ran (.inl fault))
  cases e with
  | ended long short eoi => exact absurd (ready.2.symm.trans fault) Bool.false_ne_true
  | faulted c info =>
    rw [fused, Closing.state, runToIdle_of_idle _ rfl, Closing.state, lzwdFault, raise,
      Regs.latch_of_clear _ _ _ (by exact ready.2), lzwdFault, raise, Regs.latch_of_clear _ _ _ (by exact ready.2)]
    rfl

/-- Where BLIT begins in DECBLIT, against where it begins after DECOMPRESS. -/
theorem state_ended_blit (s : State) (w : Lzwd) (m : Memory) (opc opc' : BitVec 4) (fmt : PixelFormat) (long short eoi : Bool) :
    Closing.state (.ended long short eoi) w (some fmt) ((take opc s).setMemory .idx m) =
      let u := Closing.state (.ended long short eoi) w none ((take 2 s.forFrame).setMemory .idx m)
      recast opc s.regs.idxLen u.regs.outCount u.regs.status (blitStart fmt (take opc' u)) := rfl

/-- A decompression that completes is followed by BLIT (43_commands.md R229). -/
theorem exec_decblit_of_blit {v : State} {blit : Instr} {opc' : BitVec 4} (form : (i, opc, fmt) ∈ decblitForms)
    (form' : (blit, opc', fmt) ∈ blitForms) (ready : s.ready) (frame : FrameOk s.cfg s.regs)
    (ran : exec .decompress s.forFrame = .next u) (clear : u.regs.status.fault = false) (drew : exec blit u = .next v) :
    exec i s = .next (recast opc s.regs.idxLen u.regs.outCount u.regs.status v) := by
  have idle : u.running = .idle := (command_next (exec_blitForm form' u ▸ drew)).1
  have frame' : FrameOk u.cfg u.regs := FrameOk.exec (s := s.forFrame) frame.of_eq ran
  rw [exec_blit form' ⟨idle, clear⟩ frame'] at drew
  have ended : v.running = .idle := by
    obtain ⟨symbols, pix, -, ⟨-, rfl⟩ | rfl⟩ := run_blitStart_next ((take_frameOk opc' u).mpr frame') drew <;> rfl
  obtain ⟨w, m, e, fuel, rfl, fused⟩ := exec_decblit_of_decompress form ready frame ran idle
  cases e with
  | faulted c info => exact absurd ((Regs.latch_status_fault ..).symm.trans clear) Bool.false_ne_true.symm
  | ended long short eoi =>
    rw [fused, state_ended_blit s w m opc opc' fmt long short eoi]
    exact runToIdle_recast (.inr ⟨_, rfl⟩) (runToIdle_of_le (Nat.le_add_left _ fuel) ended drew)

end Commands

/-- Settles O34: LZWD makes the same decompression in both, and BLIT meets the same state but for what it does not read. -/
theorem decblitIsDecompressThenBlit : Obligations.DecblitIsDecompressThenBlit := by
  intro s u fused blit opc forms ready frame ran
  obtain ⟨fmt, opc', form, form'⟩ : ∃ fmt opc', (fused, opc, fmt) ∈ decblitForms ∧ (blit, opc', fmt) ∈ blitForms := by
    obtain ⟨rfl, rfl, rfl⟩ | ⟨rfl, rfl, rfl⟩ := forms
    · exact ⟨.bgra, 3, by decide, by decide⟩
    · exact ⟨.rgba, 4, by decide, by decide⟩
  exact ⟨exec_decblit_of_fault form ready frame ran, fun v clear drew =>
    exec_decblit_of_blit form form' ready frame ran clear drew⟩

end Sys2Proof.Machine
end

section
/-! PROOF. DECBLIT of the empty stream (43_commands.md R229, 41_lzw_decompress.md R182, 42_blit.md R209 h): zeros, then the frame
drawn in colour 0. -/

namespace Sys2Proof.Machine

open Sys2Proof.Claims

/-- DECOMPRESS of the empty stream, for some symbols, completed with `idx` in IDX (41_lzw_decompress.md R182 b). -/
def emptied (s : State) (idx : Memory) : State :=
  { s with
    idx := idx
    regs := { s.regs with
      cmd := 2
      status := { done := true, fault := false, warnLong := false, warnShort := true, eoiSeen := false }
      outCount := 0
      pixCount := 0 } }

theorem FrameOk.frameSymbols_pos {cfg : Config} {r : Regs} (frame : FrameOk cfg r) : 0 < frameSymbols r :=
  Nat.mul_pos frame.frame_pos.1 frame.frame_pos.2

theorem FrameOk.palSize_pos {cfg : Config} {r : Regs} (frame : FrameOk cfg r) : 0 < r.palSize.toNat := by
  have sizes : ∀ n ∈ [2, 4, 8, 16, 32, 64, 128, 256], 0 < n := by decide
  exact sizes _ frame.palette_size

/-- BLIT goes on past symbol 0 (42_blit.md R199, R201). -/
theorem State.draws_zero {s : State} (palette : 0 < s.regs.palSize.toNat)
    (h : (s.regs.blitCtrl.transEn = true ∧ s.regs.blitCtrl.transIndex = 0) ∨ s.written .src s.regs.palPtr.toNat 3) :
    s.draws 0 := h.imp (fun ⟨enabled, zero⟩ => ⟨enabled, zero.symm⟩) fun written => ⟨palette, written⟩

theorem opaqueCount_replicate (c : BlitCtrl) (n : Nat) (v : Byte) :
    opaqueCount c (List.replicate n v) = if c.transEn = true ∧ c.transIndex = v then 0 else n := by
  simp only [opaqueCount, List.countP_replicate, eq_comm (a := c.transIndex), ← isTransparent_iff]
  change (if (!isTransparent c v) = true then n else 0) = _
  cases isTransparent c v <;> rfl

/-- Settles O35: DECOMPRESS of the empty stream leaves zeros, BLIT draws them, and DECBLIT does what the two do. -/
theorem decblitOfEmptyStreamCompletes : Obligations.DecblitOfEmptyStreamCompletes := by
  rintro s m ⟨i, opc, fmt⟩ form ready frame goodM first second colour
  obtain ⟨blit, opc', form'⟩ : ∃ blit opc', (blit, opc', fmt) ∈ blitForms := by
    cases fmt with
    | bgra => exact ⟨.blitBgra, 3, by decide⟩
    | rgba => exact ⟨.blitRgba, 4, by decide⟩
  have length := forFrame_idxLen s
  have short : decide (s.forFrame.regs.idxLen ≠ 0) = true :=
    decide_eq_true fun zero => Nat.ne_of_gt frame.frameSymbols_pos (length.symm.trans (congrArg BitVec.toNat zero))
  obtain ⟨u, ran, zeros, idx_outside, e⟩ :=
    decompressOfEmptyStreamFillsZeros s.forFrame m ready goodM (length ▸ frame.idx_fits) first second
  rw [short] at e
  obtain ⟨idx, rfl⟩ : ∃ idx, u = emptied s.forFrame idx := ⟨u.idx, e⟩
  rw [length] at zeros idx_outside
  obtain ⟨v, drew, pixels, pix_outside, e⟩ :=
    blitDrawsTheFrame (emptied s.forFrame idx) (List.replicate (frameSymbols s.regs) 0) (blit, opc', fmt) form'
      ⟨ready.1, rfl⟩ frame.of_eq List.length_replicate zeros
      fun v hv => List.eq_of_mem_replicate hv ▸ State.draws_zero (s := s) frame.palSize_pos colour
  obtain ⟨pix, rfl⟩ : ∃ pix, v = blitted (emptied s.forFrame idx) opc' pix
    (opaqueCount s.regs.blitCtrl (List.replicate (frameSymbols s.regs) 0)) := ⟨v.pix, e⟩
  refine ⟨_, exec_decblit_of_blit form form' ready frame ran rfl drew, zeros, idx_outside, fun k hk => ?_, pix_outside, ?_⟩
  · exact pixels k 0 (List.getElem?_replicate_of_lt hk)
  · rw [← opaqueCount_replicate]
    rfl

end Sys2Proof.Machine
end

section
/-! PROOF. DECOMPRESS and the blit commands are idempotent (43_commands.md R235 d): the second run makes the same decompression, and
what it writes is there already. -/

namespace Sys2Proof.Machine

open Sys2Proof.Claims

/-! ### Writing what a memory holds -/

theorem Memory.writeList_of_holds {m : Memory} (wf : Memory.wf m) {x : Nat} {bytes : List Byte}
    (holds : ∀ j (h : j < bytes.length), Memory.read m (x + j) = some bytes[j]) : Memory.writeList m x bytes = m := by
  induction bytes generalizing x with
  | nil => rfl
  | cons b bytes ih =>
    rw [Memory.writeList_cons, Memory.write_of_read wf (by exact holds 0 (Nat.succ_pos _))]
    refine ih fun j hj => ?_
    rw [Nat.add_assoc, Nat.add_comm 1]
    exact holds (j + 1) (Nat.succ_lt_succ hj)

theorem Memory.writeList_writeList {m : Memory} (wf : Memory.wf m) (x : Nat) (bytes : List Byte) :
    Memory.writeList (Memory.writeList m x bytes) x bytes = Memory.writeList m x bytes :=
  Memory.writeList_of_holds (Memory.wf_writeList x bytes wf) fun j hj => Memory.read_writeList_inside m x bytes j hj

/-! ### The decompression, twice -/

/-- The state with the flags and the count of a decompression that ended. -/
def lzwdCounted (w : Lzwd) (f : Status) (s : State) : State := (s.setStatus f).setOutCount (countWord w.op)

/-- A decompression that ended, IDX as it is: DECOMPRESS complete, or BLIT begun (43_commands.md R229). -/
def lzwdEnded (w : Lzwd) (f : Status) (b : Option PixelFormat) (s : State) : State :=
  match b with
  | none => complete (lzwdCounted w f s)
  | some fmt => blitStart fmt (lzwdCounted w f s)

theorem lzwdFilled_eq_ended (w : Lzwd) (f : Status) (b : Option PixelFormat) (s : State) :
    lzwdFilled w f b s =
      lzwdEnded w f b (s.setMemory .idx (Memory.writeList s.idx w.op (List.replicate (w.n - w.op) 0))) := by cases b <;> rfl

/-- A decompression that ends without fault can be made again from its own output, to the same end. -/
theorem exists_lzwdEnded {s u : State} {n : Nat} {b : Option PixelFormat} (wf : Memory.wf s.idx) (count : s.regs.outCount = 0)
    (started : s.regs.status.done = false) (ran : andThen (lzwdStart n b s) run = .next u) (idle : u.running = .idle)
    (done : u.regs.status.done = true) :
    ∃ fuel w f idx, f.done = s.regs.status.done ∧ f.fault = s.regs.status.fault ∧
      runToIdle fuel (lzwdEnded w f b (s.setMemory .idx idx)) = .next u ∧
      ∀ t, SameStream s t → decodeSteps t b = decodeSteps s b → t.idx = idx →
        andThen (lzwdStart n b t) run = runToIdle fuel (lzwdEnded w f b t) := by
  obtain ⟨k, out, w, e, lt, decompresses⟩ := exists_decompresses count idle ran
  obtain ⟨fuel, steps⟩ : ∃ fuel, decodeSteps s b = fuel + (k + 1) := ⟨_, (Nat.sub_add_cancel lt).symm⟩
  rw [decompresses.run s b fuel ⟨rfl, rfl, rfl, rfl, rfl⟩ steps] at ran
  cases e with
  | faulted c info =>
    rw [runToIdle_of_idle _ rfl] at ran
    cases ran
    rw [Closing.state, lzwdFault, raise_regs, Regs.latch_done] at done
    exact absurd (started.symm.trans done) Bool.false_ne_true
  | ended long short eoi =>
    have fill (m : Memory) : Memory.writeList (Memory.writeList m 0 out) w.op (List.replicate (w.n - w.op) 0) =
        Memory.writeList m 0 (out ++ List.replicate (w.n - w.op) 0) := by
      rw [Memory.writeList_append, Nat.zero_add, decompresses.op]
    have ended (t : State) : Closing.state (.ended long short eoi) w b (t.setMemory .idx (Memory.writeList t.idx 0 out)) =
        lzwdEnded w (t.regs.status.decompressed long short eoi) b
          (t.setMemory .idx (Memory.writeList t.idx 0 (out ++ List.replicate (w.n - w.op) 0))) := by
      rw [← fill]
      exact lzwdFilled_eq_ended ..
    rw [ended] at ran
    refine ⟨fuel, w, s.regs.status.decompressed long short eoi, _, rfl, rfl, ran, fun t stream bound same => ?_⟩
    rw [decompresses.run t b fuel stream (bound.trans steps), ended, same, Memory.writeList_writeList wf, ← same, stream.status]
    rfl

/-! ### The canvas, twice -/

section Canvas

variable {s : State} {fmt : PixelFormat} {symbols : List Byte} {pix mem : Memory}

theorem Blitted.wf (h : Blitted s fmt symbols pix) (wf : Memory.wf s.pix) : Memory.wf pix := by
  induction h with
  | start => exact wf
  | skip _ _ _ _ ih => exact ih
  | draw _ _ _ _ _ _ ih => exact Memory.wf_writeList _ _ ih

/-- On a canvas where every symbol has been drawn, BLIT changes nothing. -/
theorem Blitted.of_drawn (h : Blitted s fmt symbols pix) (wf : Memory.wf mem)
    (drawn : ∀ i v, symbols[i]? = some v → pixelDrawn s (s.setMemory .pix mem) fmt i v) :
    Blitted (s.setMemory .pix mem) fmt symbols mem := by
  have earlier {symbols : List Byte} {v : Byte}
      (drawn : ∀ i u, (symbols ++ [v])[i]? = some u → pixelDrawn s (s.setMemory .pix mem) fmt i u) (i : Nat) (u : Byte)
      (hu : symbols[i]? = some u) : pixelDrawn s (s.setMemory .pix mem) fmt i u :=
    drawn i u (getElem?_concat_eq_some_iff.mpr (.inl hu))
  induction h with
  | start => exact .start (s := s.setMemory .pix mem)
  | skip _ lt hv transparent ih => exact (ih (earlier drawn)).skip lt hv transparent
  | @draw symbols pix v r g b _ lt hv visible below colour ih =>
    obtain ⟨r', g', b', hr, hg, hb, holds⟩ :=
      (pixelDrawn_of_visible visible).mp (drawn symbols.length v (getElem?_concat_eq_some_iff.mpr (.inr ⟨rfl, rfl⟩)))
    obtain rfl : r' = r := Option.some.inj (hr.symm.trans (State.fetchByte_eq_value.mp colour.red).2)
    obtain rfl : g' = g := Option.some.inj (hg.symm.trans (State.fetchByte_eq_value.mp colour.green).2)
    obtain rfl : b' = b := Option.some.inj (hb.symm.trans (State.fetchByte_eq_value.mp colour.blue).2)
    have again := (ih (earlier drawn)).draw lt hv visible below ⟨colour.red, colour.green, colour.blue⟩
    rwa [Memory.writeList_of_holds wf (by exact holds)] at again

/-- BLIT on its own canvas. -/
theorem Blitted.again (h : Blitted s fmt symbols pix) (frame : FrameOk s.cfg s.regs) (wf : Memory.wf s.pix) :
    Blitted (s.setMemory .pix pix) fmt symbols pix :=
  h.of_drawn (h.wf wf) fun _ _ hv => h.pixel frame hv

end Canvas

/-! ### The commands -/

/-- A taken command that completed passed its checks and ran. -/
theorem command_done {opc : BitVec 4} {checks : State → List (Bool × FaultCode × Nat)} {start : State → Res} {s t : State}
    (ready : s.ready) (ran : command opc checks start s = .next t) (done : t.regs.status.done = true) :
    firstFailing (checks (take opc s)) = none ∧ andThen (start (take opc s)) run = .next t := by
  obtain ⟨-, ⟨fault, -⟩ | ⟨-, ⟨c, info, -, rfl⟩ | ⟨pass, u, started, ran⟩⟩⟩ := command_next ran
  · exact absurd (ready.2.symm.trans fault) Bool.false_ne_true
  · rw [raise_regs, Regs.latch_done] at done; cases done
  · exact ⟨pass, by rw [started, andThen_next, ran]⟩

section Commands

variable {s t : State} {i : Instr} {opc : BitVec 4} {fmt : PixelFormat}

/-- A command taken again, after one that left FAULT as it was and whose stream it has. -/
theorem sameStream_take {u : State} (opc : BitVec 4) (cfg : u.cfg = s.cfg) (src : u.src = s.src)
    (srcPtr : u.regs.srcPtr = s.regs.srcPtr) (fault : u.regs.status.fault = s.regs.status.fault) :
    SameStream (take opc s) (take opc u) :=
  ⟨cfg, src, srcPtr, by simp only [take, Status.taken, fault], rfl⟩

theorem take_blitted (ready : s.ready) (opc : BitVec 4) (pix : Memory) (count : Nat) :
    take opc (blitted s opc pix count) = (take opc s).setMemory .pix pix := by
  simp only [take, blitted, Status.taken, ready.2, State.setMemory]

theorem exec_blit_again (form : (i, opc, fmt) ∈ blitForms) (ready : s.ready) (memories : s.MemoriesOk)
    (ran : exec i s = .next t) (done : t.regs.status.done = true) : exec i t = .next t := by
  obtain ⟨frame, symbols, pix, h, all, rfl⟩ := blit_done form ready ran done
  have again := h.again ((take_frameOk opc s).mpr frame) (memories.wf .pix)
  rw [← take_blitted ready] at again
  exact again.exec_completes form ⟨ready.1, rfl⟩ frame.of_eq all

theorem exec_decompress_again (ready : s.ready) (memories : s.MemoriesOk) (ran : exec .decompress s = .next t)
    (done : t.regs.status.done = true) : exec .decompress t = .next t := by
  have idle := exec_idle ready.1 ran (.inr done)
  obtain ⟨pass, ran⟩ := command_done ready ran done
  have room := decompressChecks_pass.mp pass
  obtain ⟨fuel, w, f, idx, -, fault, first, second⟩ :=
    exists_lzwdEnded (s := take 2 s) (memories.wf .idx) rfl rfl ran idle done
  rw [runToIdle_of_idle _ rfl] at first
  cases first
  rw [exec_decompress_of_room ⟨idle, fault.trans ready.2⟩ room]
  refine (second _ (sameStream_take (u := lzwdEnded w f none ((take 2 s).setMemory .idx idx)) 2
    rfl rfl rfl fault) rfl rfl).trans ?_
  rw [runToIdle_of_idle _ rfl]
  rfl

/-- A run of BLIT that completed, made again on its own canvas. -/
theorem runToIdle_blitStart_again {fuel : Nat} (frame : FrameOk s.cfg s.regs) (wf : Memory.wf s.pix)
    (ran : runToIdle fuel (blitStart fmt s) = .next t) (idle : t.running = .idle) (started : s.regs.status.done = false)
    (done : t.regs.status.done = true) :
    ∃ symbols pix, t = blitDone s symbols pix ∧ runToIdle fuel (blitStart fmt (s.setMemory .pix pix)) = .next t := by
  obtain ⟨symbols, pix, h, ⟨all, rfl⟩ | rfl⟩ := Blitted.start.runToIdle_next frame (fuel + (frameSymbols s.regs + 1))
    (Nat.lt_of_lt_of_le (Nat.lt_succ_self _) (Nat.le_add_left ..)) (runToIdle_of_le (Nat.le_add_right ..) idle ran)
  · refine ⟨symbols, pix, rfl, ?_⟩
    have enough : symbols.length < fuel := by
      by_contra few
      have reached := runToIdle_of_le (g := 0 + symbols.length) (by omega) idle ran
      rw [h.runToIdle_eq frame, runToIdle, Host.Outcome.next.injEq] at reached
      rw [← reached] at idle
      cases idle
    obtain ⟨rest, rfl⟩ : ∃ rest, fuel = rest + 1 + symbols.length := ⟨fuel - symbols.length - 1, by omega⟩
    rw [(h.again frame wf).runToIdle_eq frame.of_eq, runToIdle_blitting, unitStep_blitting_end (by exact all), andThen_next,
      runToIdle_of_idle _ rfl]
    rfl
  · rw [blitStopped, raise_regs, Regs.latch_done] at done
    exact absurd (started.symm.trans done) Bool.false_ne_true

theorem exec_decblit_again (form : (i, opc, fmt) ∈ decblitForms) (ready : s.ready) (memories : s.MemoriesOk)
    (ran : exec i s = .next t) (done : t.regs.status.done = true) : exec i t = .next t := by
  have idle := exec_idle ready.1 ran (.inr done)
  obtain ⟨pass, ran⟩ := command_done ready (exec_decblitForm form s ▸ ran) done
  have frame := (take_frameOk opc s).mp (blitChecks_pass.mp pass)
  obtain ⟨fuel, w, f, idx, started, fault, first, second⟩ :=
    exists_lzwdEnded (s := take opc s) (memories.wf .idx) rfl rfl ran idle done
  obtain ⟨symbols, pix, rfl, again⟩ := runToIdle_blitStart_again (s := lzwdCounted w f ((take opc s).setMemory .idx idx))
    frame.of_eq (memories.wf .pix) first idle started done
  rw [exec_decblit form ⟨idle, fault.trans ready.2⟩ frame.of_eq]
  refine (second _ (sameStream_take (u := blitDone (lzwdCounted w f ((take opc s).setMemory .idx idx)) symbols pix) opc
    rfl rfl rfl fault) rfl rfl).trans again

end Commands

/-- Settles O36: each of the commands is one of the forms, and runs again to where it was. -/
theorem repeatedCommandChangesNothing : Obligations.RepeatedCommandChangesNothing := by
  intro s t i member ready memories ran done
  simp only [List.mem_cons, List.not_mem_nil, or_false] at member
  obtain rfl | rfl | rfl | rfl | rfl := member
  · exact exec_decompress_again ready memories ran done
  · exact exec_blit_again (opc := 3) (fmt := .bgra) (by decide) ready memories ran done
  · exact exec_blit_again (opc := 4) (fmt := .rgba) (by decide) ready memories ran done
  · exact exec_decblit_again (opc := 5) (fmt := .bgra) (by decide) ready memories ran done
  · exact exec_decblit_again (opc := 6) (fmt := .rgba) (by decide) ready memories ran done

end Sys2Proof.Machine
end

section
/-! PROOF. The host's answer to a COMPRESS that ran out of DST (44_host_container.md R254): a larger DST, RESET, and the command
again, which now has the room it needs. -/

namespace Sys2Proof.Machine

/-! ### What ran out -/

/-- A COMPRESS that faulted did not have the room, and DST below the cursor stands (40_lzw_compress.md R135). -/
theorem Compressible.ran_out {s t : State} {symbols : List Byte} (h : Compressible s symbols) (ran : exec .compress s = .next t)
    (fault : t.regs.status.fault = true) :
    s.cfg.size .dst < s.regs.dstPtr.toNat + (compressStream s symbols).length ∧
      ∃ d a count, t = outOfRoom s d a count ∧ ∀ x < s.regs.dstPtr.toNat, Memory.read d x = Memory.read s.dst x := by
  have short : s.cfg.size .dst < s.regs.dstPtr.toNat + (compressStream s symbols).length := by
    by_contra fits
    obtain ⟨d, done, -⟩ := h.completes (Nat.not_lt.mp fits)
    cases ran.symm.trans done
    cases fault
  refine ⟨short, ?_⟩
  rcases Nat.lt_or_ge s.regs.dstPtr.toNat (s.cfg.size .dst) with starts | out
  · obtain ⟨d, stopped, -, outside⟩ := h.runsOut starts short
    exact ⟨d, _, _, Host.Outcome.next.inj (ran.symm.trans stopped), fun x below => outside x (.inl below)⟩
  · exact ⟨s.dst, _, _, Host.Outcome.next.inj (ran.symm.trans (h.starts_outside out)), fun _ _ => rfl⟩

/-! ### The host's three actions -/

theorem core_run_action {s t : State} {a : HostAction} {rest : List HostAction} (n : Nat) (idle : s.running = .idle)
    (script : s.script = a :: rest) (act : hostAct a { s with script := rest } = .next t) :
    core.run (n + 1) s = core.run n t :=
  core_run_succ n ((step_of_action idle script).trans act)

/-- A command word written to CMD runs its command (43_commands.md R220). -/
theorem hostAct_command {word : Word} {i : Instr} (encodes : encode i = .command word) (s : State) :
    hostAct (.writeReg s.cfg.glzBase .word word) s = exec i s := by
  rw [hostAct, hostWriteReg_cmd, commandWrite, decodeCommand_of_encode encodes]

theorem hostAct_provideDst {s : State} {size : Fin 4294967296} (larger : s.cfg.size .dst < size.val) :
    hostAct (.provideDst size) s = .next (s.replaceDst size (Memory.below s.dst s.regs.dstPtr.toNat)) := if_pos larger

/-- The state after a larger DST and RESET, with `script` still to come (44_host_container.md R254, 43_commands.md R231). -/
def enlarged (s : State) (size : Fin 4294967296) (script : List HostAction) : State :=
  clearFault (({ s with script := script }).replaceDst size (Memory.below s.dst s.regs.dstPtr.toNat))

/-- The exchange comes to the repeated COMPRESS, in the state the first two actions leave (44_host_container.md R254). -/
theorem run_repeatCompress {s u : State} {size : Fin 4294967296} (idle : s.running = .idle)
    (larger : s.cfg.size .dst < size.val) (again : exec .compress (enlarged s size []) = .next u) :
    core.run 3 { s with
      script := [.provideDst size, .writeReg s.cfg.glzBase .word 7, .writeReg s.cfg.glzBase .word 1] } = .next u := by
  have reset : exec .reset (({ s with script := [.writeReg s.cfg.glzBase .word 1] }).replaceDst size
      (Memory.below s.dst s.regs.dstPtr.toNat)) = .next (enlarged s size [.writeReg s.cfg.glzBase .word 1]) :=
    whenIdle_of_idle _ idle
  refine (core_run_action 2 (by exact idle) rfl (hostAct_provideDst (by exact larger))).trans ?_
  refine (core_run_action 1 (by exact idle) rfl ((hostAct_command rfl _).trans reset)).trans ?_
  exact core_run_action 0 (by exact idle) rfl ((hostAct_command rfl _).trans again)

/-! ### COMPRESS again -/

/-- What COMPRESS needs but for the room is as it was: a larger DST and RESET leave the operands and IDX, and clear the fault. -/
theorem Compressible.again {s : State} {symbols : List Byte} (h : Compressible s symbols) (d : Memory) (a count : Nat)
    (size : Fin 4294967296) : Compressible (enlarged (outOfRoom s d a count) size []) symbols :=
  ⟨⟨h.ready.1, rfl⟩, h.m_range, h.some_symbol, h.len, h.len_fits, h.written⟩

/-- Settles O59: the state after RESET is one COMPRESS completes from, and its DST reads below the cursor as the first did. -/
theorem largerDstLetsCompressRepeat : Obligations.LargerDstLetsCompressRepeat := by
  intro s t size symbols m cursor stream ready range some len fits written ran _ fault room
  have h : Compressible s symbols := ⟨ready, range, some, len, fits, written⟩
  obtain ⟨short, d, a, count, rfl, kept⟩ := h.ran_out ran fault
  obtain ⟨d', again, holds, outside⟩ := (h.again d a count size).completes room
  refine ⟨_, run_repeatCompress (s := outOfRoom s d a count) ready.1 (Nat.lt_of_lt_of_le short room) again, holds,
    fun x below => ?_, rfl⟩
  calc Memory.read d' x = Memory.read (Memory.below d cursor) x := outside x (.inl below)
    _ = Memory.read d x := by rw [Memory.read_below, if_pos below]
    _ = Memory.read s.dst x := kept x below

end Sys2Proof.Machine
end

section
/-! PROOF. A CMD word that is no command, the gate of a latched fault, and an idle GLZ with nothing to do (60_exceptions.md R292,
R300, R313). -/

namespace Sys2Proof.Machine

/-! ### A word that is no command -/

/-- No command's word has a bit of [31:4] set, opcode 0, or an opcode in 8 .. 15 (30_encoding.md R91, R92). -/
theorem decodeCommand_ne_ok {word : Word} (illegal : word >>> 4 ≠ 0 ∨ word &&& 0xF = 0 ∨ 8 ≤ (word &&& 0xF).toNat) (i : Instr) :
    decodeCommand word ≠ .ok i := by
  intro decodes
  have encodes : encode i = .command word := decodeCommand_eq_ok_iff.mp decodes
  cases i with
  | compress | decompress | blitBgra | blitRgba | decblitBgra | decblitRgba | reset =>
    cases encodes
    exact absurd illegal (by decide)
  | lit | clear | eoi | ref | kwk | invalid => cases encodes

theorem commandWrite_of_no_command {word : Word} (h : ∀ i, decodeCommand word ≠ .ok i) (s : State) :
    commandWrite word s = illegalCommand word s := by
  unfold commandWrite
  split
  · exact absurd ‹_› (h _)
  · rfl

theorem illegalCommand_of_ready {s : State} (ready : s.ready) (word : Word) :
    illegalCommand word s = .next (raise .illegalCommand word.toNat s) := by
  simp [illegalCommand, whenIdle_of_idle _ ready.1, ready.2]

theorem illegalCommand_of_fault {s : State} (idle : s.running = .idle) (fault : s.regs.status.fault = true) (word : Word) :
    illegalCommand word s = .next s := by
  simp [illegalCommand, whenIdle_of_idle _ idle, fault]

/-- A fault raised where no unit runs and none is latched: the whole state (60_exceptions.md R290). -/
theorem raise_of_ready {s : State} (ready : s.ready) (c : FaultCode) (info : Nat) :
    raise c info s = { s with regs := { s.regs with
      status := { s.regs.status with fault := true }
      fault := c.code
      faultInfo := BitVec.ofNat 32 info } } := by
  rw [raise, Regs.latch_of_clear _ _ _ ready.2, ← ready.1]
  rfl

/-- Settles O6: the word decodes to no command, and the fault is raised with the word as its info. -/
theorem illegalCommandLatchesOnlyTheFault : Obligations.IllegalCommandLatchesOnlyTheFault := by
  intro s word ready illegal
  rw [commandWrite_of_no_command (decodeCommand_ne_ok illegal), illegalCommand_of_ready ready, raise_of_ready ready,
    BitVec.ofNat_toNat, BitVec.setWidth_eq]
  rfl

/-! ### The gate -/

/-- With a fault latched, a command that is not RESET does nothing (60_exceptions.md R292). -/
theorem exec_of_fault {i : Instr} {s : State} (isCommand : i.isCommand = true) (notReset : i ≠ .reset)
    (idle : s.running = .idle) (fault : s.regs.status.fault = true) : exec i s = .next s := by
  cases i with
  | compress | decompress | blitBgra | blitRgba | decblitBgra | decblitRgba => exact command_of_fault idle fault
  | reset => exact absurd rfl notReset
  | lit | clear | eoi | ref | kwk | invalid => cases isCommand

/-- The gate on CMD words: commands and words that are none alike (60_exceptions.md R292). -/
theorem commandWrite_of_fault {word : Word} {s : State} (notReset : word ≠ 7) (idle : s.running = .idle)
    (fault : s.regs.status.fault = true) : commandWrite word s = .next s := by
  unfold commandWrite
  split
  next i decodes =>
    refine exec_of_fault (isCommand_of_encode_command (decodeCommand_eq_ok_iff.mp decodes)) ?_ idle fault
    rintro rfl
    exact notReset (eq_seven_of_decodeCommand_reset decodes)
  next => exact illegalCommand_of_fault idle fault word

theorem hostByte_of_read {s : State} {sp : Space} {a : Nat} {b : Byte} (h : Memory.read (s.memory sp) a = some b) :
    hostByte s sp a = b := by
  simp only [hostByte, h]

/-- Settles O7: the gate stops CMD words only; the host's other accesses do not look at STATUS. -/
theorem gateIgnoresAllButReset : Obligations.GateIgnoresAllButReset := by
  intro s idle fault
  refine ⟨fun word notReset => commandWrite_of_fault notReset idle fault, fun r v notCmd => hostWriteReg_register v notCmd,
    fun sp a b lt => hostWriteMem_of_lt b lt, fun sp a b lt read => ?_⟩
  rw [hostReadMem_of_lt lt, hostByte_of_read read]

/-! ### Nothing to do -/

/-- Settles O30: no unit runs and no action is left. -/
theorem idleWithoutActionsStays : Obligations.IdleWithoutActionsStays := fun _ => step_of_idle

end Sys2Proof.Machine
end

section
/-! PROOF. Every CMD write returns (70_reset_and_hazards.md R329): each working step takes a symbol, or at least one bit of SRC
(41_lzw_decompress.md R180), so that the bound on the steps of a run is never what ends it. -/

namespace Sys2Proof.Machine

/-! ### The bits of SRC that LZWD has not used -/

/-- The bits LZWD holds, and those of SRC from its cursor on. -/
def Lzwd.bitsLeft (size : Nat) (w : Lzwd) : Nat := 8 * (size - w.p) + w.nb

section Fetch

variable {s : State} {w v : Lzwd}

/-- A data byte goes from SRC to the accumulator. -/
theorem refillData_bitsLeft (h : refillData s w = .ready v) :
    v.bitsLeft (s.cfg.size .src) = w.bitsLeft (s.cfg.size .src) := by
  unfold refillData at h
  split at h
  next b data =>
    cases h
    have inside := (State.fetchByte_eq_value.mp data).1
    simp only [Lzwd.bitsLeft, Lzwd.takeByte]
    omega
  next => cases h
  next => cases h

/-- A length byte is used up. -/
theorem Lzwd.takeLength_bitsLeft (size : Nat) (w : Lzwd) (l : Byte) : (w.takeLength l).bitsLeft size ≤ w.bitsLeft size := by
  unfold takeLength
  split <;> simp only [bitsLeft] <;> omega

theorem refillTurn_bitsLeft (h : refillTurn s w = .ready v) :
    v.bitsLeft (s.cfg.size .src) ≤ w.bitsLeft (s.cfg.size .src) := by
  unfold refillTurn at h
  split at h
  · split at h
    next l length =>
      have used := w.takeLength_bitsLeft (s.cfg.size .src) l
      split at h
      · cases h; exact used
      · exact (refillData_bitsLeft h).trans_le used
    next => cases h
    next => cases h
  · exact (refillData_bitsLeft h).le

theorem refill_bitsLeft {fuel : Nat} (h : refill s fuel w = .ready v) :
    v.bitsLeft (s.cfg.size .src) ≤ w.bitsLeft (s.cfg.size .src) := by
  induction fuel generalizing w with
  | zero => cases h; exact Nat.le_refl _
  | succ fuel ih =>
    unfold refill at h
    split at h
    · split at h
      next u turn => exact (ih h).trans (refillTurn_bitsLeft turn)
      next => cases h
      next => cases h
    · cases h; exact Nat.le_refl _

/-- A code takes the bits of its width (41_lzw_decompress.md R153). -/
theorem getCode_bitsLeft {c : BitVec 12} (h : getCode s w = .code v c) :
    v.bitsLeft (s.cfg.size .src) + v.width ≤ w.bitsLeft (s.cfg.size .src) := by
  unfold getCode at h
  split at h
  next u filled =>
    split at h
    · cases h
    next enough =>
      cases h
      have left := refill_bitsLeft filled
      simp only [Lzwd.bitsLeft, Lzwd.dropCode] at left ⊢
      omega
  next => cases h
  next => cases h

end Fetch

/-! ### A bound on the working steps left -/

/-- The working steps of BLIT after a decompression (43_commands.md R229). -/
def blitSteps (r : Regs) : Option PixelFormat → Nat
  | none => 0
  | some _ => frameSymbols r + 1

/-- Fewer than `n` working steps lead to another one: a step of LZWC or BLIT takes a symbol, and one of LZWD, whose width is not
0, at least one bit (41_lzw_decompress.md R180). -/
def State.endsWithin (n : Nat) (s : State) : Prop :=
  match s.running with
  | .idle => True
  | .lzwc w => s.regs.idxLen.toNat - w.i < n
  | .lzwd w b => 0 < w.width ∧ w.bitsLeft (s.cfg.size .src) + blitSteps s.regs b < n
  | .blit w => frameSymbols s.regs - w.i < n

section Steps

variable {n : Nat} {s t : State}

theorem State.endsWithin_of_idle (n : Nat) (h : s.running = .idle) : s.endsWithin n := by simp only [endsWithin, h]

theorem State.endsWithin_lzwc {w : Lzwc} (h : s.running = .lzwc w) : s.endsWithin n ↔ s.regs.idxLen.toNat - w.i < n := by
  simp only [endsWithin, h]

theorem State.endsWithin_lzwd {w : Lzwd} {b : Option PixelFormat} (h : s.running = .lzwd w b) :
    s.endsWithin n ↔ 0 < w.width ∧ w.bitsLeft (s.cfg.size .src) + blitSteps s.regs b < n := by
  simp only [endsWithin, h]

theorem State.endsWithin_blit {w : Blit} (h : s.running = .blit w) : s.endsWithin n ↔ frameSymbols s.regs - w.i < n := by
  simp only [endsWithin, h]

/-- No unit runs with no steps left. -/
theorem State.endsWithin_zero (h : s.endsWithin 0) : s.running = .idle := by
  cases hr : s.running with
  | idle => rfl
  | lzwc w => exact absurd ((endsWithin_lzwc hr).mp h) (Nat.not_lt_zero _)
  | lzwd w b => exact absurd ((endsWithin_lzwd hr).mp h).2 (Nat.not_lt_zero _)
  | blit w => exact absurd ((endsWithin_blit hr).mp h) (Nat.not_lt_zero _)

/-! ### A working step of LZWD -/

/-- The end of a decompression leaves the steps of BLIT, if it follows. -/
theorem lzwdFill_endsWithin {w : Lzwd} {b : Option PixelFormat} (left : blitSteps s.regs b ≤ n) (h : lzwdFill w b s = .next t) :
    t.endsWithin n := by
  rcases (lzwdFill_next h).2 with ⟨-, rfl⟩ | ⟨fmt, rfl, rfl⟩
  · exact State.endsWithin_of_idle n rfl
  · exact (State.endsWithin_blit (w := { i := 0, fmt := fmt, cnt := 0 }) rfl).mpr left

theorem Lzwd.width_le_learn (w : Lzwd) (code : Nat) (first : Byte) : w.width ≤ (w.learn code first).width := by
  rcases w.learn_spec code first with ⟨prev, -, -, e⟩ | ⟨-, e⟩ <;> rw [e]
  simp only
  split <;> omega

section Code

variable {w : Lzwd} {b : Option PixelFormat} (wide : 0 < w.width)
  (left : w.bitsLeft (s.cfg.size .src) + blitSteps s.regs b < n)

include wide left

/-- A data code ends the decompression, or goes on where the stream stands with no smaller a width. -/
theorem dataCode_endsWithin {code : Nat} {symbols : List Byte} (h : dataCode w b code symbols s = .next t) :
    t.endsWithin n := by
  rcases dataCode_next h with ⟨-, e⟩ | ⟨-, -, rfl⟩
  · exact lzwdFill_endsWithin (s := s.setStatus s.regs.status.endLong) (show blitSteps s.regs b ≤ n by omega) e
  · have cursor := w.learn_sameCursor (w.op + symbols.length) code (symbols.headD 0)
    have wider := Lzwd.width_le_learn { w with op := w.op + symbols.length } code (symbols.headD 0)
    rw [State.endsWithin_lzwd rfl, Lzwd.bitsLeft, cursor.p, cursor.nb]
    exact ⟨Nat.lt_of_lt_of_le wide wider, left⟩

/-- No code needs more of SRC than GetCode has taken. -/
theorem execCode_endsWithin {i : Instr} (hr : s.running = .lzwd w b) (h : execCode i s = .next t) : t.endsWithin n := by
  have acts {i : Instr} {k : Lzwd → Option PixelFormat → Res} (h : onCode i s k = .next t) : k w b = .next t := by
    obtain ⟨v, c, hv, -, h⟩ := onCode_next h
    rw [hr] at hv
    cases hv
    exact h
  cases i with
  | compress | decompress | blitBgra | blitRgba | decblitBgra | decblitRgba | reset => cases h
  | lit m symbol => exact dataCode_endsWithin wide left (acts h)
  | clear m =>
    cases acts h
    rw [State.endsWithin_lzwd rfl]
    exact ⟨Nat.succ_pos w.m, left⟩
  | eoi m =>
    exact lzwdFill_endsWithin (s := s.setStatus (s.regs.status.sawEoi.shortTest w.op w.n))
      (show blitSteps s.regs b ≤ n by omega) (acts h)
  | ref code =>
    have h := acts h
    split at h
    · exact dataCode_endsWithin wide left h
    · cases h
  | kwk code =>
    have h := acts h
    split at h
    · split at h
      · exact dataCode_endsWithin wide left h
      · cases h
    · cases h
  | invalid code =>
    cases acts h
    exact State.endsWithin_of_idle n rfl

end Code

/-- A code takes at least one bit; every other step of LZWD ends the decompression. -/
theorem lzwdStep_endsWithin {w : Lzwd} {b : Option PixelFormat} (wide : 0 < w.width)
    (left : w.bitsLeft (s.cfg.size .src) + blitSteps s.regs b < n + 1) (h : lzwdStep execCode w b s = .next t) :
    t.endsWithin n := by
  rcases lzwdStep_cases execCode w b s with ⟨v, c, fetch, e⟩ | ⟨v, -, e⟩ | ⟨v, a, -, e⟩ | ⟨a, -, e⟩ <;> rw [e] at h
  · have same := getCode_keeps s w
    have spent := getCode_bitsLeft fetch
    rw [fetch] at same
    have width : v.width = w.width := same.width
    exact execCode_endsWithin (s := s.setRunning (.lzwd v b)) (width ▸ wide)
      (show v.bitsLeft (s.cfg.size .src) + blitSteps s.regs b < n by omega) rfl h
  · exact lzwdFill_endsWithin (s := s.setStatus (s.regs.status.shortTest v.op v.n))
      (show blitSteps s.regs b ≤ n by omega) h
  · cases h; exact State.endsWithin_of_idle n rfl
  · cases h

/-! ### The run -/

/-- A working step leaves one fewer. -/
theorem unitStep_endsWithin (left : s.endsWithin (n + 1)) (running : s.running ≠ .idle) (h : unitStep s = .next t) :
    t.endsWithin n := by
  unfold unitStep at h
  cases hr : s.running with
  | idle => exact absurd hr running
  | lzwc w =>
    rw [hr] at h
    have left := (State.endsWithin_lzwc hr).mp left
    rcases lzwcStep_next h with ⟨more, b, -, ⟨v, dst, e, rfl⟩ | ⟨v, dst, a, -, rfl⟩⟩ | ⟨-, ⟨v, dst, -, rfl⟩ | ⟨v, dst, a, -, rfl⟩⟩
    · have taken := symbolStep_i e
      exact (State.endsWithin_lzwc rfl).mpr (show s.regs.idxLen.toNat - v.i < n by omega)
    all_goals exact State.endsWithin_of_idle n rfl
  | lzwd w b =>
    rw [hr] at h
    obtain ⟨wide, left⟩ := (State.endsWithin_lzwd hr).mp left
    exact lzwdStep_endsWithin wide left h
  | blit w =>
    rw [hr] at h
    have left := (State.endsWithin_blit hr).mp left
    have taken : w.i < frameSymbols s.regs → frameSymbols s.regs - (w.i + 1) < n := by omega
    rcases blitStep_next h with ⟨-, rfl⟩ | ⟨more, v, -, ⟨-, rfl⟩ | ⟨-, -, rfl⟩ | ⟨-, -, r, g, b, -, -, -, -, rfl⟩⟩
    · exact State.endsWithin_of_idle n rfl
    · exact (State.endsWithin_blit (w := { w with i := w.i + 1 }) rfl).mpr (taken more)
    · exact State.endsWithin_of_idle n rfl
    · exact (State.endsWithin_blit (w := { w with i := w.i + 1, cnt := w.cnt + 1 }) rfl).mpr (taken more)

/-- A run that is given the steps left ends idle. A measure alone (`runToIdle_ends`) would not do: a step of LZWD lowers it only
while the width is not 0. -/
theorem runToIdle_idle (left : s.endsWithin n) (ran : runToIdle n s = .next t) : t.running = .idle := by
  induction n generalizing s with
  | zero => cases ran; exact State.endsWithin_zero left
  | succ n ih =>
    by_cases idle : s.running = .idle
    · rw [runToIdle_of_idle _ idle] at ran
      cases ran
      exact idle
    · rw [runToIdle_of_running n idle] at ran
      obtain ⟨u, step, ran⟩ := andThen_eq_next ran
      exact ih (unitStep_endsWithin left idle step) ran

end Steps

/-! ### The command -/

/-- LZWD starts with the whole of SRC, but for the byte it has read. -/
theorem lzwdStart_endsWithin {n : Nat} {b : Option PixelFormat} {s u : State} (h : lzwdStart n b s = .next u) :
    u.endsWithin (stepsLeft u) := by
  rcases lzwdStart_next h with ⟨m, -, -, inside, rfl⟩ | ⟨c, info, rfl⟩
  · refine (State.endsWithin_lzwd rfl).mpr ⟨Nat.succ_pos _, ?_⟩
    rw [stepsLeft_lzwd]
    cases b <;> simp only [Lzwd.bitsLeft, Lzwd.start, blitSteps, decodeSteps, State.setRunning_cfg, State.setRunning_regs] <;>
      omega
  · exact State.endsWithin_of_idle _ rfl

/-- A started unit has at most the steps the run gives it. -/
theorem Started.endsWithin {s u : State} (h : Started s u) : u.endsWithin (stepsLeft u) := by
  cases h with
  | compress _ e =>
    rcases lzwcStart_next e with ⟨-, rfl⟩ | ⟨-, b, ⟨w, d, -, rfl⟩ | ⟨w, d, a, -, rfl⟩⟩
    · exact State.endsWithin_of_idle _ rfl
    · exact (State.endsWithin_lzwc rfl).mpr (Nat.lt_succ_self _)
    · exact State.endsWithin_of_idle _ rfl
  | decompress _ e | decblit _ _ e => exact lzwdStart_endsWithin e
  | blit fmt _ e => subst e; exact (State.endsWithin_blit rfl).mpr (Nat.lt_succ_self _)

theorem CommandChange.idle {i : Instr} {s t : State} (idle : s.running = .idle) (h : CommandChange i s t) :
    t.running = .idle := by
  cases h with
  | reset _ e | gated _ e => subst e; exact idle
  | refused _ _ _ _ _ e => subst e; rfl
  | ran _ u _ _ started ran => exact runToIdle_idle started.endsWithin ran

/-- No action of the host leaves a unit running. -/
theorem HostChange.idle {a : HostAction} {s t : State} (idle : s.running = .idle) (h : HostChange a s t) :
    t.running = .idle := by
  cases h with
  | command _ _ _ _ change => exact change.idle idle
  | illegal _ _ e => subst e; rfl
  | memory sp _ _ _ e => subst e; rw [State.setMemory_running, idle]
  | ignored e | operand _ _ e | read _ e | dst _ _ e => subst e; exact idle

/-- Settles O46: a run is given a step for each symbol and each bit there is to take, and one to finish. -/
theorem commandsReturnIdle : Obligations.CommandsReturnIdle := fun _ _ _ idle h => (commandWrite_change idle h).idle idle

end Sys2Proof.Machine
end

section
/-! PROOF. The first command after hardware reset with nothing set up (70_reset_and_hazards.md R322): the operands read 0, and no
byte of SRC has been written. -/

namespace Sys2Proof.Machine

theorem hardwareReset_ready (cfg : Config) : (State.hardwareReset cfg).ready := ⟨rfl, rfl⟩

/-- Settles O49: the first check of COMPRESS and of the blit commands fails on operands of 0, and DECOMPRESS is not refused. -/
theorem firstCommandAfterReset : Obligations.FirstCommandAfterReset := by
  intro cfg
  have ready := hardwareReset_ready cfg
  obtain ⟨minCode, -, -⟩ := compressChecksInOrder (State.hardwareReset cfg) ready
  refine ⟨minCode (.inl Nat.two_pos), fun c member => ?_, fun some_byte => ?_⟩
  · have checks := blitChecksInOrder (State.hardwareReset cfg) c ready member
    exact (if_pos (.inl rfl)).mp checks
  · obtain ⟨-, -, unwritten⟩ := decompressFirstByte (State.hardwareReset cfg) ready (Nat.zero_le _)
    exact unwritten some_byte rfl

end Sys2Proof.Machine
end
